-- ==== Sys2Proof/Word.lean ====
section
/-! DEFINITION. The word types of the machine (spec 00_scope R13, R14, R15). -/

namespace Sys2Proof

/-- One 8-bit byte of memory (20_memory R50). -/
abbrev Byte := BitVec 8

/-- The 64-bit slot that holds an XPRLEN-bit value: all of it for RV64, the low 32 bits with the upper 32 zero for
RV32 (log entry 1). -/
abbrev Word := BitVec 64

/-- A 32-bit instruction word `inst` (30_encoding R80). -/
abbrev Inst := BitVec 32

/-- A register specifier, five bits in every format (30_encoding R90). -/
abbrev Reg := BitVec 5

end Sys2Proof
end

