-- ==== Sys2Proof/Config.lean ====
section
/-! DEFINITION. What an implementation or the environment fixes (spec 00_scope R12), and the free values: opaque
constants with no body, so that a claim proved over the model holds for every draw (00_scope R18). -/

namespace Sys2Proof

/-- The variant of the base ISA: `XPRLEN` is 32 or 64 (00_scope R10). -/
inductive Xlen where
  | rv32
  | rv64
  deriving DecidableEq, Repr

/-- `XPRLEN` in bits (00_scope R10). -/
def Xlen.width : Xlen → Nat
  | .rv32 => 32
  | .rv64 => 64

/-- Byte order of the memory system, `ENDIAN` (00_scope R11, 20_memory R52). -/
inductive Endian where
  | little
  | big
  deriving DecidableEq, Repr

/-- Whether underflow tininess is detected before or after rounding, `TININESS` (00_scope R12, 45_fp_compute R303). -/
inductive Tininess where
  | beforeRounding
  | afterRounding
  deriving DecidableEq, Repr

/-- The `kind` argument of `Accessible` (20_memory R66). -/
inductive AccessKind where
  | fetch
  | load
  | store
  | amo
  deriving DecidableEq, Repr

/-- Accesses of `size` bytes and of one kind that start at an address `lo ≤ address < hi` are not possible. A list of such
entries is a predicate on address, size and kind (20_memory R66, log entry 3). -/
structure Hole where
  size : Nat
  kind : AccessKind
  lo   : Nat
  hi   : Nat
  deriving DecidableEq, Repr

/-- FREE VALUE (log entry 9): the upper 32 bits of an f register after a single-precision write, drawn afresh at
each write (10_state R32). The argument is the number of draws made so far. -/
opaque Config.freeUpperHalf : Nat → BitVec 32

/-- FREE VALUE (log entry 10): which operand FMIN and FMAX return when they are +0 and −0 (45_fp_compute R315);
`true` is the first. -/
opaque Config.zeroPick : Nat → Bool

/-- FREE VALUE (log entry 11): `FCVT_INVALID(inst, operand)`, the integer written by an invalid float-to-integer
conversion (46_fp_convert_move R384), one function fixed for a run. -/
opaque Config.fcvtInvalid : Xlen → Inst → BitVec 64 → Word

/-- FREE VALUE (log entry 12): by how much the cycle count has advanced at a RDCYCLE since the one before it
(49_system R455). -/
opaque Config.cycleAdvance : Nat → Nat

/-- FREE VALUE (log entry 13): by how many ticks the real-time count has advanced at a RDTIME since the one before it
(49_system R457). -/
opaque Config.timeAdvance : Nat → Nat

/-- `TIME_PERIOD` in picoseconds per tick, a constant of the platform that no rule depends on and nothing reads (00_scope R12,
49_system R457, log entry 13). -/
opaque Config.timePeriod : Nat

/-- FREE VALUE (log entry 15): which of the candidate bytes a fetch sees at an address stored to since the last
FENCE.I (20_memory R72), per draw and per byte address. -/
opaque Config.staleChoice : Nat → Nat → Nat

end Sys2Proof
end

