-- ==== Sys2Proof/Syntax.lean ====
section
/-! DEFINITION. The instructions: one constructor per row of spec/opcode_table.json, in the table's order. Register, immediate,
shift-amount and rounding-mode fields carry the bits of the encoding (30_encoding R90 to R104). -/

namespace Sys2Proof

/-- The 150 instructions of the base ISA (00_scope R3). The operand `imm` of a B-type row is the 12-bit
`{inst[31:27], inst[16:10]}`; `ignored` of the fences is `inst[31:10]` (48_fence R443). -/
inductive Instr where
  -- Control transfer (44_control)
  | j (off : BitVec 25)  -- J, R271
  | jal (off : BitVec 25)  -- JAL, R272
  | beq (rs1 rs2 : Reg) (imm : BitVec 12)  -- BEQ, R280
  | bne (rs1 rs2 : Reg) (imm : BitVec 12)  -- BNE, R281
  | blt (rs1 rs2 : Reg) (imm : BitVec 12)  -- BLT, R282
  | bge (rs1 rs2 : Reg) (imm : BitVec 12)  -- BGE, R283
  | bltu (rs1 rs2 : Reg) (imm : BitVec 12)  -- BLTU, R284
  | bgeu (rs1 rs2 : Reg) (imm : BitVec 12)  -- BGEU, R285
  | jalrC (rd rs1 : Reg) (imm : BitVec 12)  -- JALR.C, R274
  | jalrR (rd rs1 : Reg) (imm : BitVec 12)  -- JALR.R, R275
  | jalrJ (rd rs1 : Reg) (imm : BitVec 12)  -- JALR.J, R276
  | rdnpc (rd : Reg)  -- RDNPC, R277
  -- Loads and stores (40_load_store)
  | lb (rd rs1 : Reg) (imm : BitVec 12)  -- LB, R132
  | lh (rd rs1 : Reg) (imm : BitVec 12)  -- LH, R133
  | lw (rd rs1 : Reg) (imm : BitVec 12)  -- LW, R134
  | ld (rd rs1 : Reg) (imm : BitVec 12)  -- LD, R135
  | lbu (rd rs1 : Reg) (imm : BitVec 12)  -- LBU, R136
  | lhu (rd rs1 : Reg) (imm : BitVec 12)  -- LHU, R137
  | lwu (rd rs1 : Reg) (imm : BitVec 12)  -- LWU, R138
  | sb (rs1 rs2 : Reg) (imm : BitVec 12)  -- SB, R140
  | sh (rs1 rs2 : Reg) (imm : BitVec 12)  -- SH, R141
  | sw (rs1 rs2 : Reg) (imm : BitVec 12)  -- SW, R142
  | sd (rs1 rs2 : Reg) (imm : BitVec 12)  -- SD, R143
  -- Atomic memory operations (41_amo)
  | amoaddW (rd rs1 rs2 : Reg)  -- AMOADD.W, R165
  | amoswapW (rd rs1 rs2 : Reg)  -- AMOSWAP.W, R166
  | amoandW (rd rs1 rs2 : Reg)  -- AMOAND.W, R167
  | amoorW (rd rs1 rs2 : Reg)  -- AMOOR.W, R168
  | amominW (rd rs1 rs2 : Reg)  -- AMOMIN.W, R169
  | amomaxW (rd rs1 rs2 : Reg)  -- AMOMAX.W, R170
  | amominuW (rd rs1 rs2 : Reg)  -- AMOMINU.W, R171
  | amomaxuW (rd rs1 rs2 : Reg)  -- AMOMAXU.W, R172
  | amoaddD (rd rs1 rs2 : Reg)  -- AMOADD.D, R173
  | amoswapD (rd rs1 rs2 : Reg)  -- AMOSWAP.D, R174
  | amoandD (rd rs1 rs2 : Reg)  -- AMOAND.D, R175
  | amoorD (rd rs1 rs2 : Reg)  -- AMOOR.D, R176
  | amominD (rd rs1 rs2 : Reg)  -- AMOMIN.D, R177
  | amomaxD (rd rs1 rs2 : Reg)  -- AMOMAX.D, R178
  | amominuD (rd rs1 rs2 : Reg)  -- AMOMINU.D, R179
  | amomaxuD (rd rs1 rs2 : Reg)  -- AMOMAXU.D, R180
  -- Integer register-immediate (42_int_imm)
  | addi (rd rs1 : Reg) (imm : BitVec 12)  -- ADDI, R191
  | slli (rd rs1 : Reg) (shamt : BitVec 6)  -- SLLI, R197
  | slti (rd rs1 : Reg) (imm : BitVec 12)  -- SLTI, R192
  | sltiu (rd rs1 : Reg) (imm : BitVec 12)  -- SLTIU, R193
  | xori (rd rs1 : Reg) (imm : BitVec 12)  -- XORI, R196
  | srli (rd rs1 : Reg) (shamt : BitVec 6)  -- SRLI, R198
  | srai (rd rs1 : Reg) (shamt : BitVec 6)  -- SRAI, R199
  | ori (rd rs1 : Reg) (imm : BitVec 12)  -- ORI, R195
  | andi (rd rs1 : Reg) (imm : BitVec 12)  -- ANDI, R194
  -- Integer register-register (43_int_reg)
  | add (rd rs1 rs2 : Reg)  -- ADD, R221
  | sub (rd rs1 rs2 : Reg)  -- SUB, R222
  | sll (rd rs1 rs2 : Reg)  -- SLL, R223
  | slt (rd rs1 rs2 : Reg)  -- SLT, R224
  | sltu (rd rs1 rs2 : Reg)  -- SLTU, R225
  | xor (rd rs1 rs2 : Reg)  -- XOR, R226
  | srl (rd rs1 rs2 : Reg)  -- SRL, R227
  | sra (rd rs1 rs2 : Reg)  -- SRA, R228
  | or (rd rs1 rs2 : Reg)  -- OR, R229
  | and (rd rs1 rs2 : Reg)  -- AND, R230
  | mul (rd rs1 rs2 : Reg)  -- MUL, R236
  | mulh (rd rs1 rs2 : Reg)  -- MULH, R237
  | mulhsu (rd rs1 rs2 : Reg)  -- MULHSU, R238
  | mulhu (rd rs1 rs2 : Reg)  -- MULHU, R239
  | div (rd rs1 rs2 : Reg)  -- DIV, R240
  | divu (rd rs1 rs2 : Reg)  -- DIVU, R241
  | rem (rd rs1 rs2 : Reg)  -- REM, R242
  | remu (rd rs1 rs2 : Reg)  -- REMU, R243
  -- Integer register-immediate (42_int_imm)
  | lui (rd : Reg) (imm : BitVec 20)  -- LUI, R205
  | addiw (rd rs1 : Reg) (imm : BitVec 12)  -- ADDIW, R201
  | slliw (rd rs1 : Reg) (shamt : BitVec 5)  -- SLLIW, R202
  | srliw (rd rs1 : Reg) (shamt : BitVec 5)  -- SRLIW, R203
  | sraiw (rd rs1 : Reg) (shamt : BitVec 5)  -- SRAIW, R204
  -- Integer register-register (43_int_reg)
  | addw (rd rs1 rs2 : Reg)  -- ADDW, R231
  | subw (rd rs1 rs2 : Reg)  -- SUBW, R232
  | sllw (rd rs1 rs2 : Reg)  -- SLLW, R233
  | srlw (rd rs1 rs2 : Reg)  -- SRLW, R234
  | sraw (rd rs1 rs2 : Reg)  -- SRAW, R235
  | mulw (rd rs1 rs2 : Reg)  -- MULW, R250
  | divw (rd rs1 rs2 : Reg)  -- DIVW, R251
  | divuw (rd rs1 rs2 : Reg)  -- DIVUW, R252
  | remw (rd rs1 rs2 : Reg)  -- REMW, R253
  | remuw (rd rs1 rs2 : Reg)  -- REMUW, R254
  -- Loads and stores (40_load_store)
  | flw (rd rs1 : Reg) (imm : BitVec 12)  -- FLW, R145
  | fld (rd rs1 : Reg) (imm : BitVec 12)  -- FLD, R146
  | fsw (rs1 rs2 : Reg) (imm : BitVec 12)  -- FSW, R147
  | fsd (rs1 rs2 : Reg) (imm : BitVec 12)  -- FSD, R148
  -- Floating-point computation (45_fp_compute)
  | faddS (rd rs1 rs2 : Reg) (rm : BitVec 3)  -- FADD.S, R310
  | fsubS (rd rs1 rs2 : Reg) (rm : BitVec 3)  -- FSUB.S, R311
  | fmulS (rd rs1 rs2 : Reg) (rm : BitVec 3)  -- FMUL.S, R312
  | fdivS (rd rs1 rs2 : Reg) (rm : BitVec 3)  -- FDIV.S, R313
  | fsqrtS (rd rs1 : Reg) (rm : BitVec 3)  -- FSQRT.S, R314
  | fminS (rd rs1 rs2 : Reg)  -- FMIN.S, R315
  | fmaxS (rd rs1 rs2 : Reg)  -- FMAX.S, R316
  | faddD (rd rs1 rs2 : Reg) (rm : BitVec 3)  -- FADD.D, R317
  | fsubD (rd rs1 rs2 : Reg) (rm : BitVec 3)  -- FSUB.D, R318
  | fmulD (rd rs1 rs2 : Reg) (rm : BitVec 3)  -- FMUL.D, R319
  | fdivD (rd rs1 rs2 : Reg) (rm : BitVec 3)  -- FDIV.D, R320
  | fsqrtD (rd rs1 : Reg) (rm : BitVec 3)  -- FSQRT.D, R321
  | fminD (rd rs1 rs2 : Reg)  -- FMIN.D, R322
  | fmaxD (rd rs1 rs2 : Reg)  -- FMAX.D, R323
  | fmaddS (rd rs1 rs2 rs3 : Reg) (rm : BitVec 3)  -- FMADD.S, R330
  | fmsubS (rd rs1 rs2 rs3 : Reg) (rm : BitVec 3)  -- FMSUB.S, R331
  | fnmsubS (rd rs1 rs2 rs3 : Reg) (rm : BitVec 3)  -- FNMSUB.S, R332
  | fnmaddS (rd rs1 rs2 rs3 : Reg) (rm : BitVec 3)  -- FNMADD.S, R333
  | fmaddD (rd rs1 rs2 rs3 : Reg) (rm : BitVec 3)  -- FMADD.D, R334
  | fmsubD (rd rs1 rs2 rs3 : Reg) (rm : BitVec 3)  -- FMSUB.D, R335
  | fnmsubD (rd rs1 rs2 rs3 : Reg) (rm : BitVec 3)  -- FNMSUB.D, R336
  | fnmaddD (rd rs1 rs2 rs3 : Reg) (rm : BitVec 3)  -- FNMADD.D, R337
  -- Floating-point conversion, sign injection, moves, fsr (46_fp_convert_move)
  | fsgnjS (rd rs1 rs2 : Reg)  -- FSGNJ.S, R362
  | fsgnjnS (rd rs1 rs2 : Reg)  -- FSGNJN.S, R363
  | fsgnjxS (rd rs1 rs2 : Reg)  -- FSGNJX.S, R364
  | fsgnjD (rd rs1 rs2 : Reg)  -- FSGNJ.D, R365
  | fsgnjnD (rd rs1 rs2 : Reg)  -- FSGNJN.D, R366
  | fsgnjxD (rd rs1 rs2 : Reg)  -- FSGNJX.D, R367
  | fcvtSD (rd rs1 : Reg) (rm : BitVec 3)  -- FCVT.S.D, R370
  | fcvtDS (rd rs1 : Reg) (rm : BitVec 3)  -- FCVT.D.S, R371
  | fcvtSL (rd rs1 : Reg) (rm : BitVec 3)  -- FCVT.S.L, R375
  | fcvtSLU (rd rs1 : Reg) (rm : BitVec 3)  -- FCVT.S.LU, R376
  | fcvtSW (rd rs1 : Reg) (rm : BitVec 3)  -- FCVT.S.W, R377
  | fcvtSWU (rd rs1 : Reg) (rm : BitVec 3)  -- FCVT.S.WU, R378
  | fcvtDL (rd rs1 : Reg) (rm : BitVec 3)  -- FCVT.D.L, R379
  | fcvtDLU (rd rs1 : Reg) (rm : BitVec 3)  -- FCVT.D.LU, R380
  | fcvtDW (rd rs1 : Reg) (rm : BitVec 3)  -- FCVT.D.W, R381
  | fcvtDWU (rd rs1 : Reg) (rm : BitVec 3)  -- FCVT.D.WU, R382
  | mxtfS (rd rs1 : Reg)  -- MXTF.S, R396
  | mxtfD (rd rs1 : Reg)  -- MXTF.D, R397
  | mtfsr (rd rs1 : Reg)  -- MTFSR, R401
  | fcvtLS (rd rs1 : Reg) (rm : BitVec 3)  -- FCVT.L.S, R385
  | fcvtLUS (rd rs1 : Reg) (rm : BitVec 3)  -- FCVT.LU.S, R386
  | fcvtWS (rd rs1 : Reg) (rm : BitVec 3)  -- FCVT.W.S, R387
  | fcvtWUS (rd rs1 : Reg) (rm : BitVec 3)  -- FCVT.WU.S, R388
  | fcvtLD (rd rs1 : Reg) (rm : BitVec 3)  -- FCVT.L.D, R389
  | fcvtLUD (rd rs1 : Reg) (rm : BitVec 3)  -- FCVT.LU.D, R390
  | fcvtWD (rd rs1 : Reg) (rm : BitVec 3)  -- FCVT.W.D, R391
  | fcvtWUD (rd rs1 : Reg) (rm : BitVec 3)  -- FCVT.WU.D, R392
  | mftxS (rd rs2 : Reg)  -- MFTX.S, R394
  | mftxD (rd rs2 : Reg)  -- MFTX.D, R395
  | mffsr (rd : Reg)  -- MFFSR, R400
  -- Floating-point compare (47_fp_compare)
  | feqS (rd rs1 rs2 : Reg)  -- FEQ.S, R422
  | fltS (rd rs1 rs2 : Reg)  -- FLT.S, R423
  | fleS (rd rs1 rs2 : Reg)  -- FLE.S, R424
  | feqD (rd rs1 rs2 : Reg)  -- FEQ.D, R425
  | fltD (rd rs1 rs2 : Reg)  -- FLT.D, R426
  | fleD (rd rs1 rs2 : Reg)  -- FLE.D, R427
  -- Fences (48_fence)
  | fenceI (ignored : BitVec 22)  -- FENCE.I, R441
  | fence (ignored : BitVec 22)  -- FENCE, R440
  -- System (49_system)
  | syscall  -- SYSCALL, R451
  | brk  -- BREAK, R452
  | rdcycle (rd : Reg)  -- RDCYCLE, R454
  | rdtime (rd : Reg)  -- RDTIME, R456
  | rdinstret (rd : Reg)  -- RDINSTRET, R458
  deriving DecidableEq, Repr

end Sys2Proof
end

