-- ==== Sys2Proof/Decode.lean ====
section
/-! DEFINITION. The decoder (30_encoding R85 to R124), total on every 32-bit word and on any four bytes, rejecting by name;
then the encoder, written from the same encoding tables. The opcode table is spec/opcode_table.json, row for row. -/

namespace Sys2Proof

/-! ## Fields (30_encoding R90 to R104) -/

/-- `rd = inst[31:27]` (30_encoding R90). -/
def rdOf (w : Inst) : Reg := w.extractLsb' 27 5
/-- `rs1 = inst[26:22]` (30_encoding R90). -/
def rs1Of (w : Inst) : Reg := w.extractLsb' 22 5
/-- `rs2 = inst[21:17]` (30_encoding R90). -/
def rs2Of (w : Inst) : Reg := w.extractLsb' 17 5
/-- `rs3 = inst[16:12]`, R4-type (30_encoding R92). -/
def rs3Of (w : Inst) : Reg := w.extractLsb' 12 5
/-- `rm = inst[11:9]` (30_encoding R97). -/
def rmOf (w : Inst) : BitVec 3 := w.extractLsb' 9 3
/-- I-type `imm12 = inst[21:10]` (30_encoding R100). -/
def immIOf (w : Inst) : BitVec 12 := w.extractLsb' 10 12
/-- B-type `imm12 = inst[31:27] ++ inst[16:10]` (30_encoding R101). -/
def immBOf (w : Inst) : BitVec 12 := w.extractLsb' 27 5 ++ w.extractLsb' 10 7
/-- L-type `imm20 = inst[26:7]` (30_encoding R102). -/
def immLOf (w : Inst) : BitVec 20 := w.extractLsb' 7 20
/-- J-type `off25 = inst[31:7]` (30_encoding R103). -/
def offJOf (w : Inst) : BitVec 25 := w.extractLsb' 7 25
/-- `shamt = inst[15:10]` of SLLI, SRLI, SRAI (30_encoding R104). -/
def shamtOf (w : Inst) : BitVec 6 := w.extractLsb' 10 6
/-- `shamtw = inst[14:10]` of SLLIW, SRLIW, SRAIW (30_encoding R104). -/
def shamtwOf (w : Inst) : BitVec 5 := w.extractLsb' 10 5
/-- `inst[31:10]`, ignored by FENCE and FENCE.I (48_fence R443). -/
def ignoredOf (w : Inst) : BitVec 22 := w.extractLsb' 10 22

/-! ## The opcode table -/

/-- One row of spec/opcode_table.json: a word `w` is the row's instruction when `w &&& mask = patt` (head of
30_encoding). -/
structure Row where
  mnemonic : String
  mask     : Inst
  patt     : Inst
  build    : Inst → Instr

/-- The word is an instruction of the row. -/
def Row.hits (r : Row) (w : Inst) : Bool := w &&& r.mask == r.patt

/-- Control transfer (44_control). -/
def rowsControl : List Row := [
  ⟨"J", 0x0000007F#32, 0x00000067#32, fun w => .j (offJOf w)⟩,
  ⟨"JAL", 0x0000007F#32, 0x0000006F#32, fun w => .jal (offJOf w)⟩,
  ⟨"BEQ", 0x000003FF#32, 0x00000063#32, fun w => .beq (rs1Of w) (rs2Of w) (immBOf w)⟩,
  ⟨"BNE", 0x000003FF#32, 0x000000E3#32, fun w => .bne (rs1Of w) (rs2Of w) (immBOf w)⟩,
  ⟨"BLT", 0x000003FF#32, 0x00000263#32, fun w => .blt (rs1Of w) (rs2Of w) (immBOf w)⟩,
  ⟨"BGE", 0x000003FF#32, 0x000002E3#32, fun w => .bge (rs1Of w) (rs2Of w) (immBOf w)⟩,
  ⟨"BLTU", 0x000003FF#32, 0x00000363#32, fun w => .bltu (rs1Of w) (rs2Of w) (immBOf w)⟩,
  ⟨"BGEU", 0x000003FF#32, 0x000003E3#32, fun w => .bgeu (rs1Of w) (rs2Of w) (immBOf w)⟩,
  ⟨"JALR.C", 0x000003FF#32, 0x0000006B#32, fun w => .jalrC (rdOf w) (rs1Of w) (immIOf w)⟩,
  ⟨"JALR.R", 0x000003FF#32, 0x000000EB#32, fun w => .jalrR (rdOf w) (rs1Of w) (immIOf w)⟩,
  ⟨"JALR.J", 0x000003FF#32, 0x0000016B#32, fun w => .jalrJ (rdOf w) (rs1Of w) (immIOf w)⟩,
  ⟨"RDNPC", 0x07FFFFFF#32, 0x0000026B#32, fun w => .rdnpc (rdOf w)⟩]

/-- Loads and stores (40_load_store). -/
def rowsLoadStore : List Row := [
  ⟨"LB", 0x000003FF#32, 0x00000003#32, fun w => .lb (rdOf w) (rs1Of w) (immIOf w)⟩,
  ⟨"LH", 0x000003FF#32, 0x00000083#32, fun w => .lh (rdOf w) (rs1Of w) (immIOf w)⟩,
  ⟨"LW", 0x000003FF#32, 0x00000103#32, fun w => .lw (rdOf w) (rs1Of w) (immIOf w)⟩,
  ⟨"LD", 0x000003FF#32, 0x00000183#32, fun w => .ld (rdOf w) (rs1Of w) (immIOf w)⟩,
  ⟨"LBU", 0x000003FF#32, 0x00000203#32, fun w => .lbu (rdOf w) (rs1Of w) (immIOf w)⟩,
  ⟨"LHU", 0x000003FF#32, 0x00000283#32, fun w => .lhu (rdOf w) (rs1Of w) (immIOf w)⟩,
  ⟨"LWU", 0x000003FF#32, 0x00000303#32, fun w => .lwu (rdOf w) (rs1Of w) (immIOf w)⟩,
  ⟨"SB", 0x000003FF#32, 0x00000023#32, fun w => .sb (rs1Of w) (rs2Of w) (immBOf w)⟩,
  ⟨"SH", 0x000003FF#32, 0x000000A3#32, fun w => .sh (rs1Of w) (rs2Of w) (immBOf w)⟩,
  ⟨"SW", 0x000003FF#32, 0x00000123#32, fun w => .sw (rs1Of w) (rs2Of w) (immBOf w)⟩,
  ⟨"SD", 0x000003FF#32, 0x000001A3#32, fun w => .sd (rs1Of w) (rs2Of w) (immBOf w)⟩,
  ⟨"FLW", 0x000003FF#32, 0x00000107#32, fun w => .flw (rdOf w) (rs1Of w) (immIOf w)⟩,
  ⟨"FLD", 0x000003FF#32, 0x00000187#32, fun w => .fld (rdOf w) (rs1Of w) (immIOf w)⟩,
  ⟨"FSW", 0x000003FF#32, 0x00000127#32, fun w => .fsw (rs1Of w) (rs2Of w) (immBOf w)⟩,
  ⟨"FSD", 0x000003FF#32, 0x000001A7#32, fun w => .fsd (rs1Of w) (rs2Of w) (immBOf w)⟩]

/-- Atomic memory operations (41_amo). -/
def rowsAmo : List Row := [
  ⟨"AMOADD.W", 0x0001FFFF#32, 0x0000012B#32, fun w => .amoaddW (rdOf w) (rs1Of w) (rs2Of w)⟩,
  ⟨"AMOSWAP.W", 0x0001FFFF#32, 0x0000052B#32, fun w => .amoswapW (rdOf w) (rs1Of w) (rs2Of w)⟩,
  ⟨"AMOAND.W", 0x0001FFFF#32, 0x0000092B#32, fun w => .amoandW (rdOf w) (rs1Of w) (rs2Of w)⟩,
  ⟨"AMOOR.W", 0x0001FFFF#32, 0x00000D2B#32, fun w => .amoorW (rdOf w) (rs1Of w) (rs2Of w)⟩,
  ⟨"AMOMIN.W", 0x0001FFFF#32, 0x0000112B#32, fun w => .amominW (rdOf w) (rs1Of w) (rs2Of w)⟩,
  ⟨"AMOMAX.W", 0x0001FFFF#32, 0x0000152B#32, fun w => .amomaxW (rdOf w) (rs1Of w) (rs2Of w)⟩,
  ⟨"AMOMINU.W", 0x0001FFFF#32, 0x0000192B#32, fun w => .amominuW (rdOf w) (rs1Of w) (rs2Of w)⟩,
  ⟨"AMOMAXU.W", 0x0001FFFF#32, 0x00001D2B#32, fun w => .amomaxuW (rdOf w) (rs1Of w) (rs2Of w)⟩,
  ⟨"AMOADD.D", 0x0001FFFF#32, 0x000001AB#32, fun w => .amoaddD (rdOf w) (rs1Of w) (rs2Of w)⟩,
  ⟨"AMOSWAP.D", 0x0001FFFF#32, 0x000005AB#32, fun w => .amoswapD (rdOf w) (rs1Of w) (rs2Of w)⟩,
  ⟨"AMOAND.D", 0x0001FFFF#32, 0x000009AB#32, fun w => .amoandD (rdOf w) (rs1Of w) (rs2Of w)⟩,
  ⟨"AMOOR.D", 0x0001FFFF#32, 0x00000DAB#32, fun w => .amoorD (rdOf w) (rs1Of w) (rs2Of w)⟩,
  ⟨"AMOMIN.D", 0x0001FFFF#32, 0x000011AB#32, fun w => .amominD (rdOf w) (rs1Of w) (rs2Of w)⟩,
  ⟨"AMOMAX.D", 0x0001FFFF#32, 0x000015AB#32, fun w => .amomaxD (rdOf w) (rs1Of w) (rs2Of w)⟩,
  ⟨"AMOMINU.D", 0x0001FFFF#32, 0x000019AB#32, fun w => .amominuD (rdOf w) (rs1Of w) (rs2Of w)⟩,
  ⟨"AMOMAXU.D", 0x0001FFFF#32, 0x00001DAB#32, fun w => .amomaxuD (rdOf w) (rs1Of w) (rs2Of w)⟩]

/-- Integer register-immediate (42_int_imm). -/
def rowsIntImm : List Row := [
  ⟨"ADDI", 0x000003FF#32, 0x00000013#32, fun w => .addi (rdOf w) (rs1Of w) (immIOf w)⟩,
  ⟨"SLLI", 0x003F03FF#32, 0x00000093#32, fun w => .slli (rdOf w) (rs1Of w) (shamtOf w)⟩,
  ⟨"SLTI", 0x000003FF#32, 0x00000113#32, fun w => .slti (rdOf w) (rs1Of w) (immIOf w)⟩,
  ⟨"SLTIU", 0x000003FF#32, 0x00000193#32, fun w => .sltiu (rdOf w) (rs1Of w) (immIOf w)⟩,
  ⟨"XORI", 0x000003FF#32, 0x00000213#32, fun w => .xori (rdOf w) (rs1Of w) (immIOf w)⟩,
  ⟨"SRLI", 0x003F03FF#32, 0x00000293#32, fun w => .srli (rdOf w) (rs1Of w) (shamtOf w)⟩,
  ⟨"SRAI", 0x003F03FF#32, 0x00010293#32, fun w => .srai (rdOf w) (rs1Of w) (shamtOf w)⟩,
  ⟨"ORI", 0x000003FF#32, 0x00000313#32, fun w => .ori (rdOf w) (rs1Of w) (immIOf w)⟩,
  ⟨"ANDI", 0x000003FF#32, 0x00000393#32, fun w => .andi (rdOf w) (rs1Of w) (immIOf w)⟩,
  ⟨"LUI", 0x0000007F#32, 0x00000037#32, fun w => .lui (rdOf w) (immLOf w)⟩,
  ⟨"ADDIW", 0x000003FF#32, 0x0000001B#32, fun w => .addiw (rdOf w) (rs1Of w) (immIOf w)⟩,
  ⟨"SLLIW", 0x003F83FF#32, 0x0000009B#32, fun w => .slliw (rdOf w) (rs1Of w) (shamtwOf w)⟩,
  ⟨"SRLIW", 0x003F83FF#32, 0x0000029B#32, fun w => .srliw (rdOf w) (rs1Of w) (shamtwOf w)⟩,
  ⟨"SRAIW", 0x003F83FF#32, 0x0001029B#32, fun w => .sraiw (rdOf w) (rs1Of w) (shamtwOf w)⟩]

/-- Integer register-register (43_int_reg). -/
def rowsIntReg : List Row := [
  ⟨"ADD", 0x0001FFFF#32, 0x00000033#32, fun w => .add (rdOf w) (rs1Of w) (rs2Of w)⟩,
  ⟨"SUB", 0x0001FFFF#32, 0x00010033#32, fun w => .sub (rdOf w) (rs1Of w) (rs2Of w)⟩,
  ⟨"SLL", 0x0001FFFF#32, 0x000000B3#32, fun w => .sll (rdOf w) (rs1Of w) (rs2Of w)⟩,
  ⟨"SLT", 0x0001FFFF#32, 0x00000133#32, fun w => .slt (rdOf w) (rs1Of w) (rs2Of w)⟩,
  ⟨"SLTU", 0x0001FFFF#32, 0x000001B3#32, fun w => .sltu (rdOf w) (rs1Of w) (rs2Of w)⟩,
  ⟨"XOR", 0x0001FFFF#32, 0x00000233#32, fun w => .xor (rdOf w) (rs1Of w) (rs2Of w)⟩,
  ⟨"SRL", 0x0001FFFF#32, 0x000002B3#32, fun w => .srl (rdOf w) (rs1Of w) (rs2Of w)⟩,
  ⟨"SRA", 0x0001FFFF#32, 0x000102B3#32, fun w => .sra (rdOf w) (rs1Of w) (rs2Of w)⟩,
  ⟨"OR", 0x0001FFFF#32, 0x00000333#32, fun w => .or (rdOf w) (rs1Of w) (rs2Of w)⟩,
  ⟨"AND", 0x0001FFFF#32, 0x000003B3#32, fun w => .and (rdOf w) (rs1Of w) (rs2Of w)⟩,
  ⟨"MUL", 0x0001FFFF#32, 0x00000433#32, fun w => .mul (rdOf w) (rs1Of w) (rs2Of w)⟩,
  ⟨"MULH", 0x0001FFFF#32, 0x000004B3#32, fun w => .mulh (rdOf w) (rs1Of w) (rs2Of w)⟩,
  ⟨"MULHSU", 0x0001FFFF#32, 0x00000533#32, fun w => .mulhsu (rdOf w) (rs1Of w) (rs2Of w)⟩,
  ⟨"MULHU", 0x0001FFFF#32, 0x000005B3#32, fun w => .mulhu (rdOf w) (rs1Of w) (rs2Of w)⟩,
  ⟨"DIV", 0x0001FFFF#32, 0x00000633#32, fun w => .div (rdOf w) (rs1Of w) (rs2Of w)⟩,
  ⟨"DIVU", 0x0001FFFF#32, 0x000006B3#32, fun w => .divu (rdOf w) (rs1Of w) (rs2Of w)⟩,
  ⟨"REM", 0x0001FFFF#32, 0x00000733#32, fun w => .rem (rdOf w) (rs1Of w) (rs2Of w)⟩,
  ⟨"REMU", 0x0001FFFF#32, 0x000007B3#32, fun w => .remu (rdOf w) (rs1Of w) (rs2Of w)⟩,
  ⟨"ADDW", 0x0001FFFF#32, 0x0000003B#32, fun w => .addw (rdOf w) (rs1Of w) (rs2Of w)⟩,
  ⟨"SUBW", 0x0001FFFF#32, 0x0001003B#32, fun w => .subw (rdOf w) (rs1Of w) (rs2Of w)⟩,
  ⟨"SLLW", 0x0001FFFF#32, 0x000000BB#32, fun w => .sllw (rdOf w) (rs1Of w) (rs2Of w)⟩,
  ⟨"SRLW", 0x0001FFFF#32, 0x000002BB#32, fun w => .srlw (rdOf w) (rs1Of w) (rs2Of w)⟩,
  ⟨"SRAW", 0x0001FFFF#32, 0x000102BB#32, fun w => .sraw (rdOf w) (rs1Of w) (rs2Of w)⟩,
  ⟨"MULW", 0x0001FFFF#32, 0x0000043B#32, fun w => .mulw (rdOf w) (rs1Of w) (rs2Of w)⟩,
  ⟨"DIVW", 0x0001FFFF#32, 0x0000063B#32, fun w => .divw (rdOf w) (rs1Of w) (rs2Of w)⟩,
  ⟨"DIVUW", 0x0001FFFF#32, 0x000006BB#32, fun w => .divuw (rdOf w) (rs1Of w) (rs2Of w)⟩,
  ⟨"REMW", 0x0001FFFF#32, 0x0000073B#32, fun w => .remw (rdOf w) (rs1Of w) (rs2Of w)⟩,
  ⟨"REMUW", 0x0001FFFF#32, 0x000007BB#32, fun w => .remuw (rdOf w) (rs1Of w) (rs2Of w)⟩]

/-- Floating-point computation (45_fp_compute). -/
def rowsFpCompute : List Row := [
  ⟨"FADD.S", 0x0001F1FF#32, 0x00000053#32, fun w => .faddS (rdOf w) (rs1Of w) (rs2Of w) (rmOf w)⟩,
  ⟨"FSUB.S", 0x0001F1FF#32, 0x00001053#32, fun w => .fsubS (rdOf w) (rs1Of w) (rs2Of w) (rmOf w)⟩,
  ⟨"FMUL.S", 0x0001F1FF#32, 0x00002053#32, fun w => .fmulS (rdOf w) (rs1Of w) (rs2Of w) (rmOf w)⟩,
  ⟨"FDIV.S", 0x0001F1FF#32, 0x00003053#32, fun w => .fdivS (rdOf w) (rs1Of w) (rs2Of w) (rmOf w)⟩,
  ⟨"FSQRT.S", 0x003FF1FF#32, 0x00004053#32, fun w => .fsqrtS (rdOf w) (rs1Of w) (rmOf w)⟩,
  ⟨"FMIN.S", 0x0001FFFF#32, 0x00018053#32, fun w => .fminS (rdOf w) (rs1Of w) (rs2Of w)⟩,
  ⟨"FMAX.S", 0x0001FFFF#32, 0x00019053#32, fun w => .fmaxS (rdOf w) (rs1Of w) (rs2Of w)⟩,
  ⟨"FADD.D", 0x0001F1FF#32, 0x000000D3#32, fun w => .faddD (rdOf w) (rs1Of w) (rs2Of w) (rmOf w)⟩,
  ⟨"FSUB.D", 0x0001F1FF#32, 0x000010D3#32, fun w => .fsubD (rdOf w) (rs1Of w) (rs2Of w) (rmOf w)⟩,
  ⟨"FMUL.D", 0x0001F1FF#32, 0x000020D3#32, fun w => .fmulD (rdOf w) (rs1Of w) (rs2Of w) (rmOf w)⟩,
  ⟨"FDIV.D", 0x0001F1FF#32, 0x000030D3#32, fun w => .fdivD (rdOf w) (rs1Of w) (rs2Of w) (rmOf w)⟩,
  ⟨"FSQRT.D", 0x003FF1FF#32, 0x000040D3#32, fun w => .fsqrtD (rdOf w) (rs1Of w) (rmOf w)⟩,
  ⟨"FMIN.D", 0x0001FFFF#32, 0x000180D3#32, fun w => .fminD (rdOf w) (rs1Of w) (rs2Of w)⟩,
  ⟨"FMAX.D", 0x0001FFFF#32, 0x000190D3#32, fun w => .fmaxD (rdOf w) (rs1Of w) (rs2Of w)⟩,
  ⟨"FMADD.S", 0x000001FF#32, 0x00000043#32, fun w => .fmaddS (rdOf w) (rs1Of w) (rs2Of w) (rs3Of w) (rmOf w)⟩,
  ⟨"FMSUB.S", 0x000001FF#32, 0x00000047#32, fun w => .fmsubS (rdOf w) (rs1Of w) (rs2Of w) (rs3Of w) (rmOf w)⟩,
  ⟨"FNMSUB.S", 0x000001FF#32, 0x0000004B#32, fun w => .fnmsubS (rdOf w) (rs1Of w) (rs2Of w) (rs3Of w) (rmOf w)⟩,
  ⟨"FNMADD.S", 0x000001FF#32, 0x0000004F#32, fun w => .fnmaddS (rdOf w) (rs1Of w) (rs2Of w) (rs3Of w) (rmOf w)⟩,
  ⟨"FMADD.D", 0x000001FF#32, 0x000000C3#32, fun w => .fmaddD (rdOf w) (rs1Of w) (rs2Of w) (rs3Of w) (rmOf w)⟩,
  ⟨"FMSUB.D", 0x000001FF#32, 0x000000C7#32, fun w => .fmsubD (rdOf w) (rs1Of w) (rs2Of w) (rs3Of w) (rmOf w)⟩,
  ⟨"FNMSUB.D", 0x000001FF#32, 0x000000CB#32, fun w => .fnmsubD (rdOf w) (rs1Of w) (rs2Of w) (rs3Of w) (rmOf w)⟩,
  ⟨"FNMADD.D", 0x000001FF#32, 0x000000CF#32, fun w => .fnmaddD (rdOf w) (rs1Of w) (rs2Of w) (rs3Of w) (rmOf w)⟩]

/-- Floating-point conversion, sign injection, moves, fsr (46_fp_convert_move). -/
def rowsFpConvert : List Row := [
  ⟨"FSGNJ.S", 0x0001FFFF#32, 0x00005053#32, fun w => .fsgnjS (rdOf w) (rs1Of w) (rs2Of w)⟩,
  ⟨"FSGNJN.S", 0x0001FFFF#32, 0x00006053#32, fun w => .fsgnjnS (rdOf w) (rs1Of w) (rs2Of w)⟩,
  ⟨"FSGNJX.S", 0x0001FFFF#32, 0x00007053#32, fun w => .fsgnjxS (rdOf w) (rs1Of w) (rs2Of w)⟩,
  ⟨"FSGNJ.D", 0x0001FFFF#32, 0x000050D3#32, fun w => .fsgnjD (rdOf w) (rs1Of w) (rs2Of w)⟩,
  ⟨"FSGNJN.D", 0x0001FFFF#32, 0x000060D3#32, fun w => .fsgnjnD (rdOf w) (rs1Of w) (rs2Of w)⟩,
  ⟨"FSGNJX.D", 0x0001FFFF#32, 0x000070D3#32, fun w => .fsgnjxD (rdOf w) (rs1Of w) (rs2Of w)⟩,
  ⟨"FCVT.S.D", 0x003FF1FF#32, 0x00011053#32, fun w => .fcvtSD (rdOf w) (rs1Of w) (rmOf w)⟩,
  ⟨"FCVT.D.S", 0x003FF1FF#32, 0x000100D3#32, fun w => .fcvtDS (rdOf w) (rs1Of w) (rmOf w)⟩,
  ⟨"FCVT.S.L", 0x003FF1FF#32, 0x0000C053#32, fun w => .fcvtSL (rdOf w) (rs1Of w) (rmOf w)⟩,
  ⟨"FCVT.S.LU", 0x003FF1FF#32, 0x0000D053#32, fun w => .fcvtSLU (rdOf w) (rs1Of w) (rmOf w)⟩,
  ⟨"FCVT.S.W", 0x003FF1FF#32, 0x0000E053#32, fun w => .fcvtSW (rdOf w) (rs1Of w) (rmOf w)⟩,
  ⟨"FCVT.S.WU", 0x003FF1FF#32, 0x0000F053#32, fun w => .fcvtSWU (rdOf w) (rs1Of w) (rmOf w)⟩,
  ⟨"FCVT.D.L", 0x003FF1FF#32, 0x0000C0D3#32, fun w => .fcvtDL (rdOf w) (rs1Of w) (rmOf w)⟩,
  ⟨"FCVT.D.LU", 0x003FF1FF#32, 0x0000D0D3#32, fun w => .fcvtDLU (rdOf w) (rs1Of w) (rmOf w)⟩,
  ⟨"FCVT.D.W", 0x003FF1FF#32, 0x0000E0D3#32, fun w => .fcvtDW (rdOf w) (rs1Of w) (rmOf w)⟩,
  ⟨"FCVT.D.WU", 0x003FF1FF#32, 0x0000F0D3#32, fun w => .fcvtDWU (rdOf w) (rs1Of w) (rmOf w)⟩,
  ⟨"MXTF.S", 0x003FFFFF#32, 0x0001E053#32, fun w => .mxtfS (rdOf w) (rs1Of w)⟩,
  ⟨"MXTF.D", 0x003FFFFF#32, 0x0001E0D3#32, fun w => .mxtfD (rdOf w) (rs1Of w)⟩,
  ⟨"MTFSR", 0x003FFFFF#32, 0x0001F053#32, fun w => .mtfsr (rdOf w) (rs1Of w)⟩,
  ⟨"FCVT.L.S", 0x003FF1FF#32, 0x00008053#32, fun w => .fcvtLS (rdOf w) (rs1Of w) (rmOf w)⟩,
  ⟨"FCVT.LU.S", 0x003FF1FF#32, 0x00009053#32, fun w => .fcvtLUS (rdOf w) (rs1Of w) (rmOf w)⟩,
  ⟨"FCVT.W.S", 0x003FF1FF#32, 0x0000A053#32, fun w => .fcvtWS (rdOf w) (rs1Of w) (rmOf w)⟩,
  ⟨"FCVT.WU.S", 0x003FF1FF#32, 0x0000B053#32, fun w => .fcvtWUS (rdOf w) (rs1Of w) (rmOf w)⟩,
  ⟨"FCVT.L.D", 0x003FF1FF#32, 0x000080D3#32, fun w => .fcvtLD (rdOf w) (rs1Of w) (rmOf w)⟩,
  ⟨"FCVT.LU.D", 0x003FF1FF#32, 0x000090D3#32, fun w => .fcvtLUD (rdOf w) (rs1Of w) (rmOf w)⟩,
  ⟨"FCVT.W.D", 0x003FF1FF#32, 0x0000A0D3#32, fun w => .fcvtWD (rdOf w) (rs1Of w) (rmOf w)⟩,
  ⟨"FCVT.WU.D", 0x003FF1FF#32, 0x0000B0D3#32, fun w => .fcvtWUD (rdOf w) (rs1Of w) (rmOf w)⟩,
  ⟨"MFTX.S", 0x07C1FFFF#32, 0x0001C053#32, fun w => .mftxS (rdOf w) (rs2Of w)⟩,
  ⟨"MFTX.D", 0x07C1FFFF#32, 0x0001C0D3#32, fun w => .mftxD (rdOf w) (rs2Of w)⟩,
  ⟨"MFFSR", 0x07FFFFFF#32, 0x0001D053#32, fun w => .mffsr (rdOf w)⟩]

/-- Floating-point compare (47_fp_compare). -/
def rowsFpCompare : List Row := [
  ⟨"FEQ.S", 0x0001FFFF#32, 0x00015053#32, fun w => .feqS (rdOf w) (rs1Of w) (rs2Of w)⟩,
  ⟨"FLT.S", 0x0001FFFF#32, 0x00016053#32, fun w => .fltS (rdOf w) (rs1Of w) (rs2Of w)⟩,
  ⟨"FLE.S", 0x0001FFFF#32, 0x00017053#32, fun w => .fleS (rdOf w) (rs1Of w) (rs2Of w)⟩,
  ⟨"FEQ.D", 0x0001FFFF#32, 0x000150D3#32, fun w => .feqD (rdOf w) (rs1Of w) (rs2Of w)⟩,
  ⟨"FLT.D", 0x0001FFFF#32, 0x000160D3#32, fun w => .fltD (rdOf w) (rs1Of w) (rs2Of w)⟩,
  ⟨"FLE.D", 0x0001FFFF#32, 0x000170D3#32, fun w => .fleD (rdOf w) (rs1Of w) (rs2Of w)⟩]

/-- Fences (48_fence). -/
def rowsFence : List Row := [
  ⟨"FENCE.I", 0x000003FF#32, 0x000000AF#32, fun w => .fenceI (ignoredOf w)⟩,
  ⟨"FENCE", 0x000003FF#32, 0x0000012F#32, fun w => .fence (ignoredOf w)⟩]

/-- System (49_system). -/
def rowsSystem : List Row := [
  ⟨"SYSCALL", 0xFFFFFFFF#32, 0x00000077#32, fun _ => .syscall⟩,
  ⟨"BREAK", 0xFFFFFFFF#32, 0x000000F7#32, fun _ => .brk⟩,
  ⟨"RDCYCLE", 0x07FFFFFF#32, 0x00000277#32, fun w => .rdcycle (rdOf w)⟩,
  ⟨"RDTIME", 0x07FFFFFF#32, 0x00000677#32, fun w => .rdtime (rdOf w)⟩,
  ⟨"RDINSTRET", 0x07FFFFFF#32, 0x00000A77#32, fun w => .rdinstret (rdOf w)⟩]

/-- The 150 rows (30_encoding R106 to R117). -/
def opcodeTable : List Row :=
  rowsControl ++ rowsLoadStore ++ rowsAmo ++ rowsIntImm ++ rowsIntReg ++
  rowsFpCompute ++ rowsFpConvert ++ rowsFpCompare ++ rowsFence ++ rowsSystem

/-! ## The decoder -/

/-- Why a word is no instruction of the base ISA. All three raise IllegalInstruction (60_exceptions R473). -/
inductive DecodeError where
  /-- `inst[1:0] ≠ 11`: the compressed space (30_encoding R88). -/
  | compressed
  /-- `inst[4:0] = 11111`: longer than 32 bits (30_encoding R88). -/
  | longerThan32
  /-- No row of the table matches (30_encoding R118). -/
  | unallocated
  deriving DecidableEq, Repr

/-- The instruction of a word, or why there is none (30_encoding R89, R118). `XPRLEN` changes only which encodings are
legal (R89), which execution checks. -/
def decode (w : Inst) : Except DecodeError Instr :=
  if w.extractLsb' 0 2 ≠ 0b11#2 then .error .compressed
  else if w.extractLsb' 0 5 = 0b11111#5 then .error .longerThan32
  else
    match opcodeTable.find? (·.hits w) with
    | some r => .ok (r.build w)
    | none => .error .unallocated

/-- A 16-bit parcel from the bytes at `a` and `a + 1`, in the memory system's byte order (20_memory R54, R56). -/
def parcel (e : Endian) (b0 b1 : Byte) : BitVec 16 :=
  match e with
  | .little => b1 ++ b0
  | .big => b0 ++ b1

/-- The instruction word from the bytes at `a` to `a + 3`: the parcel at `a` is the low half in both byte orders
(20_memory R53, R55). -/
def wordOfBytes (e : Endian) (b0 b1 b2 b3 : Byte) : Inst := parcel e b2 b3 ++ parcel e b0 b1

/-- The four bytes that hold an instruction word in memory, lowest address first: the inverse of `wordOfBytes`
(20_memory R53, R54). -/
def bytesOfWord (e : Endian) (w : Inst) : List Byte :=
  match e with
  | .little => [w.extractLsb' 0 8, w.extractLsb' 8 8, w.extractLsb' 16 8, w.extractLsb' 24 8]
  | .big => [w.extractLsb' 8 8, w.extractLsb' 0 8, w.extractLsb' 24 8, w.extractLsb' 16 8]

/-- The decoder on the four bytes of a fetch. -/
def decodeBytes (e : Endian) (b0 b1 b2 b3 : Byte) : Except DecodeError Instr := decode (wordOfBytes e b0 b1 b2 b3)

/-- The instruction read from the word of a table row, its bytes laid out as a little-endian machine stores them (the
byte order cancels: 20_memory R53 to R55). Every instruction is 32 bits long. -/
def decodeTableWord (nbits w : Nat) : Option Instr :=
  if nbits ≤ 32 then
    match bytesOfWord .little (BitVec.ofNat 32 (w % 2 ^ nbits)) with
    | [b0, b1, b2, b3] =>
      match decodeBytes .little b0 b1 b2 b3 with
      | .ok i => some i
      | .error _ => none
    | _ => none
  else none

/-! ## The encoder -/

/-- R-type: rd, rs1, rs2, `inst[16:10]`, `inst[9:7]`, opcode (30_encoding R91, R99). -/
def encR (rd rs1 rs2 : Reg) (f7 : BitVec 7) (f3 : BitVec 3) (op : BitVec 7) : Inst :=
  rd ++ rs1 ++ rs2 ++ f7 ++ f3 ++ op
/-- R4-type (30_encoding R92). -/
def encR4 (rd rs1 rs2 rs3 : Reg) (rm : BitVec 3) (fmt : BitVec 2) (op : BitVec 7) : Inst :=
  rd ++ rs1 ++ rs2 ++ rs3 ++ rm ++ fmt ++ op
/-- R-type of OP-FP: rd, rs1, rs2, funct5, rm, fmt, opcode (30_encoding R97). -/
def encFp (rd rs1 rs2 : Reg) (f5 : BitVec 5) (rm : BitVec 3) (fmt : BitVec 2) (op : BitVec 7) : Inst :=
  rd ++ rs1 ++ rs2 ++ f5 ++ rm ++ fmt ++ op
/-- I-type (30_encoding R93). -/
def encI (rd rs1 : Reg) (imm : BitVec 12) (f3 : BitVec 3) (op : BitVec 7) : Inst :=
  rd ++ rs1 ++ imm ++ f3 ++ op
/-- I-type of SLLI, SRLI, SRAI: shift type in `inst[21:16]` (30_encoding R98). -/
def encShift (rd rs1 : Reg) (ty : BitVec 6) (shamt : BitVec 6) (f3 : BitVec 3) (op : BitVec 7) : Inst :=
  rd ++ rs1 ++ ty ++ shamt ++ f3 ++ op
/-- I-type of SLLIW, SRLIW, SRAIW: shift type and the zero `inst[15]` in `inst[21:15]` (30_encoding R98, R113). -/
def encShiftW (rd rs1 : Reg) (ty : BitVec 7) (shamt : BitVec 5) (f3 : BitVec 3) (op : BitVec 7) : Inst :=
  rd ++ rs1 ++ ty ++ shamt ++ f3 ++ op
/-- B-type: the immediate's upper 5 bits, rs1, rs2, its lower 7 bits, funct3, opcode (30_encoding R94). -/
def encB (rs1 rs2 : Reg) (imm : BitVec 12) (f3 : BitVec 3) (op : BitVec 7) : Inst :=
  imm.extractLsb' 7 5 ++ rs1 ++ rs2 ++ imm.extractLsb' 0 7 ++ f3 ++ op
/-- L-type (30_encoding R95). -/
def encL (rd : Reg) (imm : BitVec 20) (op : BitVec 7) : Inst := rd ++ imm ++ op
/-- J-type (30_encoding R96). -/
def encJ (off : BitVec 25) (op : BitVec 7) : Inst := off ++ op
/-- MISC-MEM with the ignored bits `inst[31:10]` (48_fence R443). -/
def encIgnored (ignored : BitVec 22) (f3 : BitVec 3) (op : BitVec 7) : Inst := ignored ++ f3 ++ op

/-- The word of an instruction (30_encoding R106 to R117; 48_fence R443; 49_system R450). -/
def encode : Instr → Inst
  | .j off => encJ off 0b1100111#7
  | .jal off => encJ off 0b1101111#7
  | .beq rs1 rs2 imm => encB rs1 rs2 imm 0b000#3 0b1100011#7
  | .bne rs1 rs2 imm => encB rs1 rs2 imm 0b001#3 0b1100011#7
  | .blt rs1 rs2 imm => encB rs1 rs2 imm 0b100#3 0b1100011#7
  | .bge rs1 rs2 imm => encB rs1 rs2 imm 0b101#3 0b1100011#7
  | .bltu rs1 rs2 imm => encB rs1 rs2 imm 0b110#3 0b1100011#7
  | .bgeu rs1 rs2 imm => encB rs1 rs2 imm 0b111#3 0b1100011#7
  | .jalrC rd rs1 imm => encI rd rs1 imm 0b000#3 0b1101011#7
  | .jalrR rd rs1 imm => encI rd rs1 imm 0b001#3 0b1101011#7
  | .jalrJ rd rs1 imm => encI rd rs1 imm 0b010#3 0b1101011#7
  | .rdnpc rd => encI rd 0b00000#5 0b000000000000#12 0b100#3 0b1101011#7
  | .lb rd rs1 imm => encI rd rs1 imm 0b000#3 0b0000011#7
  | .lh rd rs1 imm => encI rd rs1 imm 0b001#3 0b0000011#7
  | .lw rd rs1 imm => encI rd rs1 imm 0b010#3 0b0000011#7
  | .ld rd rs1 imm => encI rd rs1 imm 0b011#3 0b0000011#7
  | .lbu rd rs1 imm => encI rd rs1 imm 0b100#3 0b0000011#7
  | .lhu rd rs1 imm => encI rd rs1 imm 0b101#3 0b0000011#7
  | .lwu rd rs1 imm => encI rd rs1 imm 0b110#3 0b0000011#7
  | .sb rs1 rs2 imm => encB rs1 rs2 imm 0b000#3 0b0100011#7
  | .sh rs1 rs2 imm => encB rs1 rs2 imm 0b001#3 0b0100011#7
  | .sw rs1 rs2 imm => encB rs1 rs2 imm 0b010#3 0b0100011#7
  | .sd rs1 rs2 imm => encB rs1 rs2 imm 0b011#3 0b0100011#7
  | .amoaddW rd rs1 rs2 => encR rd rs1 rs2 0b0000000#7 0b010#3 0b0101011#7
  | .amoswapW rd rs1 rs2 => encR rd rs1 rs2 0b0000001#7 0b010#3 0b0101011#7
  | .amoandW rd rs1 rs2 => encR rd rs1 rs2 0b0000010#7 0b010#3 0b0101011#7
  | .amoorW rd rs1 rs2 => encR rd rs1 rs2 0b0000011#7 0b010#3 0b0101011#7
  | .amominW rd rs1 rs2 => encR rd rs1 rs2 0b0000100#7 0b010#3 0b0101011#7
  | .amomaxW rd rs1 rs2 => encR rd rs1 rs2 0b0000101#7 0b010#3 0b0101011#7
  | .amominuW rd rs1 rs2 => encR rd rs1 rs2 0b0000110#7 0b010#3 0b0101011#7
  | .amomaxuW rd rs1 rs2 => encR rd rs1 rs2 0b0000111#7 0b010#3 0b0101011#7
  | .amoaddD rd rs1 rs2 => encR rd rs1 rs2 0b0000000#7 0b011#3 0b0101011#7
  | .amoswapD rd rs1 rs2 => encR rd rs1 rs2 0b0000001#7 0b011#3 0b0101011#7
  | .amoandD rd rs1 rs2 => encR rd rs1 rs2 0b0000010#7 0b011#3 0b0101011#7
  | .amoorD rd rs1 rs2 => encR rd rs1 rs2 0b0000011#7 0b011#3 0b0101011#7
  | .amominD rd rs1 rs2 => encR rd rs1 rs2 0b0000100#7 0b011#3 0b0101011#7
  | .amomaxD rd rs1 rs2 => encR rd rs1 rs2 0b0000101#7 0b011#3 0b0101011#7
  | .amominuD rd rs1 rs2 => encR rd rs1 rs2 0b0000110#7 0b011#3 0b0101011#7
  | .amomaxuD rd rs1 rs2 => encR rd rs1 rs2 0b0000111#7 0b011#3 0b0101011#7
  | .addi rd rs1 imm => encI rd rs1 imm 0b000#3 0b0010011#7
  | .slli rd rs1 shamt => encShift rd rs1 0b000000#6 shamt 0b001#3 0b0010011#7
  | .slti rd rs1 imm => encI rd rs1 imm 0b010#3 0b0010011#7
  | .sltiu rd rs1 imm => encI rd rs1 imm 0b011#3 0b0010011#7
  | .xori rd rs1 imm => encI rd rs1 imm 0b100#3 0b0010011#7
  | .srli rd rs1 shamt => encShift rd rs1 0b000000#6 shamt 0b101#3 0b0010011#7
  | .srai rd rs1 shamt => encShift rd rs1 0b000001#6 shamt 0b101#3 0b0010011#7
  | .ori rd rs1 imm => encI rd rs1 imm 0b110#3 0b0010011#7
  | .andi rd rs1 imm => encI rd rs1 imm 0b111#3 0b0010011#7
  | .add rd rs1 rs2 => encR rd rs1 rs2 0b0000000#7 0b000#3 0b0110011#7
  | .sub rd rs1 rs2 => encR rd rs1 rs2 0b1000000#7 0b000#3 0b0110011#7
  | .sll rd rs1 rs2 => encR rd rs1 rs2 0b0000000#7 0b001#3 0b0110011#7
  | .slt rd rs1 rs2 => encR rd rs1 rs2 0b0000000#7 0b010#3 0b0110011#7
  | .sltu rd rs1 rs2 => encR rd rs1 rs2 0b0000000#7 0b011#3 0b0110011#7
  | .xor rd rs1 rs2 => encR rd rs1 rs2 0b0000000#7 0b100#3 0b0110011#7
  | .srl rd rs1 rs2 => encR rd rs1 rs2 0b0000000#7 0b101#3 0b0110011#7
  | .sra rd rs1 rs2 => encR rd rs1 rs2 0b1000000#7 0b101#3 0b0110011#7
  | .or rd rs1 rs2 => encR rd rs1 rs2 0b0000000#7 0b110#3 0b0110011#7
  | .and rd rs1 rs2 => encR rd rs1 rs2 0b0000000#7 0b111#3 0b0110011#7
  | .mul rd rs1 rs2 => encR rd rs1 rs2 0b0000001#7 0b000#3 0b0110011#7
  | .mulh rd rs1 rs2 => encR rd rs1 rs2 0b0000001#7 0b001#3 0b0110011#7
  | .mulhsu rd rs1 rs2 => encR rd rs1 rs2 0b0000001#7 0b010#3 0b0110011#7
  | .mulhu rd rs1 rs2 => encR rd rs1 rs2 0b0000001#7 0b011#3 0b0110011#7
  | .div rd rs1 rs2 => encR rd rs1 rs2 0b0000001#7 0b100#3 0b0110011#7
  | .divu rd rs1 rs2 => encR rd rs1 rs2 0b0000001#7 0b101#3 0b0110011#7
  | .rem rd rs1 rs2 => encR rd rs1 rs2 0b0000001#7 0b110#3 0b0110011#7
  | .remu rd rs1 rs2 => encR rd rs1 rs2 0b0000001#7 0b111#3 0b0110011#7
  | .lui rd imm => encL rd imm 0b0110111#7
  | .addiw rd rs1 imm => encI rd rs1 imm 0b000#3 0b0011011#7
  | .slliw rd rs1 shamt => encShiftW rd rs1 0b0000000#7 shamt 0b001#3 0b0011011#7
  | .srliw rd rs1 shamt => encShiftW rd rs1 0b0000000#7 shamt 0b101#3 0b0011011#7
  | .sraiw rd rs1 shamt => encShiftW rd rs1 0b0000010#7 shamt 0b101#3 0b0011011#7
  | .addw rd rs1 rs2 => encR rd rs1 rs2 0b0000000#7 0b000#3 0b0111011#7
  | .subw rd rs1 rs2 => encR rd rs1 rs2 0b1000000#7 0b000#3 0b0111011#7
  | .sllw rd rs1 rs2 => encR rd rs1 rs2 0b0000000#7 0b001#3 0b0111011#7
  | .srlw rd rs1 rs2 => encR rd rs1 rs2 0b0000000#7 0b101#3 0b0111011#7
  | .sraw rd rs1 rs2 => encR rd rs1 rs2 0b1000000#7 0b101#3 0b0111011#7
  | .mulw rd rs1 rs2 => encR rd rs1 rs2 0b0000001#7 0b000#3 0b0111011#7
  | .divw rd rs1 rs2 => encR rd rs1 rs2 0b0000001#7 0b100#3 0b0111011#7
  | .divuw rd rs1 rs2 => encR rd rs1 rs2 0b0000001#7 0b101#3 0b0111011#7
  | .remw rd rs1 rs2 => encR rd rs1 rs2 0b0000001#7 0b110#3 0b0111011#7
  | .remuw rd rs1 rs2 => encR rd rs1 rs2 0b0000001#7 0b111#3 0b0111011#7
  | .flw rd rs1 imm => encI rd rs1 imm 0b010#3 0b0000111#7
  | .fld rd rs1 imm => encI rd rs1 imm 0b011#3 0b0000111#7
  | .fsw rs1 rs2 imm => encB rs1 rs2 imm 0b010#3 0b0100111#7
  | .fsd rs1 rs2 imm => encB rs1 rs2 imm 0b011#3 0b0100111#7
  | .faddS rd rs1 rs2 rm => encFp rd rs1 rs2 0b00000#5 rm 0b00#2 0b1010011#7
  | .fsubS rd rs1 rs2 rm => encFp rd rs1 rs2 0b00001#5 rm 0b00#2 0b1010011#7
  | .fmulS rd rs1 rs2 rm => encFp rd rs1 rs2 0b00010#5 rm 0b00#2 0b1010011#7
  | .fdivS rd rs1 rs2 rm => encFp rd rs1 rs2 0b00011#5 rm 0b00#2 0b1010011#7
  | .fsqrtS rd rs1 rm => encFp rd rs1 0b00000#5 0b00100#5 rm 0b00#2 0b1010011#7
  | .fminS rd rs1 rs2 => encFp rd rs1 rs2 0b11000#5 0b000#3 0b00#2 0b1010011#7
  | .fmaxS rd rs1 rs2 => encFp rd rs1 rs2 0b11001#5 0b000#3 0b00#2 0b1010011#7
  | .faddD rd rs1 rs2 rm => encFp rd rs1 rs2 0b00000#5 rm 0b01#2 0b1010011#7
  | .fsubD rd rs1 rs2 rm => encFp rd rs1 rs2 0b00001#5 rm 0b01#2 0b1010011#7
  | .fmulD rd rs1 rs2 rm => encFp rd rs1 rs2 0b00010#5 rm 0b01#2 0b1010011#7
  | .fdivD rd rs1 rs2 rm => encFp rd rs1 rs2 0b00011#5 rm 0b01#2 0b1010011#7
  | .fsqrtD rd rs1 rm => encFp rd rs1 0b00000#5 0b00100#5 rm 0b01#2 0b1010011#7
  | .fminD rd rs1 rs2 => encFp rd rs1 rs2 0b11000#5 0b000#3 0b01#2 0b1010011#7
  | .fmaxD rd rs1 rs2 => encFp rd rs1 rs2 0b11001#5 0b000#3 0b01#2 0b1010011#7
  | .fmaddS rd rs1 rs2 rs3 rm => encR4 rd rs1 rs2 rs3 rm 0b00#2 0b1000011#7
  | .fmsubS rd rs1 rs2 rs3 rm => encR4 rd rs1 rs2 rs3 rm 0b00#2 0b1000111#7
  | .fnmsubS rd rs1 rs2 rs3 rm => encR4 rd rs1 rs2 rs3 rm 0b00#2 0b1001011#7
  | .fnmaddS rd rs1 rs2 rs3 rm => encR4 rd rs1 rs2 rs3 rm 0b00#2 0b1001111#7
  | .fmaddD rd rs1 rs2 rs3 rm => encR4 rd rs1 rs2 rs3 rm 0b01#2 0b1000011#7
  | .fmsubD rd rs1 rs2 rs3 rm => encR4 rd rs1 rs2 rs3 rm 0b01#2 0b1000111#7
  | .fnmsubD rd rs1 rs2 rs3 rm => encR4 rd rs1 rs2 rs3 rm 0b01#2 0b1001011#7
  | .fnmaddD rd rs1 rs2 rs3 rm => encR4 rd rs1 rs2 rs3 rm 0b01#2 0b1001111#7
  | .fsgnjS rd rs1 rs2 => encFp rd rs1 rs2 0b00101#5 0b000#3 0b00#2 0b1010011#7
  | .fsgnjnS rd rs1 rs2 => encFp rd rs1 rs2 0b00110#5 0b000#3 0b00#2 0b1010011#7
  | .fsgnjxS rd rs1 rs2 => encFp rd rs1 rs2 0b00111#5 0b000#3 0b00#2 0b1010011#7
  | .fsgnjD rd rs1 rs2 => encFp rd rs1 rs2 0b00101#5 0b000#3 0b01#2 0b1010011#7
  | .fsgnjnD rd rs1 rs2 => encFp rd rs1 rs2 0b00110#5 0b000#3 0b01#2 0b1010011#7
  | .fsgnjxD rd rs1 rs2 => encFp rd rs1 rs2 0b00111#5 0b000#3 0b01#2 0b1010011#7
  | .fcvtSD rd rs1 rm => encFp rd rs1 0b00000#5 0b10001#5 rm 0b00#2 0b1010011#7
  | .fcvtDS rd rs1 rm => encFp rd rs1 0b00000#5 0b10000#5 rm 0b01#2 0b1010011#7
  | .fcvtSL rd rs1 rm => encFp rd rs1 0b00000#5 0b01100#5 rm 0b00#2 0b1010011#7
  | .fcvtSLU rd rs1 rm => encFp rd rs1 0b00000#5 0b01101#5 rm 0b00#2 0b1010011#7
  | .fcvtSW rd rs1 rm => encFp rd rs1 0b00000#5 0b01110#5 rm 0b00#2 0b1010011#7
  | .fcvtSWU rd rs1 rm => encFp rd rs1 0b00000#5 0b01111#5 rm 0b00#2 0b1010011#7
  | .fcvtDL rd rs1 rm => encFp rd rs1 0b00000#5 0b01100#5 rm 0b01#2 0b1010011#7
  | .fcvtDLU rd rs1 rm => encFp rd rs1 0b00000#5 0b01101#5 rm 0b01#2 0b1010011#7
  | .fcvtDW rd rs1 rm => encFp rd rs1 0b00000#5 0b01110#5 rm 0b01#2 0b1010011#7
  | .fcvtDWU rd rs1 rm => encFp rd rs1 0b00000#5 0b01111#5 rm 0b01#2 0b1010011#7
  | .mxtfS rd rs1 => encFp rd rs1 0b00000#5 0b11110#5 0b000#3 0b00#2 0b1010011#7
  | .mxtfD rd rs1 => encFp rd rs1 0b00000#5 0b11110#5 0b000#3 0b01#2 0b1010011#7
  | .mtfsr rd rs1 => encFp rd rs1 0b00000#5 0b11111#5 0b000#3 0b00#2 0b1010011#7
  | .fcvtLS rd rs1 rm => encFp rd rs1 0b00000#5 0b01000#5 rm 0b00#2 0b1010011#7
  | .fcvtLUS rd rs1 rm => encFp rd rs1 0b00000#5 0b01001#5 rm 0b00#2 0b1010011#7
  | .fcvtWS rd rs1 rm => encFp rd rs1 0b00000#5 0b01010#5 rm 0b00#2 0b1010011#7
  | .fcvtWUS rd rs1 rm => encFp rd rs1 0b00000#5 0b01011#5 rm 0b00#2 0b1010011#7
  | .fcvtLD rd rs1 rm => encFp rd rs1 0b00000#5 0b01000#5 rm 0b01#2 0b1010011#7
  | .fcvtLUD rd rs1 rm => encFp rd rs1 0b00000#5 0b01001#5 rm 0b01#2 0b1010011#7
  | .fcvtWD rd rs1 rm => encFp rd rs1 0b00000#5 0b01010#5 rm 0b01#2 0b1010011#7
  | .fcvtWUD rd rs1 rm => encFp rd rs1 0b00000#5 0b01011#5 rm 0b01#2 0b1010011#7
  | .mftxS rd rs2 => encFp rd 0b00000#5 rs2 0b11100#5 0b000#3 0b00#2 0b1010011#7
  | .mftxD rd rs2 => encFp rd 0b00000#5 rs2 0b11100#5 0b000#3 0b01#2 0b1010011#7
  | .mffsr rd => encFp rd 0b00000#5 0b00000#5 0b11101#5 0b000#3 0b00#2 0b1010011#7
  | .feqS rd rs1 rs2 => encFp rd rs1 rs2 0b10101#5 0b000#3 0b00#2 0b1010011#7
  | .fltS rd rs1 rs2 => encFp rd rs1 rs2 0b10110#5 0b000#3 0b00#2 0b1010011#7
  | .fleS rd rs1 rs2 => encFp rd rs1 rs2 0b10111#5 0b000#3 0b00#2 0b1010011#7
  | .feqD rd rs1 rs2 => encFp rd rs1 rs2 0b10101#5 0b000#3 0b01#2 0b1010011#7
  | .fltD rd rs1 rs2 => encFp rd rs1 rs2 0b10110#5 0b000#3 0b01#2 0b1010011#7
  | .fleD rd rs1 rs2 => encFp rd rs1 rs2 0b10111#5 0b000#3 0b01#2 0b1010011#7
  | .fenceI ignored => encIgnored ignored 0b001#3 0b0101111#7
  | .fence ignored => encIgnored ignored 0b010#3 0b0101111#7
  | .syscall => encR 0b00000#5 0b00000#5 0b00000#5 0b0000000#7 0b000#3 0b1110111#7
  | .brk => encR 0b00000#5 0b00000#5 0b00000#5 0b0000000#7 0b001#3 0b1110111#7
  | .rdcycle rd => encR rd 0b00000#5 0b00000#5 0b0000000#7 0b100#3 0b1110111#7
  | .rdtime rd => encR rd 0b00000#5 0b00000#5 0b0000001#7 0b100#3 0b1110111#7
  | .rdinstret rd => encR rd 0b00000#5 0b00000#5 0b0000010#7 0b100#3 0b1110111#7

end Sys2Proof
end

