-- ==== Sys2Proof/Machine/State.lean ====
section
/-! DEFINITION. The state of one hardware thread and of its run, as plain data, and the state after reset
(10_state, 70_reset_and_hazards). Every field is in INVENTORY.md under State with its rule. -/

namespace Sys2Proof.Machine

/-- The parameters of a run (10_state R45, 00_scope R12), which no step changes. They stand in the state so that one
model covers every value of them (log entries 1 to 5). -/
structure Env where
  /-- `XPRLEN` (00_scope R10). -/
  xlen : Xlen
  /-- `ENDIAN` (00_scope R11). -/
  endian : Endian
  /-- `TININESS` (45_fp_compute R303). -/
  tininess : Tininess
  /-- `FMA_INVALID_WITH_QNAN` (45_fp_compute R309). -/
  fmaInvalidWithQNaN : Bool
  /-- Where `Accessible` is false: a predicate on address, size and kind, as data (20_memory R66, log entry 3). -/
  holes : List Hole
  deriving DecidableEq, Repr

/-- The state. XPRLEN-bit values stand in 64-bit slots, zero-extended for RV32 (log entry 1). -/
structure State where
  /-- Parameters of the run (10_state R45). -/
  env : Env
  /-- `x1` to `x31`: register `i` is at index `i - 1`; `x0` has no storage (10_state R21, R22). -/
  x : Vector Word 31
  /-- `f0` to `f31` (10_state R30). -/
  f : Vector (BitVec 64) 32
  /-- The program counter (10_state R25). -/
  pc : Word
  /-- The eight bits of state of `fsr`: RM 7:5, NV 4, DZ 3, OF 2, UF 1, NX 0 (10_state R35, R38). -/
  fsr : BitVec 8
  /-- The retired-instruction counter (10_state R40). -/
  instret : Word
  /-- The unbounded clock-cycle count at the latest read (49_system R455, log entry 12). -/
  cycle : Nat
  /-- The unbounded real-time tick count at the latest read (49_system R457, log entry 13). -/
  time : Nat
  /-- Memory: the bytes that are not 0, by address, addresses strictly rising (20_memory R50, log entry 7). -/
  mem : List Host.Cell
  /-- The bytes stored to since the last FENCE.I, each with a value it had before a store (10_state R42, 20_memory R72,
  log entry 15). -/
  stale : List Host.Cell
  /-- The model's own: how many draws have been made (00_scope R18, log entry 16). -/
  draws : Nat
  deriving DecidableEq, Repr

/-- The parameters of the run from `State.reset` (log entries 1 to 5, all DESIGN CHOICE). -/
def Env.reset : Env :=
  { xlen := .rv64, endian := .little, tininess := .afterRounding, fmaInvalidWithQNaN := false, holes := [] }

/-- The state after reset. The spec gives no reset value but `x0 = 0`, `fsr[31:8] = 0` and the empty set of stored
bytes (70_reset_and_hazards R510); every other value is the model's DESIGN CHOICE (log entries 1 to 8, 12, 13, 16). -/
def State.reset : State :=
  { env := Env.reset, x := Vector.replicate 31 0#64, f := Vector.replicate 32 0#64, pc := 0#64, fsr := 0#8,
    instret := 0#64, cycle := 0, time := 0, mem := [], stale := [], draws := 0 }

/-- The six synchronous exceptions with their `info` (60_exceptions R471). -/
inductive Exception where
  /-- Raised by the fetch of any step with `pc[1:0] ≠ 00` (R472); `info` is the pc. -/
  | instructionAddressMisaligned (pc : Word)
  /-- Raised by decode, and by an instruction that is illegal for XPRLEN or has an invalid rounding mode (R473);
  `info` is the word. -/
  | illegalInstruction (inst : Inst)
  /-- Raised by the 16 AMO instructions at an address that is not naturally aligned (R474); `info` is the address. -/
  | misalignedAddress (addr : Word)
  /-- Raised by a fetch, load, store or AMO where `Accessible` is false (R475); `info` is the address and the kind. -/
  | accessFault (addr : Word) (kind : AccessKind)
  /-- Raised by SYSCALL, always (R476). -/
  | syscall
  /-- Raised by BREAK, always (R477). -/
  | brk
  deriving DecidableEq, Repr

/-- Why a step stops. -/
inductive Fault where
  /-- `Trap(E, pc, info)`, the terminal outcome of a raise (60_exceptions R470, R480): no state changes, nothing is
  saved, the environment takes over. Raised by `raise` only. Safe: the spec itself ends the run here. -/
  | trap (e : Exception) (pc : Word)
  deriving DecidableEq, Repr

/-- Why a step has no meaning. -/
inductive Refusal where
  /-- An arm of `exec` with no meaning yet. Safe: nothing can be proved of a run that reaches it. No arm is left. -/
  | notModelled (mnemonic : String)
  deriving DecidableEq, Repr

/-- The outcome of a step (60_exceptions R496). -/
abbrev Result := Host.Outcome State Fault Refusal

end Sys2Proof.Machine
end

