-- ==== Sys2Proof/Machine/Ops.lean ====
section
/-! DEFINITION. The named operations over registers, memory and control that every meaning is written with: XPRLEN-bit
arithmetic (00_scope R14, R15), registers (10_state R21, R31, R32), memory (20_memory), the pc and `instret`
(10_state R26, R40), and taking an exception (60_exceptions R470, R480). -/

namespace Sys2Proof.Machine

/-! ## XPRLEN-bit values in 64-bit slots -/

/-- `trunc_XPRLEN` (00_scope R15). -/
def truncX (m : Xlen) (v : Word) : Word :=
  match m with
  | .rv32 => (v.setWidth 32).setWidth 64
  | .rv64 => v

/-- `sextX` of a value of at most 32 bits, or of 64 bits for RV64 (00_scope R15). -/
def sextX (m : Xlen) {n : Nat} (v : BitVec n) : Word :=
  match m with
  | .rv32 => (v.signExtend 32).setWidth 64
  | .rv64 => v.signExtend 64

/-- `zextX` (00_scope R15). -/
def zextX (m : Xlen) {n : Nat} (v : BitVec n) : Word :=
  match m with
  | .rv32 => (v.setWidth 32).setWidth 64
  | .rv64 => v.setWidth 64

/-- A function on XPRLEN-bit values, given for every width, at the width `XPRLEN` (00_scope R14). -/
def liftX (m : Xlen) (op : (w : Nat) → BitVec w → BitVec w → BitVec w) (a b : Word) : Word :=
  match m with
  | .rv32 => (op 32 (a.setWidth 32) (b.setWidth 32)).setWidth 64
  | .rv64 => op 64 a b

/-- A test of two XPRLEN-bit values (00_scope R14). -/
def testX (m : Xlen) (p : (w : Nat) → BitVec w → BitVec w → Bool) (a b : Word) : Bool :=
  match m with
  | .rv32 => p 32 (a.setWidth 32) (b.setWidth 32)
  | .rv64 => p 64 a b

/-- A 32-bit function on the low words, its result sign-extended to 64 bits: the W-suffix instructions
(42_int_imm R200). -/
def liftW (op : (w : Nat) → BitVec w → BitVec w → BitVec w) (a b : Word) : Word :=
  (op 32 (a.setWidth 32) (b.setWidth 32)).signExtend 64

/-! ## Registers -/

/-- `XPRLEN` of the run. -/
abbrev State.xlen (s : State) : Xlen := s.env.xlen

/-- The slot of register `r` in the register file; register 0 has none (10_state R21). -/
def slotOf (r : Reg) : Nat := r.toNat - 1

/-- `x[r]`: 0 for `r = 0`, else the XPRLEN-bit content (10_state R21, R22). -/
def State.readX (s : State) (r : Reg) : Word :=
  if r = 0#5 then 0#64 else truncX s.xlen (s.x.getD (slotOf r) 0#64)

/-- `x[r] <- v`: discarded for `r = 0` (10_state R21, R22). -/
def State.writeX (s : State) (r : Reg) (v : Word) : State :=
  if r = 0#5 then s else { s with x := s.x.setIfInBounds (slotOf r) (truncX s.xlen v) }

/-- `f[r]`, all 64 bits (10_state R30). -/
def State.readF (s : State) (r : Reg) : BitVec 64 := s.f.getD r.toNat 0#64

/-- `setD(r, v)`: all 64 bits (10_state R30, R32). -/
def State.writeD (s : State) (r : Reg) (v : BitVec 64) : State :=
  { s with f := s.f.setIfInBounds r.toNat v }

/-- `fS(r) = f[r][31:0]` (10_state R31). -/
def State.readS (s : State) (r : Reg) : BitVec 32 := (s.readF r).setWidth 32

/-- `setS(r, v)`: the low 32 bits become `v` and the upper 32 a fresh draw (10_state R32). -/
def State.writeS (s : State) (r : Reg) (v : BitVec 32) : State :=
  { s.writeD r (Config.freeUpperHalf s.draws ++ v) with draws := s.draws + 1 }

/-- `pc`, XPRLEN bits (10_state R25). -/
def State.pcX (s : State) : Word := truncX s.xlen s.pc

/-- The address of the following instruction, `pc + 4` modulo `2^XPRLEN` (10_state R26, R28). -/
def State.nextPc (s : State) : Word := truncX s.xlen (s.pcX + 4#64)

/-! ## Exceptions and retiring -/

/-- Taking an exception (60_exceptions R470, R480): the outcome is `Trap(E, pc, info)`; no architectural state is written
and none records it. The spec gives no entry beyond this and no return (R481, R482). -/
def raise (s : State) (e : Exception) : Result := .fault (.trap e s.pcX)

/-- `raise IllegalInstruction(inst)` for the instruction being executed (60_exceptions R473). -/
def illegal (s : State) (i : Instr) : Result := raise s (.illegalInstruction (encode i))

/-- The instruction completes with `target` as the next pc: `instret` counts it (10_state R26, R40). -/
def State.retireTo (s : State) (target : Word) : State :=
  { s with pc := truncX s.xlen target, instret := truncX s.xlen (s.instret + 1#64) }

/-- The instruction completes and the next pc is `pc + 4` (10_state R26, R40). -/
def State.retire (s : State) : State := s.retireTo s.nextPc

/-- An instruction that exists only for `XPRLEN = 64` (30_encoding R128). -/
def onlyRv64 (i : Instr) (s : State) (body : Result) : Result :=
  match s.xlen with
  | .rv32 => illegal s i
  | .rv64 => body

/-! ## Memory -/

/-- The byte at an address; an address that is not listed holds 0 (log entry 7). -/
def readCell : List Host.Cell → Nat → Byte
  | [], _ => 0#8
  | (a, b) :: rest, k => if a = k then b else readCell rest k

/-- Memory with the byte at an address replaced, in canonical form. -/
def writeCell : List Host.Cell → Nat → Byte → List Host.Cell
  | [], k, v => if v = 0#8 then [] else [(k, v)]
  | (a, b) :: rest, k, v =>
    if k < a then (if v = 0#8 then (a, b) :: rest else (k, v) :: (a, b) :: rest)
    else if k = a then (if v = 0#8 then rest else (k, v) :: rest)
    else (a, b) :: writeCell rest k v

/-- The canonical form: addresses strictly rising, and no entry that holds what an unlisted address reads as. -/
def Memory.wf : List Host.Cell → Bool
  | [] => true
  | [(_, b)] => b != 0#8
  | (a, b) :: (a', b') :: rest => decide (a < a') && b != 0#8 && Memory.wf ((a', b') :: rest)

/-- The address of byte `i` of an access at `a`, modulo `2^XPRLEN` (20_memory R50). -/
def State.byteAddr (s : State) (a : Word) (i : Nat) : Nat := (truncX s.xlen (a + BitVec.ofNat 64 i)).toNat

/-- The byte of memory at an address. -/
def State.readByte (s : State) (k : Nat) : Byte := readCell s.mem k

/-- One byte stored: memory changes, and the value before the store joins those a fetch may still see
(20_memory R57, R72). -/
def State.writeByte (s : State) (k : Nat) (v : Byte) : State :=
  { s with mem := writeCell s.mem k v, stale := s.stale.insert (k, readCell s.mem k) }

/-- An entry of the list denies the access of `n` bytes at address `k`. -/
def denies (h : Hole) (k n : Nat) (kind : AccessKind) : Bool :=
  h.size == n && h.kind == kind && decide (h.lo ≤ k) && decide (k < h.hi)

/-- `Accessible(a, n, kind)`, asked once for the whole access: no entry of the list denies it (20_memory R66,
60_exceptions R475). `accessible_any` says that every predicate can be given so. -/
def State.accessible (s : State) (a : Word) (n : Nat) (kind : AccessKind) : Bool :=
  !s.env.holes.any (denies · (s.byteAddr a 0) n kind)

/-- The number whose least significant byte is the first of the list. -/
def natOfBytes : List Byte → Nat
  | [] => 0
  | b :: rest => b.toNat + 256 * natOfBytes rest

/-- The `n` bytes of a number, least significant first. -/
def bytesOfNat : Nat → Nat → List Byte
  | 0, _ => []
  | n + 1, v => BitVec.ofNat 8 v :: bytesOfNat n (v / 256)

/-- Bytes in significance order from bytes in address order, or back (20_memory R56, R57). -/
def byteOrder (e : Endian) (bs : List Byte) : List Byte :=
  match e with
  | .little => bs
  | .big => bs.reverse

/-- The bytes at `a`, `a + 1`, up to `n` of them, lowest address first. -/
def State.bytesAt (s : State) (a : Word) (n : Nat) : List Byte :=
  (List.range n).map (fun i => s.readByte (s.byteAddr a i))

/-- `MemRead(a, n)` as a value of `w = 8n` bits (20_memory R56). -/
def State.memRead (s : State) (a : Word) (w : Nat) : BitVec w :=
  BitVec.ofNat w (natOfBytes (byteOrder s.env.endian (s.bytesAt a (w / 8))))

/-- Bytes stored at `a + i`, `a + i + 1` and so on. -/
def State.storeBytes (s : State) (a : Word) : Nat → List Byte → State
  | _, [] => s
  | i, b :: rest => (s.writeByte (s.byteAddr a i) b).storeBytes a (i + 1) rest

/-- `MemWrite(a, n, v)` for a value of `w = 8n` bits (20_memory R57). -/
def State.memWrite (s : State) (a : Word) {w : Nat} (v : BitVec w) : State :=
  s.storeBytes a 0 (byteOrder s.env.endian (bytesOfNat (w / 8) v.toNat))

/-! ## Fetch -/

/-- The values a byte had before the stores to it since the last FENCE.I (20_memory R72). -/
def State.staleAt (s : State) (k : Nat) : List Byte := (s.stale.filter (fun c => c.1 == k)).map (·.2)

/-- One byte of a fetch: the byte in memory or, where the thread has stored to it since its last FENCE.I, a draw
between that and the values before those stores (20_memory R72, log entry 15). -/
def State.fetchByte (s : State) (k : Nat) : Byte :=
  match s.staleAt k with
  | [] => s.readByte k
  | old =>
    let seen := s.readByte k :: old
    seen.getD (Config.staleChoice s.draws k % seen.length) (s.readByte k)

/-- The fetch touches a byte stored to since the last FENCE.I. -/
def State.fetchIsStale (s : State) (a : Word) : Bool :=
  (List.range 4).any (fun i => !(s.staleAt (s.byteAddr a i)).isEmpty)

/-- `Fetch(a)` (20_memory R55). -/
def State.fetchWord (s : State) (a : Word) : Inst :=
  wordOfBytes s.env.endian (s.fetchByte (s.byteAddr a 0)) (s.fetchByte (s.byteAddr a 1))
    (s.fetchByte (s.byteAddr a 2)) (s.fetchByte (s.byteAddr a 3))

/-- The state after a fetch: a fetch of stale bytes uses up a draw. -/
def State.afterFetch (s : State) (a : Word) : State :=
  if s.fetchIsStale a then { s with draws := s.draws + 1 } else s

/-! ## The shapes of loads, stores and atomics -/

/-- A load of `w` bits from `ea`, `k` says what is done with the value (40_load_store R139). -/
def loadThen (s : State) (ea : Word) (w : Nat) (k : BitVec w → Result) : Result :=
  if s.accessible ea (w / 8) .load then k (s.memRead ea w) else raise s (.accessFault ea .load)

/-- A store of the `w`-bit value `v` at `ea`; nothing is written when the access faults (40_load_store R139,
60_exceptions R475). -/
def storeAt (s : State) (ea : Word) {w : Nat} (v : BitVec w) : Result :=
  if s.accessible ea (w / 8) .store then .next (s.memWrite ea v).retire else raise s (.accessFault ea .store)

/-- The common semantics of the AMOs at width `w` (41_amo R161 to R163): alignment, access, then the read-modify-write,
then the old value sign-extended into `rd`. -/
def amo (w : Nat) (op : BitVec w → BitVec w → BitVec w) (rd rs1 rs2 : Reg) (s : State) : Result :=
  let a := s.readX rs1
  let src : BitVec w := (s.readX rs2).setWidth w
  if a.toNat % (w / 8) ≠ 0 then raise s (.misalignedAddress a)
  else if s.accessible a (w / 8) .amo then
    let old := s.memRead a w
    .next ((s.memWrite a (op old src)).writeX rd (sextX s.xlen old)).retire
  else raise s (.accessFault a .amo)

end Sys2Proof.Machine
end

