-- ==== Sys2Proof/Machine/Flags.lean ====
section
/-! DEFINITION. The floating-point status register `fsr` and the five exception flags (10_state R35 to R38), the only flags
of the machine (10_state R29). -/

namespace Sys2Proof.Machine

/-- A set of IEEE exception flags, in the order NV, DZ, OF, UF, NX of `fsr[4:0]` (10_state R35). -/
abbrev FlagSet := BitVec 5

/-- Invalid Operation, bit 4 (10_state R35). -/
def flagNV : FlagSet := 0b10000#5
/-- Divide by Zero, bit 3 (10_state R35). -/
def flagDZ : FlagSet := 0b01000#5
/-- Overflow, bit 2 (10_state R35). -/
def flagOF : FlagSet := 0b00100#5
/-- Underflow, bit 1 (10_state R35). -/
def flagUF : FlagSet := 0b00010#5
/-- Inexact, bit 0 (10_state R35). -/
def flagNX : FlagSet := 0b00001#5
/-- No flag. -/
def noFlags : FlagSet := 0b00000#5

/-- The set `flag` if the condition holds, else none. -/
def flagIf (c : Bool) (flag : FlagSet) : FlagSet := if c then flag else noFlags

/-- `fsr.RM = fsr[7:5]` (10_state R35). -/
def State.fsrRM (s : State) : BitVec 3 := s.fsr.extractLsb' 5 3

/-- `fsr.FLAGS = fsr[4:0]` (10_state R35). -/
def State.fsrFlags (s : State) : FlagSet := s.fsr.extractLsb' 0 5

/-- `fsr.FLAGS <- fsr.FLAGS | F` (10_state R37). -/
def State.accrue (s : State) (fl : FlagSet) : State :=
  { s with fsr := s.fsr.extractLsb' 5 3 ++ (s.fsr.extractLsb' 0 5 ||| fl) }

/-- `fsr` as read: bits 31:8 are 0, zero-extended to XPRLEN bits (10_state R38, 46_fp_convert_move R400). -/
def State.fsrX (s : State) : Word := s.fsr.setWidth 64

/-- `fsr` written with bits 7:0 of a value, the bits above ignored (10_state R38, 46_fp_convert_move R401). -/
def State.writeFsr (s : State) (v : Word) : State := { s with fsr := v.setWidth 8 }

end Sys2Proof.Machine
end

