-- ==== Sys2Proof/Machine/Ieee.lean ====
section
/-! DEFINITION. The IEEE 754-2008 primitives the spec names and does not restate (00_scope R17), on binary32 and binary64:
operands are read as exact numbers `± sig · 2^exp`, the operation is exact on natural numbers and integers, and the result
is rounded once. The content is the standard's, PRESUMED (log entry 23); what the spec fixes within it (canonical NaN, NaN
propagation, tininess as a parameter) is the spec's. -/

namespace Sys2Proof.Machine

/-! ## Formats (45_fp_compute R300, R301) -/

/-- The floating-point format: `fmt = 00` is S, `fmt = 01` is D (45_fp_compute R300). -/
inductive Fmt where
  | s
  | d
  deriving DecidableEq, Repr

/-- Width of the format in bits (45_fp_compute R301). -/
@[reducible] def widthOf : Fmt → Nat
  | .s => 32
  | .d => 64

/-- Width of the fraction field (45_fp_compute R301). -/
def fracBits : Fmt → Nat
  | .s => 23
  | .d => 52

/-- Width of the exponent field (45_fp_compute R301). -/
def expBits : Fmt → Nat
  | .s => 8
  | .d => 11

/-- Exponent bias (45_fp_compute R301). -/
def bias : Fmt → Nat
  | .s => 127
  | .d => 1023

/-- A bit pattern of the format. -/
abbrev Pattern (fm : Fmt) := BitVec (widthOf fm)

/-- The exponent field of all ones. -/
def expMax (fm : Fmt) : Nat := 2 ^ expBits fm - 1

/-- The sign bit. -/
def signOf {fm : Fmt} (v : Pattern fm) : Bool := v.msb

/-- The exponent field (45_fp_compute R301). -/
def expField {fm : Fmt} (v : Pattern fm) : Nat := v.toNat / 2 ^ fracBits fm % 2 ^ expBits fm

/-- The fraction field (45_fp_compute R301). -/
def fracField {fm : Fmt} (v : Pattern fm) : Nat := v.toNat % 2 ^ fracBits fm

/-- NaN (45_fp_compute R301). -/
def isNaN {fm : Fmt} (v : Pattern fm) : Bool := expField v == expMax fm && fracField v != 0

/-- Infinity (45_fp_compute R301). -/
def isInf {fm : Fmt} (v : Pattern fm) : Bool := expField v == expMax fm && fracField v == 0

/-- Zero of either sign (45_fp_compute R301). -/
def isZero {fm : Fmt} (v : Pattern fm) : Bool := expField v == 0 && fracField v == 0

/-- Signaling NaN: a NaN with quiet bit 0 (45_fp_compute R301). -/
def isSNaN {fm : Fmt} (v : Pattern fm) : Bool := isNaN v && !v.getLsbD (fracBits fm - 1)

/-- Quiet NaN: a NaN with quiet bit 1 (45_fp_compute R301). -/
def isQNaN {fm : Fmt} (v : Pattern fm) : Bool := isNaN v && v.getLsbD (fracBits fm - 1)

/-- `quiet(v)`: the quiet bit set, every other bit unchanged (45_fp_compute R301). -/
def quiet {fm : Fmt} (v : Pattern fm) : Pattern fm := v ||| BitVec.ofNat (widthOf fm) (2 ^ (fracBits fm - 1))

/-- A pattern from a sign and the bits below it. -/
def ofSignMag (fm : Fmt) (sign : Bool) (mag : Nat) : Pattern fm :=
  BitVec.ofNat (widthOf fm) ((if sign then 2 ^ (widthOf fm - 1) else 0) + mag)

/-- The canonical NaN: sign 0, exponent and fraction all ones (45_fp_compute R305). -/
def canonicalNaN (fm : Fmt) : Pattern fm := ofSignMag fm false (2 ^ (widthOf fm - 1) - 1)

/-- The bits of infinity below the sign. -/
def infMag (fm : Fmt) : Nat := expMax fm * 2 ^ fracBits fm

/-- Infinity of a sign. -/
def infinity (fm : Fmt) (sign : Bool) : Pattern fm := ofSignMag fm sign (infMag fm)

/-- The largest finite number of a sign. -/
def largestFinite (fm : Fmt) (sign : Bool) : Pattern fm := ofSignMag fm sign (infMag fm - 1)

/-- Zero of a sign. -/
def zeroOf (fm : Fmt) (sign : Bool) : Pattern fm := ofSignMag fm sign 0

/-- The sign bit flipped. -/
def negate {fm : Fmt} (v : Pattern fm) : Pattern fm := v ^^^ BitVec.ofNat (widthOf fm) (2 ^ (widthOf fm - 1))

/-- The significand of a finite number as an integer, with the hidden bit of a normal number (45_fp_compute R301). -/
def sigOf {fm : Fmt} (v : Pattern fm) : Nat :=
  if expField v = 0 then fracField v else fracField v + 2 ^ fracBits fm

/-- The exponent of the least subnormal: every finite number is a multiple of `2 ^ expMin`. -/
def expMin (fm : Fmt) : Int := 1 - bias fm - fracBits fm

/-- The exponent of the significand's unit: a finite number is `± sigOf · 2 ^ expOf`. -/
def expOf {fm : Fmt} (v : Pattern fm) : Int :=
  expMin fm + ((if expField v = 0 then 0 else expField v - 1 : Nat) : Int)

/-! ## Rounding (10_state R36, 45_fp_compute R303) -/

/-- The five rounding modes (10_state R36). -/
inductive Rounding where
  /-- Round to Nearest, ties to Even. -/
  | rne
  /-- Round toward Zero. -/
  | rtz
  /-- Round Down. -/
  | rdn
  /-- Round Up. -/
  | rup
  /-- Round to Nearest, ties to Max Magnitude. -/
  | rmm
  deriving DecidableEq, Repr

/-- Whether the magnitude `n + rem / unit`, `0 ≤ rem < unit`, of a number of the given sign is rounded to `n + 1`
(10_state R36). -/
def roundsAway (rm : Rounding) (sign : Bool) (n rem unit : Nat) : Bool :=
  match rm with
  | .rne => decide (unit < 2 * rem) || (decide (2 * rem = unit) && n % 2 == 1)
  | .rtz => false
  | .rdn => sign && rem != 0
  | .rup => !sign && rem != 0
  | .rmm => decide (unit ≤ 2 * rem) && rem != 0

/-- The magnitude `m · 2^e` in units of `2^q`, rounded to an integer, and whether that changed it. -/
def roundTo (rm : Rounding) (sign : Bool) (m : Nat) (e q : Int) : Nat × Bool :=
  if q ≤ e then (m * 2 ^ (e - q).toNat, false)
  else
    let unit := 2 ^ (q - e).toNat
    let n := m / unit
    let rem := m % unit
    (if roundsAway rm sign n rem unit then n + 1 else n, rem != 0)

/-- Whether an overflow in this direction gives infinity; otherwise the largest finite number (45_fp_compute R303). -/
def overflowsToInf (rm : Rounding) (sign : Bool) : Bool :=
  match rm with
  | .rne => true
  | .rtz => false
  | .rdn => sign
  | .rup => !sign
  | .rmm => true

/-- The exponent of the leading bit of `m · 2^e`. -/
def leadExp (m : Nat) (e : Int) : Int := e + (Nat.log2 m : Int)

/-- Tininess of the exact value `± m · 2^e` (45_fp_compute R303): below the least normal number, before rounding or
after rounding to the format's precision with an unbounded exponent. -/
def isTiny (fm : Fmt) (t : Tininess) (rm : Rounding) (sign : Bool) (m : Nat) (e : Int) : Bool :=
  let minNormal : Int := expMin fm + fracBits fm
  let lead := leadExp m e
  match t with
  | .beforeRounding => decide (lead < minNormal)
  | .afterRounding =>
    decide (lead < minNormal) &&
      !(lead == minNormal - 1 && (roundTo rm sign m e (lead - fracBits fm)).1 == 2 ^ (fracBits fm + 1))

/-- The exact value `± m · 2^e` rounded once into the format, and the flags that raises (45_fp_compute R303). -/
def roundPack (fm : Fmt) (t : Tininess) (rm : Rounding) (sign : Bool) (m : Nat) (e : Int) : Pattern fm × FlagSet :=
  if m = 0 then (zeroOf fm sign, noFlags)
  else
    let q := max (leadExp m e - fracBits fm) (expMin fm)
    let (n, inexact) := roundTo rm sign m e q
    let mag := (q - expMin fm).toNat * 2 ^ fracBits fm + n
    if infMag fm ≤ mag then
      (if overflowsToInf rm sign then infinity fm sign else largestFinite fm sign, flagOF ||| flagNX)
    else
      (ofSignMag fm sign mag, flagIf inexact flagNX ||| flagIf (inexact && isTiny fm t rm sign m e) flagUF)

/-- The sign of an exact zero sum of two operands of these signs (45_fp_compute R311). -/
def zeroSumSign (rm : Rounding) (s1 s2 : Bool) : Bool := if s1 = s2 then s1 else rm == .rdn

/-- The signed integer `± n`. -/
def signedNat (sign : Bool) (n : Nat) : Int := if sign then -(n : Int) else n

/-- The exact sum `± m1 · 2^e1 ± m2 · 2^e2`, rounded once. -/
def addExact (fm : Fmt) (t : Tininess) (rm : Rounding) (s1 : Bool) (m1 : Nat) (e1 : Int) (s2 : Bool) (m2 : Nat)
    (e2 : Int) : Pattern fm × FlagSet :=
  let e := min e1 e2
  let sum := signedNat s1 (m1 * 2 ^ (e1 - e).toNat) + signedNat s2 (m2 * 2 ^ (e2 - e).toNat)
  if sum = 0 then (zeroOf fm (zeroSumSign rm s1 s2), noFlags)
  else roundPack fm t rm (decide (sum < 0)) sum.natAbs e

/-! ## Arithmetic on operands that are not NaN (00_scope R17; invalid cases 45_fp_compute R305) -/

/-- The result of an invalid operation on non-NaN inputs (45_fp_compute R305). -/
def invalid (fm : Fmt) : Pattern fm × FlagSet := (canonicalNaN fm, flagNV)

/-- `ieee_add` (00_scope R17). -/
def ieeeAdd (fm : Fmt) (t : Tininess) (rm : Rounding) (a b : Pattern fm) : Pattern fm × FlagSet :=
  if isInf a then (if isInf b && signOf a != signOf b then invalid fm else (a, noFlags))
  else if isInf b then (b, noFlags)
  else addExact fm t rm (signOf a) (sigOf a) (expOf a) (signOf b) (sigOf b) (expOf b)

/-- `ieee_sub` (00_scope R17). -/
def ieeeSub (fm : Fmt) (t : Tininess) (rm : Rounding) (a b : Pattern fm) : Pattern fm × FlagSet :=
  ieeeAdd fm t rm a (negate b)

/-- `ieee_mul` (00_scope R17). -/
def ieeeMul (fm : Fmt) (t : Tininess) (rm : Rounding) (a b : Pattern fm) : Pattern fm × FlagSet :=
  let sign := signOf a != signOf b
  if (isInf a && isZero b) || (isZero a && isInf b) then invalid fm
  else if isInf a || isInf b then (infinity fm sign, noFlags)
  else roundPack fm t rm sign (sigOf a * sigOf b) (expOf a + expOf b)

/-- `ieee_div` (00_scope R17). The quotient is taken to more bits than any result has, with a last bit that says whether
the division left a remainder, so that rounding it is rounding the exact quotient. -/
def ieeeDiv (fm : Fmt) (t : Tininess) (rm : Rounding) (a b : Pattern fm) : Pattern fm × FlagSet :=
  let sign := signOf a != signOf b
  if (isInf a && isInf b) || (isZero a && isZero b) then invalid fm
  else if isInf a then (infinity fm sign, noFlags)
  else if isInf b then (zeroOf fm sign, noFlags)
  else if isZero b then (infinity fm sign, flagDZ)
  else
    let k := 2 * fracBits fm + 5
    let num := sigOf a * 2 ^ k
    let q := num / sigOf b
    let sticky := if num % sigOf b = 0 then 0 else 1
    roundPack fm t rm sign (2 * q + sticky) (expOf a - expOf b - k - 1)

/-- The integer square root, two bits of the argument at a step; `fuel` steps suffice for `n < 4 ^ fuel`. -/
def isqrt : Nat → Nat → Nat
  | 0, _ => 0
  | fuel + 1, n =>
    let r := 2 * isqrt fuel (n / 4)
    if (r + 1) * (r + 1) ≤ n then r + 1 else r

/-- `ieee_sqrt` (00_scope R17). As in `ieeeDiv`, the last bit says whether the root is exact. -/
def ieeeSqrt (fm : Fmt) (t : Tininess) (rm : Rounding) (a : Pattern fm) : Pattern fm × FlagSet :=
  if isZero a then (a, noFlags)
  else if signOf a then invalid fm
  else if isInf a then (a, noFlags)
  else
    let k := fracBits fm + 4
    let odd := expOf a % 2 = 1
    let m := (if odd then 2 * sigOf a else sigOf a) * 2 ^ (2 * k)
    let e := if odd then expOf a - 1 else expOf a
    let r := isqrt (2 * fracBits fm + 8) m
    let sticky := if r * r = m then 0 else 1
    roundPack fm t rm false (2 * r + sticky) (e / 2 - k - 1)

/-- `ieee_fma`: `a × b + c` with one rounding (00_scope R17, 45_fp_compute R329). -/
def ieeeFma (fm : Fmt) (t : Tininess) (rm : Rounding) (a b c : Pattern fm) : Pattern fm × FlagSet :=
  let sign := signOf a != signOf b
  if (isInf a && isZero b) || (isZero a && isInf b) then invalid fm
  else if isInf a || isInf b then
    (if isInf c && signOf c != sign then invalid fm else (infinity fm sign, noFlags))
  else if isInf c then (c, noFlags)
  else addExact fm t rm sign (sigOf a * sigOf b) (expOf a + expOf b) (signOf c) (sigOf c) (expOf c)

/-- `ieee_convert` between the formats (00_scope R17). -/
def ieeeConvert (src dst : Fmt) (t : Tininess) (rm : Rounding) (a : Pattern src) : Pattern dst × FlagSet :=
  if isInf a then (infinity dst (signOf a), noFlags)
  else roundPack dst t rm (signOf a) (sigOf a) (expOf a)

/-- `ieee_from_int` (00_scope R17, 46_fp_convert_move R374); 0 converts to +0. -/
def ieeeFromInt (fm : Fmt) (t : Tininess) (rm : Rounding) (i : Int) : Pattern fm × FlagSet :=
  roundPack fm t rm (decide (i < 0)) i.natAbs 0

/-- `round_to_integer(a, rm)` of a finite number, and whether it differs from `a` (46_fp_convert_move R384). -/
def roundToInteger {fm : Fmt} (rm : Rounding) (a : Pattern fm) : Int × Bool :=
  let (n, inexact) := roundTo rm (signOf a) (sigOf a) (expOf a) 0
  (signedNat (signOf a) n, inexact)

/-! ## Comparison of operands that are not NaN (47_fp_compare R421) -/

/-- An integer that orders the non-NaN patterns as the numbers they stand for: −0 and +0 are equal, −∞ is below every
finite number and +∞ above (47_fp_compare R421). -/
def orderKey {fm : Fmt} (v : Pattern fm) : Int := signedNat (signOf v) (v.toNat % 2 ^ (widthOf fm - 1))

/-- `ieee_eq` (00_scope R17). -/
def ieeeEq {fm : Fmt} (a b : Pattern fm) : Bool := orderKey a == orderKey b
/-- `ieee_lt` (00_scope R17). -/
def ieeeLt {fm : Fmt} (a b : Pattern fm) : Bool := decide (orderKey a < orderKey b)
/-- `ieee_le` (00_scope R17). -/
def ieeeLe {fm : Fmt} (a b : Pattern fm) : Bool := decide (orderKey a ≤ orderKey b)

/-! ## NaN rules of the spec (45_fp_compute R306 to R309) -/

/-- `nan_result`: the first signaling NaN quieted, else the first quiet NaN (45_fp_compute R306). With no NaN input it is
not applicable. -/
def nanResult {fm : Fmt} (args : List (Pattern fm)) : Pattern fm :=
  match args.find? (isSNaN ·) with
  | some v => quiet v
  | none =>
    match args.find? (isQNaN ·) with
    | some v => v
    | none => canonicalNaN fm

/-- NV for a signaling NaN operand, none for a quiet one (45_fp_compute R309). -/
def nanFlags {fm : Fmt} (args : List (Pattern fm)) : FlagSet := flagIf (args.any (isSNaN ·)) flagNV

/-- `minmax_nan`: a signaling NaN wins quieted, two quiet NaNs give the first, one gives the other operand
(45_fp_compute R307). -/
def minMaxNaN {fm : Fmt} (a b : Pattern fm) : Pattern fm :=
  if isSNaN a then quiet a
  else if isSNaN b then quiet b
  else if isQNaN a && isQNaN b then a
  else if isQNaN a then b
  else a

/-- `nan_S_to_D` (45_fp_compute R308): sign kept, fraction at the top, quiet bit set, low bits clear. -/
def nanSToD (v : Pattern .s) : Pattern .d :=
  v.extractLsb' 31 1 ++ 0b11111111111#11 ++ 1#1 ++ v.extractLsb' 0 22 ++ 0#29

/-- `nan_D_to_S` (45_fp_compute R308): sign kept, low fraction bits discarded, quiet bit set. -/
def nanDToS (v : Pattern .d) : Pattern .s :=
  v.extractLsb' 63 1 ++ 0b11111111#8 ++ 1#1 ++ v.extractLsb' 29 22

/-! ## Whole operations: NaN operands first, then the arithmetic (45_fp_compute R310 to R337) -/

/-- The middle of `arith2` (45_fp_compute, section 5). -/
def arith2 (op : (fm : Fmt) → Tininess → Rounding → Pattern fm → Pattern fm → Pattern fm × FlagSet) (fm : Fmt)
    (t : Tininess) (rm : Rounding) (a b : Pattern fm) : Pattern fm × FlagSet :=
  if isNaN a || isNaN b then (nanResult [a, b], nanFlags [a, b]) else op fm t rm a b

/-- The middle of FSQRT (45_fp_compute R314). -/
def arithSqrt (fm : Fmt) (t : Tininess) (rm : Rounding) (a : Pattern fm) : Pattern fm × FlagSet :=
  if isNaN a then (nanResult [a], nanFlags [a]) else ieeeSqrt fm t rm a

/-- The middle of `fma4` (45_fp_compute R329): the sign changes act on the operands, so that the negated forms round the
negated value once. -/
def fma4 (fm : Fmt) (t : Tininess) (invalidWithQNaN : Bool) (negProduct negAddend : Bool) (rm : Rounding)
    (a b c : Pattern fm) : Pattern fm × FlagSet :=
  if isNaN a || isNaN b || isNaN c then
    (nanResult [a, b, c],
      if isSNaN a || isSNaN b || isSNaN c then flagNV
      else flagIf (invalidWithQNaN && ((isZero a && isInf b) || (isInf a && isZero b))) flagNV)
  else ieeeFma fm t rm (if negProduct then negate a else a) b (if negAddend then negate c else c)

/-- The middle of FMIN (`wantMin`) and FMAX (45_fp_compute R315, R316), for operands that are not zeros of opposite
sign; for those the result is `pickFirst`'s operand. -/
def minMax {fm : Fmt} (wantMin pickFirst : Bool) (a b : Pattern fm) : Pattern fm :=
  if isNaN a || isNaN b then minMaxNaN a b
  else if ieeeLt a b then (if wantMin then a else b)
  else if ieeeLt b a then (if wantMin then b else a)
  else if pickFirst then a else b

/-- FMIN and FMAX meet zeros of opposite sign, the one case whose result is a draw (45_fp_compute R315). -/
def zerosDiffer {fm : Fmt} (a b : Pattern fm) : Bool := isZero a && isZero b && signOf a != signOf b

/-- The middle of FCVT.S.D (46_fp_convert_move R370). -/
def convertDToS (t : Tininess) (rm : Rounding) (a : Pattern .d) : Pattern .s × FlagSet :=
  if isNaN a then (nanDToS a, nanFlags [a]) else ieeeConvert .d .s t rm a

/-- The middle of FCVT.D.S: always exact (46_fp_convert_move R371). -/
def convertSToD (t : Tininess) (rm : Rounding) (a : Pattern .s) : Pattern .d × FlagSet :=
  if isNaN a then (nanSToD a, nanFlags [a]) else ((ieeeConvert .s .d t rm a).1, noFlags)

/-- The middle of `fp_to_int`: the integer, or `none` when the conversion is invalid, and the flags
(46_fp_convert_move R384). -/
def fpToInt {fm : Fmt} (lo hi : Int) (rm : Rounding) (a : Pattern fm) : Option Int × FlagSet :=
  if isNaN a || isInf a then (none, flagNV)
  else
    let (i, inexact) := roundToInteger rm a
    if i < lo || hi < i then (none, flagNV) else (some i, flagIf inexact flagNX)

/-- The middle of `fcmp` (47_fp_compare R421); `signaling` is true for FLT and FLE. -/
def compare {fm : Fmt} (signaling : Bool) (rel : Pattern fm → Pattern fm → Bool) (a b : Pattern fm) : Bool × FlagSet :=
  if isNaN a || isNaN b then (false, flagIf (signaling || isSNaN a || isSNaN b) flagNV) else (rel a b, noFlags)

/-- A sign-injection result: all bits but the sign from `a` (46_fp_convert_move, section 1). -/
def withSign {fm : Fmt} (sign : Bool) (a : Pattern fm) : Pattern fm :=
  ofSignMag fm sign (a.toNat % 2 ^ (widthOf fm - 1))

end Sys2Proof.Machine
end

