-- ==== Sys2Proof/Machine/Operands.lean ====
section
/-! DEFINITION. Every operand form the spec gives, and the shapes the meanings share: immediates and offsets
(30_encoding R100 to R105), effective addresses (40_load_store R131), shift amounts (43_int_reg, section 3), the rounding mode
(45_fp_compute R302), f registers by format (10_state R31, R32). -/

namespace Sys2Proof.Machine

/-! ## Immediates, addresses, targets -/

/-- `sextX(imm12)` of the I-type and B-type instructions that do not scale it (30_encoding R105). -/
def immX (m : Xlen) (imm : BitVec 12) : Word := sextX m imm

/-- `sextX({imm12, 0})`, a branch offset in bytes (44_control R286). -/
def branchOffset (m : Xlen) (imm : BitVec 12) : Word := sextX m (imm ++ 0#1)

/-- `sextX({off25, 0})`, a jump offset in bytes (44_control R271). -/
def jumpOffset (m : Xlen) (off : BitVec 25) : Word := sextX m (off ++ 0#1)

/-- `sextX({imm20, 000000000000})` (42_int_imm R205). -/
def upperImm (m : Xlen) (imm : BitVec 20) : Word := sextX m (imm ++ 0#12)

/-- `x[rs1] + sextX(imm12)` modulo `2^XPRLEN`: the address of a load or store and the target of a JALR
(40_load_store R131, 44_control R273). -/
def State.regOffset (s : State) (rs1 : Reg) (imm : BitVec 12) : Word :=
  truncX s.xlen (s.readX rs1 + immX s.xlen imm)

/-- `pc + offset` modulo `2^XPRLEN` (10_state R28). -/
def State.pcRelative (s : State) (offset : Word) : Word := truncX s.xlen (s.pcX + offset)

/-! ## Integer operations at a width -/

/-- The low 5 bits (width 32) or 6 bits (width 64) of a shift-amount operand (43_int_reg, section 3). -/
def shiftBy {w : Nat} (b : BitVec w) : Nat := b.toNat % w

/-- Left shift, zeros entering at bit 0. -/
def opSll (w : Nat) (a b : BitVec w) : BitVec w := a <<< shiftBy b
/-- Right shift, zeros entering at the top. -/
def opSrl (w : Nat) (a b : BitVec w) : BitVec w := a >>> shiftBy b
/-- Right shift, copies of the sign entering at the top. -/
def opSra (w : Nat) (a b : BitVec w) : BitVec w := a.sshiftRight (shiftBy b)
/-- Sum modulo `2^w`. -/
def opAdd (w : Nat) (a b : BitVec w) : BitVec w := a + b
/-- Difference modulo `2^w`. -/
def opSub (w : Nat) (a b : BitVec w) : BitVec w := a - b
/-- Bitwise AND. -/
def opAnd (w : Nat) (a b : BitVec w) : BitVec w := a &&& b
/-- Bitwise OR. -/
def opOr (w : Nat) (a b : BitVec w) : BitVec w := a ||| b
/-- Bitwise XOR. -/
def opXor (w : Nat) (a b : BitVec w) : BitVec w := a ^^^ b
/-- The low half of the product. -/
def opMul (w : Nat) (a b : BitVec w) : BitVec w := a * b
/-- The high half of the signed product (43_int_reg R237). -/
def opMulh (w : Nat) (a b : BitVec w) : BitVec w := BitVec.ofInt w (a.toInt * b.toInt / 2 ^ w)
/-- The high half of the product of a signed by an unsigned number (43_int_reg R238). -/
def opMulhsu (w : Nat) (a b : BitVec w) : BitVec w := BitVec.ofInt w (a.toInt * b.toNat / 2 ^ w)
/-- The high half of the unsigned product (43_int_reg R239). -/
def opMulhu (w : Nat) (a b : BitVec w) : BitVec w := BitVec.ofNat w (a.toNat * b.toNat / 2 ^ w)

/-- The one pair of operands on which signed division overflows (43_int_reg R245). -/
def divOverflows {w : Nat} (a b : BitVec w) : Bool := a == BitVec.intMin w && b == BitVec.allOnes w

/-- Signed quotient, rounded toward zero (43_int_reg R240, R245, R246). -/
def opDiv (w : Nat) (a b : BitVec w) : BitVec w :=
  if b = 0#w then BitVec.allOnes w
  else if divOverflows a b then a
  else BitVec.ofInt w (a.toInt.tdiv b.toInt)

/-- Unsigned quotient (43_int_reg R241, R245). -/
def opDivu (w : Nat) (a b : BitVec w) : BitVec w :=
  if b = 0#w then BitVec.allOnes w else BitVec.ofNat w (a.toNat / b.toNat)

/-- Signed remainder, with the sign of the dividend (43_int_reg R242, R245, R246). -/
def opRem (w : Nat) (a b : BitVec w) : BitVec w :=
  if b = 0#w then a
  else if divOverflows a b then 0#w
  else BitVec.ofInt w (a.toInt - b.toInt * a.toInt.tdiv b.toInt)

/-- Unsigned remainder (43_int_reg R243, R245). -/
def opRemu (w : Nat) (a b : BitVec w) : BitVec w :=
  if b = 0#w then a else BitVec.ofNat w (a.toNat % b.toNat)

/-- Equal, all bits. -/
def tstEq (w : Nat) (a b : BitVec w) : Bool := a == b
/-- Not equal. -/
def tstNe (w : Nat) (a b : BitVec w) : Bool := a != b
/-- Less, as signed numbers. -/
def tstLt (w : Nat) (a b : BitVec w) : Bool := a.slt b
/-- Greater or equal, as signed numbers. -/
def tstGe (w : Nat) (a b : BitVec w) : Bool := b.sle a
/-- Less, as unsigned numbers. -/
def tstLtu (w : Nat) (a b : BitVec w) : Bool := a.ult b
/-- Greater or equal, as unsigned numbers. -/
def tstGeu (w : Nat) (a b : BitVec w) : Bool := b.ule a

/-! ## Shapes of the integer and control instructions -/

/-- `x[rd] <- v`, and on to the next instruction. -/
def setRd (rd : Reg) (v : Word) (s : State) : Result := .next (s.writeX rd v).retire

/-- `x[rd] <- op(a, b)` at width XPRLEN (42_int_imm R190, 43_int_reg R220). -/
def intOp (op : (w : Nat) → BitVec w → BitVec w → BitVec w) (rd : Reg) (a b : Word) (s : State) : Result :=
  setRd rd (liftX s.xlen op a b) s

/-- `x[rd] <- 1 if test(a, b) else 0` (42_int_imm R192, 43_int_reg R224). -/
def intTest (test : (w : Nat) → BitVec w → BitVec w → Bool) (rd : Reg) (a b : Word) (s : State) : Result :=
  setRd rd (if testX s.xlen test a b then 1#64 else 0#64) s

/-- A W-suffix instruction: RV64 only, on the low words, its 32-bit result sign-extended (42_int_imm R200). -/
def intOpW (i : Instr) (op : (w : Nat) → BitVec w → BitVec w → BitVec w) (rd : Reg) (a b : Word) (s : State) : Result :=
  onlyRv64 i s (setRd rd (liftW op a b) s)

/-- A shift by a constant; bit 5 of the amount must be 0 in RV32 (42_int_imm R197). -/
def shiftImm (i : Instr) (op : (w : Nat) → BitVec w → BitVec w → BitVec w) (rd rs1 : Reg) (amt : BitVec 6) (s : State) :
    Result :=
  if s.xlen = .rv32 ∧ amt.getLsbD 5 then illegal s i else intOp op rd (s.readX rs1) (amt.setWidth 64) s

/-- A conditional branch (44_control R286). -/
def branch (test : (w : Nat) → BitVec w → BitVec w → Bool) (rs1 rs2 : Reg) (imm : BitVec 12) (s : State) : Result :=
  if testX s.xlen test (s.readX rs1) (s.readX rs2) then
    .next (s.retireTo (s.pcRelative (branchOffset s.xlen imm)))
  else .next s.retire

/-- A jump to `target` that leaves `pc + 4` in `x[rd]` (44_control R272, R273). -/
def linkTo (rd : Reg) (target : Word) (s : State) : Result := .next ((s.writeX rd s.nextPc).retireTo target)

/-! ## Floating-point operands -/

/-- The rounding mode of a three-bit code, none for 101, 110 and 111 (10_state R36). -/
def roundingOf (code : BitVec 3) : Option Rounding :=
  if code = 0b000#3 then some .rne
  else if code = 0b001#3 then some .rtz
  else if code = 0b010#3 then some .rdn
  else if code = 0b011#3 then some .rup
  else if code = 0b100#3 then some .rmm
  else none

/-- `resolve_rm`: a static mode, or the mode in `fsr.RM` for 111 (45_fp_compute R302). -/
def resolveRm (s : State) (rm : BitVec 3) : Option Rounding :=
  if rm = 0b111#3 then roundingOf s.fsrRM else roundingOf rm

/-- An instruction that rounds: an invalid rounding mode is an illegal instruction (45_fp_compute R302). -/
def withRounding (i : Instr) (rm : BitVec 3) (s : State) (body : Rounding → Result) : Result :=
  match resolveRm s rm with
  | none => illegal s i
  | some r => body r

/-- `f_fmt(r)` (45_fp_compute R300, 10_state R31). -/
def State.readFmt (s : State) (fm : Fmt) (r : Reg) : Pattern fm :=
  match fm with
  | .s => s.readS r
  | .d => s.readF r

/-- `set_fmt(r, v)` (45_fp_compute R300, 10_state R32). -/
def State.writeFmt (s : State) {fm : Fmt} (r : Reg) (v : Pattern fm) : State :=
  match fm, v with
  | .s, v => s.writeS r v
  | .d, v => s.writeD r v

/-- `set_fmt(rd, v); fsr.FLAGS <- fsr.FLAGS | F`, and on to the next instruction. -/
def setFd {fm : Fmt} (rd : Reg) (res : Pattern fm × FlagSet) (s : State) : Result :=
  .next ((s.writeFmt rd res.1).accrue res.2).retire

/-- `x[rd] <- v; fsr.FLAGS <- fsr.FLAGS | F`, and on to the next instruction. -/
def setRdFlags (rd : Reg) (v : Word) (fl : FlagSet) (s : State) : Result := .next ((s.writeX rd v).accrue fl).retire

/-! ## Shapes of the floating-point instructions -/

/-- FADD, FSUB, FMUL, FDIV: `arith2` (45_fp_compute, section 5). -/
def fpArith (i : Instr) (op : (fm : Fmt) → Tininess → Rounding → Pattern fm → Pattern fm → Pattern fm × FlagSet)
    (fm : Fmt) (rd rs1 rs2 : Reg) (rm : BitVec 3) (s : State) : Result :=
  withRounding i rm s fun r => setFd rd (arith2 op fm s.env.tininess r (s.readFmt fm rs1) (s.readFmt fm rs2)) s

/-- FSQRT (45_fp_compute R314). -/
def fpSqrt (i : Instr) (fm : Fmt) (rd rs1 : Reg) (rm : BitVec 3) (s : State) : Result :=
  withRounding i rm s fun r => setFd rd (arithSqrt fm s.env.tininess r (s.readFmt fm rs1)) s

/-- The fused multiply-adds: `fma4` (45_fp_compute R329). -/
def fpFused (i : Instr) (fm : Fmt) (negProduct negAddend : Bool) (rd rs1 rs2 rs3 : Reg) (rm : BitVec 3) (s : State) :
    Result :=
  withRounding i rm s fun r =>
    setFd rd (fma4 fm s.env.tininess s.env.fmaInvalidWithQNaN negProduct negAddend r (s.readFmt fm rs1)
      (s.readFmt fm rs2) (s.readFmt fm rs3)) s

/-- FMIN and FMAX; zeros of opposite sign use up a draw (45_fp_compute R315, log entry 10). -/
def fpMinMax (wantMin : Bool) (fm : Fmt) (rd rs1 rs2 : Reg) (s : State) : Result :=
  let a := s.readFmt fm rs1
  let b := s.readFmt fm rs2
  let drawn := if zerosDiffer a b then { s with draws := s.draws + 1 } else s
  setFd rd (minMax wantMin (Config.zeroPick s.draws) a b, nanFlags [a, b]) drawn

/-- Sign injection; the new sign is a function of the two signs (46_fp_convert_move, section 1). -/
def fpSign (fm : Fmt) (sign : Bool → Bool → Bool) (rd rs1 rs2 : Reg) (s : State) : Result :=
  let a := s.readFmt fm rs1
  .next (s.writeFmt rd (withSign (sign (signOf a) (signOf (s.readFmt fm rs2))) a)).retire

/-- Integer to floating-point from the low `width` bits of `x[rs1]`: `int_to_fp` (46_fp_convert_move R374). -/
def fpFromInt (i : Instr) (fm : Fmt) (width : Nat) (signed : Bool) (rd rs1 : Reg) (rm : BitVec 3) (s : State) : Result :=
  withRounding i rm s fun r =>
    let n : BitVec width := (s.readX rs1).setWidth width
    setFd rd (ieeeFromInt fm s.env.tininess r (if signed then n.toInt else n.toNat)) s

/-- The least integer of a destination (46_fp_convert_move R384). -/
def intLow (width : Nat) (signed : Bool) : Int := if signed then -2 ^ (width - 1) else 0

/-- The greatest integer of a destination (46_fp_convert_move R384). -/
def intHigh (width : Nat) (signed : Bool) : Int := if signed then 2 ^ (width - 1) - 1 else 2 ^ width - 1

/-- Floating-point to integer: `fp_to_int`. The value of an invalid conversion is `FCVT_INVALID(inst, operand)`
(46_fp_convert_move R384, log entry 11). -/
def fpToX (i : Instr) (fm : Fmt) (width : Nat) (signed : Bool) (rd rs1 : Reg) (rm : BitVec 3) (s : State) : Result :=
  withRounding i rm s fun r =>
    let a := s.readFmt fm rs1
    let res := fpToInt (intLow width signed) (intHigh width signed) r a
    let v : Word :=
      match res.1 with
      | some n => sextX s.xlen (BitVec.ofInt width n)
      | none => truncX s.xlen (Config.fcvtInvalid s.xlen (encode i) (a.setWidth 64))
    setRdFlags rd v res.2 s

/-- A floating-point compare: `fcmp` (47_fp_compare R421). -/
def fpCompare (signaling : Bool) (rel : {fm : Fmt} → Pattern fm → Pattern fm → Bool) (fm : Fmt) (rd rs1 rs2 : Reg)
    (s : State) : Result :=
  let res := compare signaling rel (s.readFmt fm rs1) (s.readFmt fm rs2)
  setRdFlags rd (if res.1 then 1#64 else 0#64) res.2 s

end Sys2Proof.Machine
end

