-- ==== Sys2Proof/Machine/Amo.lean ====
section
/-! DEFINITION. The atomic memory operations (41_amo). -/

namespace Sys2Proof.Machine

/-- The operators of the AMOs that Operands.lean does not have (41_amo R164). -/
def opSwap (w : Nat) (_old src : BitVec w) : BitVec w := src
/-- `old` if `signed(old) <= signed(src)` else `src` (41_amo R164). -/
def opMin (w : Nat) (old src : BitVec w) : BitVec w := if old.sle src then old else src
/-- `old` if `signed(old) >= signed(src)` else `src` (41_amo R164). -/
def opMax (w : Nat) (old src : BitVec w) : BitVec w := if src.sle old then old else src
/-- `old` if `unsigned(old) <= unsigned(src)` else `src` (41_amo R164). -/
def opMinu (w : Nat) (old src : BitVec w) : BitVec w := if old.ule src then old else src
/-- `old` if `unsigned(old) >= unsigned(src)` else `src` (41_amo R164). -/
def opMaxu (w : Nat) (old src : BitVec w) : BitVec w := if src.ule old then old else src

/-- AMOADD.W (41_amo R165): memory becomes `old + src` of the 32-bit values, the old word goes to `rd` (R161). -/
def execAmoaddW (rd rs1 rs2 : Reg) (s : State) : Result := amo 32 (opAdd 32) rd rs1 rs2 s

/-- AMOSWAP.W (41_amo R166): memory becomes `src` of the 32-bit values, the old word goes to `rd` (R161). -/
def execAmoswapW (rd rs1 rs2 : Reg) (s : State) : Result := amo 32 (opSwap 32) rd rs1 rs2 s

/-- AMOAND.W (41_amo R167): memory becomes `old & src` of the 32-bit values, the old word goes to `rd` (R161). -/
def execAmoandW (rd rs1 rs2 : Reg) (s : State) : Result := amo 32 (opAnd 32) rd rs1 rs2 s

/-- AMOOR.W (41_amo R168): memory becomes `old | src` of the 32-bit values, the old word goes to `rd` (R161). -/
def execAmoorW (rd rs1 rs2 : Reg) (s : State) : Result := amo 32 (opOr 32) rd rs1 rs2 s

/-- AMOMIN.W (41_amo R169): memory becomes the signed minimum of the 32-bit values, the old word goes to `rd` (R161).
-/
def execAmominW (rd rs1 rs2 : Reg) (s : State) : Result := amo 32 (opMin 32) rd rs1 rs2 s

/-- AMOMAX.W (41_amo R170): memory becomes the signed maximum of the 32-bit values, the old word goes to `rd` (R161).
-/
def execAmomaxW (rd rs1 rs2 : Reg) (s : State) : Result := amo 32 (opMax 32) rd rs1 rs2 s

/-- AMOMINU.W (41_amo R171): memory becomes the unsigned minimum of the 32-bit values, the old word goes to `rd`
(R161). -/
def execAmominuW (rd rs1 rs2 : Reg) (s : State) : Result := amo 32 (opMinu 32) rd rs1 rs2 s

/-- AMOMAXU.W (41_amo R172): memory becomes the unsigned maximum of the 32-bit values, the old word goes to `rd`
(R161). -/
def execAmomaxuW (rd rs1 rs2 : Reg) (s : State) : Result := amo 32 (opMaxu 32) rd rs1 rs2 s

/-- AMOADD.D (41_amo R173): memory becomes `old + src` of the 64-bit values, the old doubleword goes to `rd` (R161);
RV64 only. -/
def execAmoaddD (rd rs1 rs2 : Reg) (s : State) : Result :=
  onlyRv64 (.amoaddD rd rs1 rs2) s (amo 64 (opAdd 64) rd rs1 rs2 s)

/-- AMOSWAP.D (41_amo R174): memory becomes `src` of the 64-bit values, the old doubleword goes to `rd` (R161); RV64
only. -/
def execAmoswapD (rd rs1 rs2 : Reg) (s : State) : Result :=
  onlyRv64 (.amoswapD rd rs1 rs2) s (amo 64 (opSwap 64) rd rs1 rs2 s)

/-- AMOAND.D (41_amo R175): memory becomes `old & src` of the 64-bit values, the old doubleword goes to `rd` (R161);
RV64 only. -/
def execAmoandD (rd rs1 rs2 : Reg) (s : State) : Result :=
  onlyRv64 (.amoandD rd rs1 rs2) s (amo 64 (opAnd 64) rd rs1 rs2 s)

/-- AMOOR.D (41_amo R176): memory becomes `old | src` of the 64-bit values, the old doubleword goes to `rd` (R161);
RV64 only. -/
def execAmoorD (rd rs1 rs2 : Reg) (s : State) : Result :=
  onlyRv64 (.amoorD rd rs1 rs2) s (amo 64 (opOr 64) rd rs1 rs2 s)

/-- AMOMIN.D (41_amo R177): memory becomes the signed minimum of the 64-bit values, the old doubleword goes to `rd`
(R161); RV64 only. -/
def execAmominD (rd rs1 rs2 : Reg) (s : State) : Result :=
  onlyRv64 (.amominD rd rs1 rs2) s (amo 64 (opMin 64) rd rs1 rs2 s)

/-- AMOMAX.D (41_amo R178): memory becomes the signed maximum of the 64-bit values, the old doubleword goes to `rd`
(R161); RV64 only. -/
def execAmomaxD (rd rs1 rs2 : Reg) (s : State) : Result :=
  onlyRv64 (.amomaxD rd rs1 rs2) s (amo 64 (opMax 64) rd rs1 rs2 s)

/-- AMOMINU.D (41_amo R179): memory becomes the unsigned minimum of the 64-bit values, the old doubleword goes to `rd`
(R161); RV64 only. -/
def execAmominuD (rd rs1 rs2 : Reg) (s : State) : Result :=
  onlyRv64 (.amominuD rd rs1 rs2) s (amo 64 (opMinu 64) rd rs1 rs2 s)

/-- AMOMAXU.D (41_amo R180): memory becomes the unsigned maximum of the 64-bit values, the old doubleword goes to `rd`
(R161); RV64 only. -/
def execAmomaxuD (rd rs1 rs2 : Reg) (s : State) : Result :=
  onlyRv64 (.amomaxuD rd rs1 rs2) s (amo 64 (opMaxu 64) rd rs1 rs2 s)

end Sys2Proof.Machine
end

