-- ==== Sys2Proof/Machine/Control.lean ====
section
/-! DEFINITION. The control transfer instructions (44_control). A misaligned target is detected at the next fetch (R270). -/

namespace Sys2Proof.Machine

/-- J (44_control R271): `pc <- pc + sextX({off25, 0})`. -/
def execJ (off : BitVec 25) (s : State) : Result := .next (s.retireTo (s.pcRelative (jumpOffset s.xlen off)))

/-- JAL (44_control R272): `x[1] <- pc + 4`, then as J; the link register is always x1. -/
def execJal (off : BitVec 25) (s : State) : Result := linkTo 1#5 (s.pcRelative (jumpOffset s.xlen off)) s

/-- JALR.C (44_control R274): the JALR of R273 with the hint call: `x[rs1] + sextX(imm12)`, read first, is the target
as it is, no bit cleared. -/
def execJalrC (rd rs1 : Reg) (imm : BitVec 12) (s : State) : Result := linkTo rd (s.regOffset rs1 imm) s

/-- JALR.R (44_control R275): the JALR of R273 with the hint return: `x[rs1] + sextX(imm12)`, read first, is the
target as it is, no bit cleared. -/
def execJalrR (rd rs1 : Reg) (imm : BitVec 12) (s : State) : Result := linkTo rd (s.regOffset rs1 imm) s

/-- JALR.J (44_control R276): the JALR of R273 with the hint indirect jump: `x[rs1] + sextX(imm12)`, read first, is
the target as it is, no bit cleared. -/
def execJalrJ (rd rs1 : Reg) (imm : BitVec 12) (s : State) : Result := linkTo rd (s.regOffset rs1 imm) s

/-- RDNPC (44_control R277): `x[rd] <- pc + 4`, no transfer of control. -/
def execRdnpc (rd : Reg) (s : State) : Result := setRd rd s.nextPc s

/-- BEQ (44_control R280): branch if equal (R286). -/
def execBeq (rs1 rs2 : Reg) (imm : BitVec 12) (s : State) : Result := branch tstEq rs1 rs2 imm s

/-- BNE (44_control R281): branch if not equal (R286). -/
def execBne (rs1 rs2 : Reg) (imm : BitVec 12) (s : State) : Result := branch tstNe rs1 rs2 imm s

/-- BLT (44_control R282): branch if less, signed (R286). -/
def execBlt (rs1 rs2 : Reg) (imm : BitVec 12) (s : State) : Result := branch tstLt rs1 rs2 imm s

/-- BGE (44_control R283): branch if greater or equal, signed (R286). -/
def execBge (rs1 rs2 : Reg) (imm : BitVec 12) (s : State) : Result := branch tstGe rs1 rs2 imm s

/-- BLTU (44_control R284): branch if less, unsigned (R286). -/
def execBltu (rs1 rs2 : Reg) (imm : BitVec 12) (s : State) : Result := branch tstLtu rs1 rs2 imm s

/-- BGEU (44_control R285): branch if greater or equal, unsigned (R286). -/
def execBgeu (rs1 rs2 : Reg) (imm : BitVec 12) (s : State) : Result := branch tstGeu rs1 rs2 imm s

end Sys2Proof.Machine
end

