-- ==== Sys2Proof/Machine/Fence.lean ====
section
/-! DEFINITION. FENCE and FENCE.I (48_fence). -/

namespace Sys2Proof.Machine

/-- FENCE.I (48_fence R441): later fetches see every store made so far: the set of stored bytes is emptied (20_memory
R72). The upper bits are ignored (R443). -/
def execFenceI (_ignored : BitVec 22) (s : State) : Result := .next { s with stale := [] }.retire

/-- FENCE (48_fence R440): the state of the one thread is unchanged but for retiring (20_memory R76, log entry 18).
The upper bits are ignored (R443). -/
def execFence (_ignored : BitVec 22) (s : State) : Result := .next s.retire

end Sys2Proof.Machine
end

