-- ==== Sys2Proof/Machine/FpCompare.lean ====
section
/-! DEFINITION. Floating-point compares (47_fp_compare). -/

namespace Sys2Proof.Machine

/-- FEQ.S (47_fp_compare R422): equal; quiet (R421). -/
def execFeqS (rd rs1 rs2 : Reg) (s : State) : Result := fpCompare false ieeeEq .s rd rs1 rs2 s

/-- FLT.S (47_fp_compare R423): less; signaling (R421). -/
def execFltS (rd rs1 rs2 : Reg) (s : State) : Result := fpCompare true ieeeLt .s rd rs1 rs2 s

/-- FLE.S (47_fp_compare R424): less or equal; signaling (R421). -/
def execFleS (rd rs1 rs2 : Reg) (s : State) : Result := fpCompare true ieeeLe .s rd rs1 rs2 s

/-- FEQ.D (47_fp_compare R425): equal; quiet (R421). -/
def execFeqD (rd rs1 rs2 : Reg) (s : State) : Result := fpCompare false ieeeEq .d rd rs1 rs2 s

/-- FLT.D (47_fp_compare R426): less; signaling (R421). -/
def execFltD (rd rs1 rs2 : Reg) (s : State) : Result := fpCompare true ieeeLt .d rd rs1 rs2 s

/-- FLE.D (47_fp_compare R427): less or equal; signaling (R421). -/
def execFleD (rd rs1 rs2 : Reg) (s : State) : Result := fpCompare true ieeeLe .d rd rs1 rs2 s

end Sys2Proof.Machine
end

