-- ==== Sys2Proof/Machine/FpCompute.lean ====
section
/-! DEFINITION. Floating-point computation (45_fp_compute). -/

namespace Sys2Proof.Machine

/-- FADD.S (45_fp_compute R310): `rs1 + rs2`, rounded once. -/
def execFaddS (rd rs1 rs2 : Reg) (rm : BitVec 3) (s : State) : Result :=
  fpArith (.faddS rd rs1 rs2 rm) ieeeAdd .s rd rs1 rs2 rm s

/-- FSUB.S (45_fp_compute R311): `rs1 - rs2`, rounded once. -/
def execFsubS (rd rs1 rs2 : Reg) (rm : BitVec 3) (s : State) : Result :=
  fpArith (.fsubS rd rs1 rs2 rm) ieeeSub .s rd rs1 rs2 rm s

/-- FMUL.S (45_fp_compute R312): `rs1 * rs2`, rounded once. -/
def execFmulS (rd rs1 rs2 : Reg) (rm : BitVec 3) (s : State) : Result :=
  fpArith (.fmulS rd rs1 rs2 rm) ieeeMul .s rd rs1 rs2 rm s

/-- FDIV.S (45_fp_compute R313): `rs1 / rs2`, rounded once. -/
def execFdivS (rd rs1 rs2 : Reg) (rm : BitVec 3) (s : State) : Result :=
  fpArith (.fdivS rd rs1 rs2 rm) ieeeDiv .s rd rs1 rs2 rm s

/-- FSQRT.S (45_fp_compute R314): the square root of `rs1`. -/
def execFsqrtS (rd rs1 : Reg) (rm : BitVec 3) (s : State) : Result := fpSqrt (.fsqrtS rd rs1 rm) .s rd rs1 rm s

/-- FMIN.S (45_fp_compute R315): the smaller of `rs1` and `rs2`, by the NaN rules of R307. -/
def execFminS (rd rs1 rs2 : Reg) (s : State) : Result := fpMinMax true .s rd rs1 rs2 s

/-- FMAX.S (45_fp_compute R316): the larger of `rs1` and `rs2`, by the NaN rules of R307. -/
def execFmaxS (rd rs1 rs2 : Reg) (s : State) : Result := fpMinMax false .s rd rs1 rs2 s

/-- FADD.D (45_fp_compute R317): `rs1 + rs2`, rounded once. -/
def execFaddD (rd rs1 rs2 : Reg) (rm : BitVec 3) (s : State) : Result :=
  fpArith (.faddD rd rs1 rs2 rm) ieeeAdd .d rd rs1 rs2 rm s

/-- FSUB.D (45_fp_compute R318): `rs1 - rs2`, rounded once. -/
def execFsubD (rd rs1 rs2 : Reg) (rm : BitVec 3) (s : State) : Result :=
  fpArith (.fsubD rd rs1 rs2 rm) ieeeSub .d rd rs1 rs2 rm s

/-- FMUL.D (45_fp_compute R319): `rs1 * rs2`, rounded once. -/
def execFmulD (rd rs1 rs2 : Reg) (rm : BitVec 3) (s : State) : Result :=
  fpArith (.fmulD rd rs1 rs2 rm) ieeeMul .d rd rs1 rs2 rm s

/-- FDIV.D (45_fp_compute R320): `rs1 / rs2`, rounded once. -/
def execFdivD (rd rs1 rs2 : Reg) (rm : BitVec 3) (s : State) : Result :=
  fpArith (.fdivD rd rs1 rs2 rm) ieeeDiv .d rd rs1 rs2 rm s

/-- FSQRT.D (45_fp_compute R321): the square root of `rs1`. -/
def execFsqrtD (rd rs1 : Reg) (rm : BitVec 3) (s : State) : Result := fpSqrt (.fsqrtD rd rs1 rm) .d rd rs1 rm s

/-- FMIN.D (45_fp_compute R322): the smaller of `rs1` and `rs2`, by the NaN rules of R307. -/
def execFminD (rd rs1 rs2 : Reg) (s : State) : Result := fpMinMax true .d rd rs1 rs2 s

/-- FMAX.D (45_fp_compute R323): the larger of `rs1` and `rs2`, by the NaN rules of R307. -/
def execFmaxD (rd rs1 rs2 : Reg) (s : State) : Result := fpMinMax false .d rd rs1 rs2 s

/-- FMADD.S (45_fp_compute R330): `rs1×rs2 + rs3`, rounded once (R329). -/
def execFmaddS (rd rs1 rs2 rs3 : Reg) (rm : BitVec 3) (s : State) : Result :=
  fpFused (.fmaddS rd rs1 rs2 rs3 rm) .s false false rd rs1 rs2 rs3 rm s

/-- FMSUB.S (45_fp_compute R331): `rs1×rs2 − rs3`, rounded once (R329). -/
def execFmsubS (rd rs1 rs2 rs3 : Reg) (rm : BitVec 3) (s : State) : Result :=
  fpFused (.fmsubS rd rs1 rs2 rs3 rm) .s false true rd rs1 rs2 rs3 rm s

/-- FNMSUB.S (45_fp_compute R332): `−(rs1×rs2 − rs3)`, rounded once (R329). -/
def execFnmsubS (rd rs1 rs2 rs3 : Reg) (rm : BitVec 3) (s : State) : Result :=
  fpFused (.fnmsubS rd rs1 rs2 rs3 rm) .s true false rd rs1 rs2 rs3 rm s

/-- FNMADD.S (45_fp_compute R333): `−(rs1×rs2 + rs3)`, rounded once (R329). -/
def execFnmaddS (rd rs1 rs2 rs3 : Reg) (rm : BitVec 3) (s : State) : Result :=
  fpFused (.fnmaddS rd rs1 rs2 rs3 rm) .s true true rd rs1 rs2 rs3 rm s

/-- FMADD.D (45_fp_compute R334): `rs1×rs2 + rs3`, rounded once (R329). -/
def execFmaddD (rd rs1 rs2 rs3 : Reg) (rm : BitVec 3) (s : State) : Result :=
  fpFused (.fmaddD rd rs1 rs2 rs3 rm) .d false false rd rs1 rs2 rs3 rm s

/-- FMSUB.D (45_fp_compute R335): `rs1×rs2 − rs3`, rounded once (R329). -/
def execFmsubD (rd rs1 rs2 rs3 : Reg) (rm : BitVec 3) (s : State) : Result :=
  fpFused (.fmsubD rd rs1 rs2 rs3 rm) .d false true rd rs1 rs2 rs3 rm s

/-- FNMSUB.D (45_fp_compute R336): `−(rs1×rs2 − rs3)`, rounded once (R329). -/
def execFnmsubD (rd rs1 rs2 rs3 : Reg) (rm : BitVec 3) (s : State) : Result :=
  fpFused (.fnmsubD rd rs1 rs2 rs3 rm) .d true false rd rs1 rs2 rs3 rm s

/-- FNMADD.D (45_fp_compute R337): `−(rs1×rs2 + rs3)`, rounded once (R329). -/
def execFnmaddD (rd rs1 rs2 rs3 : Reg) (rm : BitVec 3) (s : State) : Result :=
  fpFused (.fnmaddD rd rs1 rs2 rs3 rm) .d true true rd rs1 rs2 rs3 rm s

end Sys2Proof.Machine
end

