-- ==== Sys2Proof/Machine/FpConvert.lean ====
section
/-! DEFINITION. Floating-point sign injection, conversion, moves and `fsr` (46_fp_convert_move). -/

namespace Sys2Proof.Machine

/-- FSGNJ.S (46_fp_convert_move R362): `rs1` with the sign of `rs2`. -/
def execFsgnjS (rd rs1 rs2 : Reg) (s : State) : Result := fpSign .s (fun _ b => b) rd rs1 rs2 s

/-- FSGNJN.S (46_fp_convert_move R363): `rs1` with the opposite of the sign of `rs2`. -/
def execFsgnjnS (rd rs1 rs2 : Reg) (s : State) : Result := fpSign .s (fun _ b => !b) rd rs1 rs2 s

/-- FSGNJX.S (46_fp_convert_move R364): `rs1` with the XOR of the two signs. -/
def execFsgnjxS (rd rs1 rs2 : Reg) (s : State) : Result := fpSign .s (fun a b => a ^^ b) rd rs1 rs2 s

/-- FSGNJ.D (46_fp_convert_move R365): `rs1` with the sign of `rs2`. -/
def execFsgnjD (rd rs1 rs2 : Reg) (s : State) : Result := fpSign .d (fun _ b => b) rd rs1 rs2 s

/-- FSGNJN.D (46_fp_convert_move R366): `rs1` with the opposite of the sign of `rs2`. -/
def execFsgnjnD (rd rs1 rs2 : Reg) (s : State) : Result := fpSign .d (fun _ b => !b) rd rs1 rs2 s

/-- FSGNJX.D (46_fp_convert_move R367): `rs1` with the XOR of the two signs. -/
def execFsgnjxD (rd rs1 rs2 : Reg) (s : State) : Result := fpSign .d (fun a b => a ^^ b) rd rs1 rs2 s

/-- FCVT.S.D (46_fp_convert_move R370): double to single, rounded. -/
def execFcvtSD (rd rs1 : Reg) (rm : BitVec 3) (s : State) : Result :=
  withRounding (.fcvtSD rd rs1 rm) rm s fun r => setFd rd (convertDToS s.env.tininess r (s.readF rs1)) s

/-- FCVT.D.S (46_fp_convert_move R371): single to double, exact; the rounding mode is checked all the same. -/
def execFcvtDS (rd rs1 : Reg) (rm : BitVec 3) (s : State) : Result :=
  withRounding (.fcvtDS rd rs1 rm) rm s fun r => setFd rd (convertSToD s.env.tininess r (s.readS rs1)) s

/-- FCVT.S.L (46_fp_convert_move R375): the signed 64-bit integer in `x[rs1]` to floating-point (R374); RV64 only. -/
def execFcvtSL (rd rs1 : Reg) (rm : BitVec 3) (s : State) : Result :=
  onlyRv64 (.fcvtSL rd rs1 rm) s (fpFromInt (.fcvtSL rd rs1 rm) .s 64 true rd rs1 rm s)

/-- FCVT.S.LU (46_fp_convert_move R376): the unsigned 64-bit integer in `x[rs1]` to floating-point (R374); RV64 only.
-/
def execFcvtSLU (rd rs1 : Reg) (rm : BitVec 3) (s : State) : Result :=
  onlyRv64 (.fcvtSLU rd rs1 rm) s (fpFromInt (.fcvtSLU rd rs1 rm) .s 64 false rd rs1 rm s)

/-- FCVT.S.W (46_fp_convert_move R377): the signed 32-bit integer in `x[rs1]` to floating-point (R374). -/
def execFcvtSW (rd rs1 : Reg) (rm : BitVec 3) (s : State) : Result :=
  fpFromInt (.fcvtSW rd rs1 rm) .s 32 true rd rs1 rm s

/-- FCVT.S.WU (46_fp_convert_move R378): the unsigned 32-bit integer in `x[rs1]` to floating-point (R374). -/
def execFcvtSWU (rd rs1 : Reg) (rm : BitVec 3) (s : State) : Result :=
  fpFromInt (.fcvtSWU rd rs1 rm) .s 32 false rd rs1 rm s

/-- FCVT.D.L (46_fp_convert_move R379): the signed 64-bit integer in `x[rs1]` to floating-point (R374); RV64 only. -/
def execFcvtDL (rd rs1 : Reg) (rm : BitVec 3) (s : State) : Result :=
  onlyRv64 (.fcvtDL rd rs1 rm) s (fpFromInt (.fcvtDL rd rs1 rm) .d 64 true rd rs1 rm s)

/-- FCVT.D.LU (46_fp_convert_move R380): the unsigned 64-bit integer in `x[rs1]` to floating-point (R374); RV64 only.
-/
def execFcvtDLU (rd rs1 : Reg) (rm : BitVec 3) (s : State) : Result :=
  onlyRv64 (.fcvtDLU rd rs1 rm) s (fpFromInt (.fcvtDLU rd rs1 rm) .d 64 false rd rs1 rm s)

/-- FCVT.D.W (46_fp_convert_move R381): the signed 32-bit integer in `x[rs1]` to floating-point (R374). -/
def execFcvtDW (rd rs1 : Reg) (rm : BitVec 3) (s : State) : Result :=
  fpFromInt (.fcvtDW rd rs1 rm) .d 32 true rd rs1 rm s

/-- FCVT.D.WU (46_fp_convert_move R382): the unsigned 32-bit integer in `x[rs1]` to floating-point (R374). -/
def execFcvtDWU (rd rs1 : Reg) (rm : BitVec 3) (s : State) : Result :=
  fpFromInt (.fcvtDWU rd rs1 rm) .d 32 false rd rs1 rm s

/-- FCVT.L.S (46_fp_convert_move R385): floating-point to a signed 64-bit integer (R384); RV64 only. -/
def execFcvtLS (rd rs1 : Reg) (rm : BitVec 3) (s : State) : Result :=
  onlyRv64 (.fcvtLS rd rs1 rm) s (fpToX (.fcvtLS rd rs1 rm) .s 64 true rd rs1 rm s)

/-- FCVT.LU.S (46_fp_convert_move R386): floating-point to a unsigned 64-bit integer (R384); RV64 only. -/
def execFcvtLUS (rd rs1 : Reg) (rm : BitVec 3) (s : State) : Result :=
  onlyRv64 (.fcvtLUS rd rs1 rm) s (fpToX (.fcvtLUS rd rs1 rm) .s 64 false rd rs1 rm s)

/-- FCVT.W.S (46_fp_convert_move R387): floating-point to a signed 32-bit integer (R384). -/
def execFcvtWS (rd rs1 : Reg) (rm : BitVec 3) (s : State) : Result := fpToX (.fcvtWS rd rs1 rm) .s 32 true rd rs1 rm s

/-- FCVT.WU.S (46_fp_convert_move R388): floating-point to a unsigned 32-bit integer (R384). -/
def execFcvtWUS (rd rs1 : Reg) (rm : BitVec 3) (s : State) : Result :=
  fpToX (.fcvtWUS rd rs1 rm) .s 32 false rd rs1 rm s

/-- FCVT.L.D (46_fp_convert_move R389): floating-point to a signed 64-bit integer (R384); RV64 only. -/
def execFcvtLD (rd rs1 : Reg) (rm : BitVec 3) (s : State) : Result :=
  onlyRv64 (.fcvtLD rd rs1 rm) s (fpToX (.fcvtLD rd rs1 rm) .d 64 true rd rs1 rm s)

/-- FCVT.LU.D (46_fp_convert_move R390): floating-point to a unsigned 64-bit integer (R384); RV64 only. -/
def execFcvtLUD (rd rs1 : Reg) (rm : BitVec 3) (s : State) : Result :=
  onlyRv64 (.fcvtLUD rd rs1 rm) s (fpToX (.fcvtLUD rd rs1 rm) .d 64 false rd rs1 rm s)

/-- FCVT.W.D (46_fp_convert_move R391): floating-point to a signed 32-bit integer (R384). -/
def execFcvtWD (rd rs1 : Reg) (rm : BitVec 3) (s : State) : Result := fpToX (.fcvtWD rd rs1 rm) .d 32 true rd rs1 rm s

/-- FCVT.WU.D (46_fp_convert_move R392): floating-point to a unsigned 32-bit integer (R384). -/
def execFcvtWUD (rd rs1 : Reg) (rm : BitVec 3) (s : State) : Result :=
  fpToX (.fcvtWUD rd rs1 rm) .d 32 false rd rs1 rm s

/-- MFTX.S (46_fp_convert_move R394): `x[rd] <- sextX(fS(rs2))`. -/
def execMftxS (rd rs2 : Reg) (s : State) : Result := setRd rd (sextX s.xlen (s.readS rs2)) s

/-- MFTX.D (46_fp_convert_move R395): `x[rd] <- f[rs2]`; RV64 only. -/
def execMftxD (rd rs2 : Reg) (s : State) : Result := onlyRv64 (.mftxD rd rs2) s (setRd rd (s.readF rs2) s)

/-- MXTF.S (46_fp_convert_move R396): `setS(rd, x[rs1][31:0])`. -/
def execMxtfS (rd rs1 : Reg) (s : State) : Result := .next (s.writeS rd ((s.readX rs1).setWidth 32)).retire

/-- MXTF.D (46_fp_convert_move R397): `setD(rd, x[rs1])`; RV64 only. -/
def execMxtfD (rd rs1 : Reg) (s : State) : Result :=
  onlyRv64 (.mxtfD rd rs1) s (.next (s.writeD rd (s.readX rs1)).retire)

/-- MFFSR (46_fp_convert_move R400): `x[rd] <- fsr`. -/
def execMffsr (rd : Reg) (s : State) : Result := setRd rd s.fsrX s

/-- MTFSR (46_fp_convert_move R401): `fsr <- x[rs1][7:0]` and `x[rd]` gets the old `fsr`, both read first. -/
def execMtfsr (rd rs1 : Reg) (s : State) : Result := setRd rd s.fsrX (s.writeFsr (s.readX rs1))

end Sys2Proof.Machine
end

