-- ==== Sys2Proof/Machine/IntImm.lean ====
section
/-! DEFINITION. Integer register-immediate instructions (42_int_imm). -/

namespace Sys2Proof.Machine

/-- ADDI (42_int_imm R191): `x[rd] <- x[rs1] + sextX(imm12)`. -/
def execAddi (rd rs1 : Reg) (imm : BitVec 12) (s : State) : Result := intOp opAdd rd (s.readX rs1) (immX s.xlen imm) s

/-- XORI (42_int_imm R196): `x[rd] <- x[rs1] ^ sextX(imm12)`. -/
def execXori (rd rs1 : Reg) (imm : BitVec 12) (s : State) : Result := intOp opXor rd (s.readX rs1) (immX s.xlen imm) s

/-- ORI (42_int_imm R195): `x[rd] <- x[rs1] | sextX(imm12)`. -/
def execOri (rd rs1 : Reg) (imm : BitVec 12) (s : State) : Result := intOp opOr rd (s.readX rs1) (immX s.xlen imm) s

/-- ANDI (42_int_imm R194): `x[rd] <- x[rs1] & sextX(imm12)`. -/
def execAndi (rd rs1 : Reg) (imm : BitVec 12) (s : State) : Result := intOp opAnd rd (s.readX rs1) (immX s.xlen imm) s

/-- SLTI (42_int_imm R192): `x[rd] <- 1` if `signed(x[rs1]) < signed(sextX(imm12))`, else 0. -/
def execSlti (rd rs1 : Reg) (imm : BitVec 12) (s : State) : Result :=
  intTest tstLt rd (s.readX rs1) (immX s.xlen imm) s

/-- SLTIU (42_int_imm R193): `x[rd] <- 1` if `unsigned(x[rs1]) < unsigned(sextX(imm12))`, else 0. -/
def execSltiu (rd rs1 : Reg) (imm : BitVec 12) (s : State) : Result :=
  intTest tstLtu rd (s.readX rs1) (immX s.xlen imm) s

/-- SLLI (42_int_imm R197): left shift of `x[rs1]` by `shamt`; illegal in RV32 when `shamt[5] = 1`. -/
def execSlli (rd rs1 : Reg) (shamt : BitVec 6) (s : State) : Result :=
  shiftImm (.slli rd rs1 shamt) opSll rd rs1 shamt s

/-- SRLI (42_int_imm R198): logical right shift of `x[rs1]` by `shamt`; illegal in RV32 when `shamt[5] = 1`. -/
def execSrli (rd rs1 : Reg) (shamt : BitVec 6) (s : State) : Result :=
  shiftImm (.srli rd rs1 shamt) opSrl rd rs1 shamt s

/-- SRAI (42_int_imm R199): arithmetic right shift of `x[rs1]` by `shamt`; illegal in RV32 when `shamt[5] = 1`. -/
def execSrai (rd rs1 : Reg) (shamt : BitVec 6) (s : State) : Result :=
  shiftImm (.srai rd rs1 shamt) opSra rd rs1 shamt s

/-- LUI (42_int_imm R205): `x[rd] <- sextX({imm20, 000000000000})`. -/
def execLui (rd : Reg) (imm : BitVec 20) (s : State) : Result := setRd rd (upperImm s.xlen imm) s

/-- ADDIW (42_int_imm R201): the 32-bit sum of `x[rs1]` and the immediate, sign-extended. -/
def execAddiw (rd rs1 : Reg) (imm : BitVec 12) (s : State) : Result :=
  intOpW (.addiw rd rs1 imm) opAdd rd (s.readX rs1) (immX s.xlen imm) s

/-- SLLIW (42_int_imm R202): left shift of `x[rs1][31:0]` by `shamtw`, sign-extended. -/
def execSlliw (rd rs1 : Reg) (shamt : BitVec 5) (s : State) : Result :=
  intOpW (.slliw rd rs1 shamt) opSll rd (s.readX rs1) (shamt.setWidth 64) s

/-- SRLIW (42_int_imm R203): logical right shift of `x[rs1][31:0]` by `shamtw`, sign-extended. -/
def execSrliw (rd rs1 : Reg) (shamt : BitVec 5) (s : State) : Result :=
  intOpW (.srliw rd rs1 shamt) opSrl rd (s.readX rs1) (shamt.setWidth 64) s

/-- SRAIW (42_int_imm R204): arithmetic right shift of `x[rs1][31:0]` by `shamtw`, sign-extended. -/
def execSraiw (rd rs1 : Reg) (shamt : BitVec 5) (s : State) : Result :=
  intOpW (.sraiw rd rs1 shamt) opSra rd (s.readX rs1) (shamt.setWidth 64) s

end Sys2Proof.Machine
end

