-- ==== Sys2Proof/Machine/IntReg.lean ====
section
/-! DEFINITION. Integer register-register instructions, multiply and divide (43_int_reg). -/

namespace Sys2Proof.Machine

/-- ADD (43_int_reg R221): `x[rd]` becomes `x[rs1] + x[rs2]`. -/
def execAdd (rd rs1 rs2 : Reg) (s : State) : Result := intOp opAdd rd (s.readX rs1) (s.readX rs2) s

/-- SUB (43_int_reg R222): `x[rd]` becomes `x[rs1] - x[rs2]`. -/
def execSub (rd rs1 rs2 : Reg) (s : State) : Result := intOp opSub rd (s.readX rs1) (s.readX rs2) s

/-- SLL (43_int_reg R223): `x[rd]` becomes `x[rs1]` shifted left by the low bits of `x[rs2]`. -/
def execSll (rd rs1 rs2 : Reg) (s : State) : Result := intOp opSll rd (s.readX rs1) (s.readX rs2) s

/-- XOR (43_int_reg R226): `x[rd]` becomes `x[rs1] ^ x[rs2]`. -/
def execXor (rd rs1 rs2 : Reg) (s : State) : Result := intOp opXor rd (s.readX rs1) (s.readX rs2) s

/-- SRL (43_int_reg R227): `x[rd]` becomes `x[rs1]` shifted right, zeros entering. -/
def execSrl (rd rs1 rs2 : Reg) (s : State) : Result := intOp opSrl rd (s.readX rs1) (s.readX rs2) s

/-- SRA (43_int_reg R228): `x[rd]` becomes `x[rs1]` shifted right, the sign entering. -/
def execSra (rd rs1 rs2 : Reg) (s : State) : Result := intOp opSra rd (s.readX rs1) (s.readX rs2) s

/-- OR (43_int_reg R229): `x[rd]` becomes `x[rs1] | x[rs2]`. -/
def execOr (rd rs1 rs2 : Reg) (s : State) : Result := intOp opOr rd (s.readX rs1) (s.readX rs2) s

/-- AND (43_int_reg R230): `x[rd]` becomes `x[rs1] & x[rs2]`. -/
def execAnd (rd rs1 rs2 : Reg) (s : State) : Result := intOp opAnd rd (s.readX rs1) (s.readX rs2) s

/-- MUL (43_int_reg R236): `x[rd]` becomes the low half of `x[rs1] * x[rs2]`. -/
def execMul (rd rs1 rs2 : Reg) (s : State) : Result := intOp opMul rd (s.readX rs1) (s.readX rs2) s

/-- MULH (43_int_reg R237): `x[rd]` becomes the high half of the signed product. -/
def execMulh (rd rs1 rs2 : Reg) (s : State) : Result := intOp opMulh rd (s.readX rs1) (s.readX rs2) s

/-- MULHSU (43_int_reg R238): `x[rd]` becomes the high half of signed `x[rs1]` times unsigned `x[rs2]`. -/
def execMulhsu (rd rs1 rs2 : Reg) (s : State) : Result := intOp opMulhsu rd (s.readX rs1) (s.readX rs2) s

/-- MULHU (43_int_reg R239): `x[rd]` becomes the high half of the unsigned product. -/
def execMulhu (rd rs1 rs2 : Reg) (s : State) : Result := intOp opMulhu rd (s.readX rs1) (s.readX rs2) s

/-- DIV (43_int_reg R240): `x[rd]` becomes the signed quotient (R245, R246). -/
def execDiv (rd rs1 rs2 : Reg) (s : State) : Result := intOp opDiv rd (s.readX rs1) (s.readX rs2) s

/-- DIVU (43_int_reg R241): `x[rd]` becomes the unsigned quotient (R245). -/
def execDivu (rd rs1 rs2 : Reg) (s : State) : Result := intOp opDivu rd (s.readX rs1) (s.readX rs2) s

/-- REM (43_int_reg R242): `x[rd]` becomes the signed remainder (R245, R246). -/
def execRem (rd rs1 rs2 : Reg) (s : State) : Result := intOp opRem rd (s.readX rs1) (s.readX rs2) s

/-- REMU (43_int_reg R243): `x[rd]` becomes the unsigned remainder (R245). -/
def execRemu (rd rs1 rs2 : Reg) (s : State) : Result := intOp opRemu rd (s.readX rs1) (s.readX rs2) s

/-- SLT (43_int_reg R224): `x[rd] <- 1` if `signed(x[rs1]) < signed(x[rs2])`, else 0. -/
def execSlt (rd rs1 rs2 : Reg) (s : State) : Result := intTest tstLt rd (s.readX rs1) (s.readX rs2) s

/-- SLTU (43_int_reg R225): `x[rd] <- 1` if `unsigned(x[rs1]) < unsigned(x[rs2])`, else 0. -/
def execSltu (rd rs1 rs2 : Reg) (s : State) : Result := intTest tstLtu rd (s.readX rs1) (s.readX rs2) s

/-- ADDW (43_int_reg R231): ADD on the low words, the 32-bit result sign-extended (42_int_imm R200); RV64 only. -/
def execAddw (rd rs1 rs2 : Reg) (s : State) : Result :=
  intOpW (.addw rd rs1 rs2) opAdd rd (s.readX rs1) (s.readX rs2) s

/-- SUBW (43_int_reg R232): SUB on the low words, the 32-bit result sign-extended (42_int_imm R200); RV64 only. -/
def execSubw (rd rs1 rs2 : Reg) (s : State) : Result :=
  intOpW (.subw rd rs1 rs2) opSub rd (s.readX rs1) (s.readX rs2) s

/-- SLLW (43_int_reg R233): SLL on the low words, the 32-bit result sign-extended (42_int_imm R200); RV64 only. -/
def execSllw (rd rs1 rs2 : Reg) (s : State) : Result :=
  intOpW (.sllw rd rs1 rs2) opSll rd (s.readX rs1) (s.readX rs2) s

/-- SRLW (43_int_reg R234): SRL on the low words, the 32-bit result sign-extended (42_int_imm R200); RV64 only. -/
def execSrlw (rd rs1 rs2 : Reg) (s : State) : Result :=
  intOpW (.srlw rd rs1 rs2) opSrl rd (s.readX rs1) (s.readX rs2) s

/-- SRAW (43_int_reg R235): SRA on the low words, the 32-bit result sign-extended (42_int_imm R200); RV64 only. -/
def execSraw (rd rs1 rs2 : Reg) (s : State) : Result :=
  intOpW (.sraw rd rs1 rs2) opSra rd (s.readX rs1) (s.readX rs2) s

/-- MULW (43_int_reg R250): MUL on the low words, the 32-bit result sign-extended (42_int_imm R200); RV64 only. -/
def execMulw (rd rs1 rs2 : Reg) (s : State) : Result :=
  intOpW (.mulw rd rs1 rs2) opMul rd (s.readX rs1) (s.readX rs2) s

/-- DIVW (43_int_reg R251): DIV on the low words, the 32-bit result sign-extended (42_int_imm R200); RV64 only. -/
def execDivw (rd rs1 rs2 : Reg) (s : State) : Result :=
  intOpW (.divw rd rs1 rs2) opDiv rd (s.readX rs1) (s.readX rs2) s

/-- DIVUW (43_int_reg R252): DIVU on the low words, the 32-bit result sign-extended (42_int_imm R200); RV64 only. -/
def execDivuw (rd rs1 rs2 : Reg) (s : State) : Result :=
  intOpW (.divuw rd rs1 rs2) opDivu rd (s.readX rs1) (s.readX rs2) s

/-- REMW (43_int_reg R253): REM on the low words, the 32-bit result sign-extended (42_int_imm R200); RV64 only. -/
def execRemw (rd rs1 rs2 : Reg) (s : State) : Result :=
  intOpW (.remw rd rs1 rs2) opRem rd (s.readX rs1) (s.readX rs2) s

/-- REMUW (43_int_reg R254): REMU on the low words, the 32-bit result sign-extended (42_int_imm R200); RV64 only. -/
def execRemuw (rd rs1 rs2 : Reg) (s : State) : Result :=
  intOpW (.remuw rd rs1 rs2) opRemu rd (s.readX rs1) (s.readX rs2) s

end Sys2Proof.Machine
end

