-- ==== Sys2Proof/Machine/LoadStore.lean ====
section
/-! DEFINITION. Loads and stores, integer and floating-point (40_load_store). No alignment is required (20_memory R60). -/

namespace Sys2Proof.Machine

/-- LB (40_load_store R132): `x[rd] <- sextX(MemRead(x[rs1] + sextX(imm12), 1))`. -/
def execLb (rd rs1 : Reg) (imm : BitVec 12) (s : State) : Result :=
  loadThen s (s.regOffset rs1 imm) 8 fun v => setRd rd (sextX s.xlen v) s

/-- LH (40_load_store R133): `x[rd] <- sextX(MemRead(x[rs1] + sextX(imm12), 2))`. -/
def execLh (rd rs1 : Reg) (imm : BitVec 12) (s : State) : Result :=
  loadThen s (s.regOffset rs1 imm) 16 fun v => setRd rd (sextX s.xlen v) s

/-- LW (40_load_store R134): `x[rd] <- sextX(MemRead(x[rs1] + sextX(imm12), 4))`. -/
def execLw (rd rs1 : Reg) (imm : BitVec 12) (s : State) : Result :=
  loadThen s (s.regOffset rs1 imm) 32 fun v => setRd rd (sextX s.xlen v) s

/-- LD (40_load_store R135): `x[rd] <- sextX(MemRead(x[rs1] + sextX(imm12), 8))`, RV64 only. -/
def execLd (rd rs1 : Reg) (imm : BitVec 12) (s : State) : Result :=
  onlyRv64 (.ld rd rs1 imm) s (loadThen s (s.regOffset rs1 imm) 64 fun v => setRd rd (sextX s.xlen v) s)

/-- LBU (40_load_store R136): `x[rd] <- zextX(MemRead(x[rs1] + sextX(imm12), 1))`. -/
def execLbu (rd rs1 : Reg) (imm : BitVec 12) (s : State) : Result :=
  loadThen s (s.regOffset rs1 imm) 8 fun v => setRd rd (zextX s.xlen v) s

/-- LHU (40_load_store R137): `x[rd] <- zextX(MemRead(x[rs1] + sextX(imm12), 2))`. -/
def execLhu (rd rs1 : Reg) (imm : BitVec 12) (s : State) : Result :=
  loadThen s (s.regOffset rs1 imm) 16 fun v => setRd rd (zextX s.xlen v) s

/-- LWU (40_load_store R138): `x[rd] <- zextX(MemRead(x[rs1] + sextX(imm12), 4))`, RV64 only. -/
def execLwu (rd rs1 : Reg) (imm : BitVec 12) (s : State) : Result :=
  onlyRv64 (.lwu rd rs1 imm) s (loadThen s (s.regOffset rs1 imm) 32 fun v => setRd rd (zextX s.xlen v) s)

/-- SB (40_load_store R140): `MemWrite(x[rs1] + sextX(imm12), 1, x[rs2][7:0])`. -/
def execSb (rs1 rs2 : Reg) (imm : BitVec 12) (s : State) : Result :=
  storeAt s (s.regOffset rs1 imm) ((s.readX rs2).setWidth 8)

/-- SH (40_load_store R141): `MemWrite(x[rs1] + sextX(imm12), 2, x[rs2][15:0])`. -/
def execSh (rs1 rs2 : Reg) (imm : BitVec 12) (s : State) : Result :=
  storeAt s (s.regOffset rs1 imm) ((s.readX rs2).setWidth 16)

/-- SW (40_load_store R142): `MemWrite(x[rs1] + sextX(imm12), 4, x[rs2][31:0])`. -/
def execSw (rs1 rs2 : Reg) (imm : BitVec 12) (s : State) : Result :=
  storeAt s (s.regOffset rs1 imm) ((s.readX rs2).setWidth 32)

/-- SD (40_load_store R143): `MemWrite(x[rs1] + sextX(imm12), 8, x[rs2][63:0])`, RV64 only. -/
def execSd (rs1 rs2 : Reg) (imm : BitVec 12) (s : State) : Result :=
  onlyRv64 (.sd rs1 rs2 imm) s (storeAt s (s.regOffset rs1 imm) (s.readX rs2))

/-- FLW (40_load_store R145): `setS(rd, MemRead(x[rs1] + sextX(imm12), 4))`, flags unchanged. -/
def execFlw (rd rs1 : Reg) (imm : BitVec 12) (s : State) : Result :=
  loadThen s (s.regOffset rs1 imm) 32 fun v => .next (s.writeS rd v).retire

/-- FLD (40_load_store R146): `setD(rd, MemRead(x[rs1] + sextX(imm12), 8))`, flags unchanged, legal in RV32 too. -/
def execFld (rd rs1 : Reg) (imm : BitVec 12) (s : State) : Result :=
  loadThen s (s.regOffset rs1 imm) 64 fun v => .next (s.writeD rd v).retire

/-- FSW (40_load_store R147): `MemWrite(x[rs1] + sextX(imm12), 4, fS(rs2))`. -/
def execFsw (rs1 rs2 : Reg) (imm : BitVec 12) (s : State) : Result := storeAt s (s.regOffset rs1 imm) (s.readS rs2)

/-- FSD (40_load_store R148): `MemWrite(x[rs1] + sextX(imm12), 8, f[rs2])`, all 64 bits whatever format wrote them. -/
def execFsd (rs1 rs2 : Reg) (imm : BitVec 12) (s : State) : Result := storeAt s (s.regOffset rs1 imm) (s.readF rs2)

end Sys2Proof.Machine
end

