-- ==== Sys2Proof/Machine/System.lean ====
section
/-! DEFINITION. The SYSTEM instructions (49_system). -/

namespace Sys2Proof.Machine

/-- `C(t)` or `T(t)` at a read, from its value at the read before and a draw of how far it has moved. In RV64 the count
never overflows (49_system R455, R457). -/
def advance (m : Xlen) (count by' : Nat) : Nat :=
  match m with
  | .rv32 => count + by'
  | .rv64 => if count + by' < 2 ^ 64 then count + by' else count

/-- SYSCALL (49_system R451): `raise Syscall` (60_exceptions R476). -/
def execSyscall (s : State) : Result := raise s .syscall

/-- BREAK (49_system R452): `raise Break` (60_exceptions R477). -/
def execBrk (s : State) : Result := raise s .brk

/-- RDCYCLE (49_system R454): `x[rd]` becomes the cycle count modulo `2^XPRLEN`, a draw under the law of R455. -/
def execRdcycle (rd : Reg) (s : State) : Result :=
  let count := advance s.xlen s.cycle (Config.cycleAdvance s.draws)
  setRd rd (truncX s.xlen (BitVec.ofNat 64 count)) { s with cycle := count, draws := s.draws + 1 }

/-- RDTIME (49_system R456): `x[rd]` becomes the real-time count modulo `2^XPRLEN`, a draw under the law of R457. -/
def execRdtime (rd : Reg) (s : State) : Result :=
  let count := advance s.xlen s.time (Config.timeAdvance s.draws)
  setRd rd (truncX s.xlen (BitVec.ofNat 64 count)) { s with time := count, draws := s.draws + 1 }

/-- RDINSTRET (49_system R458): `x[rd] <- instret`, the value before this instruction's own increment. -/
def execRdinstret (rd : Reg) (s : State) : Result := setRd rd (truncX s.xlen s.instret) s

end Sys2Proof.Machine
end

