-- ==== Sys2Proof/Machine/Step.lean ====
section
/-! DEFINITION. One step of the hardware thread (10_state R26), and the placing of an instruction where the next step
fetches it. -/

namespace Sys2Proof.Machine

/-- One step (10_state R26, 60_exceptions R484): the alignment of the pc, access for the fetch, the fetch, decode, then the
instruction. A word that matches no row is an illegal instruction. -/
def step (s : State) : Host.Outcome State Fault Refusal :=
  let a := s.pcX
  if a.extractLsb' 0 2 ≠ 0b00#2 then raise s (.instructionAddressMisaligned a)
  else if s.accessible a 4 .fetch then
    match decode (s.fetchWord a) with
    | .error _ => raise s (.illegalInstruction (s.fetchWord a))
    | .ok i => exec i (s.afterFetch a)
  else raise s (.accessFault a .fetch)

/-- The addresses of the four bytes the next step fetches. -/
def State.fetchAddrs (s : State) : List Nat := (List.range 4).map (s.byteAddr s.pcX)

/-- `s` with the instruction word `w` of `nbits` bits in the four bytes at the pc, laid out as `Fetch` reads them, none of
them stale: the loading of a program from outside the machine (log entry 8). -/
def State.withFetchWord (s : State) (nbits w : Nat) : State :=
  let bytes := bytesOfWord s.env.endian (BitVec.ofNat 32 (w % 2 ^ nbits))
  { s with
    mem := (s.fetchAddrs.zip bytes).foldl (fun m c => writeCell m c.1 c.2) s.mem,
    stale := s.stale.filter (fun c => !s.fetchAddrs.contains c.1) }

end Sys2Proof.Machine
end

