-- ==== Sys2Proof/WellFormed.lean ====
section
/-! DEFINITION. Which instructions are legal for an `XPRLEN` by their encoding alone (30_encoding R128, R104;
45_fp_compute R302). Every field has the width of its encoding, so every `Instr` can be encoded; an instruction that is not
well formed decodes and raises IllegalInstruction when executed (60_exceptions R473). -/

namespace Sys2Proof

/-- The 35 rows that exist only for `XPRLEN = 64` (30_encoding R128). -/
def Instr.rv64Only : Instr → Bool
  | .j _ => false
  | .jal _ => false
  | .beq _ _ _ => false
  | .bne _ _ _ => false
  | .blt _ _ _ => false
  | .bge _ _ _ => false
  | .bltu _ _ _ => false
  | .bgeu _ _ _ => false
  | .jalrC _ _ _ => false
  | .jalrR _ _ _ => false
  | .jalrJ _ _ _ => false
  | .rdnpc _ => false
  | .lb _ _ _ => false
  | .lh _ _ _ => false
  | .lw _ _ _ => false
  | .ld _ _ _ => true
  | .lbu _ _ _ => false
  | .lhu _ _ _ => false
  | .lwu _ _ _ => true
  | .sb _ _ _ => false
  | .sh _ _ _ => false
  | .sw _ _ _ => false
  | .sd _ _ _ => true
  | .amoaddW _ _ _ => false
  | .amoswapW _ _ _ => false
  | .amoandW _ _ _ => false
  | .amoorW _ _ _ => false
  | .amominW _ _ _ => false
  | .amomaxW _ _ _ => false
  | .amominuW _ _ _ => false
  | .amomaxuW _ _ _ => false
  | .amoaddD _ _ _ => true
  | .amoswapD _ _ _ => true
  | .amoandD _ _ _ => true
  | .amoorD _ _ _ => true
  | .amominD _ _ _ => true
  | .amomaxD _ _ _ => true
  | .amominuD _ _ _ => true
  | .amomaxuD _ _ _ => true
  | .addi _ _ _ => false
  | .slli _ _ _ => false
  | .slti _ _ _ => false
  | .sltiu _ _ _ => false
  | .xori _ _ _ => false
  | .srli _ _ _ => false
  | .srai _ _ _ => false
  | .ori _ _ _ => false
  | .andi _ _ _ => false
  | .add _ _ _ => false
  | .sub _ _ _ => false
  | .sll _ _ _ => false
  | .slt _ _ _ => false
  | .sltu _ _ _ => false
  | .xor _ _ _ => false
  | .srl _ _ _ => false
  | .sra _ _ _ => false
  | .or _ _ _ => false
  | .and _ _ _ => false
  | .mul _ _ _ => false
  | .mulh _ _ _ => false
  | .mulhsu _ _ _ => false
  | .mulhu _ _ _ => false
  | .div _ _ _ => false
  | .divu _ _ _ => false
  | .rem _ _ _ => false
  | .remu _ _ _ => false
  | .lui _ _ => false
  | .addiw _ _ _ => true
  | .slliw _ _ _ => true
  | .srliw _ _ _ => true
  | .sraiw _ _ _ => true
  | .addw _ _ _ => true
  | .subw _ _ _ => true
  | .sllw _ _ _ => true
  | .srlw _ _ _ => true
  | .sraw _ _ _ => true
  | .mulw _ _ _ => true
  | .divw _ _ _ => true
  | .divuw _ _ _ => true
  | .remw _ _ _ => true
  | .remuw _ _ _ => true
  | .flw _ _ _ => false
  | .fld _ _ _ => false
  | .fsw _ _ _ => false
  | .fsd _ _ _ => false
  | .faddS _ _ _ _ => false
  | .fsubS _ _ _ _ => false
  | .fmulS _ _ _ _ => false
  | .fdivS _ _ _ _ => false
  | .fsqrtS _ _ _ => false
  | .fminS _ _ _ => false
  | .fmaxS _ _ _ => false
  | .faddD _ _ _ _ => false
  | .fsubD _ _ _ _ => false
  | .fmulD _ _ _ _ => false
  | .fdivD _ _ _ _ => false
  | .fsqrtD _ _ _ => false
  | .fminD _ _ _ => false
  | .fmaxD _ _ _ => false
  | .fmaddS _ _ _ _ _ => false
  | .fmsubS _ _ _ _ _ => false
  | .fnmsubS _ _ _ _ _ => false
  | .fnmaddS _ _ _ _ _ => false
  | .fmaddD _ _ _ _ _ => false
  | .fmsubD _ _ _ _ _ => false
  | .fnmsubD _ _ _ _ _ => false
  | .fnmaddD _ _ _ _ _ => false
  | .fsgnjS _ _ _ => false
  | .fsgnjnS _ _ _ => false
  | .fsgnjxS _ _ _ => false
  | .fsgnjD _ _ _ => false
  | .fsgnjnD _ _ _ => false
  | .fsgnjxD _ _ _ => false
  | .fcvtSD _ _ _ => false
  | .fcvtDS _ _ _ => false
  | .fcvtSL _ _ _ => true
  | .fcvtSLU _ _ _ => true
  | .fcvtSW _ _ _ => false
  | .fcvtSWU _ _ _ => false
  | .fcvtDL _ _ _ => true
  | .fcvtDLU _ _ _ => true
  | .fcvtDW _ _ _ => false
  | .fcvtDWU _ _ _ => false
  | .mxtfS _ _ => false
  | .mxtfD _ _ => true
  | .mtfsr _ _ => false
  | .fcvtLS _ _ _ => true
  | .fcvtLUS _ _ _ => true
  | .fcvtWS _ _ _ => false
  | .fcvtWUS _ _ _ => false
  | .fcvtLD _ _ _ => true
  | .fcvtLUD _ _ _ => true
  | .fcvtWD _ _ _ => false
  | .fcvtWUD _ _ _ => false
  | .mftxS _ _ => false
  | .mftxD _ _ => true
  | .mffsr _ => false
  | .feqS _ _ _ => false
  | .fltS _ _ _ => false
  | .fleS _ _ _ => false
  | .feqD _ _ _ => false
  | .fltD _ _ _ => false
  | .fleD _ _ _ => false
  | .fenceI _ => false
  | .fence _ => false
  | .syscall => false
  | .brk => false
  | .rdcycle _ => false
  | .rdtime _ => false
  | .rdinstret _ => false

/-- The six-bit shift amount of SLLI, SRLI and SRAI; bit 5 must be 0 when `XPRLEN = 32` (30_encoding R104). -/
def Instr.shamt6 : Instr → Option (BitVec 6)
  | .j _ => none
  | .jal _ => none
  | .beq _ _ _ => none
  | .bne _ _ _ => none
  | .blt _ _ _ => none
  | .bge _ _ _ => none
  | .bltu _ _ _ => none
  | .bgeu _ _ _ => none
  | .jalrC _ _ _ => none
  | .jalrR _ _ _ => none
  | .jalrJ _ _ _ => none
  | .rdnpc _ => none
  | .lb _ _ _ => none
  | .lh _ _ _ => none
  | .lw _ _ _ => none
  | .ld _ _ _ => none
  | .lbu _ _ _ => none
  | .lhu _ _ _ => none
  | .lwu _ _ _ => none
  | .sb _ _ _ => none
  | .sh _ _ _ => none
  | .sw _ _ _ => none
  | .sd _ _ _ => none
  | .amoaddW _ _ _ => none
  | .amoswapW _ _ _ => none
  | .amoandW _ _ _ => none
  | .amoorW _ _ _ => none
  | .amominW _ _ _ => none
  | .amomaxW _ _ _ => none
  | .amominuW _ _ _ => none
  | .amomaxuW _ _ _ => none
  | .amoaddD _ _ _ => none
  | .amoswapD _ _ _ => none
  | .amoandD _ _ _ => none
  | .amoorD _ _ _ => none
  | .amominD _ _ _ => none
  | .amomaxD _ _ _ => none
  | .amominuD _ _ _ => none
  | .amomaxuD _ _ _ => none
  | .addi _ _ _ => none
  | .slli _ _ amt => some amt
  | .slti _ _ _ => none
  | .sltiu _ _ _ => none
  | .xori _ _ _ => none
  | .srli _ _ amt => some amt
  | .srai _ _ amt => some amt
  | .ori _ _ _ => none
  | .andi _ _ _ => none
  | .add _ _ _ => none
  | .sub _ _ _ => none
  | .sll _ _ _ => none
  | .slt _ _ _ => none
  | .sltu _ _ _ => none
  | .xor _ _ _ => none
  | .srl _ _ _ => none
  | .sra _ _ _ => none
  | .or _ _ _ => none
  | .and _ _ _ => none
  | .mul _ _ _ => none
  | .mulh _ _ _ => none
  | .mulhsu _ _ _ => none
  | .mulhu _ _ _ => none
  | .div _ _ _ => none
  | .divu _ _ _ => none
  | .rem _ _ _ => none
  | .remu _ _ _ => none
  | .lui _ _ => none
  | .addiw _ _ _ => none
  | .slliw _ _ _ => none
  | .srliw _ _ _ => none
  | .sraiw _ _ _ => none
  | .addw _ _ _ => none
  | .subw _ _ _ => none
  | .sllw _ _ _ => none
  | .srlw _ _ _ => none
  | .sraw _ _ _ => none
  | .mulw _ _ _ => none
  | .divw _ _ _ => none
  | .divuw _ _ _ => none
  | .remw _ _ _ => none
  | .remuw _ _ _ => none
  | .flw _ _ _ => none
  | .fld _ _ _ => none
  | .fsw _ _ _ => none
  | .fsd _ _ _ => none
  | .faddS _ _ _ _ => none
  | .fsubS _ _ _ _ => none
  | .fmulS _ _ _ _ => none
  | .fdivS _ _ _ _ => none
  | .fsqrtS _ _ _ => none
  | .fminS _ _ _ => none
  | .fmaxS _ _ _ => none
  | .faddD _ _ _ _ => none
  | .fsubD _ _ _ _ => none
  | .fmulD _ _ _ _ => none
  | .fdivD _ _ _ _ => none
  | .fsqrtD _ _ _ => none
  | .fminD _ _ _ => none
  | .fmaxD _ _ _ => none
  | .fmaddS _ _ _ _ _ => none
  | .fmsubS _ _ _ _ _ => none
  | .fnmsubS _ _ _ _ _ => none
  | .fnmaddS _ _ _ _ _ => none
  | .fmaddD _ _ _ _ _ => none
  | .fmsubD _ _ _ _ _ => none
  | .fnmsubD _ _ _ _ _ => none
  | .fnmaddD _ _ _ _ _ => none
  | .fsgnjS _ _ _ => none
  | .fsgnjnS _ _ _ => none
  | .fsgnjxS _ _ _ => none
  | .fsgnjD _ _ _ => none
  | .fsgnjnD _ _ _ => none
  | .fsgnjxD _ _ _ => none
  | .fcvtSD _ _ _ => none
  | .fcvtDS _ _ _ => none
  | .fcvtSL _ _ _ => none
  | .fcvtSLU _ _ _ => none
  | .fcvtSW _ _ _ => none
  | .fcvtSWU _ _ _ => none
  | .fcvtDL _ _ _ => none
  | .fcvtDLU _ _ _ => none
  | .fcvtDW _ _ _ => none
  | .fcvtDWU _ _ _ => none
  | .mxtfS _ _ => none
  | .mxtfD _ _ => none
  | .mtfsr _ _ => none
  | .fcvtLS _ _ _ => none
  | .fcvtLUS _ _ _ => none
  | .fcvtWS _ _ _ => none
  | .fcvtWUS _ _ _ => none
  | .fcvtLD _ _ _ => none
  | .fcvtLUD _ _ _ => none
  | .fcvtWD _ _ _ => none
  | .fcvtWUD _ _ _ => none
  | .mftxS _ _ => none
  | .mftxD _ _ => none
  | .mffsr _ => none
  | .feqS _ _ _ => none
  | .fltS _ _ _ => none
  | .fleS _ _ _ => none
  | .feqD _ _ _ => none
  | .fltD _ _ _ => none
  | .fleD _ _ _ => none
  | .fenceI _ => none
  | .fence _ => none
  | .syscall => none
  | .brk => none
  | .rdcycle _ => none
  | .rdtime _ => none
  | .rdinstret _ => none

/-- The `rm` field of an instruction whose row prints it as a variable (45_fp_compute R302). -/
def Instr.rmField : Instr → Option (BitVec 3)
  | .j _ => none
  | .jal _ => none
  | .beq _ _ _ => none
  | .bne _ _ _ => none
  | .blt _ _ _ => none
  | .bge _ _ _ => none
  | .bltu _ _ _ => none
  | .bgeu _ _ _ => none
  | .jalrC _ _ _ => none
  | .jalrR _ _ _ => none
  | .jalrJ _ _ _ => none
  | .rdnpc _ => none
  | .lb _ _ _ => none
  | .lh _ _ _ => none
  | .lw _ _ _ => none
  | .ld _ _ _ => none
  | .lbu _ _ _ => none
  | .lhu _ _ _ => none
  | .lwu _ _ _ => none
  | .sb _ _ _ => none
  | .sh _ _ _ => none
  | .sw _ _ _ => none
  | .sd _ _ _ => none
  | .amoaddW _ _ _ => none
  | .amoswapW _ _ _ => none
  | .amoandW _ _ _ => none
  | .amoorW _ _ _ => none
  | .amominW _ _ _ => none
  | .amomaxW _ _ _ => none
  | .amominuW _ _ _ => none
  | .amomaxuW _ _ _ => none
  | .amoaddD _ _ _ => none
  | .amoswapD _ _ _ => none
  | .amoandD _ _ _ => none
  | .amoorD _ _ _ => none
  | .amominD _ _ _ => none
  | .amomaxD _ _ _ => none
  | .amominuD _ _ _ => none
  | .amomaxuD _ _ _ => none
  | .addi _ _ _ => none
  | .slli _ _ _ => none
  | .slti _ _ _ => none
  | .sltiu _ _ _ => none
  | .xori _ _ _ => none
  | .srli _ _ _ => none
  | .srai _ _ _ => none
  | .ori _ _ _ => none
  | .andi _ _ _ => none
  | .add _ _ _ => none
  | .sub _ _ _ => none
  | .sll _ _ _ => none
  | .slt _ _ _ => none
  | .sltu _ _ _ => none
  | .xor _ _ _ => none
  | .srl _ _ _ => none
  | .sra _ _ _ => none
  | .or _ _ _ => none
  | .and _ _ _ => none
  | .mul _ _ _ => none
  | .mulh _ _ _ => none
  | .mulhsu _ _ _ => none
  | .mulhu _ _ _ => none
  | .div _ _ _ => none
  | .divu _ _ _ => none
  | .rem _ _ _ => none
  | .remu _ _ _ => none
  | .lui _ _ => none
  | .addiw _ _ _ => none
  | .slliw _ _ _ => none
  | .srliw _ _ _ => none
  | .sraiw _ _ _ => none
  | .addw _ _ _ => none
  | .subw _ _ _ => none
  | .sllw _ _ _ => none
  | .srlw _ _ _ => none
  | .sraw _ _ _ => none
  | .mulw _ _ _ => none
  | .divw _ _ _ => none
  | .divuw _ _ _ => none
  | .remw _ _ _ => none
  | .remuw _ _ _ => none
  | .flw _ _ _ => none
  | .fld _ _ _ => none
  | .fsw _ _ _ => none
  | .fsd _ _ _ => none
  | .faddS _ _ _ rm => some rm
  | .fsubS _ _ _ rm => some rm
  | .fmulS _ _ _ rm => some rm
  | .fdivS _ _ _ rm => some rm
  | .fsqrtS _ _ rm => some rm
  | .fminS _ _ _ => none
  | .fmaxS _ _ _ => none
  | .faddD _ _ _ rm => some rm
  | .fsubD _ _ _ rm => some rm
  | .fmulD _ _ _ rm => some rm
  | .fdivD _ _ _ rm => some rm
  | .fsqrtD _ _ rm => some rm
  | .fminD _ _ _ => none
  | .fmaxD _ _ _ => none
  | .fmaddS _ _ _ _ rm => some rm
  | .fmsubS _ _ _ _ rm => some rm
  | .fnmsubS _ _ _ _ rm => some rm
  | .fnmaddS _ _ _ _ rm => some rm
  | .fmaddD _ _ _ _ rm => some rm
  | .fmsubD _ _ _ _ rm => some rm
  | .fnmsubD _ _ _ _ rm => some rm
  | .fnmaddD _ _ _ _ rm => some rm
  | .fsgnjS _ _ _ => none
  | .fsgnjnS _ _ _ => none
  | .fsgnjxS _ _ _ => none
  | .fsgnjD _ _ _ => none
  | .fsgnjnD _ _ _ => none
  | .fsgnjxD _ _ _ => none
  | .fcvtSD _ _ rm => some rm
  | .fcvtDS _ _ rm => some rm
  | .fcvtSL _ _ rm => some rm
  | .fcvtSLU _ _ rm => some rm
  | .fcvtSW _ _ rm => some rm
  | .fcvtSWU _ _ rm => some rm
  | .fcvtDL _ _ rm => some rm
  | .fcvtDLU _ _ rm => some rm
  | .fcvtDW _ _ rm => some rm
  | .fcvtDWU _ _ rm => some rm
  | .mxtfS _ _ => none
  | .mxtfD _ _ => none
  | .mtfsr _ _ => none
  | .fcvtLS _ _ rm => some rm
  | .fcvtLUS _ _ rm => some rm
  | .fcvtWS _ _ rm => some rm
  | .fcvtWUS _ _ rm => some rm
  | .fcvtLD _ _ rm => some rm
  | .fcvtLUD _ _ rm => some rm
  | .fcvtWD _ _ rm => some rm
  | .fcvtWUD _ _ rm => some rm
  | .mftxS _ _ => none
  | .mftxD _ _ => none
  | .mffsr _ => none
  | .feqS _ _ _ => none
  | .fltS _ _ _ => none
  | .fleS _ _ _ => none
  | .feqD _ _ _ => none
  | .fltD _ _ _ => none
  | .fleD _ _ _ => none
  | .fenceI _ => none
  | .fence _ => none
  | .syscall => none
  | .brk => none
  | .rdcycle _ => none
  | .rdtime _ => none
  | .rdinstret _ => none

/-- Legal for `XPRLEN` (30_encoding R128). -/
def Instr.wfXlen (i : Instr) (m : Xlen) : Bool := m == .rv64 || !i.rv64Only

/-- A legal shift amount (30_encoding R104). -/
def Instr.wfShamt (i : Instr) (m : Xlen) : Bool :=
  match i.shamt6 with
  | some amt => m == .rv64 || !amt.getLsbD 5
  | none => true

/-- A legal static rounding mode: not 101 or 110; 111 selects the dynamic mode, which only execution can check
(45_fp_compute R302). -/
def Instr.wfRm (i : Instr) : Bool :=
  match i.rmField with
  | some rm => rm != 0b101#3 && rm != 0b110#3
  | none => true

/-- The encoding is legal for `XPRLEN = m` (60_exceptions R473). -/
def Instr.wf (i : Instr) (m : Xlen) : Bool := i.wfXlen m && i.wfShamt m && i.wfRm

end Sys2Proof
end

