-- ==== Sys2Proof/Safety.lean ====
section
/-! DEFINITION. The terms claims are stated in: the invariant of the state, what a completed instruction leaves alone, the
signed reading of a register, and a safe run. -/

namespace Sys2Proof.Machine

/-! ## Values -/

/-- `2^XPRLEN` (00_scope R10). -/
def State.size (s : State) : Nat := 2 ^ s.xlen.width

/-- `signed(v)` of an XPRLEN-bit value (00_scope R14). -/
def signedX (m : Xlen) (v : Word) : Int :=
  match m with
  | .rv32 => (v.setWidth 32).toInt
  | .rv64 => v.toInt

/-- The place, counted from the address of an access of `n` bytes, of the byte of significance `i` (20_memory R56). -/
def byteIndex (e : Endian) (n i : Nat) : Nat :=
  match e with
  | .little => i
  | .big => n - 1 - i

/-! ## The invariant -/

/-- What every step keeps. A run can only start from a state that has it. -/
structure State.Inv (s : State) : Prop where
  /-- The memory list is in canonical form. -/
  memWf : Memory.wf s.mem = true
  /-- Every listed byte has an address below `2^XPRLEN` (20_memory R50). -/
  memInSpace : ∀ c ∈ s.mem, c.1 < s.size
  /-- So has every byte stored to since the last FENCE.I. -/
  staleInSpace : ∀ c ∈ s.stale, c.1 < s.size
  /-- Each old value of a byte is recorded once. -/
  staleNodup : s.stale.Nodup
  /-- The slots of x registers hold XPRLEN-bit values (10_state R21). -/
  xFits : ∀ v ∈ s.x.toList, truncX s.xlen v = v
  /-- So does the pc's (10_state R25). -/
  pcFits : truncX s.xlen s.pc = s.pc
  /-- So does that of `instret` (10_state R40). -/
  instretFits : truncX s.xlen s.instret = s.instret
  /-- In RV64 the cycle count never overflows (49_system R455). -/
  cycleFits : s.xlen = .rv64 → s.cycle < 2 ^ 64
  /-- Nor does the real-time count (49_system R457). -/
  timeFits : s.xlen = .rv64 → s.time < 2 ^ 64

/-! ## What a step leaves alone -/

/-- Every byte of memory reads as before. -/
def SameMemory (s t : State) : Prop := ∀ k, t.readByte k = s.readByte k

/-- Every byte but the `n` bytes from `a` on (modulo `2^XPRLEN`) reads as before. -/
def SameMemoryBut (s t : State) (a : Word) (n : Nat) : Prop :=
  ∀ k, (∀ i, i < n → k ≠ s.byteAddr a i) → t.readByte k = s.readByte k

/-- Every x register reads as before. -/
def SameX (s t : State) : Prop := ∀ r, t.readX r = s.readX r

/-- Every x register but `rd` reads as before. -/
def SameXBut (s t : State) (rd : Reg) : Prop := ∀ r, r ≠ rd → t.readX r = s.readX r

/-- Every f register reads as before. -/
def SameF (s t : State) : Prop := ∀ r, t.readF r = s.readF r

/-- Every f register but `rd` reads as before. -/
def SameFBut (s t : State) (rd : Reg) : Prop := ∀ r, r ≠ rd → t.readF r = s.readF r

/-- The next pc is `pc + 4` modulo `2^XPRLEN` (10_state R26, R28). -/
def Advances (s t : State) : Prop := t.pcX.toNat = (s.pcX.toNat + 4) % s.size

/-- `instret` has counted one instruction (10_state R40). -/
def Retires (s t : State) : Prop := t.instret.toNat = ((truncX s.xlen s.instret).toNat + 1) % s.size

/-- The parameters, the cycle count and the real-time count are as before: true of every instruction but RDCYCLE and
RDTIME. -/
structure SameRun (s t : State) : Prop where
  env : t.env = s.env
  cycle : t.cycle = s.cycle
  time : t.time = s.time

/-- The instruction completed, and beside the pc and `instret` at most `x[rd]` changed. -/
structure OnlyX (s t : State) (rd : Reg) : Prop where
  run : SameRun s t
  x : SameXBut s t rd
  f : SameF s t
  fsr : t.fsr = s.fsr
  memory : SameMemory s t
  stale : t.stale = s.stale
  retires : Retires s t

/-- The instruction completed, beside the pc and `instret` at most `f[rd]` changed, and the flags `fl` joined those of
`fsr`, its rounding mode as before (10_state R37). -/
structure OnlyF (s t : State) (rd : Reg) (fl : FlagSet) : Prop where
  run : SameRun s t
  x : SameX s t
  f : SameFBut s t rd
  rm : t.fsrRM = s.fsrRM
  flags : t.fsrFlags = s.fsrFlags ||| fl
  memory : SameMemory s t
  stale : t.stale = s.stale
  retires : Retires s t

/-- The instruction completed, beside the pc and `instret` at most `x[rd]` changed, and the flags `fl` joined those of
`fsr`, its rounding mode as before (10_state R37). -/
structure OnlyXFlags (s t : State) (rd : Reg) (fl : FlagSet) : Prop where
  run : SameRun s t
  x : SameXBut s t rd
  f : SameF s t
  rm : t.fsrRM = s.fsrRM
  flags : t.fsrFlags = s.fsrFlags ||| fl
  memory : SameMemory s t
  stale : t.stale = s.stale
  retires : Retires s t

/-- The bytes stored to since the last FENCE.I are those of before and the `n` bytes from `a` on, these with the values
they had (20_memory R72). -/
def RecordsStores (s t : State) (a : Word) (n : Nat) : Prop :=
  ∀ c, c ∈ t.stale ↔ c ∈ s.stale ∨ ∃ i, i < n ∧ c = (s.byteAddr a i, s.readByte (s.byteAddr a i))

/-- The instruction completed, no register but the pc and `instret` changed, and memory changed at most in the `n` bytes
from `a` on. -/
structure OnlyStore (s t : State) (a : Word) (n : Nat) : Prop where
  run : SameRun s t
  x : SameX s t
  f : SameF s t
  fsr : t.fsr = s.fsr
  memory : SameMemoryBut s t a n
  stale : RecordsStores s t a n
  retires : Retires s t

/-- The same, and at most `x[rd]` changed too: an AMO. -/
structure OnlyStoreAndX (s t : State) (rd : Reg) (a : Word) (n : Nat) : Prop where
  run : SameRun s t
  x : SameXBut s t rd
  f : SameF s t
  fsr : t.fsr = s.fsr
  memory : SameMemoryBut s t a n
  stale : RecordsStores s t a n
  retires : Retires s t

/-- The instruction completed and changed nothing but the pc and `instret`. -/
structure OnlyPc (s t : State) : Prop where
  run : SameRun s t
  x : SameX s t
  f : SameF s t
  fsr : t.fsr = s.fsr
  memory : SameMemory s t
  stale : t.stale = s.stale
  retires : Retires s t

/-! ## What an instruction's outcome is -/

/-- The outcome is `Trap(e, pc, info)` (60_exceptions R480). -/
def Traps (s : State) (res : Result) (e : Exception) : Prop := res = .fault (.trap e s.pcX)

/-- The instruction completes: it writes the unsigned number `v` to `x[rd]` (discarded for `x0`), goes on to `pc + 4`, and
changes nothing else. -/
def WritesX (s : State) (res : Result) (rd : Reg) (v : Nat) : Prop :=
  ∃ t, res = .next t ∧ (t.readX rd).toNat = (if rd = 0#5 then 0 else v) ∧ Advances s t ∧ OnlyX s t rd

/-- The same for a value given as a signed number. -/
def WritesXSigned (s : State) (res : Result) (rd : Reg) (v : Int) : Prop :=
  ∃ t, res = .next t ∧ signedX s.xlen (t.readX rd) = (if rd = 0#5 then 0 else v) ∧ Advances s t ∧ OnlyX s t rd

/-- The instruction completes: it writes `v` to `x[rd]` (discarded for `x0`), accrues the flags `fl`, goes on to `pc + 4`,
and changes nothing else. -/
def WritesXFlags (s : State) (res : Result) (rd : Reg) (v : Word) (fl : FlagSet) : Prop :=
  ∃ t, res = .next t ∧ t.readX rd = (if rd = 0#5 then 0#64 else v) ∧ Advances s t ∧ OnlyXFlags s t rd fl

/-- The instruction completes: it writes `v` to `f[rd]` in its format (of a single, the low 32 bits), accrues the flags
`fl`, goes on to `pc + 4`, and changes nothing else. -/
def WritesF (s : State) (res : Result) (rd : Reg) {fm : Fmt} (v : Pattern fm) (fl : FlagSet) : Prop :=
  ∃ t, res = .next t ∧ t.readFmt fm rd = v ∧ Advances s t ∧ OnlyF s t rd fl

/-- The instruction completes: the next pc is `target`, and nothing else changes. -/
def GoesTo (s : State) (res : Result) (target : Nat) : Prop := ∃ t, res = .next t ∧ t.pcX.toNat = target ∧ OnlyPc s t

/-- The instruction completes: the next pc is `target`, `x[rd]` is `pc + 4` (discarded for `x0`), and nothing else
changes. -/
def LinksTo (s : State) (res : Result) (rd : Reg) (target : Nat) : Prop :=
  ∃ t, res = .next t ∧ t.pcX.toNat = target ∧
    (t.readX rd).toNat = (if rd = 0#5 then 0 else (s.pcX.toNat + 4) % s.size) ∧ OnlyX s t rd

/-- A control transfer completes, as `GoesTo` says, and the step after it takes InstructionAddressMisaligned, with the target
as its pc (10_state R27, 60_exceptions R472). -/
def GoesThenTraps (s : State) (res : Result) (target : Nat) : Prop :=
  ∃ t, res = .next t ∧ t.pcX.toNat = target ∧ OnlyPc s t ∧ Traps t (step t) (.instructionAddressMisaligned t.pcX)

/-- The same of one that links, as `LinksTo` says. -/
def LinksThenTraps (s : State) (res : Result) (rd : Reg) (target : Nat) : Prop :=
  ∃ t, res = .next t ∧ t.pcX.toNat = target ∧
    (t.readX rd).toNat = (if rd = 0#5 then 0 else (s.pcX.toNat + 4) % s.size) ∧ OnlyX s t rd ∧
    Traps t (step t) (.instructionAddressMisaligned t.pcX)

/-- The instruction completes: the bytes of `v` stand at `a` in the memory's byte order, the pc is `pc + 4`, and nothing
else changes. -/
def StoresAt (s : State) (res : Result) (a : Word) {w : Nat} (v : BitVec w) : Prop :=
  ∃ t, res = .next t ∧ t.memRead a w = v ∧ Advances s t ∧ OnlyStore s t a (w / 8)

/-- An AMO completes: the `w` bits at `a` become `new`, `x[rd]` is the old value sign-extended (discarded for `x0`), the
pc is `pc + 4`, and nothing else changes. -/
def Exchanges (s : State) (res : Result) (rd : Reg) (a : Word) {w : Nat} (new : BitVec w) : Prop :=
  ∃ t, res = .next t ∧ t.memRead a w = new ∧
    signedX s.xlen (t.readX rd) = (if rd = 0#5 then 0 else (s.memRead a w).toInt) ∧ Advances s t ∧
    OnlyStoreAndX s t rd a (w / 8)

/-! ## Shapes of the floating-point rules -/

/-- A floating-point instruction writes the pair of a result and its flags. -/
def WritesFRes (s : State) (res : Result) (rd : Reg) {fm : Fmt} (v : Pattern fm × FlagSet) : Prop :=
  WritesF s res rd v.1 v.2

/-- The rule of a two-operand arithmetic instruction (45_fp_compute, section 5): with a NaN operand the propagated NaN, with
NV exactly for a signaling one; otherwise the primitive `op` of 00_scope R17. -/
def ArithRule (s : State) (res : Result) (rd : Reg) {fm : Fmt}
    (op : (fm : Fmt) → Tininess → Rounding → Pattern fm → Pattern fm → Pattern fm × FlagSet) (r : Rounding)
    (a b : Pattern fm) : Prop :=
  (isNaN a = true ∨ isNaN b = true →
    WritesF s res rd (nanResult [a, b]) (if isSNaN a = true ∨ isSNaN b = true then flagNV else noFlags)) ∧
  (isNaN a = false → isNaN b = false → WritesFRes s res rd (op fm s.env.tininess r a b))

/-- The rule of FSQRT (45_fp_compute R314). -/
def SqrtRule (s : State) (res : Result) (rd : Reg) {fm : Fmt} (r : Rounding) (a : Pattern fm) : Prop :=
  (isNaN a = true → WritesF s res rd (nanResult [a]) (if isSNaN a = true then flagNV else noFlags)) ∧
  (isNaN a = false → WritesFRes s res rd (ieeeSqrt fm s.env.tininess r a))

/-- The rule of a fused multiply-add (45_fp_compute R329); `a'` and `c'` are the operands with the form's sign changes. -/
def FusedRule (s : State) (res : Result) (rd : Reg) {fm : Fmt} (r : Rounding) (a b c a' c' : Pattern fm) : Prop :=
  (isNaN a = true ∨ isNaN b = true ∨ isNaN c = true →
    WritesF s res rd (nanResult [a, b, c])
      (if isSNaN a = true ∨ isSNaN b = true ∨ isSNaN c = true then flagNV
       else if s.env.fmaInvalidWithQNaN = true ∧
          ((isZero a = true ∧ isInf b = true) ∨ (isInf a = true ∧ isZero b = true)) then flagNV
       else noFlags)) ∧
  (isNaN a = false → isNaN b = false → isNaN c = false →
    WritesFRes s res rd (ieeeFma fm s.env.tininess r a' b c'))

/-- The rule of FMIN (`wantMin`) and FMAX (45_fp_compute R315, R316): of two zeros of opposite sign either is
returned. -/
def MinMaxRule (s : State) (res : Result) (rd : Reg) {fm : Fmt} (wantMin : Bool) (a b : Pattern fm) : Prop :=
  (isNaN a = true ∨ isNaN b = true →
    WritesF s res rd (minMaxNaN a b) (if isSNaN a = true ∨ isSNaN b = true then flagNV else noFlags)) ∧
  (isNaN a = false → isNaN b = false →
    (ieeeLt a b = true → WritesF s res rd (if wantMin then a else b) noFlags) ∧
    (ieeeLt b a = true → WritesF s res rd (if wantMin then b else a) noFlags) ∧
    (ieeeLt a b = false → ieeeLt b a = false → ∃ v, (v = a ∨ v = b) ∧ WritesF s res rd v noFlags))

/-- The rule of a floating-point to integer conversion to `width` bits (46_fp_convert_move R384): outside the range the
value is that of the open function `FCVT_INVALID`, with NV; inside it the rounded integer, with NX when it differs from the
operand. -/
def ToIntRule (s : State) (i : Instr) (rd : Reg) {fm : Fmt} (width : Nat) (lo hi : Int) (r : Rounding) (a : Pattern fm) :
    Prop :=
  let n := (roundToInteger r a).1
  (isNaN a = true ∨ isInf a = true ∨ n < lo ∨ hi < n →
    WritesXFlags s (exec i s) rd (truncX s.xlen (Config.fcvtInvalid s.xlen (encode i) (a.setWidth 64))) flagNV) ∧
  (isNaN a = false → isInf a = false → lo ≤ n → n ≤ hi →
    WritesXFlags s (exec i s) rd (sextX s.xlen (BitVec.ofInt width n))
      (if (roundToInteger r a).2 = true then flagNX else noFlags))

/-- The rule of a compare (47_fp_compare R421). -/
def CompareRule (s : State) (res : Result) (rd : Reg) {fm : Fmt} (signaling : Bool) (rel : Pattern fm → Pattern fm → Bool)
    (a b : Pattern fm) : Prop :=
  (isNaN a = true ∨ isNaN b = true →
    WritesXFlags s res rd 0#64
      (if signaling = true ∨ isSNaN a = true ∨ isSNaN b = true then flagNV else noFlags)) ∧
  (isNaN a = false → isNaN b = false →
    WritesXFlags s res rd (if rel a b = true then 1#64 else 0#64) noFlags)

/-- The number a finite pattern stands for (45_fp_compute R301). -/
def valueOf {fm : Fmt} (a : Pattern fm) : ℚ := (signedNat (signOf a) (sigOf a) : ℚ) * 2 ^ expOf a

/-- Neither a NaN nor an infinity (45_fp_compute R301). -/
def FiniteFp {fm : Fmt} (a : Pattern fm) : Prop := isNaN a = false ∧ isInf a = false

/-- A result that is the number of a finite pattern, with no flag raised: nothing was rounded. -/
def IsExactly {fm : Fmt} (res : Pattern fm × FlagSet) (d : Pattern fm) : Prop :=
  res.2 = noFlags ∧ FiniteFp res.1 ∧ valueOf res.1 = valueOf d

/-! ## Correct rounding (10_state R36, 45_fp_compute R303; the conditions are IEEE 754's, log entry 23) -/

/-- `v` is the greatest number of the grid that is not above `x`. -/
def RoundsDown (grid : ℝ → Prop) (x v : ℝ) : Prop := v ≤ x ∧ ∀ d, grid d → d ≤ x → d ≤ v

/-- `v` is the least number of the grid that is not below `x`. -/
def RoundsUp (grid : ℝ → Prop) (x v : ℝ) : Prop := x ≤ v ∧ ∀ d, grid d → x ≤ d → v ≤ d

/-- `v` is `x` rounded to a number of the grid (10_state R36): down, up, toward zero, or to a nearest one, where of two
equally near ones it is the even one (`even` says that `v` is) or the one of greater magnitude. -/
def RoundsTo (r : Rounding) (grid : ℝ → Prop) (even : Prop) (x v : ℝ) : Prop :=
  grid v ∧
  match r with
  | .rdn => RoundsDown grid x v
  | .rup => RoundsUp grid x v
  | .rtz => (0 ≤ x → RoundsDown grid x v) ∧ (x ≤ 0 → RoundsUp grid x v)
  | .rne => ∀ d, grid d → |x - v| ≤ |x - d| ∧ (|x - v| = |x - d| → d ≠ v → even)
  | .rmm => ∀ d, grid d → |x - v| ≤ |x - d| ∧ (|x - v| = |x - d| → d ≠ v → |d| < |v|)

/-- The integers. -/
def IsInteger (d : ℝ) : Prop := ∃ n : Int, d = n

/-- The numbers a format has. -/
def IsNumberOf (fm : Fmt) (d : ℝ) : Prop := ∃ p : Pattern fm, FiniteFp p ∧ d = (valueOf p : ℝ)

/-- The magnitude of `x`, rounded where numbers of `bound` and above are `bound`, `bound + 2 * gap`, … and those below it
`bound - gap`, `bound - 2 * gap`, …, comes to `bound` or more. -/
def ReachesBound (r : Rounding) (x bound gap : ℝ) : Prop :=
  match r with
  | .rtz => bound ≤ |x|
  | .rdn => bound ≤ |x| ∨ (x < 0 ∧ bound - gap < |x|)
  | .rup => bound ≤ |x| ∨ (0 < x ∧ bound - gap < |x|)
  | .rne | .rmm => bound - gap / 2 ≤ |x|

/-- Overflow: rounded with the format's precision and no greatest exponent, `x` would be beyond the largest finite number
(45_fp_compute R303). -/
def Overflows (fm : Fmt) (r : Rounding) (x : ℝ) : Prop :=
  ReachesBound r x (2 ^ (bias fm + 1)) (2 ^ (bias fm - fracBits fm))

/-- Tininess: below the least normal number, `x` itself or `x` rounded with the format's precision and no least exponent
(45_fp_compute R303). -/
def Tiny (fm : Fmt) (t : Tininess) (r : Rounding) (x : ℝ) : Prop :=
  match t with
  | .beforeRounding => |x| < 1 / 2 ^ (bias fm - 1)
  | .afterRounding => ¬ ReachesBound r x (1 / 2 ^ (bias fm - 1)) (1 / 2 ^ (bias fm + fracBits fm))

/-- Infinity of a sign (45_fp_compute R301). -/
def infBits : (fm : Fmt) → Bool → Pattern fm
  | .s, false => 0x7F800000#32
  | .s, true => 0xFF800000#32
  | .d, false => 0x7FF0000000000000#64
  | .d, true => 0xFFF0000000000000#64

/-- The largest finite number of a sign: the pattern before infinity (45_fp_compute R301). -/
def largestBits : (fm : Fmt) → Bool → Pattern fm
  | .s, false => 0x7F7FFFFF#32
  | .s, true => 0xFF7FFFFF#32
  | .d, false => 0x7FEFFFFFFFFFFFFF#64
  | .d, true => 0xFFEFFFFFFFFFFFFF#64

/-- Zero of a sign (45_fp_compute R301). -/
def zeroBits : (fm : Fmt) → Bool → Pattern fm
  | .s, false => 0x00000000#32
  | .s, true => 0x80000000#32
  | .d, false => 0x0000000000000000#64
  | .d, true => 0x8000000000000000#64

/-- The canonical NaN (45_fp_compute R305). -/
def canonicalBits : (fm : Fmt) → Pattern fm
  | .s => 0x7FFFFFFF#32
  | .d => 0x7FFFFFFFFFFFFFFF#64

/-- A result and its flags are those of IEEE 754 for the exact number `x`, not 0, rounded once. NX is bit 0 of the flags, UF
bit 1, OF bit 2, DZ bit 3, NV bit 4 (10_state R35). -/
structure RoundsCorrectly (fm : Fmt) (t : Tininess) (r : Rounding) (x : ℝ) (res : Pattern fm × FlagSet) : Prop where
  /-- The result has the sign of `x`, also where it is a zero. -/
  sign : signOf res.1 = true ↔ x < 0
  /-- Without an overflow it is `x` rounded to a number of the format. -/
  within : ¬ Overflows fm r x → FiniteFp res.1 ∧
    RoundsTo r (IsNumberOf fm) (res.1.getLsbD 0 = false) x (valueOf res.1 : ℝ)
  /-- An overflow gives infinity where the mode rounds away from zero on this side or to nearest, -/
  toInfinity : Overflows fm r x → (r = .rne ∨ r = .rmm ∨ (r = .rdn ∧ x < 0) ∨ (r = .rup ∧ 0 < x)) →
    res.1 = infBits fm (signOf res.1)
  /-- and the largest finite number where it rounds toward zero. -/
  toLargest : Overflows fm r x → (r = .rtz ∨ (r = .rdn ∧ 0 < x) ∨ (r = .rup ∧ x < 0)) →
    res.1 = largestBits fm (signOf res.1)
  /-- NX: the result is not `x`. -/
  inexact : res.2.getLsbD 0 = true ↔ ¬ (FiniteFp res.1 ∧ (valueOf res.1 : ℝ) = x)
  /-- UF: tiny and inexact. -/
  underflow : res.2.getLsbD 1 = true ↔ Tiny fm t r x ∧ res.2.getLsbD 0 = true
  /-- OF: overflow. -/
  overflow : res.2.getLsbD 2 = true ↔ Overflows fm r x
  /-- Neither DZ nor NV. -/
  others : res.2.getLsbD 3 = false ∧ res.2.getLsbD 4 = false

/-- The major opcode of an instruction, `inst[6:0]` (30_encoding R106). -/
def opcodeOf (i : Instr) : BitVec 7 := (encode i).extractLsb' 0 7

/-! ## Runs -/

/-- A step completes. -/
def Completes (s : State) : Prop := ∃ t, step s = .next t

/-- The first `n` steps from `s` all complete: no trap is taken. -/
def SafeFor : Nat → State → Prop
  | 0, _ => True
  | n + 1, s => ∃ t, step s = .next t ∧ SafeFor n t

end Sys2Proof.Machine
end

