-- ==== Sys2Proof/Certificates/Slice0/Obligations.lean ====
section
/-! DEFINITION. The statements for the provers, in the order of OBLIGATIONS.json.

Decisions of the spec that the shared predicates of Sys2Proof/Safety.lean carry into every statement that uses them: an
address, `pc + 4` among them, is taken modulo `2^XPRLEN` (D9, log entry 21); the sources are read before a destination is
written (D10, log entry 29); a single stands in bits 31:0 of an f register (D13, log entry 25); a completed instruction is
counted in `instret` (D21, log entry 14); an exception ends the run (D4, log entry 17). A docstring names those its
statement is about, and every other one it rests on. -/

section
open Sys2Proof Sys2Proof.Machine

/-! ## Encoding and the step -/

/-- Decoding an encoded instruction gives it back, with every operand at every value of its field (30_encoding R90 to
R104, R119). -/
def Obligations.DecodeOfEncode : Prop := ∀ i : Instr, decode (encode i) = .ok i

/-- Every bit of a word that decodes is accounted for: the instruction's encoding is the word itself, so that no field the
table prints as a constant can differ (30_encoding R119; that a word which differs only in such a field is no instruction is
the spec's decision D7, log entry 20). -/
def Obligations.EncodeOfDecode : Prop := ∀ (w : Inst) (i : Instr), decode w = .ok i → encode i = w

/-- Words of the spec's own examples decode to the instruction they stand for: those inside the rules of nine instructions
(42_int_imm R191, 43_int_reg R222, 44_control R271, R281, 40_load_store R134, R143, 45_fp_compute R330, 46_fp_convert_move R388,
47_fp_compare R427), and 298E15AB, 000000AF and 28000A77 of the spec's table of test words (95_test_vectors, section 2.1). -/
def Obligations.SampleWords : Prop :=
  decode 0x187FF413#32 = .ok (.addi 3#5 1#5 (-3)) ∧ decode 0x18450033#32 = .ok (.sub 3#5 1#5 2#5) ∧
  decode 0x00000267#32 = .ok (.j 4#25) ∧ decode 0xF845E0E3#32 = .ok (.bne 1#5 2#5 (-8)) ∧
  decode 0x29BFF103#32 = .ok (.lw 5#5 6#5 (-4)) ∧ decode 0xF98FF1A3#32 = .ok (.sd 6#5 7#5 (-4)) ∧
  decode 0x298E15AB#32 = .ok (.amomaxD 5#5 6#5 7#5) ∧ decode 0x20443E43#32 = .ok (.fmaddS 4#5 1#5 2#5 3#5 7#3) ∧
  decode 0x2840B253#32 = .ok (.fcvtWUS 5#5 1#5 1#3) ∧ decode 0x284570D3#32 = .ok (.fleD 5#5 1#5 2#5) ∧
  decode 0x000000AF#32 = .ok (.fenceI 0) ∧ decode 0x28000A77#32 = .ok (.rdinstret 5#5)

/-- A word of another length than 32 bits is no instruction of the base ISA: a 16-bit parcel, whose low two bits are not 11,
and the prefixes of the longer forms, whose low five bits are 11111 (30_encoding R85, R88; that such a word is illegal is the
spec's decision D6, log entry 20). -/
def Obligations.OtherLengthsDoNotDecode : Prop :=
  ∀ w : Inst, (w.extractLsb' 0 2 ≠ 0b11#2 ∨ w.extractLsb' 0 5 = 0b11111#5) → ∃ e, decode w = .error e

/-- An instruction that its encoding makes illegal traps and does nothing else: a row that exists only for XPRLEN = 64 in
RV32, a shift amount of 32 or more in RV32, a static rounding mode 101 or 110, and a dynamic one with 101, 110 or 111 in
`fsr.RM`. No other instruction word is illegal when it is executed (60_exceptions R473; that the RV64-only rows for which the
source names no trap take this one, the AMO*.D, which it does not mention, among them, is the spec's decision D8, log entry
20, and that the conversions that never round check their mode too is its decision D15, log entry 25). The trap carries the
word; that it ends the run is the spec's decision D4, log entry 17. -/
def Obligations.IllegalInstructions : Prop :=
  ∀ (i : Instr) (s : State),
    let isIllegal := i.wf s.xlen = false ∨ (i.rmField = some 0b111#3 ∧ 5 ≤ s.fsrRM.toNat)
    (isIllegal → Traps s (exec i s) (.illegalInstruction (encode i))) ∧
    (∀ (w : Inst) (p : Word), exec i s = .fault (.trap (.illegalInstruction w) p) → isIllegal)

/-- A step runs the decoded instruction on the state itself, or, where a byte of the word was stored to since the last
FENCE.I, on the state with one more draw made (10_state R26; that such a fetch makes a draw is the spec's decision D27, log
entry 15, and the draw counter is the model's own, log entry 16). -/
def Obligations.StepRunsDecoded : Prop :=
  ∀ (s : State) (i : Instr), s.pcX.toNat % 4 = 0 → s.accessible s.pcX 4 .fetch = true →
    decode (s.fetchWord s.pcX) = .ok i →
    (s.fetchIsStale s.pcX = false → step s = exec i s) ∧
    (s.fetchIsStale s.pcX = true → step s = exec i { s with draws := s.draws + 1 })

/-- What stops a step before an instruction runs, in this order: a misaligned pc, a fetch that is not possible, a word that
is no instruction (60_exceptions R484; that order is the spec's decision D26, log entry 31, the AccessFault of a fetch is its
decision D23, log entry 3, and that a word in no row is illegal its decisions D5 to D7, log entry 20). -/
def Obligations.FetchTraps : Prop :=
  ∀ s : State,
    (s.pcX.toNat % 4 ≠ 0 → Traps s (step s) (.instructionAddressMisaligned s.pcX)) ∧
    (s.pcX.toNat % 4 = 0 → s.accessible s.pcX 4 .fetch = false → Traps s (step s) (.accessFault s.pcX .fetch)) ∧
    (s.pcX.toNat % 4 = 0 → s.accessible s.pcX 4 .fetch = true → (∃ e, decode (s.fetchWord s.pcX) = .error e) →
      Traps s (step s) (.illegalInstruction (s.fetchWord s.pcX)))

/-- Where no byte is stale, the low half of a fetched word is the halfword at the address and the high half the halfword
after it, in either byte order (20_memory R53, R54, R55). -/
def Obligations.FetchParcels : Prop :=
  ∀ (s : State) (a : Word), s.fetchIsStale a = false →
    (s.fetchWord a).extractLsb' 0 16 = s.memRead a 16 ∧
    (s.fetchWord a).extractLsb' 16 16 = s.memRead (a + 2#64) 16 ∧
    (s.fetchWord a).toNat =
      (if s.env.endian = .little then
        (s.readByte (s.byteAddr a 0)).toNat + 2 ^ 8 * (s.readByte (s.byteAddr a 1)).toNat
          + 2 ^ 16 * (s.readByte (s.byteAddr a 2)).toNat + 2 ^ 24 * (s.readByte (s.byteAddr a 3)).toNat
      else
        (s.readByte (s.byteAddr a 1)).toNat + 2 ^ 8 * (s.readByte (s.byteAddr a 0)).toNat
          + 2 ^ 16 * (s.readByte (s.byteAddr a 3)).toNat + 2 ^ 24 * (s.readByte (s.byteAddr a 2)).toNat)

/-- A fetched byte is the byte in memory or, where the thread has stored to it since its last FENCE.I, a value it had before
one of those stores (20_memory R72; that the choice is per byte is the spec's decision D27, and that every earlier value
counts is the model's reading, log entry 15). -/
def Obligations.FetchSeesOldOrNew : Prop :=
  ∀ (s : State) (k : Nat),
    (s.fetchByte k = s.readByte k ∨ (k, s.fetchByte k) ∈ s.stale) ∧
    ((∀ b, (k, b) ∉ s.stale) → s.fetchByte k = s.readByte k)

/-- A step completes or takes one of the six traps, with the pc of the instruction that took it, and is never refused
(60_exceptions R470, R480, R496; that an exception ends the run is the spec's decisions D4 and D22, log entry 17, and what
the spec derives in R496). -/
def Obligations.StepCompletesOrTraps : Prop :=
  ∀ s : State, (∃ t, step s = .next t) ∨ ∃ e, Traps s (step s) e

/-- Every step keeps the invariant (10_state R21, R25, R40, 20_memory R50, 49_system R455, R457; that addresses and `instret`
wrap modulo `2^XPRLEN` is the spec's decisions D9 and D21, log entries 21 and 14; that memory is a list in canonical form and
that XPRLEN-bit values stand in 64-bit slots is the model's, log entries 1 and 7). -/
def Obligations.StepKeepsInv : Prop := ∀ s t : State, s.Inv → step s = .next t → t.Inv

/-- The state after reset has the invariant, reads x0 as 0, has nothing stored to since a FENCE.I and reads the upper bits of
`fsr` as 0 (70_reset_and_hazards R510; that nothing is stored and unfenced at the start is the spec's decision D24, log entry
8, and that the upper bits of `fsr` read 0 its decision D14, log entry 25). Every other value of it is the model's choice
(log entries 1 to 8, 12, 13, 16). -/
def Obligations.ResetInv : Prop :=
  State.reset.Inv ∧ State.reset.readX 0#5 = 0#64 ∧ State.reset.stale = [] ∧ State.reset.fsrX.toNat / 2 ^ 8 = 0

/-- Every completed step counts one retired instruction, leaves the parameters of the run alone and lets neither count go
back (10_state R40, R45, 49_system R455, R457; that an instruction is counted when it completes is the spec's decision D21,
log entry 14; the two counts are the model's, log entries 12 and 13). -/
def Obligations.StepCounts : Prop :=
  ∀ s t : State, step s = .next t →
    Retires s t ∧ t.env = s.env ∧ s.cycle ≤ t.cycle ∧ s.time ≤ t.time

/-- Only the opcodes J, JAL, JALR and BRANCH set the pc to anything but `pc + 4` (10_state R26; that `pc + 4` wraps modulo
`2^XPRLEN` is the spec's decision D9, log entry 21). -/
def Obligations.OtherInstructionsAdvance : Prop :=
  ∀ (i : Instr) (s t : State), exec i s = .next t →
    opcodeOf i ∉ [0b1100111#7, 0b1101111#7, 0b1101011#7, 0b1100011#7] → Advances s t

/-- Only STORE, STORE-FP and AMO change memory, and only LOAD-FP, OP-FP and the fused multiply-adds an f register
(10_state R33, R41). -/
def Obligations.WhoWritesMemoryAndF : Prop :=
  ∀ (i : Instr) (s t : State), exec i s = .next t →
    (opcodeOf i ∉ [0b0100011#7, 0b0100111#7, 0b0101011#7] → SameMemory s t) ∧
    (opcodeOf i ∉ [0b0000111#7, 0b1010011#7, 0b1000011#7, 0b1000111#7, 0b1001011#7, 0b1001111#7] → SameF s t)

/-- No instruction but MTFSR clears an accrued flag or changes the dynamic rounding mode (10_state R37, R38). -/
def Obligations.FlagsAccrue : Prop :=
  ∀ (i : Instr) (s t : State), exec i s = .next t → (∀ rd rs1, i ≠ .mtfsr rd rs1) →
    t.fsrRM = s.fsrRM ∧ ∀ k, s.fsrFlags.getLsbD k = true → t.fsrFlags.getLsbD k = true

/-- The x register file: a read of a register after a write, of x0 always 0, of every register below `2^XPRLEN`
(10_state R21, R22). -/
def Obligations.XRegisterFile : Prop :=
  ∀ (s : State) (r q : Reg) (v : Word),
    s.readX 0#5 = 0#64 ∧ (s.readX q).toNat < s.size ∧
    (q = r → r ≠ 0#5 → ((s.writeX r v).readX q).toNat = v.toNat % s.size) ∧
    ((q ≠ r ∨ r = 0#5) → (s.writeX r v).readX q = s.readX q)

/-- The f register file: 32 registers of 64 bits, none of them hardwired (10_state R30). `setD` writes all 64 bits; `setS`
writes bits 31:0 and nothing is said of the upper half, a fresh draw (10_state R31, R32; the spec's decision D13, log entries 9
and 25). -/
def Obligations.FRegisterFile : Prop :=
  ∀ (s : State) (r q : Reg) (v : BitVec 64),
    (s.writeD r v).readF q = (if q = r then v else s.readF q) ∧
    (∀ w : BitVec 32, (s.writeS r w).readS r = w ∧ (q ≠ r → (s.writeS r w).readF q = s.readF q))

/-! ## Integer instructions -/

/-- The results, completion and frame of ADD, SUB, XOR, OR, AND, ADDI, XORI, ORI, ANDI and LUI (42_int_imm R191, R194 to R196,
R205, 43_int_reg R221, R222, R226, R229, R230). -/
def Obligations.AddSubLogic : Prop :=
  ∀ (s : State) (rd rs1 rs2 : Reg) (imm : BitVec 12) (upper : BitVec 20),
    let a := (s.readX rs1).toNat
    let b := (s.readX rs2).toNat
    let k := (imm.toInt % s.size).toNat
    WritesX s (exec (.add rd rs1 rs2) s) rd ((a + b) % s.size) ∧
    WritesX s (exec (.sub rd rs1 rs2) s) rd ((a + s.size - b) % s.size) ∧
    WritesX s (exec (.xor rd rs1 rs2) s) rd (a ^^^ b) ∧
    WritesX s (exec (.or rd rs1 rs2) s) rd (a ||| b) ∧
    WritesX s (exec (.and rd rs1 rs2) s) rd (a &&& b) ∧
    WritesX s (exec (.addi rd rs1 imm) s) rd ((a + k) % s.size) ∧
    WritesX s (exec (.xori rd rs1 imm) s) rd (a ^^^ k) ∧
    WritesX s (exec (.ori rd rs1 imm) s) rd (a ||| k) ∧
    WritesX s (exec (.andi rd rs1 imm) s) rd (a &&& k) ∧
    WritesX s (exec (.lui rd upper) s) rd ((upper.toInt * 4096) % s.size).toNat

/-- The results, completion and frame of SLT, SLTU, SLTI and SLTIU (42_int_imm R192, R193, 43_int_reg R224, R225; that SLTIU
sign-extends its immediate before it reads it as unsigned is what the spec derives in R193). -/
def Obligations.SetLessThan : Prop :=
  ∀ (s : State) (rd rs1 rs2 : Reg) (imm : BitVec 12),
    let a := s.readX rs1
    let b := s.readX rs2
    WritesX s (exec (.slt rd rs1 rs2) s) rd (if signedX s.xlen a < signedX s.xlen b then 1 else 0) ∧
    WritesX s (exec (.sltu rd rs1 rs2) s) rd (if a.toNat < b.toNat then 1 else 0) ∧
    WritesX s (exec (.slti rd rs1 imm) s) rd (if signedX s.xlen a < imm.toInt then 1 else 0) ∧
    WritesX s (exec (.sltiu rd rs1 imm) s) rd (if (a.toNat : Int) < imm.toInt % s.size then 1 else 0)

/-- The results, completion and frame of the six XPRLEN-bit shifts; by a constant, for the amounts that are legal
(42_int_imm R197 to R199, 43_int_reg R223, R227, R228). -/
def Obligations.Shifts : Prop :=
  ∀ (s : State) (rd rs1 rs2 : Reg) (amt : BitVec 6),
    let a := s.readX rs1
    let sh := (s.readX rs2).toNat % s.xlen.width
    WritesX s (exec (.sll rd rs1 rs2) s) rd (a.toNat * 2 ^ sh % s.size) ∧
    WritesX s (exec (.srl rd rs1 rs2) s) rd (a.toNat / 2 ^ sh) ∧
    WritesXSigned s (exec (.sra rd rs1 rs2) s) rd (signedX s.xlen a / 2 ^ sh) ∧
    (amt.toNat < s.xlen.width →
      WritesX s (exec (.slli rd rs1 amt) s) rd (a.toNat * 2 ^ amt.toNat % s.size) ∧
      WritesX s (exec (.srli rd rs1 amt) s) rd (a.toNat / 2 ^ amt.toNat) ∧
      WritesXSigned s (exec (.srai rd rs1 amt) s) rd (signedX s.xlen a / 2 ^ amt.toNat))

/-- The results, completion and frame of the W forms but division, in RV64: they look at the low words only and their
32-bit result is sign-extended (42_int_imm R200 to R204, 43_int_reg R231 to R235, R250). -/
def Obligations.WordForms : Prop :=
  ∀ (s : State) (rd rs1 rs2 : Reg) (imm : BitVec 12) (amt : BitVec 5), s.xlen = .rv64 →
    let a := (s.readX rs1).toNat
    let b := (s.readX rs2).toNat
    let sext := fun n : Int => Int.bmod n (2 ^ 32)
    WritesXSigned s (exec (.addw rd rs1 rs2) s) rd (sext (a + b)) ∧
    WritesXSigned s (exec (.subw rd rs1 rs2) s) rd (sext (a - b)) ∧
    WritesXSigned s (exec (.addiw rd rs1 imm) s) rd (sext (a + imm.toInt)) ∧
    WritesXSigned s (exec (.mulw rd rs1 rs2) s) rd (sext (a * b)) ∧
    WritesXSigned s (exec (.sllw rd rs1 rs2) s) rd (sext (a * 2 ^ (b % 32))) ∧
    WritesXSigned s (exec (.srlw rd rs1 rs2) s) rd (sext (a % 2 ^ 32 / 2 ^ (b % 32) : Nat)) ∧
    WritesXSigned s (exec (.sraw rd rs1 rs2) s) rd (sext a / 2 ^ (b % 32)) ∧
    WritesXSigned s (exec (.slliw rd rs1 amt) s) rd (sext (a * 2 ^ amt.toNat)) ∧
    WritesXSigned s (exec (.srliw rd rs1 amt) s) rd (sext (a % 2 ^ 32 / 2 ^ amt.toNat : Nat)) ∧
    WritesXSigned s (exec (.sraiw rd rs1 amt) s) rd (sext a / 2 ^ amt.toNat)

/-- The results, completion and frame of MUL, MULH, MULHSU and MULHU (43_int_reg R236 to R239; that MULHSU's signed operand
is rs1 is the spec's decision D29, log entry 22). -/
def Obligations.Multiply : Prop :=
  ∀ (s : State) (rd rs1 rs2 : Reg),
    let a := s.readX rs1
    let b := s.readX rs2
    WritesX s (exec (.mul rd rs1 rs2) s) rd (a.toNat * b.toNat % s.size) ∧
    WritesX s (exec (.mulhu rd rs1 rs2) s) rd (a.toNat * b.toNat / s.size) ∧
    WritesXSigned s (exec (.mulh rd rs1 rs2) s) rd (signedX s.xlen a * signedX s.xlen b / s.size) ∧
    WritesXSigned s (exec (.mulhsu rd rs1 rs2) s) rd (signedX s.xlen a * b.toNat / s.size)

/-- The results, completion and frame of DIV, DIVU, REM and REMU, with the two special cases of division by zero and of
signed overflow (43_int_reg R240 to R243, R245; rounding toward zero is the spec's decision D11, from general knowledge, log
entry 22). -/
def Obligations.Divide : Prop :=
  ∀ (s : State) (rd rs1 rs2 : Reg),
    let a := signedX s.xlen (s.readX rs1)
    let b := signedX s.xlen (s.readX rs2)
    let m := (s.readX rs1).toNat
    let n := (s.readX rs2).toNat
    WritesXSigned s (exec (.div rd rs1 rs2) s) rd
      (if b = 0 then -1 else if a = -2 ^ (s.xlen.width - 1) ∧ b = -1 then a else a.tdiv b) ∧
    WritesX s (exec (.divu rd rs1 rs2) s) rd (if n = 0 then s.size - 1 else m / n) ∧
    WritesXSigned s (exec (.rem rd rs1 rs2) s) rd
      (if b = 0 then a else if a = -2 ^ (s.xlen.width - 1) ∧ b = -1 then 0 else a - b * a.tdiv b) ∧
    WritesX s (exec (.remu rd rs1 rs2) s) rd (if n = 0 then m else m % n)

/-- The results, completion and frame of DIVW, DIVUW, REMW and REMUW in RV64 (43_int_reg R251 to R254; that the quotient is
rounded toward zero is the spec's decision D11, from general knowledge, the special cases at width 32 are its decision D12,
log entry 22). -/
def Obligations.DivideWord : Prop :=
  ∀ (s : State) (rd rs1 rs2 : Reg), s.xlen = .rv64 →
    let sext := fun n : Int => Int.bmod n (2 ^ 32)
    let m : Nat := (s.readX rs1).toNat % 2 ^ 32
    let n : Nat := (s.readX rs2).toNat % 2 ^ 32
    let a := sext m
    let b := sext n
    WritesXSigned s (exec (.divw rd rs1 rs2) s) rd
      (if b = 0 then -1 else if a = -2 ^ 31 ∧ b = -1 then a else a.tdiv b) ∧
    WritesXSigned s (exec (.divuw rd rs1 rs2) s) rd (if n = 0 then -1 else sext (m / n : Nat)) ∧
    WritesXSigned s (exec (.remw rd rs1 rs2) s) rd
      (if b = 0 then a else if a = -2 ^ 31 ∧ b = -1 then 0 else a - b * a.tdiv b) ∧
    WritesXSigned s (exec (.remuw rd rs1 rs2) s) rd (if n = 0 then sext m else sext (m % n : Nat))

/-- DIV and REM belong together: where the divisor is not 0 and the division does not overflow, the dividend is divisor times
quotient plus remainder, and the remainder is smaller than the divisor and not of the other sign than the dividend
(43_int_reg R246; the spec's decision D11, from general knowledge, log entry 22). -/
def Obligations.QuotientAndRemainder : Prop :=
  ∀ (s t u : State) (q r rs1 rs2 : Reg), q ≠ 0#5 → r ≠ 0#5 →
    exec (.div q rs1 rs2) s = .next t → exec (.rem r rs1 rs2) s = .next u →
    let a := signedX s.xlen (s.readX rs1)
    let b := signedX s.xlen (s.readX rs2)
    let quotient := signedX s.xlen (t.readX q)
    let remainder := signedX s.xlen (u.readX r)
    b ≠ 0 → ¬(a = -2 ^ (s.xlen.width - 1) ∧ b = -1) →
    a = b * quotient + remainder ∧ remainder.natAbs < b.natAbs ∧ 0 ≤ a * remainder

/-! ## Control transfer -/

/-- The unconditional jumps. J and JAL go to the pc plus twice the signed offset and JAL links in x1; the three JALR go to
the old `x[rs1]` plus the signed immediate, no bit of it cleared, and link in `rd`, also where `rd` is `rs1`; RDNPC only
links (44_control R271 to R277; that a target wraps modulo `2^XPRLEN` is the spec's decision D9, log entry 21, and that
sources are read before a destination is written its decision D10, log entry 29). -/
def Obligations.Jumps : Prop :=
  ∀ (s : State) (off : BitVec 25) (rd rs1 : Reg) (imm : BitVec 12),
    let target := ((s.pcX.toNat + 2 * off.toInt) % s.size).toNat
    let indirect := (((s.readX rs1).toNat + imm.toInt) % s.size).toNat
    GoesTo s (exec (.j off) s) target ∧
    LinksTo s (exec (.jal off) s) 1#5 target ∧
    LinksTo s (exec (.rdnpc rd) s) rd ((s.pcX.toNat + 4) % s.size) ∧
    LinksTo s (exec (.jalrC rd rs1 imm) s) rd indirect ∧
    LinksTo s (exec (.jalrR rd rs1 imm) s) rd indirect ∧
    LinksTo s (exec (.jalrJ rd rs1 imm) s) rd indirect

/-- The six branches: taken to the pc plus twice the signed offset where the condition holds, on to `pc + 4` where it does
not (44_control R280 to R286; that a target wraps modulo `2^XPRLEN` is the spec's decision D9, log entry 21). -/
def Obligations.Branches : Prop :=
  ∀ (s : State) (rs1 rs2 : Reg) (imm : BitVec 12),
    let a := s.readX rs1
    let b := s.readX rs2
    let target := ((s.pcX.toNat + 2 * imm.toInt) % s.size).toNat
    let next := (s.pcX.toNat + 4) % s.size
    GoesTo s (exec (.beq rs1 rs2 imm) s) (if a = b then target else next) ∧
    GoesTo s (exec (.bne rs1 rs2 imm) s) (if a ≠ b then target else next) ∧
    GoesTo s (exec (.blt rs1 rs2 imm) s) (if signedX s.xlen a < signedX s.xlen b then target else next) ∧
    GoesTo s (exec (.bge rs1 rs2 imm) s) (if signedX s.xlen b ≤ signedX s.xlen a then target else next) ∧
    GoesTo s (exec (.bltu rs1 rs2 imm) s) (if a.toNat < b.toNat then target else next) ∧
    GoesTo s (exec (.bgeu rs1 rs2 imm) s) (if b.toNat ≤ a.toNat then target else next)

/-- A control transfer to a misaligned target completes, its link written, and the trap is the next step's, with the target
as its pc: the three JALR to any address that is not a multiple of 4, J, JAL and a taken branch with an odd halfword offset
(10_state R27, 44_control R270, 60_exceptions R472; that the check is made at the next fetch and not at the jump is what the
spec derives in R27). -/
def Obligations.MisalignedTarget : Prop :=
  ∀ (s : State) (rd rs1 rs2 : Reg) (imm : BitVec 12) (off : BitVec 25),
    let a := s.readX rs1
    let b := s.readX rs2
    let indirect := ((a.toNat + imm.toInt) % s.size).toNat
    let jump := ((s.pcX.toNat + 2 * off.toInt) % s.size).toNat
    let branch := ((s.pcX.toNat + 2 * imm.toInt) % s.size).toNat
    (indirect % 4 ≠ 0 →
      LinksThenTraps s (exec (.jalrC rd rs1 imm) s) rd indirect ∧
      LinksThenTraps s (exec (.jalrR rd rs1 imm) s) rd indirect ∧
      LinksThenTraps s (exec (.jalrJ rd rs1 imm) s) rd indirect) ∧
    (s.pcX.toNat % 4 = 0 → off.toNat % 2 = 1 → jump % 4 = 2 ∧
      GoesThenTraps s (exec (.j off) s) jump ∧
      LinksThenTraps s (exec (.jal off) s) 1#5 jump) ∧
    (s.pcX.toNat % 4 = 0 → imm.toNat % 2 = 1 → branch % 4 = 2 ∧
      (a = b → GoesThenTraps s (exec (.beq rs1 rs2 imm) s) branch) ∧
      (a ≠ b → GoesThenTraps s (exec (.bne rs1 rs2 imm) s) branch) ∧
      (signedX s.xlen a < signedX s.xlen b → GoesThenTraps s (exec (.blt rs1 rs2 imm) s) branch) ∧
      (signedX s.xlen b ≤ signedX s.xlen a → GoesThenTraps s (exec (.bge rs1 rs2 imm) s) branch) ∧
      (a.toNat < b.toNat → GoesThenTraps s (exec (.bltu rs1 rs2 imm) s) branch) ∧
      (b.toNat ≤ a.toNat → GoesThenTraps s (exec (.bgeu rs1 rs2 imm) s) branch))

/-! ## Memory -/

/-- `MemRead`: byte `i` of the value, counted from the least significant, is the byte at `a + i` in little-endian and at
`a + n - 1 - i` in big-endian order; and a load needs the access to be possible (20_memory R56). -/
def Obligations.MemReadBytes : Prop :=
  ∀ (s : State) (a : Word) (n : Nat), n = 1 ∨ n = 2 ∨ n = 4 ∨ n = 8 →
    (∀ i, i < n → (s.memRead a (8 * n)).extractLsb' (8 * i) 8 =
      s.readByte (s.byteAddr a (byteIndex s.env.endian n i))) ∧
    (∀ (k : BitVec (8 * n) → Result) (t : State), loadThen s a (8 * n) k = .next t → s.accessible a n .load = true)

/-- `MemWrite` is the inverse: the same bytes in the same places, no other byte of memory changes, and a store needs the
access to be possible (20_memory R57). The memory is in canonical form, the model's invariant (log entry 7). -/
def Obligations.MemWriteBytes : Prop :=
  ∀ (s : State) (a : Word) (n : Nat) (v : BitVec (8 * n)), n = 1 ∨ n = 2 ∨ n = 4 ∨ n = 8 →
    (Memory.wf s.mem = true → ∀ i, i < n →
      (s.memWrite a v).readByte (s.byteAddr a (byteIndex s.env.endian n i)) =
        v.extractLsb' (8 * i) 8) ∧
    SameMemoryBut s (s.memWrite a v) a n ∧
    (∀ t : State, storeAt s a v = .next t → s.accessible a n .store = true)

/-- A word stored is the word loaded from the same address afterwards, at any alignment and in either byte order (20_memory
R60, R68; that a misaligned access always succeeds is the spec's decision D3, log entry 30). -/
def Obligations.StoreThenLoad : Prop :=
  ∀ (s t u : State) (rd rs1 rs2 : Reg) (imm : BitVec 12), Memory.wf s.mem = true → rd ≠ 0#5 →
    exec (.sw rs1 rs2 imm) s = .next t → exec (.lw rd rs1 imm) t = .next u →
    signedX s.xlen (u.readX rd) = Int.bmod (s.readX rs2).toNat (2 ^ 32)

/-- The portable way to write an instruction, SH of the low half of `x[rs2]`, SRLI of it by 16 and SH of the high half, and a
FENCE.I after it: all four complete where the stores are possible, and the fetch at `x[rs1]` then reads the old low 32 bits
of `x[rs2]`, in either byte order (20_memory R58, 48_fence R441; the outcome is what the spec derives in R58). The memory is
in canonical form, the model's invariant (log entry 7). -/
def Obligations.PortableInstructionStore : Prop :=
  ∀ (s : State) (rs1 rs2 : Reg) (ignored : BitVec 22), Memory.wf s.mem = true → rs1 ≠ rs2 →
    s.accessible (s.regOffset rs1 0#12) 2 .store = true → s.accessible (s.regOffset rs1 2#12) 2 .store = true →
    ∃ t u v w, exec (.sh rs1 rs2 0#12) s = .next t ∧ exec (.srli rs2 rs2 16#6) t = .next u ∧
      exec (.sh rs1 rs2 2#12) u = .next v ∧ exec (.fenceI ignored) v = .next w ∧
      w.fetchWord (s.readX rs1) = (s.readX rs2).setWidth 32 ∧ w.fetchIsStale (s.readX rs1) = false ∧
      Memory.wf w.mem = true

/-- The loads, where the access is possible: the value in memory at `x[rs1] + sextX(imm12)`, sign- or zero-extended, or as it
is for the f registers; LD and LWU in RV64 (40_load_store R131 to R138, R145, R146; that an address wraps modulo `2^XPRLEN`
is the spec's decision D9, log entry 21, and the image of a floating-point value in memory its decision D32, log
entry 28). -/
def Obligations.Loads : Prop :=
  ∀ (s : State) (rd rs1 : Reg) (imm : BitVec 12),
    let ea := s.regOffset rs1 imm
    (ea.toNat : Int) = ((s.readX rs1).toNat + imm.toInt) % s.size ∧
    (s.accessible ea 1 .load = true →
      WritesXSigned s (exec (.lb rd rs1 imm) s) rd (s.memRead ea 8).toInt ∧
      WritesX s (exec (.lbu rd rs1 imm) s) rd (s.memRead ea 8).toNat) ∧
    (s.accessible ea 2 .load = true →
      WritesXSigned s (exec (.lh rd rs1 imm) s) rd (s.memRead ea 16).toInt ∧
      WritesX s (exec (.lhu rd rs1 imm) s) rd (s.memRead ea 16).toNat) ∧
    (s.accessible ea 4 .load = true →
      WritesXSigned s (exec (.lw rd rs1 imm) s) rd (s.memRead ea 32).toInt ∧
      (s.xlen = .rv64 → WritesX s (exec (.lwu rd rs1 imm) s) rd (s.memRead ea 32).toNat) ∧
      WritesF s (exec (.flw rd rs1 imm) s) rd (fm := .s) (s.memRead ea 32) noFlags) ∧
    (s.accessible ea 8 .load = true →
      (s.xlen = .rv64 → WritesX s (exec (.ld rd rs1 imm) s) rd (s.memRead ea 64).toNat) ∧
      WritesF s (exec (.fld rd rs1 imm) s) rd (fm := .d) (s.memRead ea 64) noFlags)

/-- The stores, where the access is possible: the low bits of `x[rs2]`, or the f register's, at `x[rs1] + sextX(imm12)`, and
no other byte; SD in RV64 (40_load_store R131, R140 to R143, R147, R148; that an address wraps modulo `2^XPRLEN` is the
spec's decision D9, log entry 21, and the image of a floating-point value in memory its decision D32, log entry 28). The
memory is in canonical form, the model's invariant (log entry 7). -/
def Obligations.Stores : Prop :=
  ∀ (s : State) (rs1 rs2 : Reg) (imm : BitVec 12), Memory.wf s.mem = true →
    let ea := s.regOffset rs1 imm
    (ea.toNat : Int) = ((s.readX rs1).toNat + imm.toInt) % s.size ∧
    (s.accessible ea 1 .store = true → StoresAt s (exec (.sb rs1 rs2 imm) s) ea ((s.readX rs2).setWidth 8)) ∧
    (s.accessible ea 2 .store = true → StoresAt s (exec (.sh rs1 rs2 imm) s) ea ((s.readX rs2).setWidth 16)) ∧
    (s.accessible ea 4 .store = true →
      StoresAt s (exec (.sw rs1 rs2 imm) s) ea ((s.readX rs2).setWidth 32) ∧
      StoresAt s (exec (.fsw rs1 rs2 imm) s) ea ((s.readF rs2).setWidth 32)) ∧
    (s.accessible ea 8 .store = true →
      (s.xlen = .rv64 → StoresAt s (exec (.sd rs1 rs2 imm) s) ea (s.readX rs2)) ∧
      StoresAt s (exec (.fsd rs1 rs2 imm) s) ea (s.readF rs2))

/-- A load or store of each width whose access is not possible takes AccessFault with its address, and nothing is written
(40_load_store R139, 60_exceptions R475; the exception and its name are the spec's decision D23, log entry 3). -/
def Obligations.DataAccessFaults : Prop :=
  ∀ (s : State) (rd rs1 rs2 : Reg) (imm : BitVec 12),
    let ea := s.regOffset rs1 imm
    (s.accessible ea 1 .load = false → Traps s (exec (.lb rd rs1 imm) s) (.accessFault ea .load) ∧
      Traps s (exec (.lbu rd rs1 imm) s) (.accessFault ea .load)) ∧
    (s.accessible ea 2 .load = false → Traps s (exec (.lh rd rs1 imm) s) (.accessFault ea .load) ∧
      Traps s (exec (.lhu rd rs1 imm) s) (.accessFault ea .load)) ∧
    (s.accessible ea 4 .load = false → Traps s (exec (.lw rd rs1 imm) s) (.accessFault ea .load) ∧
      (s.xlen = .rv64 → Traps s (exec (.lwu rd rs1 imm) s) (.accessFault ea .load)) ∧
      Traps s (exec (.flw rd rs1 imm) s) (.accessFault ea .load)) ∧
    (s.accessible ea 8 .load = false →
      (s.xlen = .rv64 → Traps s (exec (.ld rd rs1 imm) s) (.accessFault ea .load)) ∧
      Traps s (exec (.fld rd rs1 imm) s) (.accessFault ea .load)) ∧
    (s.accessible ea 1 .store = false → Traps s (exec (.sb rs1 rs2 imm) s) (.accessFault ea .store)) ∧
    (s.accessible ea 2 .store = false → Traps s (exec (.sh rs1 rs2 imm) s) (.accessFault ea .store)) ∧
    (s.accessible ea 4 .store = false → Traps s (exec (.sw rs1 rs2 imm) s) (.accessFault ea .store) ∧
      Traps s (exec (.fsw rs1 rs2 imm) s) (.accessFault ea .store)) ∧
    (s.accessible ea 8 .store = false →
      (s.xlen = .rv64 → Traps s (exec (.sd rs1 rs2 imm) s) (.accessFault ea .store)) ∧
      Traps s (exec (.fsd rs1 rs2 imm) s) (.accessFault ea .store))

/-! ## Atomics -/

/-- The eight 32-bit AMOs at an aligned address whose access is possible (41_amo R161, R164 to R172; that the operand is the
low 32 bits of `x[rs2]` and the comparisons are of 32-bit values is the spec's decision D30, log entry 27, and that sources
are read before a destination is written its decision D10, log entry 29). The memory is in canonical form, the model's
invariant (log entry 7). -/
def Obligations.AmoWord : Prop :=
  ∀ (s : State) (rd rs1 rs2 : Reg),
    let a := s.readX rs1
    let old := s.memRead a 32
    let src := (s.readX rs2).setWidth 32
    Memory.wf s.mem = true → a.toNat % 4 = 0 → s.accessible a 4 .amo = true →
    Exchanges s (exec (.amoaddW rd rs1 rs2) s) rd a (BitVec.ofNat 32 (old.toNat + src.toNat)) ∧
    Exchanges s (exec (.amoswapW rd rs1 rs2) s) rd a src ∧
    Exchanges s (exec (.amoandW rd rs1 rs2) s) rd a (old &&& src) ∧
    Exchanges s (exec (.amoorW rd rs1 rs2) s) rd a (old ||| src) ∧
    Exchanges s (exec (.amominW rd rs1 rs2) s) rd a (if old.toInt ≤ src.toInt then old else src) ∧
    Exchanges s (exec (.amomaxW rd rs1 rs2) s) rd a (if old.toInt ≥ src.toInt then old else src) ∧
    Exchanges s (exec (.amominuW rd rs1 rs2) s) rd a (if old.toNat ≤ src.toNat then old else src) ∧
    Exchanges s (exec (.amomaxuW rd rs1 rs2) s) rd a (if old.toNat ≥ src.toNat then old else src)

/-- The eight 64-bit AMOs in RV64 at an aligned address whose access is possible (41_amo R161, R164, R173 to R180; that
sources are read before a destination is written is the spec's decision D10, log entry 29). The memory is in canonical form,
the model's invariant (log entry 7). -/
def Obligations.AmoDouble : Prop :=
  ∀ (s : State) (rd rs1 rs2 : Reg),
    let a := s.readX rs1
    let old := s.memRead a 64
    let src := s.readX rs2
    s.xlen = .rv64 → Memory.wf s.mem = true → a.toNat % 8 = 0 → s.accessible a 8 .amo = true →
    Exchanges s (exec (.amoaddD rd rs1 rs2) s) rd a (BitVec.ofNat 64 (old.toNat + src.toNat)) ∧
    Exchanges s (exec (.amoswapD rd rs1 rs2) s) rd a src ∧
    Exchanges s (exec (.amoandD rd rs1 rs2) s) rd a (old &&& src) ∧
    Exchanges s (exec (.amoorD rd rs1 rs2) s) rd a (old ||| src) ∧
    Exchanges s (exec (.amominD rd rs1 rs2) s) rd a (if old.toInt ≤ src.toInt then old else src) ∧
    Exchanges s (exec (.amomaxD rd rs1 rs2) s) rd a (if old.toInt ≥ src.toInt then old else src) ∧
    Exchanges s (exec (.amominuD rd rs1 rs2) s) rd a (if old.toNat ≤ src.toNat then old else src) ∧
    Exchanges s (exec (.amomaxuD rd rs1 rs2) s) rd a (if old.toNat ≥ src.toNat then old else src)

/-- An AMO at an address that is not a multiple of its size takes MisalignedAddress, whatever the access, and no other
instruction ever takes it; at an aligned address whose access is not possible it takes AccessFault (41_amo R162, R163; that
the alignment is checked before the access is the spec's decision D26, log entries 27 and 31, the AccessFault is its decision
D23, log entry 3, and that a misaligned load or store does not trap its decision D3, log entry 30). -/
def Obligations.AmoTraps : Prop :=
  ∀ (s : State) (rd rs1 rs2 : Reg),
    let a := s.readX rs1
    (∀ i ∈ [Instr.amoaddW rd rs1 rs2, .amoswapW rd rs1 rs2, .amoandW rd rs1 rs2, .amoorW rd rs1 rs2,
        .amominW rd rs1 rs2, .amomaxW rd rs1 rs2, .amominuW rd rs1 rs2, .amomaxuW rd rs1 rs2],
      (a.toNat % 4 ≠ 0 → Traps s (exec i s) (.misalignedAddress a)) ∧
      (a.toNat % 4 = 0 → s.accessible a 4 .amo = false → Traps s (exec i s) (.accessFault a .amo))) ∧
    (s.xlen = .rv64 → ∀ i ∈ [Instr.amoaddD rd rs1 rs2, .amoswapD rd rs1 rs2, .amoandD rd rs1 rs2, .amoorD rd rs1 rs2,
        .amominD rd rs1 rs2, .amomaxD rd rs1 rs2, .amominuD rd rs1 rs2, .amomaxuD rd rs1 rs2],
      (a.toNat % 8 ≠ 0 → Traps s (exec i s) (.misalignedAddress a)) ∧
      (a.toNat % 8 = 0 → s.accessible a 8 .amo = false → Traps s (exec i s) (.accessFault a .amo))) ∧
    (∀ (i : Instr) (b p : Word), exec i s = .fault (.trap (.misalignedAddress b) p) → opcodeOf i = 0b0101011#7)

/-! ## Floating point -/

/-- FADD, FSUB, FMUL and FDIV with a valid rounding mode (45_fp_compute R302, R306, R310 to R313, R317 to R320; that a
signaling NaN operand sets NV is from general knowledge, log entry 23, and that a single stands in bits 31:0 of its register
is the spec's decision D13, log entry 25). -/
def Obligations.FpArithmetic : Prop :=
  ∀ (s : State) (rd rs1 rs2 : Reg) (rm : BitVec 3) (r : Rounding), resolveRm s rm = some r →
    ArithRule (fm := .s) s (exec (.faddS rd rs1 rs2 rm) s) rd ieeeAdd r (s.readS rs1) (s.readS rs2) ∧
    ArithRule (fm := .s) s (exec (.fsubS rd rs1 rs2 rm) s) rd ieeeSub r (s.readS rs1) (s.readS rs2) ∧
    ArithRule (fm := .s) s (exec (.fmulS rd rs1 rs2 rm) s) rd ieeeMul r (s.readS rs1) (s.readS rs2) ∧
    ArithRule (fm := .s) s (exec (.fdivS rd rs1 rs2 rm) s) rd ieeeDiv r (s.readS rs1) (s.readS rs2) ∧
    ArithRule (fm := .d) s (exec (.faddD rd rs1 rs2 rm) s) rd ieeeAdd r (s.readF rs1) (s.readF rs2) ∧
    ArithRule (fm := .d) s (exec (.fsubD rd rs1 rs2 rm) s) rd ieeeSub r (s.readF rs1) (s.readF rs2) ∧
    ArithRule (fm := .d) s (exec (.fmulD rd rs1 rs2 rm) s) rd ieeeMul r (s.readF rs1) (s.readF rs2) ∧
    ArithRule (fm := .d) s (exec (.fdivD rd rs1 rs2 rm) s) rd ieeeDiv r (s.readF rs1) (s.readF rs2)

/-- FSQRT with a valid rounding mode (45_fp_compute R314, R321; that a signaling NaN operand sets NV is from general
knowledge, log entry 23, and that a single stands in bits 31:0 of its register is the spec's decision D13, log entry 25). -/
def Obligations.FpSquareRoot : Prop :=
  ∀ (s : State) (rd rs1 : Reg) (rm : BitVec 3) (r : Rounding), resolveRm s rm = some r →
    SqrtRule (fm := .s) s (exec (.fsqrtS rd rs1 rm) s) rd r (s.readS rs1) ∧
    SqrtRule (fm := .d) s (exec (.fsqrtD rd rs1 rm) s) rd r (s.readF rs1)

/-- The fused multiply-adds with a valid rounding mode: the sign changes act on the operands, the result is rounded once, and
a NaN is returned as it is (45_fp_compute R329 to R337; the reading of the negated forms is the spec's decision D31, log
entry 26, whether 0 × ∞ with a quiet NaN sets NV its open parameter, log entry 5; that a signaling NaN operand sets NV is
from general knowledge, log entry 23, and that a single stands in bits 31:0 of its register is the spec's decision D13, log
entry 25). -/
def Obligations.FpFused : Prop :=
  ∀ (s : State) (rd rs1 rs2 rs3 : Reg) (rm : BitVec 3) (r : Rounding), resolveRm s rm = some r →
    (let a := s.readS rs1
     let b := s.readS rs2
     let c := s.readS rs3
     let neg := fun v : BitVec 32 => v ^^^ 0x80000000#32
     FusedRule (fm := .s) s (exec (.fmaddS rd rs1 rs2 rs3 rm) s) rd r a b c a c ∧
     FusedRule (fm := .s) s (exec (.fmsubS rd rs1 rs2 rs3 rm) s) rd r a b c a (neg c) ∧
     FusedRule (fm := .s) s (exec (.fnmsubS rd rs1 rs2 rs3 rm) s) rd r a b c (neg a) c ∧
     FusedRule (fm := .s) s (exec (.fnmaddS rd rs1 rs2 rs3 rm) s) rd r a b c (neg a) (neg c)) ∧
    (let a := s.readF rs1
     let b := s.readF rs2
     let c := s.readF rs3
     let neg := fun v : BitVec 64 => v ^^^ 0x8000000000000000#64
     FusedRule (fm := .d) s (exec (.fmaddD rd rs1 rs2 rs3 rm) s) rd r a b c a c ∧
     FusedRule (fm := .d) s (exec (.fmsubD rd rs1 rs2 rs3 rm) s) rd r a b c a (neg c) ∧
     FusedRule (fm := .d) s (exec (.fnmsubD rd rs1 rs2 rs3 rm) s) rd r a b c (neg a) c ∧
     FusedRule (fm := .d) s (exec (.fnmaddD rd rs1 rs2 rs3 rm) s) rd r a b c (neg a) (neg c))

/-- FMIN and FMAX (45_fp_compute R307, R315, R316, R322, R323; that either zero may be returned is the spec's decision D18,
log entry 10; that a signaling NaN operand sets NV is from general knowledge, log entry 23, and that a single stands in bits
31:0 of its register is the spec's decision D13, log entry 25). -/
def Obligations.FpMinMax : Prop :=
  ∀ (s : State) (rd rs1 rs2 : Reg),
    MinMaxRule (fm := .s) s (exec (.fminS rd rs1 rs2) s) rd true (s.readS rs1) (s.readS rs2) ∧
    MinMaxRule (fm := .s) s (exec (.fmaxS rd rs1 rs2) s) rd false (s.readS rs1) (s.readS rs2) ∧
    MinMaxRule (fm := .d) s (exec (.fminD rd rs1 rs2) s) rd true (s.readF rs1) (s.readF rs2) ∧
    MinMaxRule (fm := .d) s (exec (.fmaxD rd rs1 rs2) s) rd false (s.readF rs1) (s.readF rs2)

/-- The sign injections: all bits but the sign from `rs1`, the sign of `rs2`, its opposite, or the XOR of the two, and no
flag (46_fp_convert_move R362 to R367; that a single stands in bits 31:0 of its register is the spec's decision D13, log
entry 25). -/
def Obligations.FpSignInjection : Prop :=
  ∀ (s : State) (rd rs1 rs2 : Reg),
    (let a := s.readS rs1
     let b := s.readS rs2
     let with' := fun sign : BitVec 1 => (sign ++ a.extractLsb' 0 31 : BitVec 32)
     WritesF (fm := .s) s (exec (.fsgnjS rd rs1 rs2) s) rd (with' (b.extractLsb' 31 1)) noFlags ∧
     WritesF (fm := .s) s (exec (.fsgnjnS rd rs1 rs2) s) rd (with' (~~~b.extractLsb' 31 1)) noFlags ∧
     WritesF (fm := .s) s (exec (.fsgnjxS rd rs1 rs2) s) rd (with' (a.extractLsb' 31 1 ^^^ b.extractLsb' 31 1)) noFlags) ∧
    (let a := s.readF rs1
     let b := s.readF rs2
     let with' := fun sign : BitVec 1 => (sign ++ a.extractLsb' 0 63 : BitVec 64)
     WritesF (fm := .d) s (exec (.fsgnjD rd rs1 rs2) s) rd (with' (b.extractLsb' 63 1)) noFlags ∧
     WritesF (fm := .d) s (exec (.fsgnjnD rd rs1 rs2) s) rd (with' (~~~b.extractLsb' 63 1)) noFlags ∧
     WritesF (fm := .d) s (exec (.fsgnjxD rd rs1 rs2) s) rd (with' (a.extractLsb' 63 1 ^^^ b.extractLsb' 63 1)) noFlags)

/-- FCVT.S.D and FCVT.D.S with a valid rounding mode: a NaN keeps its sign and the top of its fraction and comes out quiet,
with NV exactly for a signaling one; any other operand is converted, to double without a flag (46_fp_convert_move R370, R371,
45_fp_compute R308; that a NaN keeps its sign is what the spec derives in R308, and that FCVT.D.S checks its mode is its
decision D15, log entry 25; that a signaling NaN operand sets NV is from general knowledge, log entry 23, and that a single
stands in bits 31:0 of its register is the spec's decision D13, log entry 25). -/
def Obligations.FpConvertFormats : Prop :=
  ∀ (s : State) (rd rs1 : Reg) (rm : BitVec 3) (r : Rounding), resolveRm s rm = some r →
    (let a := s.readF rs1
     (isNaN (fm := .d) a = true → WritesF (fm := .s) s (exec (.fcvtSD rd rs1 rm) s) rd
       (a.extractLsb' 63 1 ++ 0b11111111#8 ++ 1#1 ++ a.extractLsb' 29 22 : BitVec 32)
       (if isSNaN (fm := .d) a = true then flagNV else noFlags)) ∧
     (isNaN (fm := .d) a = false →
       WritesFRes s (exec (.fcvtSD rd rs1 rm) s) rd (ieeeConvert .d .s s.env.tininess r a))) ∧
    (let a := s.readS rs1
     (isNaN (fm := .s) a = true → WritesF (fm := .d) s (exec (.fcvtDS rd rs1 rm) s) rd
       (a.extractLsb' 31 1 ++ 0b11111111111#11 ++ 1#1 ++ a.extractLsb' 0 22 ++ 0#29 : BitVec 64)
       (if isSNaN (fm := .s) a = true then flagNV else noFlags)) ∧
     (isNaN (fm := .s) a = false →
       WritesF s (exec (.fcvtDS rd rs1 rm) s) rd (ieeeConvert .s .d s.env.tininess r a).1 noFlags))

/-- The eight conversions from an integer with a valid rounding mode, the L forms in RV64; the integer 0 gives +0 and no flag
(46_fp_convert_move R374 to R382; that the W forms look at the low word is the spec's decision D20 and that FCVT.D.W and
FCVT.D.WU check their mode its decision D15, log entry 25; that a single stands in bits 31:0 of its register is the spec's
decision D13, log entry 25, and the conversion is IEEE 754's, log entry 23). -/
def Obligations.IntToFp : Prop :=
  ∀ (s : State) (rd rs1 : Reg) (rm : BitVec 3) (r : Rounding), resolveRm s rm = some r →
    let x := s.readX rs1
    let lo := x.setWidth 32
    (∀ (fm : Fmt) (res : Result) (n : Int),
      (fm, res, n) ∈ [(Fmt.s, exec (.fcvtSW rd rs1 rm) s, lo.toInt), (Fmt.s, exec (.fcvtSWU rd rs1 rm) s, (lo.toNat : Int)),
        (Fmt.d, exec (.fcvtDW rd rs1 rm) s, lo.toInt), (Fmt.d, exec (.fcvtDWU rd rs1 rm) s, (lo.toNat : Int))] →
      WritesFRes s res rd (ieeeFromInt fm s.env.tininess r n) ∧ (n = 0 → WritesF s res rd (0 : Pattern fm) noFlags)) ∧
    (s.xlen = .rv64 → ∀ (fm : Fmt) (res : Result) (n : Int),
      (fm, res, n) ∈ [(Fmt.s, exec (.fcvtSL rd rs1 rm) s, x.toInt), (Fmt.s, exec (.fcvtSLU rd rs1 rm) s, (x.toNat : Int)),
        (Fmt.d, exec (.fcvtDL rd rs1 rm) s, x.toInt), (Fmt.d, exec (.fcvtDLU rd rs1 rm) s, (x.toNat : Int))] →
      WritesFRes s res rd (ieeeFromInt fm s.env.tininess r n) ∧ (n = 0 → WritesF s res rd (0 : Pattern fm) noFlags))

/-- The eight conversions to an integer with a valid rounding mode, the L forms in RV64 (46_fp_convert_move R384 to R392; the
value of an invalid conversion is free, the spec's decision D17, log entry 11; that a NaN, an infinity or a value out of
range is invalid with NV alone is from general knowledge, log entry 24; the sign-extension of a 32-bit result is the spec's
decision D20, log entry 25; that a conversion in range whose integer differs from the operand sets NX is its decision D35,
from general knowledge, log entry 24; that a single stands in bits 31:0 of its register is the spec's decision D13, log entry
25). -/
def Obligations.FpToInt : Prop :=
  ∀ (s : State) (rd rs1 : Reg) (rm : BitVec 3) (r : Rounding), resolveRm s rm = some r →
    ToIntRule (fm := .s) s (.fcvtWS rd rs1 rm) rd 32 (-2 ^ 31) (2 ^ 31 - 1) r (s.readS rs1) ∧
    ToIntRule (fm := .s) s (.fcvtWUS rd rs1 rm) rd 32 0 (2 ^ 32 - 1) r (s.readS rs1) ∧
    ToIntRule (fm := .d) s (.fcvtWD rd rs1 rm) rd 32 (-2 ^ 31) (2 ^ 31 - 1) r (s.readF rs1) ∧
    ToIntRule (fm := .d) s (.fcvtWUD rd rs1 rm) rd 32 0 (2 ^ 32 - 1) r (s.readF rs1) ∧
    (s.xlen = .rv64 →
      ToIntRule (fm := .s) s (.fcvtLS rd rs1 rm) rd 64 (-2 ^ 63) (2 ^ 63 - 1) r (s.readS rs1) ∧
      ToIntRule (fm := .s) s (.fcvtLUS rd rs1 rm) rd 64 0 (2 ^ 64 - 1) r (s.readS rs1) ∧
      ToIntRule (fm := .d) s (.fcvtLD rd rs1 rm) rd 64 (-2 ^ 63) (2 ^ 63 - 1) r (s.readF rs1) ∧
      ToIntRule (fm := .d) s (.fcvtLUD rd rs1 rm) rd 64 0 (2 ^ 64 - 1) r (s.readF rs1))

/-- The moves of bit patterns: MFTX.S sign-extends the low half of the f register, MXTF.S takes the low word, the D forms
move all 64 bits in RV64, and no flag is raised (46_fp_convert_move R394 to R397; that a single stands in bits 31:0 of its
register is the spec's decision D13, log entry 25). -/
def Obligations.BitMoves : Prop :=
  ∀ (s : State) (rd rs : Reg),
    WritesXSigned s (exec (.mftxS rd rs) s) rd (Int.bmod (s.readF rs).toNat (2 ^ 32)) ∧
    WritesF (fm := .s) s (exec (.mxtfS rd rs) s) rd ((s.readX rs).setWidth 32) noFlags ∧
    (s.xlen = .rv64 →
      WritesX s (exec (.mftxD rd rs) s) rd (s.readF rs).toNat ∧
      WritesF (fm := .d) s (exec (.mxtfD rd rs) s) rd (s.readX rs) noFlags)

/-- MFFSR reads `fsr`; MTFSR writes its rounding mode and flags from bits 7:0 of the old `x[rs1]` and returns the old `fsr`,
also where `rd` is `rs1` (46_fp_convert_move R400, R401, 10_state R35, R38; that bits 31:8 of `fsr` read 0 and that the bits
of `x[rs1]` above bit 7 are ignored is the spec's decision D14, log entry 25, and that sources are read before a destination
is written its decision D10, log entry 29). -/
def Obligations.StatusRegister : Prop :=
  ∀ (s : State) (rd rs1 : Reg),
    let old := s.fsrRM.toNat * 32 + s.fsrFlags.toNat
    WritesX s (exec (.mffsr rd) s) rd old ∧
    ∃ t, exec (.mtfsr rd rs1) s = .next t ∧ (t.readX rd).toNat = (if rd = 0#5 then 0 else old) ∧
      t.fsrRM = (s.readX rs1).extractLsb' 5 3 ∧ t.fsrFlags = (s.readX rs1).extractLsb' 0 5 ∧
      SameRun s t ∧ SameXBut s t rd ∧ SameF s t ∧ SameMemory s t ∧ t.stale = s.stale ∧ Advances s t ∧ Retires s t

/-- FEQ, FLT and FLE: 0 with a NaN operand, NV for a signaling one and, of FLT and FLE, for any; otherwise the numeric
relation (47_fp_compare R421 to R427; that the boolean result is 1 or 0, and the results and flags with a NaN, are the spec's
decision D16, the latter from general knowledge, log entry 24; that a single stands in bits 31:0 of its register is the
spec's decision D13, log entry 25). -/
def Obligations.FpCompares : Prop :=
  ∀ (s : State) (rd rs1 rs2 : Reg),
    CompareRule (fm := .s) s (exec (.feqS rd rs1 rs2) s) rd false ieeeEq (s.readS rs1) (s.readS rs2) ∧
    CompareRule (fm := .s) s (exec (.fltS rd rs1 rs2) s) rd true ieeeLt (s.readS rs1) (s.readS rs2) ∧
    CompareRule (fm := .s) s (exec (.fleS rd rs1 rs2) s) rd true ieeeLe (s.readS rs1) (s.readS rs2) ∧
    CompareRule (fm := .d) s (exec (.feqD rd rs1 rs2) s) rd false ieeeEq (s.readF rs1) (s.readF rs2) ∧
    CompareRule (fm := .d) s (exec (.fltD rd rs1 rs2) s) rd true ieeeLt (s.readF rs1) (s.readF rs2) ∧
    CompareRule (fm := .d) s (exec (.fleD rd rs1 rs2) s) rd true ieeeLe (s.readF rs1) (s.readF rs2)

/-- The comparisons of the compare instructions are the numeric ones: on finite operands they compare the numbers the
patterns stand for, so that −0 and +0 are equal; the infinities lie beyond every finite number, an infinity is equal to
itself, and −∞ is less than +∞ (47_fp_compare R421; what the comparisons of IEEE 754 are, −0 equal to +0 among it, is from
general knowledge, log entry 23). -/
def Obligations.CompareIsNumeric : Prop :=
  ∀ (fm : Fmt) (a b : Pattern fm), isNaN a = false → isNaN b = false →
    (isInf a = false → isInf b = false →
      (ieeeEq a b = true ↔ valueOf a = valueOf b) ∧ (ieeeLt a b = true ↔ valueOf a < valueOf b) ∧
      (ieeeLe a b = true ↔ valueOf a ≤ valueOf b)) ∧
    (isInf a = true → isInf b = false →
      ieeeEq a b = false ∧ ieeeEq b a = false ∧ ieeeLt a b = signOf a ∧ ieeeLt b a = !signOf a ∧
      ieeeLe a b = signOf a ∧ ieeeLe b a = !signOf a) ∧
    (isInf a = true → isInf b = true →
      ieeeEq a b = (signOf a == signOf b) ∧ ieeeLt a b = (signOf a && !signOf b) ∧
      ieeeLe a b = (signOf a || !signOf b))

/-- The rounding modes. The code of an instruction's `rm` field, or with 111 the one in `fsr.RM`, names the mode: 000 RNE,
001 RTZ, 010 RDN, 011 RUP, 100 RMM, any other none (10_state R36, 45_fp_compute R302). The integer a finite operand is
rounded to is the one the mode says, toward zero, down, up, or the nearest with ties to the even one or away from zero, and
inexact exactly when it is another number; in the model's own terms, so is a magnitude `m / 2^d` with its sign
(46_fp_convert_move R384; what the modes mean beyond their names, and that inexact is so defined, is IEEE 754's, from general
knowledge, log entry 23). -/
def Obligations.RoundingModes : Prop :=
  (∀ s : State,
    resolveRm s 0b000#3 = some .rne ∧ resolveRm s 0b001#3 = some .rtz ∧ resolveRm s 0b010#3 = some .rdn ∧
    resolveRm s 0b011#3 = some .rup ∧ resolveRm s 0b100#3 = some .rmm ∧
    resolveRm s 0b101#3 = none ∧ resolveRm s 0b110#3 = none ∧
    (s.fsrRM = 0b000#3 → resolveRm s 0b111#3 = some .rne) ∧ (s.fsrRM = 0b001#3 → resolveRm s 0b111#3 = some .rtz) ∧
    (s.fsrRM = 0b010#3 → resolveRm s 0b111#3 = some .rdn) ∧ (s.fsrRM = 0b011#3 → resolveRm s 0b111#3 = some .rup) ∧
    (s.fsrRM = 0b100#3 → resolveRm s 0b111#3 = some .rmm) ∧ (5 ≤ s.fsrRM.toNat → resolveRm s 0b111#3 = none)) ∧
  (∀ (fm : Fmt) (r : Rounding) (a : Pattern fm), FiniteFp a →
    let n := (roundToInteger r a).1
    RoundsTo r IsInteger (n % 2 = 0) (valueOf a : ℝ) n ∧ ((roundToInteger r a).2 = true ↔ (n : ℚ) ≠ valueOf a)) ∧
  ∀ (sign : Bool) (m d : Nat), 0 < d →
    let u := 2 ^ d
    let out := fun rm => roundTo rm sign m (-(d : Int)) 0
    (∀ rm, (out rm).2 = true ↔ (out rm).1 * u ≠ m) ∧
    (out .rtz).1 = m / u ∧
    (out .rdn).1 = (if sign then (m + (u - 1)) / u else m / u) ∧
    (out .rup).1 = (if sign then m / u else (m + (u - 1)) / u) ∧
    (2 * m ≤ 2 * ((out .rne).1 * u) + u ∧ 2 * ((out .rne).1 * u) ≤ 2 * m + u ∧
      (2 * (m % u) = u → (out .rne).1 % 2 = 0)) ∧
    (2 * m ≤ 2 * ((out .rmm).1 * u) + u ∧ 2 * ((out .rmm).1 * u) ≤ 2 * m + u ∧
      (2 * (m % u) = u → (out .rmm).1 = m / u + 1))

/-- Arithmetic is exact where it can be: when the exact sum, difference, product, fused sum, quotient or square root of finite
operands is the number of some finite pattern, every rounding mode gives that number and no flag is raised (10_state R36,
45_fp_compute R310 to R314, R317 to R321, R329). An exact zero has the sign of the standard: of a sum, difference or fused sum
the sign the two terms share, else + but − in RDN (45_fp_compute R311); of a product or quotient the XOR of the signs; a root of
zero and a zero converted between the formats keep theirs, and the integer 0 gives +0 (46_fp_convert_move R374). The arithmetic
is IEEE 754's, log entry 23. -/
def Obligations.ExactArithmetic : Prop :=
  (∀ (fm : Fmt) (t : Tininess) (r : Rounding) (a b c d : Pattern fm), FiniteFp a → FiniteFp b → FiniteFp c → FiniteFp d →
    (valueOf a + valueOf b = valueOf d → IsExactly (ieeeAdd fm t r a b) d) ∧
    (valueOf a - valueOf b = valueOf d → IsExactly (ieeeSub fm t r a b) d) ∧
    (valueOf a * valueOf b = valueOf d → IsExactly (ieeeMul fm t r a b) d) ∧
    (valueOf a * valueOf b + valueOf c = valueOf d → IsExactly (ieeeFma fm t r a b c) d) ∧
    (valueOf b ≠ 0 → valueOf a = valueOf d * valueOf b → IsExactly (ieeeDiv fm t r a b) d) ∧
    (0 ≤ valueOf d → valueOf a = valueOf d * valueOf d → IsExactly (ieeeSqrt fm t r a) d)) ∧
  (∀ (fm dst : Fmt) (t : Tininess) (r : Rounding) (a b c : Pattern fm), FiniteFp a → FiniteFp b → FiniteFp c →
    let product := signOf a ^^ signOf b
    let zeroSum := fun s1 s2 : Bool => if s1 = s2 then s1 else decide (r = .rdn)
    (valueOf a + valueOf b = 0 → ieeeAdd fm t r a b = (zeroBits fm (zeroSum (signOf a) (signOf b)), 0#5)) ∧
    (valueOf a - valueOf b = 0 → ieeeSub fm t r a b = (zeroBits fm (zeroSum (signOf a) (!signOf b)), 0#5)) ∧
    (valueOf a * valueOf b = 0 → ieeeMul fm t r a b = (zeroBits fm product, 0#5)) ∧
    (valueOf a * valueOf b + valueOf c = 0 →
      ieeeFma fm t r a b c = (zeroBits fm (zeroSum product (signOf c)), 0#5)) ∧
    (valueOf b ≠ 0 → valueOf a = 0 → ieeeDiv fm t r a b = (zeroBits fm product, 0#5)) ∧
    (valueOf a = 0 → ieeeSqrt fm t r a = (a, 0#5)) ∧
    (valueOf a = 0 → ieeeConvert fm dst t r a = (zeroBits dst (signOf a), 0#5)) ∧
    ieeeFromInt dst t r 0 = (zeroBits dst false, 0#5))

/-- Arithmetic that is not exact is correctly rounded: for operands whose exact result is not 0, the result of each operation
and of each conversion to a floating-point format has the exact result's sign and is it rounded once in the mode, to a nearest
number of the format or to the neighbour on the mode's side; OF with infinity or the largest finite number, UF by `TININESS`, NX,
and no other flag (00_scope R17, 10_state R36, 45_fp_compute R303; what is rounded to what and when is IEEE 754's, log entry 23,
and that TININESS is a parameter is the spec's decision D19). -/
def Obligations.CorrectRounding : Prop :=
  ∀ (fm dst : Fmt) (t : Tininess) (r : Rounding) (a b c : Pattern fm) (n : Int), FiniteFp a → FiniteFp b → FiniteFp c →
    let x : ℝ := valueOf a
    let y : ℝ := valueOf b
    let z : ℝ := valueOf c
    (x + y ≠ 0 → RoundsCorrectly fm t r (x + y) (ieeeAdd fm t r a b)) ∧
    (x - y ≠ 0 → RoundsCorrectly fm t r (x - y) (ieeeSub fm t r a b)) ∧
    (x * y ≠ 0 → RoundsCorrectly fm t r (x * y) (ieeeMul fm t r a b)) ∧
    (x * y + z ≠ 0 → RoundsCorrectly fm t r (x * y + z) (ieeeFma fm t r a b c)) ∧
    (x ≠ 0 → y ≠ 0 → RoundsCorrectly fm t r (x / y) (ieeeDiv fm t r a b)) ∧
    (0 < x → RoundsCorrectly fm t r (Real.sqrt x) (ieeeSqrt fm t r a)) ∧
    (x ≠ 0 → RoundsCorrectly dst t r x (ieeeConvert fm dst t r a)) ∧
    (n ≠ 0 → RoundsCorrectly dst t r n (ieeeFromInt dst t r n))

/-- What is not a rounding of finite operands, none of them a NaN: an invalid operation (∞ − ∞, 0 × ∞, 0 / 0, ∞ / ∞, the root of
a number below zero, the same inside a fused form) gives the canonical NaN and NV; a finite number that is not 0 divided by 0
gives a signed infinity and DZ; any other operation on an infinity gives the infinity or zero of the standard, and no flag
(45_fp_compute R303, R305; the cases are IEEE 754's, log entry 23). -/
def Obligations.SpecialOperands : Prop :=
  ∀ (fm dst : Fmt) (t : Tininess) (r : Rounding) (a b c : Pattern fm),
    isNaN a = false → isNaN b = false → isNaN c = false →
    let product := signOf a ^^ signOf b
    let invalid := (canonicalBits fm, 0b10000#5)
    let exactly := fun v : Pattern fm => (v, 0b00000#5)
    (isInf a = true → isInf b = true →
      ieeeAdd fm t r a b = (if signOf a = signOf b then exactly a else invalid) ∧
      ieeeSub fm t r a b = (if signOf a = signOf b then invalid else exactly a) ∧
      ieeeDiv fm t r a b = invalid) ∧
    (isInf a = true → isInf b = false →
      ieeeAdd fm t r a b = exactly a ∧ ieeeAdd fm t r b a = exactly a ∧
      ieeeSub fm t r a b = exactly a ∧ ieeeSub fm t r b a = exactly (infBits fm (!signOf a)) ∧
      ieeeDiv fm t r a b = exactly (infBits fm product) ∧ ieeeDiv fm t r b a = exactly (zeroBits fm product)) ∧
    (isInf a = true →
      (isZero b = true → ieeeMul fm t r a b = invalid ∧ ieeeMul fm t r b a = invalid ∧
        ieeeFma fm t r a b c = invalid ∧ ieeeFma fm t r b a c = invalid) ∧
      (isZero b = false → ieeeMul fm t r a b = exactly (infBits fm product) ∧
        ieeeMul fm t r b a = exactly (infBits fm product) ∧
        (∀ res ∈ [ieeeFma fm t r a b c, ieeeFma fm t r b a c],
          res = (if isInf c = true ∧ signOf c ≠ product then invalid else exactly (infBits fm product)))) ∧
      ieeeSqrt fm t r a = (if signOf a = true then invalid else exactly a) ∧
      ieeeConvert fm dst t r a = (infBits dst (signOf a), 0b00000#5)) ∧
    (isInf a = false → isInf b = false → isInf c = true → ieeeFma fm t r a b c = exactly c) ∧
    (isInf a = false → isZero a = false → signOf a = true → ieeeSqrt fm t r a = invalid) ∧
    (isZero a = true → isZero b = true → ieeeDiv fm t r a b = invalid) ∧
    (isInf a = false → isZero a = false → isZero b = true →
      ieeeDiv fm t r a b = (infBits fm product, 0b01000#5)) ∧
    (isInf a = true → a = infBits fm (signOf a))

/-- NaNs: of the operands, in the order rs1, rs2, rs3, the first signaling one is returned with its quiet bit set and every
other bit kept, else the first quiet one as it is, for one, two and three operands; FMIN and FMAX return the other operand
for a single quiet NaN (45_fp_compute R301, R306, R307; the widths and places of the fields are IEEE 754's, from general
knowledge, log entry 23). -/
def Obligations.NaNRules : Prop :=
  (∀ (fm : Fmt) (a b c : Pattern fm),
    (isSNaN a = true → nanResult [a, b, c] = quiet a ∧ nanResult [a, b] = quiet a ∧ nanResult [a] = quiet a ∧
      minMaxNaN a b = quiet a) ∧
    (isSNaN a = false → isSNaN b = true →
      nanResult [a, b, c] = quiet b ∧ nanResult [a, b] = quiet b ∧ minMaxNaN a b = quiet b) ∧
    (isSNaN a = false → isSNaN b = false → isSNaN c = true → nanResult [a, b, c] = quiet c) ∧
    (isSNaN a = false → isQNaN a = true → nanResult [a] = a) ∧
    (isSNaN a = false → isSNaN b = false →
      (isQNaN a = true → nanResult [a, b] = a) ∧ (isQNaN a = false → isQNaN b = true → nanResult [a, b] = b)) ∧
    (isSNaN a = false → isSNaN b = false → isSNaN c = false →
      (isQNaN a = true → nanResult [a, b, c] = a) ∧
      (isQNaN a = false → isQNaN b = true → nanResult [a, b, c] = b) ∧
      (isQNaN a = false → isQNaN b = false → isQNaN c = true → nanResult [a, b, c] = c)) ∧
    (isSNaN a = false → isSNaN b = false →
      (isQNaN a = true → isQNaN b = true → minMaxNaN a b = a) ∧
      (isQNaN a = true → isQNaN b = false → minMaxNaN a b = b) ∧
      (isQNaN a = false → isQNaN b = true → minMaxNaN a b = a)) ∧
    (isNaN a = true → isQNaN (quiet a) = true ∧ signOf (quiet a) = signOf a)) ∧
  (∀ a : Pattern .s, quiet a = a ||| 0x00400000#32 ∧
    (isNaN a = true ↔ a.extractLsb' 23 8 = 0xFF#8 ∧ a.extractLsb' 0 23 ≠ 0#23) ∧
    (isSNaN a = true ↔ isNaN a = true ∧ a.getLsbD 22 = false) ∧ (isQNaN a = true ↔ isNaN a = true ∧ a.getLsbD 22 = true)) ∧
  (∀ a : Pattern .d, quiet a = a ||| 0x0008000000000000#64 ∧
    (isNaN a = true ↔ a.extractLsb' 52 11 = 0x7FF#11 ∧ a.extractLsb' 0 52 ≠ 0#52) ∧
    (isSNaN a = true ↔ isNaN a = true ∧ a.getLsbD 51 = false) ∧ (isQNaN a = true ↔ isNaN a = true ∧ a.getLsbD 51 = true))

/-- Conversions that lose nothing. Every single is exactly representable as a double: FCVT.D.S gives its number, and
converting back, in any rounding mode, gives the operand and raises no flag (46_fp_convert_move R371). FCVT.D.W and FCVT.D.WU
are exact in every rounding mode; FCVT.W.D gives an integer from −2^31 to 2^31−1 back and FCVT.WU.D one from 0 to 2^32−1,
without a flag, and the integers outside that range are invalid (46_fp_convert_move R374, R381, R382, R384, R391, R392; that
an integer out of range is an invalid conversion with NV alone is from general knowledge, log entry 24, that its value is
left open is the spec's decision D17, log entry 11, and the arithmetic is IEEE 754's, log entry 23). -/
def Obligations.ExactConversions : Prop :=
  (∀ (t : Tininess) (r r' : Rounding) (a : Pattern .s), isNaN a = false →
    (isInf a = false → valueOf (convertSToD t r a).1 = valueOf a) ∧
    convertDToS t r' (convertSToD t r a).1 = (a, noFlags)) ∧
  (∀ (t : Tininess) (r r' : Rounding) (n : Int), -2 ^ 31 ≤ n → n ≤ 2 ^ 32 - 1 →
    let d := (ieeeFromInt .d t r n).1
    (ieeeFromInt .d t r n).2 = noFlags ∧ FiniteFp d ∧ valueOf d = n ∧
    fpToInt (-2 ^ 31) (2 ^ 31 - 1) r' d = (if n ≤ 2 ^ 31 - 1 then (some n, noFlags) else (none, flagNV)) ∧
    fpToInt 0 (2 ^ 32 - 1) r' d = (if 0 ≤ n then (some n, noFlags) else (none, flagNV)))

/-! ## Fences and the system instructions -/

/-- FENCE changes nothing but the pc and `instret`, which is its whole effect where there is one hardware thread; FENCE.I
too, but that every later fetch then sees memory as it is, until the next store; the upper bits of both are ignored (48_fence
R440, R441, R443, 20_memory R72, R76; that there is one hardware thread and what only another could see is left out is the
model's choice of NTHREADS, the default of the spec's decision D25, log entry 18; what a fetch sees before the FENCE.I is its
decision D27, log entry 15; that the ignored bits of `rd` write no register its decision D7, log entry 20). -/
def Obligations.Fences : Prop :=
  ∀ (s : State) (ignored : BitVec 22),
    GoesTo s (exec (.fence ignored) s) ((s.pcX.toNat + 4) % s.size) ∧
    ∃ t, exec (.fenceI ignored) s = .next t ∧ t.stale = [] ∧ (∀ k, t.fetchByte k = t.readByte k) ∧
      SameRun s t ∧ SameX s t ∧ SameF s t ∧ t.fsr = s.fsr ∧ SameMemory s t ∧ Advances s t ∧ Retires s t

/-- The counter reads: RDINSTRET gives the count before its own increment; RDCYCLE and RDTIME give a count that has not
gone back, modulo `2^XPRLEN`, below `2^64` in RV64; each changes nothing else (49_system R453 to R458; by how much a count
moves is free, log entries 12 and 13, and that RDINSTRET does not count itself is the spec's decision D21). -/
def Obligations.Counters : Prop :=
  ∀ (s : State) (rd : Reg),
    WritesX s (exec (.rdinstret rd) s) rd (s.instret.toNat % s.size) ∧
    (∃ t, exec (.rdcycle rd) s = .next t ∧ (t.readX rd).toNat = (if rd = 0#5 then 0 else t.cycle % s.size) ∧
      s.cycle ≤ t.cycle ∧ (s.xlen = .rv64 → s.cycle < 2 ^ 64 → t.cycle < 2 ^ 64) ∧ t.env = s.env ∧ t.time = s.time ∧
      SameXBut s t rd ∧ SameF s t ∧ t.fsr = s.fsr ∧ SameMemory s t ∧ t.stale = s.stale ∧ Advances s t ∧ Retires s t) ∧
    (∃ t, exec (.rdtime rd) s = .next t ∧ (t.readX rd).toNat = (if rd = 0#5 then 0 else t.time % s.size) ∧
      s.time ≤ t.time ∧ (s.xlen = .rv64 → s.time < 2 ^ 64 → t.time < 2 ^ 64) ∧ t.env = s.env ∧ t.cycle = s.cycle ∧
      SameXBut s t rd ∧ SameF s t ∧ t.fsr = s.fsr ∧ SameMemory s t ∧ t.stale = s.stale ∧ Advances s t ∧ Retires s t)

/-- SYSCALL and BREAK raise their exception, in every state: the step ends there, with the pc of the instruction (49_system
R451, R452, 60_exceptions R476, R477; that the run ends is the spec's decisions D4 and D22, log entry 17). -/
def Obligations.SyscallAndBreakTrap : Prop :=
  ∀ s : State, Traps s (exec .syscall s) .syscall ∧ Traps s (exec .brk s) .brk

end
end

