-- ==== Sys2Proof/Laws/State.lean ====
section
/-! SUPPORT. One lemma per field per update of the state. -/

namespace Sys2Proof.Machine

/-! ## `writeX` -/

@[simp] theorem writeX_env (s : State) (r : Reg) (v : Word) : (s.writeX r v).env = s.env := by unfold State.writeX; split <;> rfl

@[simp] theorem writeX_f (s : State) (r : Reg) (v : Word) : (s.writeX r v).f = s.f := by unfold State.writeX; split <;> rfl

@[simp] theorem writeX_pc (s : State) (r : Reg) (v : Word) : (s.writeX r v).pc = s.pc := by unfold State.writeX; split <;> rfl

@[simp] theorem writeX_fsr (s : State) (r : Reg) (v : Word) : (s.writeX r v).fsr = s.fsr := by unfold State.writeX; split <;> rfl

@[simp] theorem writeX_instret (s : State) (r : Reg) (v : Word) : (s.writeX r v).instret = s.instret := by unfold State.writeX; split <;> rfl

@[simp] theorem writeX_cycle (s : State) (r : Reg) (v : Word) : (s.writeX r v).cycle = s.cycle := by unfold State.writeX; split <;> rfl

@[simp] theorem writeX_time (s : State) (r : Reg) (v : Word) : (s.writeX r v).time = s.time := by unfold State.writeX; split <;> rfl

@[simp] theorem writeX_mem (s : State) (r : Reg) (v : Word) : (s.writeX r v).mem = s.mem := by unfold State.writeX; split <;> rfl

@[simp] theorem writeX_stale (s : State) (r : Reg) (v : Word) : (s.writeX r v).stale = s.stale := by unfold State.writeX; split <;> rfl

@[simp] theorem writeX_draws (s : State) (r : Reg) (v : Word) : (s.writeX r v).draws = s.draws := by unfold State.writeX; split <;> rfl

/-! ## `writeD` -/

@[simp] theorem writeD_env (s : State) (r : Reg) (v : BitVec 64) : (s.writeD r v).env = s.env := rfl

@[simp] theorem writeD_x (s : State) (r : Reg) (v : BitVec 64) : (s.writeD r v).x = s.x := rfl

@[simp] theorem writeD_pc (s : State) (r : Reg) (v : BitVec 64) : (s.writeD r v).pc = s.pc := rfl

@[simp] theorem writeD_fsr (s : State) (r : Reg) (v : BitVec 64) : (s.writeD r v).fsr = s.fsr := rfl

@[simp] theorem writeD_instret (s : State) (r : Reg) (v : BitVec 64) : (s.writeD r v).instret = s.instret := rfl

@[simp] theorem writeD_cycle (s : State) (r : Reg) (v : BitVec 64) : (s.writeD r v).cycle = s.cycle := rfl

@[simp] theorem writeD_time (s : State) (r : Reg) (v : BitVec 64) : (s.writeD r v).time = s.time := rfl

@[simp] theorem writeD_mem (s : State) (r : Reg) (v : BitVec 64) : (s.writeD r v).mem = s.mem := rfl

@[simp] theorem writeD_stale (s : State) (r : Reg) (v : BitVec 64) : (s.writeD r v).stale = s.stale := rfl

@[simp] theorem writeD_draws (s : State) (r : Reg) (v : BitVec 64) : (s.writeD r v).draws = s.draws := rfl

/-! ## `writeS` -/

@[simp] theorem writeS_env (s : State) (r : Reg) (v : BitVec 32) : (s.writeS r v).env = s.env := rfl

@[simp] theorem writeS_x (s : State) (r : Reg) (v : BitVec 32) : (s.writeS r v).x = s.x := rfl

@[simp] theorem writeS_pc (s : State) (r : Reg) (v : BitVec 32) : (s.writeS r v).pc = s.pc := rfl

@[simp] theorem writeS_fsr (s : State) (r : Reg) (v : BitVec 32) : (s.writeS r v).fsr = s.fsr := rfl

@[simp] theorem writeS_instret (s : State) (r : Reg) (v : BitVec 32) : (s.writeS r v).instret = s.instret := rfl

@[simp] theorem writeS_cycle (s : State) (r : Reg) (v : BitVec 32) : (s.writeS r v).cycle = s.cycle := rfl

@[simp] theorem writeS_time (s : State) (r : Reg) (v : BitVec 32) : (s.writeS r v).time = s.time := rfl

@[simp] theorem writeS_mem (s : State) (r : Reg) (v : BitVec 32) : (s.writeS r v).mem = s.mem := rfl

@[simp] theorem writeS_stale (s : State) (r : Reg) (v : BitVec 32) : (s.writeS r v).stale = s.stale := rfl

/-! ## `writeByte` -/

@[simp] theorem writeByte_env (s : State) (k : Nat) (v : Byte) : (s.writeByte k v).env = s.env := rfl

@[simp] theorem writeByte_x (s : State) (k : Nat) (v : Byte) : (s.writeByte k v).x = s.x := rfl

@[simp] theorem writeByte_f (s : State) (k : Nat) (v : Byte) : (s.writeByte k v).f = s.f := rfl

@[simp] theorem writeByte_pc (s : State) (k : Nat) (v : Byte) : (s.writeByte k v).pc = s.pc := rfl

@[simp] theorem writeByte_fsr (s : State) (k : Nat) (v : Byte) : (s.writeByte k v).fsr = s.fsr := rfl

@[simp] theorem writeByte_instret (s : State) (k : Nat) (v : Byte) : (s.writeByte k v).instret = s.instret := rfl

@[simp] theorem writeByte_cycle (s : State) (k : Nat) (v : Byte) : (s.writeByte k v).cycle = s.cycle := rfl

@[simp] theorem writeByte_time (s : State) (k : Nat) (v : Byte) : (s.writeByte k v).time = s.time := rfl

@[simp] theorem writeByte_draws (s : State) (k : Nat) (v : Byte) : (s.writeByte k v).draws = s.draws := rfl

/-! ## `retireTo` -/

@[simp] theorem retireTo_env (s : State) (a : Word) : (s.retireTo a).env = s.env := rfl

@[simp] theorem retireTo_x (s : State) (a : Word) : (s.retireTo a).x = s.x := rfl

@[simp] theorem retireTo_f (s : State) (a : Word) : (s.retireTo a).f = s.f := rfl

@[simp] theorem retireTo_fsr (s : State) (a : Word) : (s.retireTo a).fsr = s.fsr := rfl

@[simp] theorem retireTo_cycle (s : State) (a : Word) : (s.retireTo a).cycle = s.cycle := rfl

@[simp] theorem retireTo_time (s : State) (a : Word) : (s.retireTo a).time = s.time := rfl

@[simp] theorem retireTo_mem (s : State) (a : Word) : (s.retireTo a).mem = s.mem := rfl

@[simp] theorem retireTo_stale (s : State) (a : Word) : (s.retireTo a).stale = s.stale := rfl

@[simp] theorem retireTo_draws (s : State) (a : Word) : (s.retireTo a).draws = s.draws := rfl

/-! ## `retire` -/

@[simp] theorem retire_env (s : State) : s.retire.env = s.env := rfl

@[simp] theorem retire_x (s : State) : s.retire.x = s.x := rfl

@[simp] theorem retire_f (s : State) : s.retire.f = s.f := rfl

@[simp] theorem retire_fsr (s : State) : s.retire.fsr = s.fsr := rfl

@[simp] theorem retire_cycle (s : State) : s.retire.cycle = s.cycle := rfl

@[simp] theorem retire_time (s : State) : s.retire.time = s.time := rfl

@[simp] theorem retire_mem (s : State) : s.retire.mem = s.mem := rfl

@[simp] theorem retire_stale (s : State) : s.retire.stale = s.stale := rfl

@[simp] theorem retire_draws (s : State) : s.retire.draws = s.draws := rfl

/-! ## `accrue` -/

@[simp] theorem accrue_env (s : State) (fl : FlagSet) : (s.accrue fl).env = s.env := rfl

@[simp] theorem accrue_x (s : State) (fl : FlagSet) : (s.accrue fl).x = s.x := rfl

@[simp] theorem accrue_f (s : State) (fl : FlagSet) : (s.accrue fl).f = s.f := rfl

@[simp] theorem accrue_pc (s : State) (fl : FlagSet) : (s.accrue fl).pc = s.pc := rfl

@[simp] theorem accrue_instret (s : State) (fl : FlagSet) : (s.accrue fl).instret = s.instret := rfl

@[simp] theorem accrue_cycle (s : State) (fl : FlagSet) : (s.accrue fl).cycle = s.cycle := rfl

@[simp] theorem accrue_time (s : State) (fl : FlagSet) : (s.accrue fl).time = s.time := rfl

@[simp] theorem accrue_mem (s : State) (fl : FlagSet) : (s.accrue fl).mem = s.mem := rfl

@[simp] theorem accrue_stale (s : State) (fl : FlagSet) : (s.accrue fl).stale = s.stale := rfl

@[simp] theorem accrue_draws (s : State) (fl : FlagSet) : (s.accrue fl).draws = s.draws := rfl

/-! ## `writeFsr` -/

@[simp] theorem writeFsr_env (s : State) (v : Word) : (s.writeFsr v).env = s.env := rfl

@[simp] theorem writeFsr_x (s : State) (v : Word) : (s.writeFsr v).x = s.x := rfl

@[simp] theorem writeFsr_f (s : State) (v : Word) : (s.writeFsr v).f = s.f := rfl

@[simp] theorem writeFsr_pc (s : State) (v : Word) : (s.writeFsr v).pc = s.pc := rfl

@[simp] theorem writeFsr_instret (s : State) (v : Word) : (s.writeFsr v).instret = s.instret := rfl

@[simp] theorem writeFsr_cycle (s : State) (v : Word) : (s.writeFsr v).cycle = s.cycle := rfl

@[simp] theorem writeFsr_time (s : State) (v : Word) : (s.writeFsr v).time = s.time := rfl

@[simp] theorem writeFsr_mem (s : State) (v : Word) : (s.writeFsr v).mem = s.mem := rfl

@[simp] theorem writeFsr_stale (s : State) (v : Word) : (s.writeFsr v).stale = s.stale := rfl

@[simp] theorem writeFsr_draws (s : State) (v : Word) : (s.writeFsr v).draws = s.draws := rfl

/-! ## `storeBytes` -/

@[simp] theorem storeBytes_env (s : State) (a : Word) (i : Nat) (bs : List Byte) :
    (s.storeBytes a i bs).env = s.env := by
  induction bs generalizing s i with
  | nil => rfl
  | cons b rest ih => simp [State.storeBytes, ih]

@[simp] theorem storeBytes_x (s : State) (a : Word) (i : Nat) (bs : List Byte) :
    (s.storeBytes a i bs).x = s.x := by
  induction bs generalizing s i with
  | nil => rfl
  | cons b rest ih => simp [State.storeBytes, ih]

@[simp] theorem storeBytes_f (s : State) (a : Word) (i : Nat) (bs : List Byte) :
    (s.storeBytes a i bs).f = s.f := by
  induction bs generalizing s i with
  | nil => rfl
  | cons b rest ih => simp [State.storeBytes, ih]

@[simp] theorem storeBytes_pc (s : State) (a : Word) (i : Nat) (bs : List Byte) :
    (s.storeBytes a i bs).pc = s.pc := by
  induction bs generalizing s i with
  | nil => rfl
  | cons b rest ih => simp [State.storeBytes, ih]

@[simp] theorem storeBytes_fsr (s : State) (a : Word) (i : Nat) (bs : List Byte) :
    (s.storeBytes a i bs).fsr = s.fsr := by
  induction bs generalizing s i with
  | nil => rfl
  | cons b rest ih => simp [State.storeBytes, ih]

@[simp] theorem storeBytes_instret (s : State) (a : Word) (i : Nat) (bs : List Byte) :
    (s.storeBytes a i bs).instret = s.instret := by
  induction bs generalizing s i with
  | nil => rfl
  | cons b rest ih => simp [State.storeBytes, ih]

@[simp] theorem storeBytes_cycle (s : State) (a : Word) (i : Nat) (bs : List Byte) :
    (s.storeBytes a i bs).cycle = s.cycle := by
  induction bs generalizing s i with
  | nil => rfl
  | cons b rest ih => simp [State.storeBytes, ih]

@[simp] theorem storeBytes_time (s : State) (a : Word) (i : Nat) (bs : List Byte) :
    (s.storeBytes a i bs).time = s.time := by
  induction bs generalizing s i with
  | nil => rfl
  | cons b rest ih => simp [State.storeBytes, ih]

@[simp] theorem storeBytes_draws (s : State) (a : Word) (i : Nat) (bs : List Byte) :
    (s.storeBytes a i bs).draws = s.draws := by
  induction bs generalizing s i with
  | nil => rfl
  | cons b rest ih => simp [State.storeBytes, ih]

/-! ## `memWrite` -/

@[simp] theorem memWrite_env (s : State) (a : Word) {w : Nat} (v : BitVec w) : (s.memWrite a v).env = s.env := by simp [State.memWrite]

@[simp] theorem memWrite_x (s : State) (a : Word) {w : Nat} (v : BitVec w) : (s.memWrite a v).x = s.x := by simp [State.memWrite]

@[simp] theorem memWrite_f (s : State) (a : Word) {w : Nat} (v : BitVec w) : (s.memWrite a v).f = s.f := by simp [State.memWrite]

@[simp] theorem memWrite_pc (s : State) (a : Word) {w : Nat} (v : BitVec w) : (s.memWrite a v).pc = s.pc := by simp [State.memWrite]

@[simp] theorem memWrite_fsr (s : State) (a : Word) {w : Nat} (v : BitVec w) : (s.memWrite a v).fsr = s.fsr := by simp [State.memWrite]

@[simp] theorem memWrite_instret (s : State) (a : Word) {w : Nat} (v : BitVec w) : (s.memWrite a v).instret = s.instret := by simp [State.memWrite]

@[simp] theorem memWrite_cycle (s : State) (a : Word) {w : Nat} (v : BitVec w) : (s.memWrite a v).cycle = s.cycle := by simp [State.memWrite]

@[simp] theorem memWrite_time (s : State) (a : Word) {w : Nat} (v : BitVec w) : (s.memWrite a v).time = s.time := by simp [State.memWrite]

@[simp] theorem memWrite_draws (s : State) (a : Word) {w : Nat} (v : BitVec w) : (s.memWrite a v).draws = s.draws := by simp [State.memWrite]

/-! ## The fields an update changes -/

@[simp] theorem writeD_f (s : State) (r : Reg) (v : BitVec 64) :
    (s.writeD r v).f = s.f.setIfInBounds r.toNat v := rfl

@[simp] theorem writeS_draws (s : State) (r : Reg) (v : BitVec 32) : (s.writeS r v).draws = s.draws + 1 := rfl

@[simp] theorem writeByte_mem (s : State) (k : Nat) (v : Byte) : (s.writeByte k v).mem = writeCell s.mem k v := rfl

@[simp] theorem retireTo_pc (s : State) (a : Word) : (s.retireTo a).pc = truncX s.xlen a := rfl

@[simp] theorem retireTo_instret (s : State) (a : Word) :
    (s.retireTo a).instret = truncX s.xlen (s.instret + 1#64) := rfl

@[simp] theorem retire_pc (s : State) : s.retire.pc = truncX s.xlen s.nextPc := rfl

@[simp] theorem retire_instret (s : State) : s.retire.instret = truncX s.xlen (s.instret + 1#64) := rfl

/-! ## Reads that look at a field an update keeps -/

@[simp] theorem writeX_xlen (s : State) (r : Reg) (v : Word) :
    (s.writeX r v).xlen = s.xlen := by simp [State.xlen]

@[simp] theorem writeX_readF (s : State) (r : Reg) (v : Word) (q : Reg) :
    (s.writeX r v).readF q = s.readF q := by simp [State.readF]

@[simp] theorem writeX_readByte (s : State) (r : Reg) (v : Word) (q : Nat) :
    (s.writeX r v).readByte q = s.readByte q := by simp [State.readByte]

@[simp] theorem writeX_pcX (s : State) (r : Reg) (v : Word) :
    (s.writeX r v).pcX = s.pcX := by simp [State.pcX, State.xlen]

@[simp] theorem writeX_byteAddr (s : State) (r : Reg) (v : Word) (q : Word) (i : Nat) :
    (s.writeX r v).byteAddr q i = s.byteAddr q i := by simp [State.byteAddr, State.xlen]

@[simp] theorem writeX_nextPc (s : State) (r : Reg) (v : Word) :
    (s.writeX r v).nextPc = s.nextPc := by simp [State.nextPc, State.pcX, State.xlen]

@[simp] theorem writeX_fsrRM (s : State) (r : Reg) (v : Word) :
    (s.writeX r v).fsrRM = s.fsrRM := by simp [State.fsrRM]

@[simp] theorem writeX_fsrFlags (s : State) (r : Reg) (v : Word) :
    (s.writeX r v).fsrFlags = s.fsrFlags := by simp [State.fsrFlags]

@[simp] theorem writeX_readS (s : State) (r : Reg) (v : Word) (q : Reg) :
    (s.writeX r v).readS q = s.readS q := by simp [State.readS, State.readF]

@[simp] theorem writeD_xlen (s : State) (r : Reg) (v : BitVec 64) :
    (s.writeD r v).xlen = s.xlen := rfl

@[simp] theorem writeD_readX (s : State) (r : Reg) (v : BitVec 64) (q : Reg) :
    (s.writeD r v).readX q = s.readX q := rfl

@[simp] theorem writeD_readByte (s : State) (r : Reg) (v : BitVec 64) (q : Nat) :
    (s.writeD r v).readByte q = s.readByte q := rfl

@[simp] theorem writeD_pcX (s : State) (r : Reg) (v : BitVec 64) :
    (s.writeD r v).pcX = s.pcX := rfl

@[simp] theorem writeD_byteAddr (s : State) (r : Reg) (v : BitVec 64) (q : Word) (i : Nat) :
    (s.writeD r v).byteAddr q i = s.byteAddr q i := rfl

@[simp] theorem writeD_nextPc (s : State) (r : Reg) (v : BitVec 64) :
    (s.writeD r v).nextPc = s.nextPc := rfl

@[simp] theorem writeD_fsrRM (s : State) (r : Reg) (v : BitVec 64) :
    (s.writeD r v).fsrRM = s.fsrRM := rfl

@[simp] theorem writeD_fsrFlags (s : State) (r : Reg) (v : BitVec 64) :
    (s.writeD r v).fsrFlags = s.fsrFlags := rfl

@[simp] theorem writeS_xlen (s : State) (r : Reg) (v : BitVec 32) :
    (s.writeS r v).xlen = s.xlen := rfl

@[simp] theorem writeS_readX (s : State) (r : Reg) (v : BitVec 32) (q : Reg) :
    (s.writeS r v).readX q = s.readX q := rfl

@[simp] theorem writeS_readByte (s : State) (r : Reg) (v : BitVec 32) (q : Nat) :
    (s.writeS r v).readByte q = s.readByte q := rfl

@[simp] theorem writeS_pcX (s : State) (r : Reg) (v : BitVec 32) :
    (s.writeS r v).pcX = s.pcX := rfl

@[simp] theorem writeS_byteAddr (s : State) (r : Reg) (v : BitVec 32) (q : Word) (i : Nat) :
    (s.writeS r v).byteAddr q i = s.byteAddr q i := rfl

@[simp] theorem writeS_nextPc (s : State) (r : Reg) (v : BitVec 32) :
    (s.writeS r v).nextPc = s.nextPc := rfl

@[simp] theorem writeS_fsrRM (s : State) (r : Reg) (v : BitVec 32) :
    (s.writeS r v).fsrRM = s.fsrRM := rfl

@[simp] theorem writeS_fsrFlags (s : State) (r : Reg) (v : BitVec 32) :
    (s.writeS r v).fsrFlags = s.fsrFlags := rfl

@[simp] theorem writeByte_xlen (s : State) (k : Nat) (v : Byte) :
    (s.writeByte k v).xlen = s.xlen := rfl

@[simp] theorem writeByte_readX (s : State) (k : Nat) (v : Byte) (q : Reg) :
    (s.writeByte k v).readX q = s.readX q := rfl

@[simp] theorem writeByte_readF (s : State) (k : Nat) (v : Byte) (q : Reg) :
    (s.writeByte k v).readF q = s.readF q := rfl

@[simp] theorem writeByte_pcX (s : State) (k : Nat) (v : Byte) :
    (s.writeByte k v).pcX = s.pcX := rfl

@[simp] theorem writeByte_byteAddr (s : State) (k : Nat) (v : Byte) (q : Word) (i : Nat) :
    (s.writeByte k v).byteAddr q i = s.byteAddr q i := rfl

@[simp] theorem writeByte_nextPc (s : State) (k : Nat) (v : Byte) :
    (s.writeByte k v).nextPc = s.nextPc := rfl

@[simp] theorem writeByte_fsrRM (s : State) (k : Nat) (v : Byte) :
    (s.writeByte k v).fsrRM = s.fsrRM := rfl

@[simp] theorem writeByte_fsrFlags (s : State) (k : Nat) (v : Byte) :
    (s.writeByte k v).fsrFlags = s.fsrFlags := rfl

@[simp] theorem writeByte_readS (s : State) (k : Nat) (v : Byte) (q : Reg) :
    (s.writeByte k v).readS q = s.readS q := rfl

@[simp] theorem retireTo_xlen (s : State) (a : Word) :
    (s.retireTo a).xlen = s.xlen := rfl

@[simp] theorem retireTo_readX (s : State) (a : Word) (q : Reg) :
    (s.retireTo a).readX q = s.readX q := rfl

@[simp] theorem retireTo_readF (s : State) (a : Word) (q : Reg) :
    (s.retireTo a).readF q = s.readF q := rfl

@[simp] theorem retireTo_readByte (s : State) (a : Word) (q : Nat) :
    (s.retireTo a).readByte q = s.readByte q := rfl

@[simp] theorem retireTo_byteAddr (s : State) (a : Word) (q : Word) (i : Nat) :
    (s.retireTo a).byteAddr q i = s.byteAddr q i := rfl

@[simp] theorem retireTo_fsrRM (s : State) (a : Word) :
    (s.retireTo a).fsrRM = s.fsrRM := rfl

@[simp] theorem retireTo_fsrFlags (s : State) (a : Word) :
    (s.retireTo a).fsrFlags = s.fsrFlags := rfl

@[simp] theorem retireTo_readS (s : State) (a : Word) (q : Reg) :
    (s.retireTo a).readS q = s.readS q := rfl

@[simp] theorem retire_xlen (s : State) :
    s.retire.xlen = s.xlen := rfl

@[simp] theorem retire_readX (s : State) (q : Reg) :
    s.retire.readX q = s.readX q := rfl

@[simp] theorem retire_readF (s : State) (q : Reg) :
    s.retire.readF q = s.readF q := rfl

@[simp] theorem retire_readByte (s : State) (q : Nat) :
    s.retire.readByte q = s.readByte q := rfl

@[simp] theorem retire_byteAddr (s : State) (q : Word) (i : Nat) :
    s.retire.byteAddr q i = s.byteAddr q i := rfl

@[simp] theorem retire_fsrRM (s : State) :
    s.retire.fsrRM = s.fsrRM := rfl

@[simp] theorem retire_fsrFlags (s : State) :
    s.retire.fsrFlags = s.fsrFlags := rfl

@[simp] theorem retire_readS (s : State) (q : Reg) :
    s.retire.readS q = s.readS q := rfl

@[simp] theorem accrue_xlen (s : State) (fl : FlagSet) :
    (s.accrue fl).xlen = s.xlen := rfl

@[simp] theorem accrue_readX (s : State) (fl : FlagSet) (q : Reg) :
    (s.accrue fl).readX q = s.readX q := rfl

@[simp] theorem accrue_readF (s : State) (fl : FlagSet) (q : Reg) :
    (s.accrue fl).readF q = s.readF q := rfl

@[simp] theorem accrue_readByte (s : State) (fl : FlagSet) (q : Nat) :
    (s.accrue fl).readByte q = s.readByte q := rfl

@[simp] theorem accrue_pcX (s : State) (fl : FlagSet) :
    (s.accrue fl).pcX = s.pcX := rfl

@[simp] theorem accrue_byteAddr (s : State) (fl : FlagSet) (q : Word) (i : Nat) :
    (s.accrue fl).byteAddr q i = s.byteAddr q i := rfl

@[simp] theorem accrue_nextPc (s : State) (fl : FlagSet) :
    (s.accrue fl).nextPc = s.nextPc := rfl

@[simp] theorem accrue_readS (s : State) (fl : FlagSet) (q : Reg) :
    (s.accrue fl).readS q = s.readS q := rfl

@[simp] theorem writeFsr_xlen (s : State) (v : Word) :
    (s.writeFsr v).xlen = s.xlen := rfl

@[simp] theorem writeFsr_readX (s : State) (v : Word) (q : Reg) :
    (s.writeFsr v).readX q = s.readX q := rfl

@[simp] theorem writeFsr_readF (s : State) (v : Word) (q : Reg) :
    (s.writeFsr v).readF q = s.readF q := rfl

@[simp] theorem writeFsr_readByte (s : State) (v : Word) (q : Nat) :
    (s.writeFsr v).readByte q = s.readByte q := rfl

@[simp] theorem writeFsr_pcX (s : State) (v : Word) :
    (s.writeFsr v).pcX = s.pcX := rfl

@[simp] theorem writeFsr_byteAddr (s : State) (v : Word) (q : Word) (i : Nat) :
    (s.writeFsr v).byteAddr q i = s.byteAddr q i := rfl

@[simp] theorem writeFsr_nextPc (s : State) (v : Word) :
    (s.writeFsr v).nextPc = s.nextPc := rfl

@[simp] theorem writeFsr_readS (s : State) (v : Word) (q : Reg) :
    (s.writeFsr v).readS q = s.readS q := rfl

@[simp] theorem storeBytes_xlen (s : State) (a : Word) (i : Nat) (bs : List Byte) :
    (s.storeBytes a i bs).xlen = s.xlen := by simp [State.xlen]

@[simp] theorem storeBytes_readX (s : State) (a : Word) (i : Nat) (bs : List Byte) (q : Reg) :
    (s.storeBytes a i bs).readX q = s.readX q := by simp [State.readX, State.xlen]

@[simp] theorem storeBytes_readF (s : State) (a : Word) (i : Nat) (bs : List Byte) (q : Reg) :
    (s.storeBytes a i bs).readF q = s.readF q := by simp [State.readF]

@[simp] theorem storeBytes_pcX (s : State) (a : Word) (i : Nat) (bs : List Byte) :
    (s.storeBytes a i bs).pcX = s.pcX := by simp [State.pcX, State.xlen]

@[simp] theorem storeBytes_byteAddr (s : State) (a : Word) (i : Nat) (bs : List Byte) (q : Word) (j : Nat) :
    (s.storeBytes a i bs).byteAddr q j = s.byteAddr q j := by simp [State.byteAddr, State.xlen]

@[simp] theorem storeBytes_nextPc (s : State) (a : Word) (i : Nat) (bs : List Byte) :
    (s.storeBytes a i bs).nextPc = s.nextPc := by simp [State.nextPc, State.pcX, State.xlen]

@[simp] theorem storeBytes_fsrRM (s : State) (a : Word) (i : Nat) (bs : List Byte) :
    (s.storeBytes a i bs).fsrRM = s.fsrRM := by simp [State.fsrRM]

@[simp] theorem storeBytes_fsrFlags (s : State) (a : Word) (i : Nat) (bs : List Byte) :
    (s.storeBytes a i bs).fsrFlags = s.fsrFlags := by simp [State.fsrFlags]

@[simp] theorem storeBytes_readS (s : State) (a : Word) (i : Nat) (bs : List Byte) (q : Reg) :
    (s.storeBytes a i bs).readS q = s.readS q := by simp [State.readS, State.readF]

@[simp] theorem memWrite_xlen (s : State) (a : Word) {w : Nat} (v : BitVec w) :
    (s.memWrite a v).xlen = s.xlen := by simp [State.xlen]

@[simp] theorem memWrite_readX (s : State) (a : Word) {w : Nat} (v : BitVec w) (q : Reg) :
    (s.memWrite a v).readX q = s.readX q := by simp [State.readX, State.xlen]

@[simp] theorem memWrite_readF (s : State) (a : Word) {w : Nat} (v : BitVec w) (q : Reg) :
    (s.memWrite a v).readF q = s.readF q := by simp [State.readF]

@[simp] theorem memWrite_pcX (s : State) (a : Word) {w : Nat} (v : BitVec w) :
    (s.memWrite a v).pcX = s.pcX := by simp [State.pcX, State.xlen]

@[simp] theorem memWrite_byteAddr (s : State) (a : Word) {w : Nat} (v : BitVec w) (q : Word) (i : Nat) :
    (s.memWrite a v).byteAddr q i = s.byteAddr q i := by simp [State.byteAddr, State.xlen]

@[simp] theorem memWrite_nextPc (s : State) (a : Word) {w : Nat} (v : BitVec w) :
    (s.memWrite a v).nextPc = s.nextPc := by simp [State.nextPc, State.pcX, State.xlen]

@[simp] theorem memWrite_fsrRM (s : State) (a : Word) {w : Nat} (v : BitVec w) :
    (s.memWrite a v).fsrRM = s.fsrRM := by simp [State.fsrRM]

@[simp] theorem memWrite_fsrFlags (s : State) (a : Word) {w : Nat} (v : BitVec w) :
    (s.memWrite a v).fsrFlags = s.fsrFlags := by simp [State.fsrFlags]

@[simp] theorem memWrite_readS (s : State) (a : Word) {w : Nat} (v : BitVec w) (q : Reg) :
    (s.memWrite a v).readS q = s.readS q := by simp [State.readS, State.readF]

end Sys2Proof.Machine
end

