-- ==== Sys2Proof/Laws/Word.lean ====
section
/-! SUPPORT. XPRLEN-bit values in 64-bit slots: what truncation, extension and lifting give, as numbers. -/

namespace Sys2Proof.Machine

theorem append_low {n m : Nat} (a : BitVec n) (b : BitVec m) : (a ++ b).extractLsb' 0 m = b := by
  ext i hi; simp [BitVec.getLsbD_append, hi]

theorem append_high {n m : Nat} (a : BitVec n) (b : BitVec m) : (a ++ b).extractLsb' m n = a := by
  ext i hi; simp [BitVec.getLsbD_append, hi]

theorem width_le (m : Xlen) : m.width ≤ 64 := by cases m <;> decide

theorem size_eq (s : State) : s.size = 2 ^ s.xlen.width := rfl

theorem size_pos (s : State) : 0 < s.size := Nat.two_pow_pos _

theorem truncX_toNat (m : Xlen) (v : Word) : (truncX m v).toNat = v.toNat % 2 ^ m.width := by
  cases m
  · simp [truncX, Xlen.width]; omega
  · have := v.isLt; simp only [truncX, Xlen.width]; omega

theorem truncX_lt (m : Xlen) (v : Word) : (truncX m v).toNat < 2 ^ m.width := by
  rw [truncX_toNat]; exact Nat.mod_lt _ (Nat.two_pow_pos _)

theorem truncX_eq_iff (m : Xlen) (v : Word) : truncX m v = v ↔ v.toNat < 2 ^ m.width := by
  rw [← BitVec.toNat_inj, truncX_toNat]
  exact ⟨fun h => h ▸ Nat.mod_lt _ (Nat.two_pow_pos _), Nat.mod_eq_of_lt⟩

@[simp] theorem truncX_truncX (m : Xlen) (v : Word) : truncX m (truncX m v) = truncX m v :=
  (truncX_eq_iff m _).2 (truncX_lt m v)

@[simp] theorem truncX_zero (m : Xlen) : truncX m 0#64 = 0#64 := by cases m <;> rfl

@[simp] theorem truncX_one (m : Xlen) : truncX m 1#64 = 1#64 := by cases m <;> rfl

theorem truncX_add_toNat (m : Xlen) (a b : Word) : (truncX m (a + b)).toNat = (a.toNat + b.toNat) % 2 ^ m.width := by
  rw [truncX_toNat, BitVec.toNat_add]
  exact Nat.mod_mod_of_dvd _ (Nat.pow_dvd_pow 2 (width_le m))

theorem liftX_toNat (m : Xlen) (op : (w : Nat) → BitVec w → BitVec w → BitVec w) (a b : Word) :
    (liftX m op a b).toNat = (op m.width (a.setWidth m.width) (b.setWidth m.width)).toNat := by
  cases m
  · have := (op 32 (a.setWidth 32) (b.setWidth 32)).isLt
    simp [liftX, Xlen.width]; omega
  · simp [liftX, Xlen.width]

@[simp] theorem truncX_liftX (m : Xlen) (op : (w : Nat) → BitVec w → BitVec w → BitVec w) (a b : Word) :
    truncX m (liftX m op a b) = liftX m op a b :=
  (truncX_eq_iff m _).2 (by rw [liftX_toNat]; exact BitVec.isLt _)

theorem testX_eq (m : Xlen) (p : (w : Nat) → BitVec w → BitVec w → Bool) (a b : Word) :
    testX m p a b = p m.width (a.setWidth m.width) (b.setWidth m.width) := by
  cases m
  · rfl
  · simp [testX, Xlen.width]

@[simp] theorem truncX_sextX (m : Xlen) {n : Nat} (v : BitVec n) : truncX m (sextX m v) = sextX m v := by
  cases m
  · simp [truncX, sextX]
  · rfl

@[simp] theorem truncX_zextX (m : Xlen) {n : Nat} (v : BitVec n) : truncX m (zextX m v) = zextX m v := by
  cases m
  · simp [truncX, zextX]
  · rfl

theorem sextX_toNat (m : Xlen) {n : Nat} (v : BitVec n) : (sextX m v).toNat = (v.signExtend m.width).toNat := by
  cases m
  · have := (v.signExtend 32).isLt
    simp [sextX, Xlen.width]; omega
  · rfl

theorem sextX_toInt (m : Xlen) {n : Nat} (v : BitVec n) (h : n ≤ m.width) : signedX m (sextX m v) = v.toInt := by
  cases m
  · simp only [Xlen.width] at h
    simp [signedX, sextX, BitVec.toInt_signExtend_of_le h]
  · simp only [Xlen.width] at h
    simp [signedX, sextX, BitVec.toInt_signExtend_of_le h]

theorem zextX_toNat (m : Xlen) {n : Nat} (v : BitVec n) (h : n ≤ m.width) : (zextX m v).toNat = v.toNat := by
  have hv := v.isLt
  have : 2 ^ n ≤ 2 ^ m.width := Nat.pow_le_pow_right (by decide) h
  cases m
  · simp only [Xlen.width] at *
    simp [zextX]; omega
  · simp only [Xlen.width] at *
    simp [zextX]; omega

theorem signedX_eq (m : Xlen) (v : Word) : signedX m v = (v.setWidth m.width).toInt := by
  cases m
  · rfl
  · simp [signedX, Xlen.width]

theorem ofNat_sextX_mod (m : Xlen) {n : Nat} (v : BitVec n) (h : n ≤ m.width) :
    ((sextX m v).toNat : Int) = v.toInt % 2 ^ m.width := by
  rw [sextX_toNat, ← BitVec.toInt_signExtend_of_le h, BitVec.toInt_eq_toNat_bmod]
  have h2 : ((2 ^ m.width : Nat) : Int) = (2 : Int) ^ m.width := by norm_cast
  rw [← h2, Int.bmod_emod, Int.emod_eq_of_lt (by omega) (by exact_mod_cast BitVec.isLt _)]

end Sys2Proof.Machine
end

