-- ==== Sys2Proof/Laws/Memory.lean ====
section
/-! SUPPORT. Memory: the canonical form is kept by every memory operation, and what a byte reads as after a store. -/

namespace Sys2Proof.Machine

/-! ## The canonical form -/

/-- Every address of the list is above `k`. -/
def Memory.above (k : Nat) (m : List Host.Cell) : Prop := ∀ c ∈ m, k < c.1

theorem Memory.wf_cons (a : Nat) (b : Byte) (m : List Host.Cell) :
    Memory.wf ((a, b) :: m) = true ↔ b ≠ 0#8 ∧ Memory.above a m ∧ Memory.wf m = true := by
  induction m generalizing a b with
  | nil => simp [Memory.wf, Memory.above]
  | cons c rest ih =>
    obtain ⟨a', b'⟩ := c
    simp only [Memory.wf, Bool.and_eq_true, decide_eq_true_eq, bne_iff_ne, Memory.above, List.forall_mem_cons]
    constructor
    · rintro ⟨⟨h1, h2⟩, h3⟩
      exact ⟨h2, ⟨h1, fun c hc => Nat.lt_trans h1 (((ih a' b').1 h3).2.1 c hc)⟩, h3⟩
    · rintro ⟨h1, ⟨h2, -⟩, h3⟩
      exact ⟨⟨h2, h1⟩, h3⟩

theorem writeCell_mem (m : List Host.Cell) (k : Nat) (v : Byte) (c : Host.Cell) (h : c ∈ writeCell m k v) :
    c = (k, v) ∨ c ∈ m := by
  induction m with
  | nil => simp only [writeCell] at h; split at h <;> simp_all
  | cons d rest ih =>
    obtain ⟨a, b⟩ := d
    simp only [writeCell] at h
    split at h
    · split at h <;> simp_all
    · split at h
      · split at h <;> simp_all
        rcases h with h | h <;> simp [h]
      · rcases List.mem_cons.1 h with h | h
        · exact .inr (h ▸ List.mem_cons_self)
        · exact (ih h).imp_right (List.mem_cons_of_mem _)

theorem writeCell_above (m : List Host.Cell) (j k : Nat) (v : Byte) (h : Memory.above j m) (hk : j < k) :
    Memory.above j (writeCell m k v) := by
  intro c hc
  rcases writeCell_mem m k v c hc with rfl | h'
  · exact hk
  · exact h c h'

/-- A write keeps the canonical form. -/
theorem writeCell_wf (m : List Host.Cell) (k : Nat) (v : Byte) (h : Memory.wf m = true) :
    Memory.wf (writeCell m k v) = true := by
  induction m with
  | nil =>
    by_cases hv : v = 0#8
    · simp [writeCell, hv, Memory.wf]
    · simp [writeCell, hv, Memory.wf]
  | cons d rest ih =>
    obtain ⟨a, b⟩ := d
    obtain ⟨hb, ha, hr⟩ := (Memory.wf_cons a b rest).1 h
    simp only [writeCell]
    split
    · next hk =>
      split
      · exact h
      · next hv =>
        exact (Memory.wf_cons k v _).2 ⟨hv, List.forall_mem_cons.2 ⟨hk, fun c hc => Nat.lt_trans hk (ha c hc)⟩, h⟩
    · split
      · next hk =>
        split
        · exact hr
        · next hv => exact (Memory.wf_cons k v rest).2 ⟨hv, hk ▸ ha, hr⟩
      · exact (Memory.wf_cons a b _).2 ⟨hb, writeCell_above rest a k v ha (by omega), ih hr⟩

/-! ## Reading after writing -/

theorem readCell_above (m : List Host.Cell) (k : Nat) (h : Memory.above k m) : readCell m k = 0#8 := by
  induction m with
  | nil => rfl
  | cons d rest ih =>
    obtain ⟨a, b⟩ := d
    have := h (a, b) List.mem_cons_self
    rw [readCell, if_neg (by simp at this; omega), ih fun c hc => h c (List.mem_cons_of_mem _ hc)]

/-- A write leaves every other address alone, whatever the list. -/
theorem readCell_writeCell_ne (m : List Host.Cell) (k j : Nat) (v : Byte) (h : j ≠ k) :
    readCell (writeCell m k v) j = readCell m j := by
  induction m with
  | nil => simp only [writeCell]; split <;> simp [readCell, Ne.symm h]
  | cons d rest ih =>
    obtain ⟨a, b⟩ := d
    simp only [writeCell]
    split
    · split <;> simp [readCell, Ne.symm h]
    · split
      · next hk => subst hk; split <;> simp [readCell, Ne.symm h]
      · simp only [readCell]; split <;> simp [ih]

/-- A read after a write to the same address gives the value written. -/
theorem readCell_writeCell_self (m : List Host.Cell) (k : Nat) (v : Byte) (h : Memory.wf m = true) :
    readCell (writeCell m k v) k = v := by
  induction m with
  | nil => by_cases hv : v = 0#8 <;> simp [writeCell, readCell, hv]
  | cons d rest ih =>
    obtain ⟨a, b⟩ := d
    obtain ⟨-, ha, hr⟩ := (Memory.wf_cons a b rest).1 h
    simp only [writeCell]
    split
    · next hk =>
      split
      · next hv =>
        rw [hv]
        exact readCell_above _ k (List.forall_mem_cons.2 ⟨hk, fun c hc => Nat.lt_trans hk (ha c hc)⟩)
      · simp [readCell]
    · split
      · next hk =>
        split
        · next hv => rw [hv]; exact readCell_above rest k (hk ▸ ha)
        · simp [readCell]
      · next h2 => rw [readCell, if_neg (Ne.symm h2), ih hr]

/-- Equal memories are equal lists: two canonical lists that read alike are the same. -/
theorem Memory.ext (m n : List Host.Cell) (hm : Memory.wf m = true) (hn : Memory.wf n = true)
    (h : ∀ k, readCell m k = readCell n k) : m = n := by
  induction m generalizing n with
  | nil =>
    cases n with
    | nil => rfl
    | cons d rest =>
      obtain ⟨a, b⟩ := d
      have := h a
      simp [readCell] at this
      exact absurd this.symm ((Memory.wf_cons a b rest).1 hn).1
  | cons c rest ih =>
    obtain ⟨a, b⟩ := c
    obtain ⟨hb, ha, hr⟩ := (Memory.wf_cons a b rest).1 hm
    cases n with
    | nil =>
      have := h a
      simp [readCell] at this
      exact absurd this hb
    | cons d rest' =>
      obtain ⟨a', b'⟩ := d
      obtain ⟨hb', ha', hr'⟩ := (Memory.wf_cons a' b' rest').1 hn
      have key : a = a' := by
        rcases Nat.lt_trichotomy a a' with hlt | heq | hlt
        · have := h a
          rw [readCell, if_pos rfl, readCell, if_neg (by omega),
            readCell_above rest' a fun c hc => Nat.lt_trans hlt (ha' c hc)] at this
          exact absurd this hb
        · exact heq
        · have := h a'
          rw [readCell, if_neg (by omega), readCell_above rest a' fun c hc => Nat.lt_trans hlt (ha c hc), readCell,
            if_pos rfl] at this
          exact absurd this.symm hb'
      subst key
      have hbb : b = b' := by have := h a; simpa [readCell] using this
      subst hbb
      congr 1
      refine ih rest' hr hr' fun k => ?_
      by_cases hk : a = k
      · subst hk; rw [readCell_above rest a ha, readCell_above rest' a ha']
      · have := h k; rwa [readCell, readCell, if_neg hk, if_neg hk] at this

/-! ## Bytes of the state -/

theorem readByte_writeByte_ne (s : State) (k j : Nat) (v : Byte) (h : j ≠ k) :
    (s.writeByte k v).readByte j = s.readByte j := readCell_writeCell_ne s.mem k j v h

theorem readByte_writeByte_self (s : State) (k : Nat) (v : Byte) (h : Memory.wf s.mem = true) :
    (s.writeByte k v).readByte k = v := readCell_writeCell_self s.mem k v h

theorem byteAddr_toNat (s : State) (a : Word) (i : Nat) : s.byteAddr a i = (a.toNat + i) % s.size := by
  rw [State.byteAddr, truncX_add_toNat, size_eq, BitVec.toNat_ofNat, Nat.add_mod, Nat.mod_mod_of_dvd _
    (Nat.pow_dvd_pow 2 (width_le s.xlen)), ← Nat.add_mod]

theorem byteAddr_lt (s : State) (a : Word) (i : Nat) : s.byteAddr a i < s.size := by
  rw [byteAddr_toNat]; exact Nat.mod_lt _ (size_pos s)

theorem two_pow_32_le_size (s : State) : 2 ^ 32 ≤ s.size := by
  rw [size_eq]; cases s.xlen <;> decide

/-- Two bytes of one access of at most `2^32` bytes have different addresses. -/
theorem byteAddr_inj (s : State) (a : Word) (i j : Nat) (hi : i < 2 ^ 32) (hj : j < 2 ^ 32) (hij : i ≠ j) :
    s.byteAddr a i ≠ s.byteAddr a j := by
  have hs := two_pow_32_le_size s
  rw [byteAddr_toNat, byteAddr_toNat]
  intro h
  have h2 : i % s.size = j % s.size := Nat.ModEq.add_left_cancel' a.toNat h
  rw [Nat.mod_eq_of_lt (by omega), Nat.mod_eq_of_lt (by omega)] at h2
  exact hij h2

theorem storeBytes_readByte_ne (s : State) (a : Word) (i k : Nat) (bs : List Byte)
    (h : ∀ j, i ≤ j → j < i + bs.length → k ≠ s.byteAddr a j) : (s.storeBytes a i bs).readByte k = s.readByte k := by
  induction bs generalizing s i with
  | nil => rfl
  | cons b rest ih =>
    rw [State.storeBytes, ih]
    · exact readByte_writeByte_ne _ _ _ _ (h i (Nat.le_refl _) (by simp))
    · intro j h1 h2
      rw [writeByte_byteAddr]
      exact h j (by omega) (by simp; omega)

theorem storeBytes_wf (s : State) (a : Word) (i : Nat) (bs : List Byte) (h : Memory.wf s.mem = true) :
    Memory.wf (s.storeBytes a i bs).mem = true := by
  induction bs generalizing s i with
  | nil => exact h
  | cons b rest ih => exact ih _ _ (writeCell_wf _ _ _ h)

theorem storeBytes_readByte (s : State) (a : Word) (i j : Nat) (bs : List Byte) (h : Memory.wf s.mem = true)
    (hl : i + bs.length ≤ 2 ^ 32) (hj : j < bs.length) :
    (s.storeBytes a i bs).readByte (s.byteAddr a (i + j)) = bs.getD j 0#8 := by
  induction bs generalizing s i j with
  | nil => simp at hj
  | cons b rest ih =>
    simp only [List.length_cons] at hl hj
    rw [State.storeBytes]
    cases j with
    | zero =>
      rw [storeBytes_readByte_ne]
      · simpa using readByte_writeByte_self s (s.byteAddr a i) b h
      · intro j h1 h2
        rw [writeByte_byteAddr]
        exact byteAddr_inj s a (i + 0) j (by omega) (by omega) (by omega)
    | succ j =>
      have := ih (s.writeByte (s.byteAddr a i) b) (i + 1) j (writeCell_wf _ _ _ h) (by omega) (by omega)
      rw [writeByte_byteAddr] at this
      simpa [Nat.add_assoc, Nat.add_comm 1 j] using this

@[simp] theorem bytesOfNat_length (n v : Nat) : (bytesOfNat n v).length = n := by
  induction n generalizing v with
  | zero => rfl
  | succ n ih => simp [bytesOfNat, ih]

@[simp] theorem byteOrder_length (e : Endian) (bs : List Byte) : (byteOrder e bs).length = bs.length := by
  cases e <;> simp [byteOrder]

@[simp] theorem byteOrder_byteOrder (e : Endian) (bs : List Byte) : byteOrder e (byteOrder e bs) = bs := by
  cases e <;> simp [byteOrder]

theorem natOfBytes_bytesOfNat (n v : Nat) : natOfBytes (bytesOfNat n v) = v % 256 ^ n := by
  induction n generalizing v with
  | zero => simp [bytesOfNat, natOfBytes, Nat.mod_one]
  | succ n ih =>
    rw [bytesOfNat, natOfBytes, ih, BitVec.toNat_ofNat, show (256 : Nat) ^ (n + 1) = 256 * 256 ^ n from Nat.pow_succ',
      Nat.mod_mul (x := v), show 2 ^ 8 = 256 from rfl]

theorem natOfBytes_lt (bs : List Byte) : natOfBytes bs < 256 ^ bs.length := by
  induction bs with
  | nil => simp [natOfBytes]
  | cons b rest ih =>
    have := b.isLt
    rw [natOfBytes, List.length_cons, Nat.pow_succ]
    omega

theorem bytesOfNat_getD (n v i : Nat) (h : i < n) : (bytesOfNat n v).getD i 0#8 = BitVec.ofNat 8 (v / 256 ^ i) := by
  induction n generalizing v i with
  | zero => omega
  | succ n ih =>
    cases i with
    | zero => simp [bytesOfNat]
    | succ i =>
      simp only [bytesOfNat, List.getD_cons_succ]
      rw [ih _ _ (by omega), Nat.div_div_eq_div_mul, Nat.pow_succ']

/-! ## `MemRead` and `MemWrite` -/

/-- What `MemWrite` can do outside its bytes: nothing. -/
theorem memWrite_readByte_ne (s : State) (a : Word) {w : Nat} (v : BitVec w) (k : Nat)
    (h : ∀ i, i < w / 8 → k ≠ s.byteAddr a i) : (s.memWrite a v).readByte k = s.readByte k :=
  storeBytes_readByte_ne s a 0 k _ fun j _ hj => h j (by simpa using hj)

/-- The bytes `MemWrite` stores, in address order. -/
theorem memWrite_readByte (s : State) (a : Word) {w : Nat} (v : BitVec w) (i : Nat) (hm : Memory.wf s.mem = true)
    (hw : w / 8 ≤ 2 ^ 32) (hi : i < w / 8) :
    (s.memWrite a v).readByte (s.byteAddr a i) = (byteOrder s.env.endian (bytesOfNat (w / 8) v.toNat)).getD i 0#8 := by
  have := storeBytes_readByte s a 0 i (byteOrder s.env.endian (bytesOfNat (w / 8) v.toNat)) hm (by simpa using hw)
    (by simpa using hi)
  rwa [Nat.zero_add] at this

theorem memWrite_wf (s : State) (a : Word) {w : Nat} (v : BitVec w) (h : Memory.wf s.mem = true) :
    Memory.wf (s.memWrite a v).mem = true := storeBytes_wf s a 0 _ h

theorem writeByte_wf (s : State) (k : Nat) (v : Byte) (h : Memory.wf s.mem = true) :
    Memory.wf (s.writeByte k v).mem = true := writeCell_wf _ _ _ h

/-- `MemRead` after `MemWrite` of the same width at the same address gives the value back. -/
theorem memRead_memWrite (s : State) (a : Word) {w : Nat} (v : BitVec w) (hm : Memory.wf s.mem = true)
    (hw : w / 8 ≤ 2 ^ 32) (h8 : 8 ∣ w) : (s.memWrite a v).memRead a w = v := by
  have hb : (s.memWrite a v).bytesAt a (w / 8) = byteOrder s.env.endian (bytesOfNat (w / 8) v.toNat) := by
    refine List.ext_getElem (by simp [State.bytesAt]) fun i h1 h2 => ?_
    have hi : i < w / 8 := by simpa [State.bytesAt] using h1
    have := memWrite_readByte s a v i hm hw hi
    rw [List.getD_eq_getElem _ _ (by simpa using hi)] at this
    simpa [State.bytesAt] using this
  rw [State.memRead, memWrite_env, hb, byteOrder_byteOrder, natOfBytes_bytesOfNat, ← BitVec.toNat_inj,
    BitVec.toNat_ofNat]
  have : (256 : Nat) ^ (w / 8) = 2 ^ w := by
    rw [show (256 : Nat) = 2 ^ 8 from rfl, ← Nat.pow_mul, Nat.mul_div_cancel' h8]
  rw [this, Nat.mod_mod, Nat.mod_eq_of_lt v.isLt]

/-! ## Addresses stay in the space -/

theorem writeByte_mem_inSpace (s : State) (a : Word) (i : Nat) (v : Byte) (h : ∀ c ∈ s.mem, c.1 < s.size) :
    ∀ c ∈ (s.writeByte (s.byteAddr a i) v).mem, c.1 < s.size := by
  intro c hc
  rcases writeCell_mem _ _ _ _ hc with rfl | h'
  · exact byteAddr_lt s a i
  · exact h c h'

theorem storeBytes_mem_inSpace (s : State) (a : Word) (i : Nat) (bs : List Byte) (h : ∀ c ∈ s.mem, c.1 < s.size) :
    ∀ c ∈ (s.storeBytes a i bs).mem, c.1 < s.size := by
  induction bs generalizing s i with
  | nil => exact h
  | cons b rest ih => exact ih (s.writeByte (s.byteAddr a i) b) _ (writeByte_mem_inSpace s a i b h)

theorem storeBytes_stale_inSpace (s : State) (a : Word) (i : Nat) (bs : List Byte)
    (h : ∀ c ∈ s.stale, c.1 < s.size) : ∀ c ∈ (s.storeBytes a i bs).stale, c.1 < s.size := by
  induction bs generalizing s i with
  | nil => exact h
  | cons b rest ih =>
    refine ih (s.writeByte (s.byteAddr a i) b) _ fun c hc => ?_
    rcases List.mem_insert_iff.1 hc with rfl | h'
    · exact byteAddr_lt s a i
    · exact h c h'

theorem storeBytes_stale_nodup (s : State) (a : Word) (i : Nat) (bs : List Byte) (h : s.stale.Nodup) :
    (s.storeBytes a i bs).stale.Nodup := by
  induction bs generalizing s i with
  | nil => exact h
  | cons b rest ih => exact ih _ _ h.insert

end Sys2Proof.Machine
end

