-- ==== Sys2Proof/Laws/Registers.lean ====
section
/-! SUPPORT. Registers: what a read gives after a write, and that the slots hold XPRLEN-bit values. -/

namespace Sys2Proof.Machine

/-! ## x registers -/

theorem slotOf_lt (r : Reg) : slotOf r < 31 := by
  have := r.isLt
  unfold slotOf; omega

theorem slotOf_inj (r q : Reg) (hr : r ≠ 0#5) (hq : q ≠ 0#5) (h : slotOf r = slotOf q) : r = q := by
  have h1 : r.toNat ≠ 0 := fun h => hr (BitVec.eq_of_toNat_eq h)
  have h2 : q.toNat ≠ 0 := fun h => hq (BitVec.eq_of_toNat_eq h)
  exact BitVec.eq_of_toNat_eq (by unfold slotOf at h; omega)

/-- `x0` reads 0. -/
@[simp] theorem readX_zero (s : State) : s.readX 0#5 = 0#64 := by simp [State.readX]

/-- A read holds an XPRLEN-bit value. -/
@[simp] theorem truncX_readX (s : State) (r : Reg) : truncX s.xlen (s.readX r) = s.readX r := by
  unfold State.readX; split <;> simp

theorem readX_lt (s : State) (r : Reg) : (s.readX r).toNat < s.size := by
  rw [size_eq, ← truncX_eq_iff]; simp

/-- Everything a write to an x register does to the reads of x registers. -/
theorem readX_writeX (s : State) (r q : Reg) (v : Word) :
    (s.writeX r v).readX q = if q = r ∧ r ≠ 0#5 then truncX s.xlen v else s.readX q := by
  unfold State.writeX
  by_cases hr : r = 0#5
  · simp [hr]
  · simp only [hr, if_false, State.readX, ne_eq, not_false_eq_true, and_true, State.xlen]
    by_cases hq : q = r
    · subst hq
      simp [hr, Vector.getD, slotOf_lt]
    · by_cases hq0 : q = 0#5
      · simp [hq0, Ne.symm hr]
      · have hne : slotOf r ≠ slotOf q := fun h => hq (slotOf_inj r q hr hq0 h).symm
        simp [hq, hq0, Vector.getD, slotOf_lt, hne]

@[simp] theorem readX_writeX_self (s : State) (r : Reg) (v : Word) (h : r ≠ 0#5) :
    (s.writeX r v).readX r = truncX s.xlen v := by simp [readX_writeX, h]

theorem readX_writeX_ne (s : State) (r q : Reg) (v : Word) (h : q ≠ r) : (s.writeX r v).readX q = s.readX q := by
  simp [readX_writeX, h]

/-- A write to `x0` is discarded. -/
@[simp] theorem writeX_zero (s : State) (v : Word) : s.writeX 0#5 v = s := by simp [State.writeX]

/-- The slots of x registers keep holding XPRLEN-bit values. -/
theorem writeX_xFits (s : State) (r : Reg) (v : Word) (h : ∀ u ∈ s.x.toList, truncX s.xlen u = u) :
    ∀ u ∈ (s.writeX r v).x.toList, truncX s.xlen u = u := by
  unfold State.writeX
  split
  · exact h
  · intro u hu
    rcases List.mem_or_eq_of_mem_set (by simpa using hu) with h' | rfl
    · exact h u h'
    · simp

/-! ## f registers -/

/-- Everything `setD` does to the reads of f registers. -/
theorem readF_writeD (s : State) (r q : Reg) (v : BitVec 64) :
    (s.writeD r v).readF q = if q = r then v else s.readF q := by
  have hr := r.isLt
  have hq := q.isLt
  simp only [State.readF, State.writeD, Vector.getD]
  by_cases h : q = r
  · subst h; simp; omega
  · have : r.toNat ≠ q.toNat := fun h' => h (BitVec.eq_of_toNat_eq h'.symm)
    simp [h, this]

/-- Everything `setS` does to the reads of f registers. -/
theorem readF_writeS (s : State) (r q : Reg) (v : BitVec 32) :
    (s.writeS r v).readF q = if q = r then Config.freeUpperHalf s.draws ++ v else s.readF q :=
  readF_writeD s r q _

theorem readS_writeS_self (s : State) (r : Reg) (v : BitVec 32) : (s.writeS r v).readS r = v := by
  rw [State.readS, readF_writeS, if_pos rfl]
  exact BitVec.setWidth_append_eq_right

theorem readF_writeS_ne (s : State) (r q : Reg) (v : BitVec 32) (h : q ≠ r) : (s.writeS r v).readF q = s.readF q := by
  simp [readF_writeS, h]

theorem readF_writeD_ne (s : State) (r q : Reg) (v : BitVec 64) (h : q ≠ r) : (s.writeD r v).readF q = s.readF q := by
  simp [readF_writeD, h]

theorem readF_writeD_self (s : State) (r : Reg) (v : BitVec 64) : (s.writeD r v).readF r = v := by
  simp [readF_writeD]

/-! ## `fsr` -/

/-- The flags accrue. -/
@[simp] theorem accrue_fsrFlags (s : State) (fl : FlagSet) : (s.accrue fl).fsrFlags = s.fsrFlags ||| fl :=
  append_low (n := 3) (m := 5) _ _

/-- The rounding mode stays. -/
@[simp] theorem accrue_fsrRM (s : State) (fl : FlagSet) : (s.accrue fl).fsrRM = s.fsrRM :=
  append_high (n := 3) (m := 5) _ _

/-! ## The pc and `instret` -/

theorem pcX_lt (s : State) : s.pcX.toNat < s.size := truncX_lt _ _

theorem nextPc_toNat (s : State) : s.nextPc.toNat = (s.pcX.toNat + 4) % s.size := by
  rw [State.nextPc, truncX_add_toNat, size_eq]; rfl

@[simp] theorem truncX_nextPc (s : State) : truncX s.xlen s.nextPc = s.nextPc := truncX_truncX _ _

@[simp] theorem truncX_pcX (s : State) : truncX s.xlen s.pcX = s.pcX := truncX_truncX _ _

@[simp] theorem retireTo_pcX (s : State) (a : Word) : (s.retireTo a).pcX = truncX s.xlen a := truncX_truncX _ _

@[simp] theorem retire_pcX (s : State) : s.retire.pcX = s.nextPc := by
  rw [State.retire, retireTo_pcX, truncX_nextPc]

theorem retireTo_retires (s : State) (a : Word) : Retires s (s.retireTo a) := by
  rw [Retires, retireTo_instret, truncX_add_toNat, truncX_toNat, size_eq, Nat.mod_add_mod]; rfl

theorem retire_advances (s : State) : Advances s s.retire := by rw [Advances, retire_pcX, nextPc_toNat]

end Sys2Proof.Machine
end

