-- ==== Sys2Proof/Laws/Ops.lean ====
section
/-! SUPPORT. For each shared operation, once, everything it can do: when it completes and with which state, and otherwise
which trap it takes. Then the frame of each shape. -/

namespace Sys2Proof.Machine

/-! ## Taking an exception, legality -/

theorem raise_eq (s : State) (e : Exception) : raise s e = .fault (.trap e s.pcX) := rfl

@[simp] theorem raise_ne_next (s t : State) (e : Exception) : raise s e ≠ .next t := by simp [raise]

@[simp] theorem raise_ne_refused (s : State) (e : Exception) (r : Refusal) : raise s e ≠ .refused r := by simp [raise]

@[simp] theorem illegal_ne_next (s t : State) (i : Instr) : illegal s i ≠ .next t := raise_ne_next _ _ _

@[simp] theorem illegal_ne_refused (s : State) (i : Instr) (r : Refusal) : illegal s i ≠ .refused r :=
  raise_ne_refused _ _ _

/-- `onlyRv64` runs its body in RV64 and is illegal in RV32. -/
theorem onlyRv64_cases (i : Instr) (s : State) (b : Result) :
    (s.xlen = .rv64 ∧ onlyRv64 i s b = b) ∨ (s.xlen = .rv32 ∧ onlyRv64 i s b = illegal s i) := by
  unfold onlyRv64
  cases h : s.xlen <;> simp

theorem onlyRv64_rv64 (i : Instr) (s : State) (b : Result) (h : s.xlen = .rv64) : onlyRv64 i s b = b := by
  simp [onlyRv64, h]

theorem onlyRv64_rv32 (i : Instr) (s : State) (b : Result) (h : s.xlen = .rv32) : onlyRv64 i s b = illegal s i := by
  simp [onlyRv64, h]

theorem onlyRv64_next (i : Instr) (s t : State) (b : Result) :
    onlyRv64 i s b = .next t ↔ s.xlen = .rv64 ∧ b = .next t := by
  rcases onlyRv64_cases i s b with ⟨h, e⟩ | ⟨h, e⟩ <;> simp [h, e]

/-- `withRounding` runs its body with a valid mode and is illegal otherwise. -/
theorem withRounding_cases (i : Instr) (rm : BitVec 3) (s : State) (k : Rounding → Result) :
    (∃ r, resolveRm s rm = some r ∧ withRounding i rm s k = k r) ∨
      (resolveRm s rm = none ∧ withRounding i rm s k = illegal s i) := by
  unfold withRounding
  cases h : resolveRm s rm <;> simp

theorem withRounding_some (i : Instr) (rm : BitVec 3) (s : State) (k : Rounding → Result) (r : Rounding)
    (h : resolveRm s rm = some r) : withRounding i rm s k = k r := by simp [withRounding, h]

theorem withRounding_none (i : Instr) (rm : BitVec 3) (s : State) (k : Rounding → Result)
    (h : resolveRm s rm = none) : withRounding i rm s k = illegal s i := by simp [withRounding, h]

theorem withRounding_next (i : Instr) (rm : BitVec 3) (s t : State) (k : Rounding → Result) :
    withRounding i rm s k = .next t ↔ ∃ r, resolveRm s rm = some r ∧ k r = .next t := by
  rcases withRounding_cases i rm s k with ⟨r, h, e⟩ | ⟨h, e⟩ <;> simp [h, e]

/-! ## Loads, stores, atomics -/

/-- Every predicate on address, size and kind can be given as a list of holes. -/
theorem accessible_any (p : Nat → Nat → AccessKind → Bool) (sizes : List Nat) :
    ∃ holes, ∀ (s : State) (a : Word) (n : Nat) (kind : AccessKind), s.env.holes = holes → n ∈ sizes →
      s.accessible a n kind = p (s.byteAddr a 0) n kind := by
  have hp : ∀ N : Nat, ∃ holes : List Hole, ∀ k n kind, k < N → n ∈ sizes → holes.any (denies · k n kind) = !p k n kind := by
    intro N
    refine ⟨(List.range N).flatMap fun k => sizes.flatMap fun n =>
      [AccessKind.fetch, .load, .store, .amo].flatMap fun kind =>
        if p k n kind then [] else [⟨n, kind, k, k + 1⟩], fun k n kind hk hn => ?_⟩
    rw [Bool.eq_iff_iff, List.any_eq_true]
    simp only [List.mem_flatMap, List.mem_range, denies, Bool.and_eq_true, beq_iff_eq, decide_eq_true_eq,
      Bool.not_eq_true']
    constructor
    · rintro ⟨h, ⟨k', _, n', _, kind', _, hm⟩, ⟨⟨rfl, rfl⟩, h1⟩, h2⟩
      by_cases hq : p k' n' kind' = true
      · simp [hq] at hm
      · rw [if_neg hq, List.mem_singleton] at hm
        subst hm
        obtain rfl : k = k' := by simp only at h1 h2; omega
        simpa using hq
    · intro hq
      exact ⟨⟨n, kind, k, k + 1⟩, ⟨k, hk, n, hn, kind, by cases kind <;> simp, by simp [hq]⟩, ⟨⟨rfl, rfl⟩, Nat.le_refl _⟩,
        Nat.lt_succ_self _⟩
  obtain ⟨holes, h⟩ := hp (2 ^ 64)
  refine ⟨holes, fun s a n kind he hn => ?_⟩
  rw [State.accessible, he, h _ _ _ (by unfold State.byteAddr; exact BitVec.isLt _) hn, Bool.not_not]

/-- A load completes as its continuation does where the access is possible, and faults otherwise. -/
theorem loadThen_cases (s : State) (ea : Word) (w : Nat) (k : BitVec w → Result) :
    (s.accessible ea (w / 8) .load = true ∧ loadThen s ea w k = k (s.memRead ea w)) ∨
      (s.accessible ea (w / 8) .load = false ∧ loadThen s ea w k = raise s (.accessFault ea .load)) := by
  unfold loadThen
  cases h : s.accessible ea (w / 8) .load <;> simp

theorem loadThen_next (s t : State) (ea : Word) (w : Nat) (k : BitVec w → Result) :
    loadThen s ea w k = .next t ↔ s.accessible ea (w / 8) .load = true ∧ k (s.memRead ea w) = .next t := by
  rcases loadThen_cases s ea w k with ⟨h, e⟩ | ⟨h, e⟩ <;> simp [h, e]

/-- A store completes where the access is possible, and faults with nothing written otherwise. -/
theorem storeAt_cases (s : State) (ea : Word) {w : Nat} (v : BitVec w) :
    (s.accessible ea (w / 8) .store = true ∧ storeAt s ea v = .next (s.memWrite ea v).retire) ∨
      (s.accessible ea (w / 8) .store = false ∧ storeAt s ea v = raise s (.accessFault ea .store)) := by
  unfold storeAt
  cases h : s.accessible ea (w / 8) .store <;> simp

theorem storeAt_next (s t : State) (ea : Word) {w : Nat} (v : BitVec w) :
    storeAt s ea v = .next t ↔ s.accessible ea (w / 8) .store = true ∧ (s.memWrite ea v).retire = t := by
  rcases storeAt_cases s ea v with ⟨h, e⟩ | ⟨h, e⟩ <;> simp [h, e]

/-- An AMO traps on a misaligned address, else on an impossible access, else reads, modifies and writes. -/
theorem amo_cases (w : Nat) (op : BitVec w → BitVec w → BitVec w) (rd rs1 rs2 : Reg) (s : State) :
    ((s.readX rs1).toNat % (w / 8) ≠ 0 ∧ amo w op rd rs1 rs2 s = raise s (.misalignedAddress (s.readX rs1))) ∨
    ((s.readX rs1).toNat % (w / 8) = 0 ∧ s.accessible (s.readX rs1) (w / 8) .amo = false ∧
      amo w op rd rs1 rs2 s = raise s (.accessFault (s.readX rs1) .amo)) ∨
    ((s.readX rs1).toNat % (w / 8) = 0 ∧ s.accessible (s.readX rs1) (w / 8) .amo = true ∧
      amo w op rd rs1 rs2 s = .next ((s.memWrite (s.readX rs1) (op (s.memRead (s.readX rs1) w)
        ((s.readX rs2).setWidth w))).writeX rd (sextX s.xlen (s.memRead (s.readX rs1) w))).retire) := by
  unfold amo
  by_cases h : (s.readX rs1).toNat % (w / 8) = 0
  · cases h2 : s.accessible (s.readX rs1) (w / 8) .amo <;> simp [h, h2]
  · simp [h]

theorem amo_next (w : Nat) (op : BitVec w → BitVec w → BitVec w) (rd rs1 rs2 : Reg) (s t : State)
    (h : amo w op rd rs1 rs2 s = .next t) :
    (s.readX rs1).toNat % (w / 8) = 0 ∧ s.accessible (s.readX rs1) (w / 8) .amo = true ∧
      t = ((s.memWrite (s.readX rs1) (op (s.memRead (s.readX rs1) w)
        ((s.readX rs2).setWidth w))).writeX rd (sextX s.xlen (s.memRead (s.readX rs1) w))).retire := by
  rcases amo_cases w op rd rs1 rs2 s with ⟨-, e⟩ | ⟨-, -, e⟩ | ⟨h1, h2, e⟩
  · simp [e] at h
  · simp [e] at h
  · rw [e] at h; cases h; exact ⟨h1, h2, rfl⟩

/-! ## Shapes that always complete -/

@[simp] theorem setRd_next (rd : Reg) (v : Word) (s t : State) : setRd rd v s = .next t ↔ (s.writeX rd v).retire = t := by
  simp [setRd]

theorem branch_cases (p : (w : Nat) → BitVec w → BitVec w → Bool) (rs1 rs2 : Reg) (imm : BitVec 12) (s : State) :
    (testX s.xlen p (s.readX rs1) (s.readX rs2) = true ∧
      branch p rs1 rs2 imm s = .next (s.retireTo (s.pcRelative (branchOffset s.xlen imm)))) ∨
    (testX s.xlen p (s.readX rs1) (s.readX rs2) = false ∧ branch p rs1 rs2 imm s = .next s.retire) := by
  unfold branch
  cases h : testX s.xlen p (s.readX rs1) (s.readX rs2) <;> simp

/-- A shift by a constant is illegal in RV32 with bit 5 of the amount set, else an integer operation. -/
theorem shiftImm_cases (i : Instr) (op : (w : Nat) → BitVec w → BitVec w → BitVec w) (rd rs1 : Reg) (amt : BitVec 6)
    (s : State) :
    ((s.xlen = .rv32 ∧ amt.getLsbD 5 = true) ∧ shiftImm i op rd rs1 amt s = illegal s i) ∨
    ((s.xlen = .rv64 ∨ amt.getLsbD 5 = false) ∧
      shiftImm i op rd rs1 amt s = intOp op rd (s.readX rs1) (amt.setWidth 64) s) := by
  unfold shiftImm
  cases h : s.xlen <;> cases h2 : amt.getLsbD 5 <;> simp

/-! ## Frames of the shapes -/

theorem sameX_of_eq (s t : State) (he : t.env = s.env) (hx : t.x = s.x) : SameX s t := fun r => by
  simp [State.readX, State.xlen, he, hx]

theorem advances_of_eq (s t : State) (he : t.env = s.env) (hp : t.pc = s.pc) : Advances s t.retire := by
  have h := retire_advances t
  simpa [Advances, State.size, State.pcX, State.xlen, he, hp] using h

theorem sameMemory_of_eq (s t : State) (h : t.mem = s.mem) : SameMemory s t := fun k => by simp [State.readByte, h]

/-- A write of `x[rd]` that retires changes nothing else. -/
theorem onlyX_setRd (s : State) (rd : Reg) (v : Word) : OnlyX s (s.writeX rd v).retire rd where
  run := ⟨by simp, by simp, by simp⟩
  x := fun r h => by simpa using readX_writeX_ne s rd r v h
  f := fun r => by simp
  fsr := by simp
  memory := sameMemory_of_eq _ _ (by simp)
  stale := by simp
  retires := by simpa [Retires, State.size] using retireTo_retires (s.writeX rd v) (s.writeX rd v).nextPc

/-- The value a write of `x[rd]` leaves there. -/
theorem setRd_value (s : State) (rd : Reg) (v : Word) :
    (s.writeX rd v).retire.readX rd = if rd = 0#5 then 0#64 else truncX s.xlen v := by
  by_cases h : rd = 0#5 <;> simp [h]

theorem writeFmt_env (s : State) {fm : Fmt} (rd : Reg) (v : Pattern fm) : (s.writeFmt rd v).env = s.env := by
  cases fm <;> rfl

theorem readFmt_writeFmt (s : State) {fm : Fmt} (rd : Reg) (v : Pattern fm) : (s.writeFmt rd v).readFmt fm rd = v := by
  cases fm
  · exact readS_writeS_self s rd v
  · exact readF_writeD_self s rd v

theorem readF_writeFmt_ne (s : State) {fm : Fmt} (rd r : Reg) (v : Pattern fm) (h : r ≠ rd) :
    (s.writeFmt rd v).readF r = s.readF r := by
  cases fm
  · exact readF_writeS_ne s rd r v h
  · exact readF_writeD_ne s rd r v h

/-- A write of `f[rd]` in a format, with flags, changes nothing else but the draws. -/
theorem onlyF_setFd (s : State) {fm : Fmt} (rd : Reg) (v : Pattern fm) (fl : FlagSet) :
    OnlyF s ((s.writeFmt rd v).accrue fl).retire rd fl where
  run := by cases fm <;> exact ⟨rfl, rfl, rfl⟩
  x := by cases fm <;> exact sameX_of_eq _ _ rfl rfl
  f := fun r h => readF_writeFmt_ne s rd r v h
  rm := by cases fm <;> exact accrue_fsrRM s fl
  flags := by cases fm <;> exact accrue_fsrFlags s fl
  memory := by cases fm <;> exact sameMemory_of_eq _ _ rfl
  stale := by cases fm <;> rfl
  retires := by cases fm <;> exact retireTo_retires s s.nextPc

/-- The value it leaves there. -/
theorem setFd_value (s : State) {fm : Fmt} (rd : Reg) (v : Pattern fm) (fl : FlagSet) :
    (((s.writeFmt rd v).accrue fl).retire).readFmt fm rd = v := by
  have := readFmt_writeFmt s rd v
  cases fm <;> exact this

/-- A write of `x[rd]` with flags changes nothing else. -/
theorem onlyXFlags_setRdFlags (s : State) (rd : Reg) (v : Word) (fl : FlagSet) :
    OnlyXFlags s ((s.writeX rd v).accrue fl).retire rd fl where
  run := ⟨by simp, by simp, by simp⟩
  x := fun r h => by simpa using readX_writeX_ne s rd r v h
  f := fun r => by simp
  rm := by simp
  flags := by simp
  memory := sameMemory_of_eq _ _ (by simp)
  stale := by simp
  retires := by simpa [Retires, State.size] using retireTo_retires (s.writeX rd v) (s.writeX rd v).nextPc

theorem setRdFlags_value (s : State) (rd : Reg) (v : Word) (fl : FlagSet) :
    ((s.writeX rd v).accrue fl).retire.readX rd = if rd = 0#5 then 0#64 else truncX s.xlen v := by
  by_cases h : rd = 0#5 <;> simp [h]

theorem storeBytes_records (s : State) (a : Word) (i : Nat) (bs : List Byte) (hl : i + bs.length ≤ 2 ^ 32) (c : Host.Cell) :
    c ∈ (s.storeBytes a i bs).stale ↔
      c ∈ s.stale ∨ ∃ j, i ≤ j ∧ j < i + bs.length ∧ c = (s.byteAddr a j, s.readByte (s.byteAddr a j)) := by
  induction bs generalizing s i with
  | nil => simp [State.storeBytes]; omega
  | cons b rest ih =>
    simp only [List.length_cons] at hl
    rw [State.storeBytes, ih _ _ (by omega)]
    have hs : (s.writeByte (s.byteAddr a i) b).stale =
        s.stale.insert (s.byteAddr a i, s.readByte (s.byteAddr a i)) := rfl
    rw [hs, List.mem_insert_iff]
    simp only [List.length_cons, writeByte_byteAddr]
    constructor
    · rintro ((h | h) | ⟨j, h1, h2, h3⟩)
      · exact .inr ⟨i, Nat.le_refl _, by omega, h⟩
      · exact .inl h
      · refine .inr ⟨j, by omega, by omega, ?_⟩
        rw [h3, readByte_writeByte_ne _ _ _ _ (byteAddr_inj s a j i (by omega) (by omega) (by omega))]
    · rintro (h | ⟨j, h1, h2, h3⟩)
      · exact .inl (.inr h)
      · by_cases hj : j = i
        · subst hj; exact .inl (.inl h3)
        · refine .inr ⟨j, by omega, by omega, ?_⟩
          rw [h3, readByte_writeByte_ne _ _ _ _ (byteAddr_inj s a j i (by omega) (by omega) (by omega))]

theorem memWrite_records (s : State) (a : Word) {w : Nat} (v : BitVec w) (hw : w / 8 ≤ 2 ^ 32) :
    RecordsStores s (s.memWrite a v) a (w / 8) := fun c => by
  rw [State.memWrite, storeBytes_records _ _ _ _ (by simpa using hw)]
  simp

/-- A store that retires changes only its bytes. -/
theorem onlyStore_storeAt (s : State) (ea : Word) {w : Nat} (v : BitVec w) (hw : w / 8 ≤ 2 ^ 32) :
    OnlyStore s (s.memWrite ea v).retire ea (w / 8) where
  run := ⟨by simp, by simp, by simp⟩
  x := fun r => by simp
  f := fun r => by simp
  fsr := by simp
  memory := fun k h => by simpa using memWrite_readByte_ne s ea v k h
  stale := fun c => by simpa using memWrite_records s ea v hw c
  retires := by simpa [Retires, State.size] using retireTo_retires (s.memWrite ea v) (s.memWrite ea v).nextPc

/-- An AMO that retires changes only its bytes and `x[rd]`. -/
theorem onlyStoreAndX_amo (s : State) (rd : Reg) (ea : Word) {w : Nat} (v : BitVec w) (u : Word) (hw : w / 8 ≤ 2 ^ 32) :
    OnlyStoreAndX s ((s.memWrite ea v).writeX rd u).retire rd ea (w / 8) where
  run := ⟨by simp, by simp, by simp⟩
  x := fun r h => by simpa using readX_writeX_ne (s.memWrite ea v) rd r u h
  f := fun r => by simp
  fsr := by simp
  memory := fun k h => by simpa using memWrite_readByte_ne s ea v k h
  stale := fun c => by simpa using memWrite_records s ea v hw c
  retires := by
    simpa [Retires, State.size] using
      retireTo_retires ((s.memWrite ea v).writeX rd u) ((s.memWrite ea v).writeX rd u).nextPc

/-- Going to a target changes nothing else. -/
theorem onlyPc_retireTo (s : State) (a : Word) : OnlyPc s (s.retireTo a) where
  run := ⟨rfl, rfl, rfl⟩
  x := fun _ => rfl
  f := fun _ => rfl
  fsr := rfl
  memory := fun _ => rfl
  stale := rfl
  retires := retireTo_retires s a

end Sys2Proof.Machine
end

