-- ==== Sys2Proof/Laws/Decode.lean ====
section
/-! SUPPORT. The encoder's formats, field by field: the fields a decoder reads from an encoded word, the bitwise AND of a
word with a mask of the same format, and the table's rows told apart. -/

namespace Sys2Proof

theorem append_toNat {n m : Nat} (x : BitVec n) (y : BitVec m) : (x ++ y).toNat = x.toNat * 2 ^ m + y.toNat := by
  rw [BitVec.toNat_append, ← Nat.shiftLeft_add_eq_or_of_lt y.isLt, Nat.shiftLeft_eq]

theorem append_and_append {n m : Nat} (x x' : BitVec n) (y y' : BitVec m) :
    (x ++ y) &&& (x' ++ y') = (x &&& x') ++ (y &&& y') := BitVec.and_append

theorem extract_eq_of_toNat {n w : Nat} (v : BitVec w) (start : Nat) (x : BitVec n)
    (h : v.toNat / 2 ^ start % 2 ^ n = x.toNat) : v.extractLsb' start n = x :=
  BitVec.eq_of_toNat_eq (by rw [BitVec.extractLsb'_toNat, Nat.shiftRight_eq_div_pow, h])

/-! ## The formats that are another format's bits -/

theorem encB_eq (rs1 rs2 : Reg) (imm : BitVec 12) (f3 : BitVec 3) (op : BitVec 7) :
    encB rs1 rs2 imm f3 op = encR (imm.extractLsb' 7 5) rs1 rs2 (imm.extractLsb' 0 7) f3 op := rfl

theorem encFp_eq (rd rs1 rs2 : Reg) (f5 : BitVec 5) (rm : BitVec 3) (fmt : BitVec 2) (op : BitVec 7) :
    encFp rd rs1 rs2 f5 rm fmt op = encR4 rd rs1 rs2 f5 rm fmt op := rfl

/-! ## `encR` -/

theorem encR_toNat (rd : BitVec 5) (rs1 : BitVec 5) (rs2 : BitVec 5) (f7 : BitVec 7) (f3 : BitVec 3) (op : BitVec 7) :
    (encR rd rs1 rs2 f7 f3 op).toNat =
      ((((rd.toNat * 32 + rs1.toNat) * 32 + rs2.toNat) * 128 + f7.toNat) * 8 + f3.toNat) * 128 + op.toNat := by
  refine (append_toNat (rd ++ rs1 ++ rs2 ++ f7 ++ f3) op).trans
    (congrArg (· * 128 + op.toNat) ((append_toNat (rd ++ rs1 ++ rs2 ++ f7) f3).trans
    (congrArg (· * 8 + f3.toNat) ((append_toNat (rd ++ rs1 ++ rs2) f7).trans
    (congrArg (· * 128 + f7.toNat) ((append_toNat (rd ++ rs1) rs2).trans
    (congrArg (· * 32 + rs2.toNat) ((append_toNat rd rs1)))))))))

theorem encR_and (rd : BitVec 5) (rs1 : BitVec 5) (rs2 : BitVec 5) (f7 : BitVec 7) (f3 : BitVec 3) (op : BitVec 7)
    (rd' : BitVec 5) (rs1' : BitVec 5) (rs2' : BitVec 5) (f7' : BitVec 7) (f3' : BitVec 3) (op' : BitVec 7) :
    encR rd rs1 rs2 f7 f3 op &&& encR rd' rs1' rs2' f7' f3' op' =
      encR (rd &&& rd') (rs1 &&& rs1') (rs2 &&& rs2') (f7 &&& f7') (f3 &&& f3') (op &&& op') :=
  (append_and_append (rd ++ rs1 ++ rs2 ++ f7 ++ f3) (rd' ++ rs1' ++ rs2' ++ f7' ++ f3') op op').trans
    (congrArg (· ++ (op &&& op')) ((append_and_append (rd ++ rs1 ++ rs2 ++ f7) (rd' ++ rs1' ++ rs2' ++ f7') f3 f3').trans
    (congrArg (· ++ (f3 &&& f3')) ((append_and_append (rd ++ rs1 ++ rs2) (rd' ++ rs1' ++ rs2') f7 f7').trans
    (congrArg (· ++ (f7 &&& f7')) ((append_and_append (rd ++ rs1) (rd' ++ rs1') rs2 rs2').trans
    (congrArg (· ++ (rs2 &&& rs2')) ((append_and_append rd rd' rs1 rs1')))))))))

@[simp] theorem rdOf_encR (rd : BitVec 5) (rs1 : BitVec 5) (rs2 : BitVec 5) (f7 : BitVec 7) (f3 : BitVec 3) (op : BitVec 7) :
    rdOf (encR rd rs1 rs2 f7 f3 op) = rd := by
  refine extract_eq_of_toNat _ _ _ ?_
  rw [encR_toNat]
  have := rd.isLt
  have := rs1.isLt
  have := rs2.isLt
  have := f7.isLt
  have := f3.isLt
  have := op.isLt
  omega

@[simp] theorem rs1Of_encR (rd : BitVec 5) (rs1 : BitVec 5) (rs2 : BitVec 5) (f7 : BitVec 7) (f3 : BitVec 3) (op : BitVec 7) :
    rs1Of (encR rd rs1 rs2 f7 f3 op) = rs1 := by
  refine extract_eq_of_toNat _ _ _ ?_
  rw [encR_toNat]
  have := rs1.isLt
  have := rs2.isLt
  have := f7.isLt
  have := f3.isLt
  have := op.isLt
  omega

@[simp] theorem rs2Of_encR (rd : BitVec 5) (rs1 : BitVec 5) (rs2 : BitVec 5) (f7 : BitVec 7) (f3 : BitVec 3) (op : BitVec 7) :
    rs2Of (encR rd rs1 rs2 f7 f3 op) = rs2 := by
  refine extract_eq_of_toNat _ _ _ ?_
  rw [encR_toNat]
  have := rs2.isLt
  have := f7.isLt
  have := f3.isLt
  have := op.isLt
  omega

/-! ## `encR4` -/

theorem encR4_toNat (rd : BitVec 5) (rs1 : BitVec 5) (rs2 : BitVec 5) (rs3 : BitVec 5) (rm : BitVec 3) (fmt : BitVec 2) (op : BitVec 7) :
    (encR4 rd rs1 rs2 rs3 rm fmt op).toNat =
      (((((rd.toNat * 32 + rs1.toNat) * 32 + rs2.toNat) * 32 + rs3.toNat) * 8 + rm.toNat) * 4 + fmt.toNat) * 128 + op.toNat := by
  refine (append_toNat (rd ++ rs1 ++ rs2 ++ rs3 ++ rm ++ fmt) op).trans
    (congrArg (· * 128 + op.toNat) ((append_toNat (rd ++ rs1 ++ rs2 ++ rs3 ++ rm) fmt).trans
    (congrArg (· * 4 + fmt.toNat) ((append_toNat (rd ++ rs1 ++ rs2 ++ rs3) rm).trans
    (congrArg (· * 8 + rm.toNat) ((append_toNat (rd ++ rs1 ++ rs2) rs3).trans
    (congrArg (· * 32 + rs3.toNat) ((append_toNat (rd ++ rs1) rs2).trans
    (congrArg (· * 32 + rs2.toNat) ((append_toNat rd rs1)))))))))))

theorem encR4_and (rd : BitVec 5) (rs1 : BitVec 5) (rs2 : BitVec 5) (rs3 : BitVec 5) (rm : BitVec 3) (fmt : BitVec 2) (op : BitVec 7)
    (rd' : BitVec 5) (rs1' : BitVec 5) (rs2' : BitVec 5) (rs3' : BitVec 5) (rm' : BitVec 3) (fmt' : BitVec 2) (op' : BitVec 7) :
    encR4 rd rs1 rs2 rs3 rm fmt op &&& encR4 rd' rs1' rs2' rs3' rm' fmt' op' =
      encR4 (rd &&& rd') (rs1 &&& rs1') (rs2 &&& rs2') (rs3 &&& rs3') (rm &&& rm') (fmt &&& fmt') (op &&& op') :=
  (append_and_append (rd ++ rs1 ++ rs2 ++ rs3 ++ rm ++ fmt) (rd' ++ rs1' ++ rs2' ++ rs3' ++ rm' ++ fmt') op op').trans
    (congrArg (· ++ (op &&& op')) ((append_and_append (rd ++ rs1 ++ rs2 ++ rs3 ++ rm) (rd' ++ rs1' ++ rs2' ++ rs3' ++ rm') fmt fmt').trans
    (congrArg (· ++ (fmt &&& fmt')) ((append_and_append (rd ++ rs1 ++ rs2 ++ rs3) (rd' ++ rs1' ++ rs2' ++ rs3') rm rm').trans
    (congrArg (· ++ (rm &&& rm')) ((append_and_append (rd ++ rs1 ++ rs2) (rd' ++ rs1' ++ rs2') rs3 rs3').trans
    (congrArg (· ++ (rs3 &&& rs3')) ((append_and_append (rd ++ rs1) (rd' ++ rs1') rs2 rs2').trans
    (congrArg (· ++ (rs2 &&& rs2')) ((append_and_append rd rd' rs1 rs1')))))))))))

@[simp] theorem rdOf_encR4 (rd : BitVec 5) (rs1 : BitVec 5) (rs2 : BitVec 5) (rs3 : BitVec 5) (rm : BitVec 3) (fmt : BitVec 2) (op : BitVec 7) :
    rdOf (encR4 rd rs1 rs2 rs3 rm fmt op) = rd := by
  refine extract_eq_of_toNat _ _ _ ?_
  rw [encR4_toNat]
  have := rd.isLt
  have := rs1.isLt
  have := rs2.isLt
  have := rs3.isLt
  have := rm.isLt
  have := fmt.isLt
  have := op.isLt
  omega

@[simp] theorem rs1Of_encR4 (rd : BitVec 5) (rs1 : BitVec 5) (rs2 : BitVec 5) (rs3 : BitVec 5) (rm : BitVec 3) (fmt : BitVec 2) (op : BitVec 7) :
    rs1Of (encR4 rd rs1 rs2 rs3 rm fmt op) = rs1 := by
  refine extract_eq_of_toNat _ _ _ ?_
  rw [encR4_toNat]
  have := rs1.isLt
  have := rs2.isLt
  have := rs3.isLt
  have := rm.isLt
  have := fmt.isLt
  have := op.isLt
  omega

@[simp] theorem rs2Of_encR4 (rd : BitVec 5) (rs1 : BitVec 5) (rs2 : BitVec 5) (rs3 : BitVec 5) (rm : BitVec 3) (fmt : BitVec 2) (op : BitVec 7) :
    rs2Of (encR4 rd rs1 rs2 rs3 rm fmt op) = rs2 := by
  refine extract_eq_of_toNat _ _ _ ?_
  rw [encR4_toNat]
  have := rs2.isLt
  have := rs3.isLt
  have := rm.isLt
  have := fmt.isLt
  have := op.isLt
  omega

@[simp] theorem rs3Of_encR4 (rd : BitVec 5) (rs1 : BitVec 5) (rs2 : BitVec 5) (rs3 : BitVec 5) (rm : BitVec 3) (fmt : BitVec 2) (op : BitVec 7) :
    rs3Of (encR4 rd rs1 rs2 rs3 rm fmt op) = rs3 := by
  refine extract_eq_of_toNat _ _ _ ?_
  rw [encR4_toNat]
  have := rs3.isLt
  have := rm.isLt
  have := fmt.isLt
  have := op.isLt
  omega

@[simp] theorem rmOf_encR4 (rd : BitVec 5) (rs1 : BitVec 5) (rs2 : BitVec 5) (rs3 : BitVec 5) (rm : BitVec 3) (fmt : BitVec 2) (op : BitVec 7) :
    rmOf (encR4 rd rs1 rs2 rs3 rm fmt op) = rm := by
  refine extract_eq_of_toNat _ _ _ ?_
  rw [encR4_toNat]
  have := rm.isLt
  have := fmt.isLt
  have := op.isLt
  omega

/-! ## `encI` -/

theorem encI_toNat (rd : BitVec 5) (rs1 : BitVec 5) (imm : BitVec 12) (f3 : BitVec 3) (op : BitVec 7) :
    (encI rd rs1 imm f3 op).toNat =
      (((rd.toNat * 32 + rs1.toNat) * 4096 + imm.toNat) * 8 + f3.toNat) * 128 + op.toNat := by
  refine (append_toNat (rd ++ rs1 ++ imm ++ f3) op).trans
    (congrArg (· * 128 + op.toNat) ((append_toNat (rd ++ rs1 ++ imm) f3).trans
    (congrArg (· * 8 + f3.toNat) ((append_toNat (rd ++ rs1) imm).trans
    (congrArg (· * 4096 + imm.toNat) ((append_toNat rd rs1)))))))

theorem encI_and (rd : BitVec 5) (rs1 : BitVec 5) (imm : BitVec 12) (f3 : BitVec 3) (op : BitVec 7)
    (rd' : BitVec 5) (rs1' : BitVec 5) (imm' : BitVec 12) (f3' : BitVec 3) (op' : BitVec 7) :
    encI rd rs1 imm f3 op &&& encI rd' rs1' imm' f3' op' =
      encI (rd &&& rd') (rs1 &&& rs1') (imm &&& imm') (f3 &&& f3') (op &&& op') :=
  (append_and_append (rd ++ rs1 ++ imm ++ f3) (rd' ++ rs1' ++ imm' ++ f3') op op').trans
    (congrArg (· ++ (op &&& op')) ((append_and_append (rd ++ rs1 ++ imm) (rd' ++ rs1' ++ imm') f3 f3').trans
    (congrArg (· ++ (f3 &&& f3')) ((append_and_append (rd ++ rs1) (rd' ++ rs1') imm imm').trans
    (congrArg (· ++ (imm &&& imm')) ((append_and_append rd rd' rs1 rs1')))))))

@[simp] theorem rdOf_encI (rd : BitVec 5) (rs1 : BitVec 5) (imm : BitVec 12) (f3 : BitVec 3) (op : BitVec 7) :
    rdOf (encI rd rs1 imm f3 op) = rd := by
  refine extract_eq_of_toNat _ _ _ ?_
  rw [encI_toNat]
  have := rd.isLt
  have := rs1.isLt
  have := imm.isLt
  have := f3.isLt
  have := op.isLt
  omega

@[simp] theorem rs1Of_encI (rd : BitVec 5) (rs1 : BitVec 5) (imm : BitVec 12) (f3 : BitVec 3) (op : BitVec 7) :
    rs1Of (encI rd rs1 imm f3 op) = rs1 := by
  refine extract_eq_of_toNat _ _ _ ?_
  rw [encI_toNat]
  have := rs1.isLt
  have := imm.isLt
  have := f3.isLt
  have := op.isLt
  omega

@[simp] theorem immIOf_encI (rd : BitVec 5) (rs1 : BitVec 5) (imm : BitVec 12) (f3 : BitVec 3) (op : BitVec 7) :
    immIOf (encI rd rs1 imm f3 op) = imm := by
  refine extract_eq_of_toNat _ _ _ ?_
  rw [encI_toNat]
  have := imm.isLt
  have := f3.isLt
  have := op.isLt
  omega

/-! ## `encShift` -/

theorem encShift_toNat (rd : BitVec 5) (rs1 : BitVec 5) (ty : BitVec 6) (shamt : BitVec 6) (f3 : BitVec 3) (op : BitVec 7) :
    (encShift rd rs1 ty shamt f3 op).toNat =
      ((((rd.toNat * 32 + rs1.toNat) * 64 + ty.toNat) * 64 + shamt.toNat) * 8 + f3.toNat) * 128 + op.toNat := by
  refine (append_toNat (rd ++ rs1 ++ ty ++ shamt ++ f3) op).trans
    (congrArg (· * 128 + op.toNat) ((append_toNat (rd ++ rs1 ++ ty ++ shamt) f3).trans
    (congrArg (· * 8 + f3.toNat) ((append_toNat (rd ++ rs1 ++ ty) shamt).trans
    (congrArg (· * 64 + shamt.toNat) ((append_toNat (rd ++ rs1) ty).trans
    (congrArg (· * 64 + ty.toNat) ((append_toNat rd rs1)))))))))

theorem encShift_and (rd : BitVec 5) (rs1 : BitVec 5) (ty : BitVec 6) (shamt : BitVec 6) (f3 : BitVec 3) (op : BitVec 7)
    (rd' : BitVec 5) (rs1' : BitVec 5) (ty' : BitVec 6) (shamt' : BitVec 6) (f3' : BitVec 3) (op' : BitVec 7) :
    encShift rd rs1 ty shamt f3 op &&& encShift rd' rs1' ty' shamt' f3' op' =
      encShift (rd &&& rd') (rs1 &&& rs1') (ty &&& ty') (shamt &&& shamt') (f3 &&& f3') (op &&& op') :=
  (append_and_append (rd ++ rs1 ++ ty ++ shamt ++ f3) (rd' ++ rs1' ++ ty' ++ shamt' ++ f3') op op').trans
    (congrArg (· ++ (op &&& op')) ((append_and_append (rd ++ rs1 ++ ty ++ shamt) (rd' ++ rs1' ++ ty' ++ shamt') f3 f3').trans
    (congrArg (· ++ (f3 &&& f3')) ((append_and_append (rd ++ rs1 ++ ty) (rd' ++ rs1' ++ ty') shamt shamt').trans
    (congrArg (· ++ (shamt &&& shamt')) ((append_and_append (rd ++ rs1) (rd' ++ rs1') ty ty').trans
    (congrArg (· ++ (ty &&& ty')) ((append_and_append rd rd' rs1 rs1')))))))))

@[simp] theorem rdOf_encShift (rd : BitVec 5) (rs1 : BitVec 5) (ty : BitVec 6) (shamt : BitVec 6) (f3 : BitVec 3) (op : BitVec 7) :
    rdOf (encShift rd rs1 ty shamt f3 op) = rd := by
  refine extract_eq_of_toNat _ _ _ ?_
  rw [encShift_toNat]
  have := rd.isLt
  have := rs1.isLt
  have := ty.isLt
  have := shamt.isLt
  have := f3.isLt
  have := op.isLt
  omega

@[simp] theorem rs1Of_encShift (rd : BitVec 5) (rs1 : BitVec 5) (ty : BitVec 6) (shamt : BitVec 6) (f3 : BitVec 3) (op : BitVec 7) :
    rs1Of (encShift rd rs1 ty shamt f3 op) = rs1 := by
  refine extract_eq_of_toNat _ _ _ ?_
  rw [encShift_toNat]
  have := rs1.isLt
  have := ty.isLt
  have := shamt.isLt
  have := f3.isLt
  have := op.isLt
  omega

@[simp] theorem shamtOf_encShift (rd : BitVec 5) (rs1 : BitVec 5) (ty : BitVec 6) (shamt : BitVec 6) (f3 : BitVec 3) (op : BitVec 7) :
    shamtOf (encShift rd rs1 ty shamt f3 op) = shamt := by
  refine extract_eq_of_toNat _ _ _ ?_
  rw [encShift_toNat]
  have := shamt.isLt
  have := f3.isLt
  have := op.isLt
  omega

/-! ## `encShiftW` -/

theorem encShiftW_toNat (rd : BitVec 5) (rs1 : BitVec 5) (ty : BitVec 7) (shamt : BitVec 5) (f3 : BitVec 3) (op : BitVec 7) :
    (encShiftW rd rs1 ty shamt f3 op).toNat =
      ((((rd.toNat * 32 + rs1.toNat) * 128 + ty.toNat) * 32 + shamt.toNat) * 8 + f3.toNat) * 128 + op.toNat := by
  refine (append_toNat (rd ++ rs1 ++ ty ++ shamt ++ f3) op).trans
    (congrArg (· * 128 + op.toNat) ((append_toNat (rd ++ rs1 ++ ty ++ shamt) f3).trans
    (congrArg (· * 8 + f3.toNat) ((append_toNat (rd ++ rs1 ++ ty) shamt).trans
    (congrArg (· * 32 + shamt.toNat) ((append_toNat (rd ++ rs1) ty).trans
    (congrArg (· * 128 + ty.toNat) ((append_toNat rd rs1)))))))))

theorem encShiftW_and (rd : BitVec 5) (rs1 : BitVec 5) (ty : BitVec 7) (shamt : BitVec 5) (f3 : BitVec 3) (op : BitVec 7)
    (rd' : BitVec 5) (rs1' : BitVec 5) (ty' : BitVec 7) (shamt' : BitVec 5) (f3' : BitVec 3) (op' : BitVec 7) :
    encShiftW rd rs1 ty shamt f3 op &&& encShiftW rd' rs1' ty' shamt' f3' op' =
      encShiftW (rd &&& rd') (rs1 &&& rs1') (ty &&& ty') (shamt &&& shamt') (f3 &&& f3') (op &&& op') :=
  (append_and_append (rd ++ rs1 ++ ty ++ shamt ++ f3) (rd' ++ rs1' ++ ty' ++ shamt' ++ f3') op op').trans
    (congrArg (· ++ (op &&& op')) ((append_and_append (rd ++ rs1 ++ ty ++ shamt) (rd' ++ rs1' ++ ty' ++ shamt') f3 f3').trans
    (congrArg (· ++ (f3 &&& f3')) ((append_and_append (rd ++ rs1 ++ ty) (rd' ++ rs1' ++ ty') shamt shamt').trans
    (congrArg (· ++ (shamt &&& shamt')) ((append_and_append (rd ++ rs1) (rd' ++ rs1') ty ty').trans
    (congrArg (· ++ (ty &&& ty')) ((append_and_append rd rd' rs1 rs1')))))))))

@[simp] theorem rdOf_encShiftW (rd : BitVec 5) (rs1 : BitVec 5) (ty : BitVec 7) (shamt : BitVec 5) (f3 : BitVec 3) (op : BitVec 7) :
    rdOf (encShiftW rd rs1 ty shamt f3 op) = rd := by
  refine extract_eq_of_toNat _ _ _ ?_
  rw [encShiftW_toNat]
  have := rd.isLt
  have := rs1.isLt
  have := ty.isLt
  have := shamt.isLt
  have := f3.isLt
  have := op.isLt
  omega

@[simp] theorem rs1Of_encShiftW (rd : BitVec 5) (rs1 : BitVec 5) (ty : BitVec 7) (shamt : BitVec 5) (f3 : BitVec 3) (op : BitVec 7) :
    rs1Of (encShiftW rd rs1 ty shamt f3 op) = rs1 := by
  refine extract_eq_of_toNat _ _ _ ?_
  rw [encShiftW_toNat]
  have := rs1.isLt
  have := ty.isLt
  have := shamt.isLt
  have := f3.isLt
  have := op.isLt
  omega

@[simp] theorem shamtwOf_encShiftW (rd : BitVec 5) (rs1 : BitVec 5) (ty : BitVec 7) (shamt : BitVec 5) (f3 : BitVec 3) (op : BitVec 7) :
    shamtwOf (encShiftW rd rs1 ty shamt f3 op) = shamt := by
  refine extract_eq_of_toNat _ _ _ ?_
  rw [encShiftW_toNat]
  have := shamt.isLt
  have := f3.isLt
  have := op.isLt
  omega

/-! ## `encL` -/

theorem encL_toNat (rd : BitVec 5) (imm : BitVec 20) (op : BitVec 7) :
    (encL rd imm op).toNat =
      (rd.toNat * 1048576 + imm.toNat) * 128 + op.toNat := by
  refine (append_toNat (rd ++ imm) op).trans
    (congrArg (· * 128 + op.toNat) ((append_toNat rd imm)))

theorem encL_and (rd : BitVec 5) (imm : BitVec 20) (op : BitVec 7)
    (rd' : BitVec 5) (imm' : BitVec 20) (op' : BitVec 7) :
    encL rd imm op &&& encL rd' imm' op' =
      encL (rd &&& rd') (imm &&& imm') (op &&& op') :=
  (append_and_append (rd ++ imm) (rd' ++ imm') op op').trans
    (congrArg (· ++ (op &&& op')) ((append_and_append rd rd' imm imm')))

@[simp] theorem rdOf_encL (rd : BitVec 5) (imm : BitVec 20) (op : BitVec 7) :
    rdOf (encL rd imm op) = rd := by
  refine extract_eq_of_toNat _ _ _ ?_
  rw [encL_toNat]
  have := rd.isLt
  have := imm.isLt
  have := op.isLt
  omega

@[simp] theorem immLOf_encL (rd : BitVec 5) (imm : BitVec 20) (op : BitVec 7) :
    immLOf (encL rd imm op) = imm := by
  refine extract_eq_of_toNat _ _ _ ?_
  rw [encL_toNat]
  have := imm.isLt
  have := op.isLt
  omega

/-! ## `encJ` -/

theorem encJ_toNat (off : BitVec 25) (op : BitVec 7) :
    (encJ off op).toNat =
      off.toNat * 128 + op.toNat := by
  refine (append_toNat off op)

theorem encJ_and (off : BitVec 25) (op : BitVec 7)
    (off' : BitVec 25) (op' : BitVec 7) :
    encJ off op &&& encJ off' op' =
      encJ (off &&& off') (op &&& op') :=
  (append_and_append off off' op op')

@[simp] theorem offJOf_encJ (off : BitVec 25) (op : BitVec 7) :
    offJOf (encJ off op) = off := by
  refine extract_eq_of_toNat _ _ _ ?_
  rw [encJ_toNat]
  have := off.isLt
  have := op.isLt
  omega

/-! ## `encIgnored` -/

theorem encIgnored_toNat (ignored : BitVec 22) (f3 : BitVec 3) (op : BitVec 7) :
    (encIgnored ignored f3 op).toNat =
      (ignored.toNat * 8 + f3.toNat) * 128 + op.toNat := by
  refine (append_toNat (ignored ++ f3) op).trans
    (congrArg (· * 128 + op.toNat) ((append_toNat ignored f3)))

theorem encIgnored_and (ignored : BitVec 22) (f3 : BitVec 3) (op : BitVec 7)
    (ignored' : BitVec 22) (f3' : BitVec 3) (op' : BitVec 7) :
    encIgnored ignored f3 op &&& encIgnored ignored' f3' op' =
      encIgnored (ignored &&& ignored') (f3 &&& f3') (op &&& op') :=
  (append_and_append (ignored ++ f3) (ignored' ++ f3') op op').trans
    (congrArg (· ++ (op &&& op')) ((append_and_append ignored ignored' f3 f3')))

@[simp] theorem ignoredOf_encIgnored (ignored : BitVec 22) (f3 : BitVec 3) (op : BitVec 7) :
    ignoredOf (encIgnored ignored f3 op) = ignored := by
  refine extract_eq_of_toNat _ _ _ ?_
  rw [encIgnored_toNat]
  have := ignored.isLt
  have := f3.isLt
  have := op.isLt
  omega

@[simp] theorem immBOf_encR (imm : BitVec 12) (rs1 rs2 : Reg) (f3 : BitVec 3) (op : BitVec 7) :
    immBOf (encR (imm.extractLsb' 7 5) rs1 rs2 (imm.extractLsb' 0 7) f3 op) = imm := by
  have h1 : (encR (imm.extractLsb' 7 5) rs1 rs2 (imm.extractLsb' 0 7) f3 op).extractLsb' 27 5 = imm.extractLsb' 7 5 :=
    rdOf_encR _ _ _ _ _ _
  have h2 : (encR (imm.extractLsb' 7 5) rs1 rs2 (imm.extractLsb' 0 7) f3 op).extractLsb' 10 7 = imm.extractLsb' 0 7 := by
    refine extract_eq_of_toNat _ _ _ ?_
    rw [encR_toNat]
    have := (imm.extractLsb' 0 7).isLt
    have := f3.isLt
    have := op.isLt
    omega
  rw [immBOf, h1, h2]
  refine BitVec.eq_of_toNat_eq ?_
  rw [append_toNat, BitVec.extractLsb'_toNat, BitVec.extractLsb'_toNat, Nat.shiftRight_eq_div_pow,
    Nat.shiftRight_eq_div_pow]
  have := imm.isLt
  omega

/-! ## The opcode's bits -/

theorem low_mod (a b k : Nat) (h : k ≤ 7) : (a * 128 + b) % 2 ^ k = b % 2 ^ k := by
  have hd : 2 ^ k ∣ a * 128 := Dvd.dvd.mul_left (Nat.pow_dvd_pow 2 h) a
  rw [Nat.add_mod, Nat.mod_eq_zero_of_dvd hd, Nat.zero_add, Nat.mod_mod]

@[simp] theorem low_encR (rd : BitVec 5) (rs1 : BitVec 5) (rs2 : BitVec 5) (f7 : BitVec 7) (f3 : BitVec 3) (op : BitVec 7) (k : Nat) (h : k ≤ 7) :
    (encR rd rs1 rs2 f7 f3 op).extractLsb' 0 k = op.extractLsb' 0 k := by
  refine extract_eq_of_toNat _ _ _ ?_
  rw [encR_toNat, BitVec.extractLsb'_toNat, Nat.shiftRight_zero, Nat.pow_zero, Nat.div_one]
  exact low_mod _ _ k h

@[simp] theorem low_encR4 (rd : BitVec 5) (rs1 : BitVec 5) (rs2 : BitVec 5) (rs3 : BitVec 5) (rm : BitVec 3) (fmt : BitVec 2) (op : BitVec 7) (k : Nat) (h : k ≤ 7) :
    (encR4 rd rs1 rs2 rs3 rm fmt op).extractLsb' 0 k = op.extractLsb' 0 k := by
  refine extract_eq_of_toNat _ _ _ ?_
  rw [encR4_toNat, BitVec.extractLsb'_toNat, Nat.shiftRight_zero, Nat.pow_zero, Nat.div_one]
  exact low_mod _ _ k h

@[simp] theorem low_encI (rd : BitVec 5) (rs1 : BitVec 5) (imm : BitVec 12) (f3 : BitVec 3) (op : BitVec 7) (k : Nat) (h : k ≤ 7) :
    (encI rd rs1 imm f3 op).extractLsb' 0 k = op.extractLsb' 0 k := by
  refine extract_eq_of_toNat _ _ _ ?_
  rw [encI_toNat, BitVec.extractLsb'_toNat, Nat.shiftRight_zero, Nat.pow_zero, Nat.div_one]
  exact low_mod _ _ k h

@[simp] theorem low_encShift (rd : BitVec 5) (rs1 : BitVec 5) (ty : BitVec 6) (shamt : BitVec 6) (f3 : BitVec 3) (op : BitVec 7) (k : Nat) (h : k ≤ 7) :
    (encShift rd rs1 ty shamt f3 op).extractLsb' 0 k = op.extractLsb' 0 k := by
  refine extract_eq_of_toNat _ _ _ ?_
  rw [encShift_toNat, BitVec.extractLsb'_toNat, Nat.shiftRight_zero, Nat.pow_zero, Nat.div_one]
  exact low_mod _ _ k h

@[simp] theorem low_encShiftW (rd : BitVec 5) (rs1 : BitVec 5) (ty : BitVec 7) (shamt : BitVec 5) (f3 : BitVec 3) (op : BitVec 7) (k : Nat) (h : k ≤ 7) :
    (encShiftW rd rs1 ty shamt f3 op).extractLsb' 0 k = op.extractLsb' 0 k := by
  refine extract_eq_of_toNat _ _ _ ?_
  rw [encShiftW_toNat, BitVec.extractLsb'_toNat, Nat.shiftRight_zero, Nat.pow_zero, Nat.div_one]
  exact low_mod _ _ k h

@[simp] theorem low_encL (rd : BitVec 5) (imm : BitVec 20) (op : BitVec 7) (k : Nat) (h : k ≤ 7) :
    (encL rd imm op).extractLsb' 0 k = op.extractLsb' 0 k := by
  refine extract_eq_of_toNat _ _ _ ?_
  rw [encL_toNat, BitVec.extractLsb'_toNat, Nat.shiftRight_zero, Nat.pow_zero, Nat.div_one]
  exact low_mod _ _ k h

@[simp] theorem low_encJ (off : BitVec 25) (op : BitVec 7) (k : Nat) (h : k ≤ 7) :
    (encJ off op).extractLsb' 0 k = op.extractLsb' 0 k := by
  refine extract_eq_of_toNat _ _ _ ?_
  rw [encJ_toNat, BitVec.extractLsb'_toNat, Nat.shiftRight_zero, Nat.pow_zero, Nat.div_one]
  exact low_mod _ _ k h

@[simp] theorem low_encIgnored (ignored : BitVec 22) (f3 : BitVec 3) (op : BitVec 7) (k : Nat) (h : k ≤ 7) :
    (encIgnored ignored f3 op).extractLsb' 0 k = op.extractLsb' 0 k := by
  refine extract_eq_of_toNat _ _ _ ?_
  rw [encIgnored_toNat, BitVec.extractLsb'_toNat, Nat.shiftRight_zero, Nat.pow_zero, Nat.div_one]
  exact low_mod _ _ k h

/-! ## The table -/

/-- Two rows that no word hits together: a bit that both masks test differs. -/
def Row.apart (r q : Row) : Bool := r.patt &&& q.mask != q.patt &&& r.mask

theorem opcodeTable_length : opcodeTable.length = 150 := by decide +kernel

/-- The rows of the table are pairwise apart. -/
theorem opcodeTable_apart : opcodeTable.Pairwise (fun r q => r.apart q = true) := by decide +kernel

theorem Row.not_hits_of_apart (r q : Row) (w : Inst) (h : r.apart q = true) (hr : r.hits w = true) : q.hits w = false := by
  simp only [Row.apart, Row.hits, bne_iff_ne, beq_iff_eq, ne_eq, beq_eq_false_iff_ne] at *
  intro hq
  rw [← hr, ← hq] at h
  exact h (by rw [BitVec.and_assoc, BitVec.and_assoc, BitVec.and_comm r.mask])

theorem find?_of_pairwise (l : List Row) (hp : l.Pairwise (fun r q => r.apart q = true)) (r : Row) (w : Inst)
    (hm : r ∈ l) (hr : r.hits w = true) : l.find? (·.hits w) = some r := by
  induction hp with
  | nil => simp at hm
  | @cons q rest hq _ ih =>
    rcases List.mem_cons.1 hm with rfl | hm'
    · simp [hr]
    · cases hh : q.hits w with
      | true => exact absurd hr (by simp [Row.not_hits_of_apart q r w (hq r hm') hh])
      | false => rw [List.find?_cons_of_neg (by simp [hh])]; exact ih hm'

/-- A word that a row of the table hits decodes to what that row builds. -/
theorem decode_of_hits (r : Row) (w : Inst) (hm : r ∈ opcodeTable) (hr : r.hits w = true)
    (h2 : w.extractLsb' 0 2 = 0b11#2) (h5 : w.extractLsb' 0 5 ≠ 0b11111#5) : decode w = .ok (r.build w) := by
  simp [decode, h2, h5, find?_of_pairwise opcodeTable opcodeTable_apart r w hm hr]

/-- Every instruction the decoder answers is built by a row of the table that the word hits. -/
theorem decode_ok (w : Inst) (i : Instr) (h : decode w = .ok i) :
    ∃ r ∈ opcodeTable, r.hits w = true ∧ i = r.build w := by
  unfold decode at h
  split at h
  · cases h
  · split at h
    · cases h
    · split at h
      · next r hr =>
        cases h
        exact ⟨r, List.mem_of_find?_eq_some hr, by simpa using List.find?_some hr, rfl⟩
      · cases h

end Sys2Proof
end

