-- ==== Sys2Proof/Laws/Shapes.lean ====
section
/-! SUPPORT. What the shapes of instructions do, in the terms of Safety.lean: one lemma per shape, which a statement about an
instruction cites. -/

namespace Sys2Proof.Machine

/-! ## Values of operands -/

theorem size_cast (s : State) : (s.size : Int) = 2 ^ s.xlen.width := by rw [size_eq]; norm_cast

theorem width_pos (m : Xlen) : 0 < m.width := by cases m <;> decide

/-- A register at the width XPRLEN. -/
theorem setWidth_readX_toNat (s : State) (r : Reg) :
    ((s.readX r).setWidth s.xlen.width).toNat = (s.readX r).toNat := by
  rw [BitVec.toNat_setWidth]; exact Nat.mod_eq_of_lt (readX_lt s r)

theorem setWidth_readX_inj (s : State) (r q : Reg) :
    ((s.readX r).setWidth s.xlen.width = (s.readX q).setWidth s.xlen.width) ↔ s.readX r = s.readX q := by
  rw [← BitVec.toNat_inj, setWidth_readX_toNat, setWidth_readX_toNat, BitVec.toNat_inj]

theorem toInt_w (s : State) (r : Reg) : ((s.readX r).setWidth s.xlen.width).toInt = signedX s.xlen (s.readX r) :=
  (signedX_eq _ _).symm

theorem signedX_bounds (m : Xlen) (v : Word) :
    -2 ^ (m.width - 1) ≤ signedX m v ∧ signedX m v < 2 ^ (m.width - 1) := by
  rw [signedX_eq]
  have h1 := BitVec.le_toInt (v.setWidth m.width)
  have h2 := BitVec.toInt_lt (x := v.setWidth m.width)
  exact ⟨h1, h2⟩

theorem signedX_lt (s : State) (a b : Word) :
    ((a.setWidth s.xlen.width).slt (b.setWidth s.xlen.width)) = decide (signedX s.xlen a < signedX s.xlen b) := by
  rw [BitVec.slt_eq_decide, signedX_eq, signedX_eq]

theorem immX_toNat (s : State) (imm : BitVec 12) : (immX s.xlen imm).toNat = (imm.toInt % s.size).toNat := by
  have h := ofNat_sextX_mod s.xlen imm (by cases s.xlen <;> decide)
  rw [immX, size_eq]
  have : (((2 ^ s.xlen.width : Nat)) : Int) = 2 ^ s.xlen.width := by norm_cast
  rw [this]; omega

theorem setWidth_immX_toNat (s : State) (imm : BitVec 12) :
    ((immX s.xlen imm).setWidth s.xlen.width).toNat = (imm.toInt % s.size).toNat := by
  rw [BitVec.toNat_setWidth, immX_toNat]
  refine Nat.mod_eq_of_lt ?_
  have := Int.emod_lt_of_pos imm.toInt (show (0:Int) < s.size by exact_mod_cast size_pos s)
  have := Int.emod_nonneg imm.toInt (show (s.size : Int) ≠ 0 by have := size_pos s; omega)
  rw [← size_eq]; omega

theorem immX_toNat_int (s : State) (imm : BitVec 12) : ((immX s.xlen imm).toNat : Int) = imm.toInt % s.size := by
  rw [immX, ofNat_sextX_mod _ _ (by cases s.xlen <;> decide), size_cast]

/-- A sum of two XPRLEN-bit values, the second given as a signed number. -/
theorem truncX_add_toNat_int (s : State) (a b : Word) (n : Int) (h : (b.toNat : Int) = n % s.size) :
    ((truncX s.xlen (a + b)).toNat : Int) = (a.toNat + n) % s.size := by
  rw [truncX_add_toNat, ← size_eq]
  push_cast
  rw [h, Int.add_emod, Int.emod_emod_of_dvd _ (dvd_refl _), ← Int.add_emod]

theorem concat_zero_toInt {w : Nat} (v : BitVec w) : (v ++ 0#1).toInt = 2 * v.toInt := by
  rw [BitVec.toInt_eq_toNat_cond, BitVec.toInt_eq_toNat_cond, append_toNat]
  have h := v.isLt
  have e : 2 ^ (w + 1) = 2 * 2 ^ w := by rw [Nat.pow_succ']
  simp only [BitVec.toNat_ofNat, Nat.zero_mod, Nat.add_zero, pow_one, e]
  have e2 : ((2 * 2 ^ w : Nat) : Int) = 2 * ((2 ^ w : Nat) : Int) := by push_cast; rfl
  split <;> split <;> omega

/-- A branch offset is twice the signed field. -/
theorem branchOffset_toNat (s : State) (imm : BitVec 12) :
    ((branchOffset s.xlen imm).toNat : Int) = (2 * imm.toInt) % s.size := by
  rw [branchOffset, ofNat_sextX_mod _ _ (by cases s.xlen <;> decide), concat_zero_toInt, size_cast]

/-- A jump offset is twice the signed field. -/
theorem jumpOffset_toNat (s : State) (off : BitVec 25) :
    ((jumpOffset s.xlen off).toNat : Int) = (2 * off.toInt) % s.size := by
  rw [jumpOffset, ofNat_sextX_mod _ _ (by cases s.xlen <;> decide), concat_zero_toInt, size_cast]

/-- The target of a pc-relative transfer. -/
theorem pcRelative_toNat (s : State) (o : Word) (n : Int) (h : (o.toNat : Int) = n % s.size) :
    (truncX s.xlen (s.pcRelative o)).toNat = ((s.pcX.toNat + n) % s.size).toNat := by
  rw [State.pcRelative, truncX_truncX]
  have := truncX_add_toNat_int s s.pcX o n h
  omega

/-- The address of a load, store or JALR. -/
theorem regOffset_toNat (s : State) (rs1 : Reg) (imm : BitVec 12) :
    ((s.regOffset rs1 imm).toNat : Int) = ((s.readX rs1).toNat + imm.toInt) % s.size := by
  rw [State.regOffset]; exact truncX_add_toNat_int s _ _ _ (immX_toNat_int s imm)

theorem truncX_regOffset (s : State) (rs1 : Reg) (imm : BitVec 12) :
    truncX s.xlen (s.regOffset rs1 imm) = s.regOffset rs1 imm := truncX_truncX _ _

theorem shiftBy_readX (s : State) (r : Reg) :
    shiftBy ((s.readX r).setWidth s.xlen.width) = (s.readX r).toNat % s.xlen.width := by
  rw [shiftBy, setWidth_readX_toNat]

theorem shiftBy_amt (s : State) (amt : BitVec 6) (h : amt.toNat < s.xlen.width) :
    shiftBy ((amt.setWidth 64).setWidth s.xlen.width) = amt.toNat := by
  have := amt.isLt
  rw [shiftBy, BitVec.toNat_setWidth, BitVec.toNat_setWidth]
  cases hx : s.xlen <;> simp only [hx, Xlen.width] at * <;> omega

theorem toInt_eq_of_toNat_mod {w : Nat} (v : BitVec w) (n : Int) (h : (v.toNat : Int) % 2 ^ w = n % 2 ^ w) :
    v.toInt = Int.bmod n (2 ^ w) := by
  rw [BitVec.toInt_eq_toNat_bmod]
  have := Int.emod_bmod (x := (v.toNat : Int)) (n := 2 ^ w)
  have h2 := Int.emod_bmod (x := n) (n := 2 ^ w)
  push_cast at this h2
  exact this.symm.trans ((congrArg (fun z => Int.bmod z (2 ^ w)) h).trans h2)

/-- The low word as a signed number. -/
theorem toInt_low (v : Word) : (v.setWidth 32).toInt = Int.bmod v.toNat (2 ^ 32) := by
  refine toInt_eq_of_toNat_mod _ _ ?_
  rw [BitVec.toNat_setWidth]; omega

theorem toInt_ofInt_of_bounds {w : Nat} (hw : 0 < w) (n : Int) (h1 : -2 ^ (w - 1) ≤ n) (h2 : n < 2 ^ (w - 1)) :
    (BitVec.ofInt w n).toInt = n := by
  rw [BitVec.toInt_ofInt]
  have e : (2 : Nat) ^ w = 2 * 2 ^ (w - 1) := by rw [← Nat.pow_succ', Nat.succ_eq_add_one, Nat.sub_add_cancel hw]
  refine Int.bmod_eq_of_le ?_ ?_
  · rw [e]; push_cast; omega
  · rw [e]; push_cast; omega

/-! ## Integer shapes -/

/-- A write of `x[rd]` that completes. -/
theorem writesX_setRd (s : State) (rd : Reg) (v : Word) (n : Nat) (h : (truncX s.xlen v).toNat = n) :
    WritesX s (setRd rd v s) rd n := by
  refine ⟨_, rfl, ?_, advances_of_eq _ _ (by simp) (by simp), onlyX_setRd s rd v⟩
  rw [setRd_value]; split <;> simp [h]

/-- The same for a value given as a signed number. -/
theorem writesXSigned_setRd (s : State) (rd : Reg) (v : Word) (n : Int) (h : signedX s.xlen (truncX s.xlen v) = n) :
    WritesXSigned s (setRd rd v s) rd n := by
  refine ⟨_, rfl, ?_, advances_of_eq _ _ (by simp) (by simp), onlyX_setRd s rd v⟩
  rw [setRd_value]; split
  · cases s.xlen <;> rfl
  · exact h

/-- An XPRLEN-bit operation. -/
theorem writesX_intOp (s : State) (op) (rd : Reg) (a b : Word) (n : Nat)
    (h : (op s.xlen.width (a.setWidth s.xlen.width) (b.setWidth s.xlen.width)).toNat = n) :
    WritesX s (intOp op rd a b s) rd n :=
  writesX_setRd s rd _ n (by rw [truncX_liftX, liftX_toNat, h])

theorem writesXSigned_intOp (s : State) (op) (rd : Reg) (a b : Word) (n : Int)
    (h : (op s.xlen.width (a.setWidth s.xlen.width) (b.setWidth s.xlen.width)).toInt = n) :
    WritesXSigned s (intOp op rd a b s) rd n :=
  writesXSigned_setRd s rd _ n (by
    rw [truncX_liftX, signedX_eq, ← h]
    congr 1
    apply BitVec.eq_of_toNat_eq
    rw [BitVec.toNat_setWidth, liftX_toNat]
    exact Nat.mod_eq_of_lt (BitVec.isLt _))

/-- A W-suffix operation in RV64. -/
theorem writesXSigned_intOpW (s : State) (i : Instr) (op) (rd : Reg) (a b : Word) (n : Int) (hx : s.xlen = .rv64)
    (h : (op 32 (a.setWidth 32) (b.setWidth 32)).toInt = n) :
    WritesXSigned s (intOpW i op rd a b s) rd n := by
  rw [intOpW, onlyRv64_rv64 _ _ _ hx]
  refine writesXSigned_setRd s rd _ n ?_
  rw [hx, ← h, liftW]
  simp only [truncX, signedX]
  exact BitVec.toInt_signExtend_of_le (by decide)

/-- A test. -/
theorem writesX_intTest (s : State) (p) (rd : Reg) (a b : Word) (n : Nat)
    (h : (if p s.xlen.width (a.setWidth s.xlen.width) (b.setWidth s.xlen.width) = true then 1 else 0) = n) :
    WritesX s (intTest p rd a b s) rd n :=
  writesX_setRd s rd _ n (by rw [← h, testX_eq]; split <;> simp)

/-- A shift by a legal constant. -/
theorem shiftImm_ok (i : Instr) (op) (rd rs1 : Reg) (amt : BitVec 6) (s : State) (h : amt.toNat < s.xlen.width) :
    shiftImm i op rd rs1 amt s = intOp op rd (s.readX rs1) (amt.setWidth 64) s := by
  rcases shiftImm_cases i op rd rs1 amt s with ⟨⟨h1, h2⟩, -⟩ | ⟨-, e⟩
  · rw [h1] at h
    simp only [Xlen.width] at h
    have : amt.getLsbD 5 = false := by
      have hh := amt.isLt
      rw [BitVec.getLsbD, Nat.testBit_eq_decide_div_mod_eq]
      simp; omega
    rw [this] at h2; cases h2
  · exact e

/-! ## Control shapes -/

/-- A transfer that only sets the pc. -/
theorem goesTo_retireTo (s : State) (a : Word) (n : Nat) (h : (truncX s.xlen a).toNat = n) :
    GoesTo s (.next (s.retireTo a)) n := ⟨_, rfl, by rw [retireTo_pcX, h], onlyPc_retireTo s a⟩

theorem goesTo_retire (s : State) : GoesTo s (.next s.retire) ((s.pcX.toNat + 4) % s.size) :=
  goesTo_retireTo s _ _ (by rw [truncX_nextPc, nextPc_toNat])

theorem onlyX_writeX_retireTo (s : State) (rd : Reg) (v a : Word) : OnlyX s ((s.writeX rd v).retireTo a) rd where
  run := ⟨by simp, by simp, by simp⟩
  x := fun r h => by simpa using readX_writeX_ne s rd r v h
  f := fun r => by simp
  fsr := by simp
  memory := sameMemory_of_eq _ _ (by simp)
  stale := by simp
  retires := by simpa [Retires, State.size] using retireTo_retires (s.writeX rd v) a

/-- A transfer that links. -/
theorem linksTo_linkTo (s : State) (rd : Reg) (a : Word) (n : Nat) (h : (truncX s.xlen a).toNat = n) :
    LinksTo s (linkTo rd a s) rd n := by
  refine ⟨_, rfl, ?_, ?_, onlyX_writeX_retireTo s rd s.nextPc a⟩
  · simp [h]
  · by_cases h0 : rd = 0#5
    · simp [h0]
    · simp [h0, nextPc_toNat]

/-- A branch, from the meaning of its test. -/
theorem goesTo_branch (s : State) (p : (w : Nat) → BitVec w → BitVec w → Bool) (rs1 rs2 : Reg) (imm : BitVec 12)
    (c : Prop) [Decidable c]
    (h : p s.xlen.width ((s.readX rs1).setWidth _) ((s.readX rs2).setWidth _) = decide c) :
    GoesTo s (branch p rs1 rs2 imm s)
        (if c then ((s.pcX.toNat + 2 * imm.toInt) % s.size).toNat else (s.pcX.toNat + 4) % s.size) := by
  rcases branch_cases p rs1 rs2 imm s with ⟨h1, e⟩ | ⟨h1, e⟩
  · rw [testX_eq, h] at h1; rw [e, if_pos (of_decide_eq_true h1)]
    exact goesTo_retireTo s _ _ (pcRelative_toNat s _ _ (branchOffset_toNat s imm))
  · rw [testX_eq, h] at h1; rw [e, if_neg (of_decide_eq_false h1)]
    exact goesTo_retire s

/-! ## Memory shapes -/

theorem memRead_congr (s t : State) (a : Word) (w : Nat) (he : t.env = s.env) (hm : t.mem = s.mem) :
    t.memRead a w = s.memRead a w := by
  simp [State.memRead, State.bytesAt, State.readByte, State.byteAddr, State.xlen, he, hm]

theorem regOffset_congr (s t : State) (rs : Reg) (imm : BitVec 12) (he : t.env = s.env) (hx : t.x = s.x) :
    t.regOffset rs imm = s.regOffset rs imm := by
  simp [State.regOffset, State.readX, State.xlen, he, hx]

theorem byteAddr_add (s : State) (a : Word) (i j : Nat) :
    s.byteAddr (a + BitVec.ofNat 64 i) j = s.byteAddr a (i + j) := by
  rw [State.byteAddr, State.byteAddr, BitVec.add_assoc, ← BitVec.ofNat_add]

theorem natOfBytes_append (a b : List Byte) : natOfBytes (a ++ b) = natOfBytes a + 256 ^ a.length * natOfBytes b := by
  induction a with
  | nil => simp [natOfBytes]
  | cons x xs ih => simp [natOfBytes, ih, Nat.pow_succ]; ring

/-- The bytes of a number. -/
theorem natOfBytes_getD (bs : List Byte) (i : Nat) (h : i < bs.length) :
    natOfBytes bs / 256 ^ i % 256 = (bs.getD i 0#8).toNat := by
  induction bs generalizing i with
  | nil => simp at h
  | cons b rest ih =>
    have := b.isLt
    cases i with
    | zero => simp [natOfBytes]; omega
    | succ i =>
      simp only [List.length_cons] at h
      rw [List.getD_cons_succ, ← ih i (by omega), natOfBytes, Nat.pow_succ', ← Nat.div_div_eq_div_mul]
      congr 2; omega

theorem byteOrder_getD (s : State) (bs : List Byte) (i : Nat) (h : i < bs.length) :
    (byteOrder s.env.endian bs).getD i 0#8 = bs.getD (byteIndex s.env.endian bs.length i) 0#8 := by
  unfold byteOrder byteIndex
  cases s.env.endian
  · rfl
  · simp only [List.getD_eq_getElem?_getD]
    rw [List.getElem?_reverse h]

/-- A store whose access is possible. -/
theorem storesAt_storeAt (s : State) (a : Word) {w : Nat} (v : BitVec w) (hm : Memory.wf s.mem = true)
    (h : s.accessible a (w/8) .store = true) (hw : w / 8 ≤ 2 ^ 32) (h8 : 8 ∣ w) :
    StoresAt s (storeAt s a v) a v := by
  rcases storeAt_cases s a v with ⟨-, e⟩ | ⟨h', -⟩
  · rw [e]
    refine ⟨_, rfl, ?_, advances_of_eq _ _ (by simp) (by simp), onlyStore_storeAt s a v hw⟩
    rw [memRead_congr _ _ _ _ (retire_env _) (retire_mem _), memRead_memWrite _ _ _ hm hw h8]
  · rw [h] at h'; cases h'

/-- An AMO at an aligned address whose access is possible. -/
theorem exchanges_amo (s : State) (rd rs1 rs2 : Reg) {w : Nat} (op : BitVec w → BitVec w → BitVec w) (new : BitVec w)
    (hm : Memory.wf s.mem = true) (ha : (s.readX rs1).toNat % (w/8) = 0) (h : s.accessible (s.readX rs1)
        (w/8) .amo = true)
    (hw : w / 8 ≤ 2 ^ 32) (h8 : 8 ∣ w) (hl : w ≤ s.xlen.width) (hn : op (s.memRead (s.readX rs1) w)
        ((s.readX rs2).setWidth w) = new) :
    Exchanges s (amo w op rd rs1 rs2 s) rd (s.readX rs1) new := by
  rcases amo_cases w op rd rs1 rs2 s with ⟨h', -⟩ | ⟨-, h', -⟩ | ⟨-, -, e⟩
  · exact absurd ha h'
  · rw [h] at h'; cases h'
  · rw [e, hn]
    refine ⟨_, rfl, ?_, ?_, advances_of_eq _ _ (by simp) (by simp), onlyStoreAndX_amo s rd _ _ _ hw⟩
    · rw [memRead_congr _ _ _ _ (retire_env _) (retire_mem _), memRead_congr _ _ _ _ (writeX_env _ _ _)
        (writeX_mem _ _ _), memRead_memWrite _ _ _ hm hw h8]
    · by_cases h0 : rd = 0#5
      · simp [h0]; cases s.xlen <;> rfl
      · simp [h0, sextX_toInt _ _ hl]

theorem traps_amo_misaligned (w : Nat) (op : BitVec w → BitVec w → BitVec w) (rd rs1 rs2 : Reg) (s : State)
    (h : (s.readX rs1).toNat % (w / 8) ≠ 0) :
    Traps s (amo w op rd rs1 rs2 s) (.misalignedAddress (s.readX rs1)) := by
  rcases amo_cases w op rd rs1 rs2 s with ⟨-, e⟩ | ⟨h', -, -⟩ | ⟨h', -, -⟩
  · exact e
  · exact absurd h' h
  · exact absurd h' h

theorem traps_amo_inaccessible (w : Nat) (op : BitVec w → BitVec w → BitVec w) (rd rs1 rs2 : Reg) (s : State)
    (h : (s.readX rs1).toNat % (w / 8) = 0)
    (ha : s.accessible (s.readX rs1) (w / 8) .amo = false) :
    Traps s (amo w op rd rs1 rs2 s) (.accessFault (s.readX rs1) .amo) := by
  rcases amo_cases w op rd rs1 rs2 s with ⟨h', -⟩ | ⟨-, -, e⟩ | ⟨-, h', -⟩
  · exact absurd h h'
  · exact e
  · rw [ha] at h'; cases h'

/-! ## Floating-point shapes -/

/-- Accruing no flag changes nothing. -/
theorem accrue_none (s : State) : s.accrue noFlags = s := by
  have : s.fsr.extractLsb' 5 3 ++ (s.fsr.extractLsb' 0 5 ||| noFlags) = s.fsr := by
    rw [show (s.fsr.extractLsb' 0 5 ||| noFlags) = s.fsr.extractLsb' 0 5 from BitVec.or_zero]
    refine BitVec.eq_of_toNat_eq ?_
    rw [append_toNat]
    simp only [BitVec.extractLsb'_toNat, Nat.shiftRight_eq_div_pow]
    have := s.fsr.isLt
    omega
  unfold State.accrue
  rw [this]

/-- A write of `f[rd]` with flags. -/
theorem writesF_setFd (s : State) {fm : Fmt} (rd : Reg) (v : Pattern fm) (fl : FlagSet) :
    WritesF s (setFd rd (v, fl) s) rd v fl :=
  ⟨_, rfl, setFd_value s rd v fl, by cases fm <;> exact retire_advances s, onlyF_setFd s rd v fl⟩

/-- A write of `f[rd]` without flags. -/
theorem writesF_retire (s : State) {fm : Fmt} (rd : Reg) (v : Pattern fm) :
    WritesF s (.next (s.writeFmt rd v).retire) rd v noFlags := by
  have := writesF_setFd s rd v noFlags
  rwa [setFd, accrue_none] at this

/-- A write of `x[rd]` with flags. -/
theorem writesXFlags_setRdFlags (s : State) (rd : Reg) (v u : Word) (fl : FlagSet) (h : truncX s.xlen v = u) :
    WritesXFlags s (setRdFlags rd v fl s) rd u fl :=
  ⟨_, rfl, by rw [setRdFlags_value, h], advances_of_eq _ _ (by simp) (by simp), onlyXFlags_setRdFlags s rd v fl⟩

/-! ## The floating-point instructions by shape -/

theorem flagIf_or (a b : Bool) (fl : FlagSet) :
    flagIf (a || (b || false)) fl = (if a = true ∨ b = true then fl else noFlags) := by
  cases a <;> cases b <;> simp [flagIf]

theorem flagIf_one (a : Bool) (fl : FlagSet) : flagIf (a || false) fl = (if a = true then fl else noFlags) := by
  cases a <;> simp [flagIf]

/-- `fpArith` with a valid rounding mode. -/
theorem fpArith_rule (i : Instr)
    (op : (fm : Fmt) → Tininess → Rounding → Pattern fm → Pattern fm → Pattern fm × FlagSet) (fm : Fmt)
        (s : State) (rd rs1 rs2 : Reg) (rm : BitVec 3) (r : Rounding) (h : resolveRm s rm = some r) :
    ArithRule (fm := fm) s (fpArith i op fm rd rs1 rs2 rm s) rd op r (s.readFmt fm rs1) (s.readFmt fm rs2) := by
  rw [fpArith, withRounding_some _ _ _ _ r h]
  constructor
  · intro hn
    have e : arith2 op fm s.env.tininess r (s.readFmt fm rs1)
        (s.readFmt fm rs2) = (nanResult [s.readFmt fm rs1, s.readFmt fm rs2],
            if isSNaN (s.readFmt fm rs1) = true ∨ isSNaN (s.readFmt fm rs2) = true then flagNV else noFlags) := by
      rw [arith2, if_pos (by rcases hn with hn | hn <;> simp [hn]), nanFlags, List.any, List.any, List.any, flagIf_or]
    rw [e]; exact writesF_setFd _ _ _ _
  · intro h1 h2
    rw [arith2, if_neg (by simp [h1, h2])]; exact writesF_setFd _ _ _ _

/-- `fpSqrt` with a valid rounding mode. -/
theorem fpSqrt_rule (i : Instr) (fm : Fmt) (s : State) (rd rs1 : Reg) (rm : BitVec 3) (r : Rounding)
    (h : resolveRm s rm = some r) :
    SqrtRule (fm := fm) s (fpSqrt i fm rd rs1 rm s) rd r (s.readFmt fm rs1) := by
  rw [fpSqrt, withRounding_some _ _ _ _ r h]
  constructor
  · intro hn
    rw [arithSqrt, if_pos hn, nanFlags, List.any, List.any, flagIf_one]; exact writesF_setFd _ _ _ _
  · intro h1
    rw [arithSqrt, if_neg (by simp [h1])]; exact writesF_setFd _ _ _ _

/-- `fpFused` with a valid rounding mode. -/
theorem fpFused_rule (i : Instr) (fm : Fmt) (np na : Bool) (s : State) (rd rs1 rs2 rs3 : Reg) (rm : BitVec 3)
    (r : Rounding) (h : resolveRm s rm = some r) :
    FusedRule (fm := fm) s (fpFused i fm np na rd rs1 rs2 rs3 rm s) rd r (s.readFmt fm rs1) (s.readFmt fm rs2)
        (s.readFmt fm rs3)
     (if np then negate (s.readFmt fm rs1) else s.readFmt fm rs1)
         (if na then negate (s.readFmt fm rs3) else s.readFmt fm rs3) := by
  rw [fpFused, withRounding_some _ _ _ _ r h]
  constructor
  · intro hn
    rw [fma4, if_pos (by rcases hn with hn | hn | hn <;> simp [hn])]
    refine (congrArg (WritesF s _ rd _) ?_).mp (writesF_setFd _ _ _ _)
    generalize isSNaN (s.readFmt fm rs1) = x
    generalize isSNaN (s.readFmt fm rs2) = y
    generalize isSNaN (s.readFmt fm rs3) = z
    generalize s.env.fmaInvalidWithQNaN = w
    generalize isZero (s.readFmt fm rs1) = a
    generalize isZero (s.readFmt fm rs2) = b
    generalize isInf (s.readFmt fm rs1) = c
    generalize isInf (s.readFmt fm rs2) = d
    revert x y z w a b c d; decide
  · intro h1 h2 h3
    rw [fma4, if_neg (by simp [h1, h2, h3])]; exact writesF_setFd _ _ _ _

theorem writesF_draw (s : State) (fm : Fmt) (rd : Reg) (v : Pattern fm) (fl : FlagSet) (c : Bool) :
   WritesF s (setFd rd (v, fl) (if c then { s with draws := s.draws + 1 } else s)) rd v fl := by
  cases c
  · exact writesF_setFd s rd v fl
  · obtain ⟨t, e, h1, h2, h3⟩ := writesF_setFd { s with draws := s.draws + 1 } rd v fl
    exact ⟨t, e, h1, h2, ⟨⟨h3.1.1, h3.1.2, h3.1.3⟩, h3.x, h3.f, h3.rm, h3.flags, h3.memory, h3.stale, h3.retires⟩⟩

/-- `fpMinMax`. -/
theorem fpMinMax_rule (wm : Bool) (fm : Fmt) (s : State) (rd rs1 rs2 : Reg) :
    MinMaxRule (fm := fm) s (fpMinMax wm fm rd rs1 rs2 s) rd wm (s.readFmt fm rs1) (s.readFmt fm rs2) := by
  have W := fun v fl => writesF_draw s fm rd v fl (zerosDiffer (s.readFmt fm rs1) (s.readFmt fm rs2))
  have hs : ∀ a : Pattern fm, isNaN a = false → isSNaN a = false := by intro a h; simp [isSNaN, h]
  unfold fpMinMax
  generalize s.readFmt fm rs1 = a at *
  generalize s.readFmt fm rs2 = b at *
  have F : nanFlags [a, b] = if isSNaN a = true ∨ isSNaN b = true then flagNV else noFlags := by
    rw [nanFlags, List.any, List.any, List.any, flagIf_or]
  simp only [F]
  constructor
  · intro h
    rw [minMax, if_pos (by rcases h with h | h <;> simp [h])]; exact W _ _
  · intro h1 h2
    simp only [minMax, h1, h2, hs a h1, hs b h2]
    refine ⟨fun h => ?_, fun h => ?_, fun h h' => ?_⟩
    · simpa [h] using W _ _
    · have h' : ieeeLt a b = false := by simp [ieeeLt] at h ⊢; omega
      simpa [h, h'] using W _ _
    · refine ⟨if Config.zeroPick s.draws then a else b, by split <;> simp, ?_⟩
      simpa [h, h'] using W _ _

/-- The integer 0 converts to +0 without a flag. -/
theorem ieeeFromInt_zero (fm : Fmt) (t : Tininess) (r : Rounding) :
    ieeeFromInt fm t r 0 = ((0 : Pattern fm), noFlags) := by
  cases fm <;> rfl

/-- `fpToX` with a valid rounding mode. -/
theorem fpToX_rule (i : Instr) (fm : Fmt) (w : Nat) (sg : Bool) (s : State) (rd rs1 : Reg) (rm : BitVec 3)
    (r : Rounding) (h : resolveRm s rm = some r)
   (he : exec i s = fpToX i fm w sg rd rs1 rm s) (lo hi : Int) (hl : intLow w sg = lo) (hh : intHigh w sg = hi) :
   ToIntRule (fm := fm) s i rd w lo hi r (s.readFmt fm rs1) := by
  subst hl hh
  unfold ToIntRule
  rw [he, fpToX, withRounding_some _ _ _ _ r h]
  simp only
  generalize s.readFmt fm rs1 = a
  constructor
  · intro hc
    have e : fpToInt (intLow w sg) (intHigh w sg) r a = (none, flagNV) := by
      unfold fpToInt
      split
      · rfl
      · next hn =>
        simp at hn
        rcases hc with hc | hc | hc | hc
        · simp [hn] at hc
        · simp [hn] at hc
        · simp [hc]
        · simp [hc]
    rw [e]; exact writesXFlags_setRdFlags _ _ _ _ _ (by simp)
  · intro h1 h2 h3 h4
    have e : fpToInt (intLow w sg)
        (intHigh w sg) r a = (some (roundToInteger r a).1,
            if (roundToInteger r a).2 = true then flagNX else noFlags) := by
      unfold fpToInt
      rw [if_neg (by simp [h1, h2])]
      simp only [flagIf]
      rw [if_neg]
      simp; omega
    rw [e]; exact writesXFlags_setRdFlags _ _ _ _ _ (by simp)

/-- `fpCompare`. -/
theorem fpCompare_rule (sg : Bool) (rel : {fm : Fmt} → Pattern fm → Pattern fm → Bool) (fm : Fmt) (s : State)
    (rd rs1 rs2 : Reg) :
    CompareRule (fm := fm) s (fpCompare sg rel fm rd rs1 rs2 s) rd sg rel (s.readFmt fm rs1) (s.readFmt fm rs2) := by
  unfold fpCompare
  constructor
  · intro h
    rw [compare, if_pos (by rcases h with h | h <;> simp [h])]
    have e : ∀ a b c : Bool,
        flagIf (a || b || c) flagNV = if a = true ∨ b = true ∨ c = true then flagNV else noFlags := by decide
    rw [e]
    exact writesXFlags_setRdFlags _ _ _ _ _ (by simp)
  · intro h1 h2
    rw [compare, if_neg (by simp [h1, h2])]
    exact writesXFlags_setRdFlags _ _ _ _ _ (by split <;> simp)

theorem withSign_toNat {fm : Fmt} (b : Bool) (a : Pattern fm) :
    (withSign b a).toNat = (if b then 2 ^ (widthOf fm - 1) else 0) + a.toNat % 2 ^ (widthOf fm - 1) := by
  rw [withSign, ofSignMag, BitVec.toNat_ofNat]
  apply Nat.mod_eq_of_lt
  have h1 : a.toNat % 2 ^ (widthOf fm - 1) < 2 ^ (widthOf fm - 1) := Nat.mod_lt _ (Nat.two_pow_pos _)
  have h2 : 2 ^ (widthOf fm) = 2 * 2 ^ (widthOf fm - 1) := by cases fm <;> rfl
  split <;> omega

theorem sign_bit {w : Nat} (a : BitVec w) (k : Nat) (h : w = k + 1) : a.extractLsb' k 1 = BitVec.ofBool a.msb := by
  subst h
  ext i hi
  have : i = 0 := by omega
  subst this
  simp [BitVec.msb_eq_getLsbD_last]

/-! ## Counters and the fetch -/

/-- The value a counter read leaves. -/
theorem counter_value (s : State) (rd : Reg) (n : Nat) :
   ((s.writeX rd (truncX s.xlen (BitVec.ofNat 64 n))).retire.readX rd).toNat = (if rd =
       0#5 then 0 else n % s.size) := by
  rw [setRd_value]
  by_cases h0 : rd = 0#5
  · simp [h0]
  · rw [if_neg h0, if_neg h0, truncX_truncX, truncX_toNat, BitVec.toNat_ofNat, size_eq]
    exact Nat.mod_mod_of_dvd _ (Nat.pow_dvd_pow 2 (width_le _))

/-- A byte not stored to since the last FENCE.I is fetched as it is in memory. -/
theorem fetchByte_fresh (s : State) (k : Nat) (h : s.staleAt k = []) : s.fetchByte k = s.readByte k := by
  simp [State.fetchByte, h]

theorem append_bytes_toNat (a b : Byte) : (a ++ b : BitVec 16).toNat = b.toNat + 256 * a.toNat := by
  rw [append_toNat]; ring

/-- A halfword in memory is a parcel. -/
theorem memRead16 (s : State) (a : Word) :
    s.memRead a 16 = parcel s.env.endian (s.readByte (s.byteAddr a 0)) (s.readByte (s.byteAddr a 1)) := by
  have e : s.bytesAt a (16/8) = [s.readByte (s.byteAddr a 0), s.readByte (s.byteAddr a 1)] := rfl
  rw [State.memRead, e]
  generalize s.readByte (s.byteAddr a 0) = b0
  generalize s.readByte (s.byteAddr a 1) = b1
  refine BitVec.eq_of_toNat_eq ?_
  have h0 := b0.isLt
  have h1 := b1.isLt
  cases s.env.endian
  · show _ = (b1 ++ b0 : BitVec 16).toNat
    rw [append_bytes_toNat, BitVec.toNat_ofNat]
    show (b0.toNat + 256 * (b1.toNat + 256 * 0)) % 2^16 = _
    omega
  · show _ = (b0 ++ b1 : BitVec 16).toNat
    rw [append_bytes_toNat, BitVec.toNat_ofNat]
    show (b1.toNat + 256 * (b0.toNat + 256 * 0)) % 2^16 = _
    omega

/-- Where no byte is stale a fetch is two halfwords. -/
theorem fetchWord_eq (s : State) (a : Word) (h : s.fetchIsStale a = false) :
    s.fetchWord a = s.memRead (a + 2#64) 16 ++ s.memRead a 16 := by
  have H : ∀ i, i < 4 → s.fetchByte (s.byteAddr a i) = s.readByte (s.byteAddr a i) := by
    intro i hi
    apply fetchByte_fresh
    simp [State.fetchIsStale] at h
    simpa using h i hi
  rw [State.fetchWord, H 0 (by decide), H 1 (by decide), H 2 (by decide), H 3 (by decide), memRead16, memRead16]
  have e : (2#64 : Word) = BitVec.ofNat 64 2 := rfl
  rw [e, byteAddr_add, byteAddr_add]; rfl

end Sys2Proof.Machine
end

