-- ==== Sys2Proof/Laws/Exec.lean ====
section
/-! SUPPORT. What any instruction can do, once for all 150: it completes in one of a few shapes, each possible under some
opcodes only, or takes a trap of which the same is said. A property of next states that holds of every shape holds of every
next state. -/

namespace Sys2Proof.Machine

/-- The outcome is a next state with `P` or a trap of this state with `Q`. -/
def Outcome (s : State) (P : State → Prop) (Q : Exception → Prop) (res : Result) : Prop :=
  (∃ t, res = .next t ∧ P t) ∨ ∃ e, res = raise s e ∧ Q e

/-- The word of an instruction is illegal where it is executed. -/
def IllegalIn (i : Instr) (s : State) : Prop :=
  i.wf s.xlen = false ∨ ∃ rm, i.rmField = some rm ∧ resolveRm s rm = none

/-- The traps an instruction may take. -/
def MayTrap (i : Instr) (s : State) (e : Exception) : Prop :=
  match e with
  | .instructionAddressMisaligned _ => False
  | .illegalInstruction w => w = encode i ∧ IllegalIn i s
  | .misalignedAddress _ => opcodeOf i = 0b0101011#7
  | _ => True

/-- The opcodes that write an f register: LOAD-FP, OP-FP and the fused multiply-adds. -/
def fOpcodes : List (BitVec 7) :=
  [0b0000111#7, 0b1010011#7, 0b1000011#7, 0b1000111#7, 0b1001011#7, 0b1001111#7]

/-- `P` holds of the state after instruction `i` from `s`, whatever shape the instruction has. -/
structure HoldsAfter (i : Instr) (s : State) (P : State → Prop) : Prop where
  /-- A write of an x register. -/
  x : ∀ rd v, P (s.writeX rd v).retire
  /-- A branch that is not taken, a fence. -/
  plain : P s.retire
  /-- A jump that links. -/
  link : opcodeOf i ∈ [0b1101111#7, 0b1101011#7] → ∀ rd v a, P ((s.writeX rd v).retireTo a)
  /-- A jump or a branch that is taken. -/
  jump : opcodeOf i ∈ [0b1100111#7, 0b1100011#7] → ∀ a, P (s.retireTo a)
  /-- A write of an f register, after a draw for FMIN and FMAX of two zeros. -/
  f : opcodeOf i ∈ fOpcodes → ∀ (fm : Fmt) rd (v : Pattern fm) fl (t : State),
    (t = s ∨ t = { s with draws := s.draws + 1 }) → P ((t.writeFmt rd v).accrue fl).retire
  /-- A write of an x register with flags. -/
  xFlags : ∀ rd v fl, P ((s.writeX rd v).accrue fl).retire
  /-- A store. -/
  store : opcodeOf i ∈ [0b0100011#7, 0b0100111#7] → ∀ a (w : Nat) (v : BitVec w), P (s.memWrite a v).retire
  /-- An AMO. -/
  amo : opcodeOf i = 0b0101011#7 → ∀ a (w : Nat) (v : BitVec w) rd u, P ((s.memWrite a v).writeX rd u).retire
  /-- MTFSR. -/
  fsr : (∃ rd rs1, i = .mtfsr rd rs1) → ∀ rd v u, P ((s.writeFsr u).writeX rd v).retire
  /-- FENCE.I. -/
  fenceI : P ({ s with stale := [] } : State).retire
  /-- RDCYCLE: the count has not gone back, and is below `2^64` in RV64 if it was. -/
  cycle : ∀ rd v count, s.cycle ≤ count → (s.xlen = .rv64 → s.cycle < 2 ^ 64 → count < 2 ^ 64) →
    P (({ s with cycle := count, draws := s.draws + 1 } : State).writeX rd v).retire
  /-- RDTIME. -/
  time : ∀ rd v count, s.time ≤ count → (s.xlen = .rv64 → s.time < 2 ^ 64 → count < 2 ^ 64) →
    P (({ s with time := count, draws := s.draws + 1 } : State).writeX rd v).retire

variable {s : State} {P : State → Prop} {Q : Exception → Prop}

theorem le_advance (m : Xlen) (count by' : Nat) : count ≤ advance m count by' := by
  unfold advance; split
  · omega
  · split <;> omega

theorem advance_lt (m : Xlen) (count by' : Nat) (hm : m = .rv64) (h : count < 2 ^ 64) : advance m count by' < 2 ^ 64 := by
  subst hm
  show (if count + by' < 2 ^ 64 then count + by' else count) < 2 ^ 64
  split <;> assumption

theorem outcome_next {t : State} (h : P t) : Outcome s P Q (.next t) := .inl ⟨t, rfl, h⟩

theorem outcome_raise {e : Exception} (h : Q e) : Outcome s P Q (raise s e) := .inr ⟨e, rfl, h⟩

theorem outcome_illegal {i : Instr} (h : Q (.illegalInstruction (encode i))) :
    Outcome s P Q (illegal s i) := outcome_raise h

theorem outcome_rv64 {i : Instr} {b : Result} (hq : s.xlen = .rv32 → Q (.illegalInstruction (encode i)))
    (h : s.xlen = .rv64 → Outcome s P Q b) : Outcome s P Q (onlyRv64 i s b) := by
  rcases onlyRv64_cases i s b with ⟨h1, e⟩ | ⟨h1, e⟩ <;> rw [e]
  · exact h h1
  · exact outcome_illegal (hq h1)

theorem outcome_round {i : Instr} {rm : BitVec 3} {k : Rounding → Result} (hq : resolveRm s rm =
    none → Q (.illegalInstruction (encode i))) (h : ∀ r, Outcome s P Q (k r)) :
        Outcome s P Q (withRounding i rm s k) := by
  rcases withRounding_cases i rm s k with ⟨r, -, e⟩ | ⟨h1, e⟩ <;> rw [e]
  · exact h r
  · exact outcome_illegal (hq h1)

theorem outcome_load {ea : Word} {w : Nat} {k : BitVec w → Result} (hq : Q (.accessFault ea .load))
    (h : ∀ v, Outcome s P Q (k v)) : Outcome s P Q (loadThen s ea w k) := by
  rcases loadThen_cases s ea w k with ⟨-, e⟩ | ⟨-, e⟩ <;> rw [e]
  · exact h _
  · exact outcome_raise hq

theorem outcome_store {ea : Word} {w : Nat} {v : BitVec w} (hq : Q (.accessFault ea .store))
    (h : P (s.memWrite ea v).retire) : Outcome s P Q (storeAt s ea v) := by
  rcases storeAt_cases s ea v with ⟨-, e⟩ | ⟨-, e⟩ <;> rw [e]
  · exact outcome_next h
  · exact outcome_raise hq

theorem outcome_amo {w : Nat} {op : BitVec w → BitVec w → BitVec w} {rd rs1 rs2 : Reg} (hq1 : Q
    (.misalignedAddress (s.readX rs1))) (hq2 : Q (.accessFault (s.readX rs1) .amo))
    (h : ∀ (v : BitVec w) u, P ((s.memWrite (s.readX rs1) v).writeX rd u).retire) :
        Outcome s P Q (amo w op rd rs1 rs2 s) := by
  rcases amo_cases w op rd rs1 rs2 s with ⟨-, e⟩ | ⟨-, -, e⟩ | ⟨-, -, e⟩ <;> rw [e]
  · exact outcome_raise hq1
  · exact outcome_raise hq2
  · exact outcome_next (h _ _)

theorem outcome_setRd {rd : Reg} {v : Word} (h : ∀ v, P (s.writeX rd v).retire) :
    Outcome s P Q (setRd rd v s) := outcome_next (h v)

theorem outcome_shift {i : Instr} {op : (w : Nat) → BitVec w → BitVec w → BitVec w} {rd rs1 : Reg} {amt : BitVec
    6} (hq : s.xlen = .rv32 → amt.getLsbD 5 = true → Q (.illegalInstruction (encode i)))
        (h : ∀ v, P (s.writeX rd v).retire) : Outcome s P Q (shiftImm i op rd rs1 amt s) := by
  rcases shiftImm_cases i op rd rs1 amt s with ⟨⟨h1, h2⟩, e⟩ | ⟨-, e⟩ <;> rw [e]
  · exact outcome_illegal (hq h1 h2)
  · exact outcome_setRd h

theorem outcome_branch {p : (w : Nat) → BitVec w → BitVec w → Bool} {rs1 rs2 : Reg} {imm : BitVec 12} (h : ∀ a,
    P (s.retireTo a)) (h' : P s.retire) :
    Outcome s P Q (branch p rs1 rs2 imm s) := by
  rcases branch_cases p rs1 rs2 imm s with ⟨-, e⟩ | ⟨-, e⟩ <;> rw [e]
  · exact outcome_next (h _)
  · exact outcome_next h'

theorem outcome_setFd {fm : Fmt} {rd : Reg} {v : Pattern fm × FlagSet} (h : ∀ (v : Pattern fm) fl,
    P ((s.writeFmt rd v).accrue fl).retire) : Outcome s P Q (setFd rd v s) := outcome_next (h _ _)

theorem outcome_setRdFlags {rd : Reg} {v : Word} {fl : FlagSet} (h : ∀ v fl,
    P ((s.writeX rd v).accrue fl).retire) : Outcome s P Q (setRdFlags rd v fl s) := outcome_next (h _ _)

theorem outcome_minmax {wm : Bool} {fm : Fmt} {rd rs1 rs2 : Reg} (h : ∀ (v : Pattern fm) fl (t : State),
    (t = s ∨ t = { s with draws := s.draws + 1 }) → P ((t.writeFmt rd v).accrue fl).retire) :
        Outcome s P Q (fpMinMax wm fm rd rs1 rs2 s) := by
  unfold fpMinMax setFd
  refine outcome_next (h _ _ _ ?_)
  split <;> simp


theorem HoldsAfter.fPlain {i : Instr} (c : HoldsAfter i s P) (h : opcodeOf i ∈ fOpcodes) {fm : Fmt} {rd : Reg}
    (v : Pattern fm) : P (s.writeFmt rd v).retire := by
  have := c.f h fm rd v noFlags s (.inl rfl)
  rwa [accrue_none] at this

theorem outcome_mono {Q' : Exception → Prop} {res : Result} (h : Outcome s P Q res) (hq : ∀ e, Q e → Q' e) :
    Outcome s P Q' res := by
  rcases h with h | ⟨e, he, hq'⟩
  · exact .inl h
  · exact .inr ⟨e, he, hq e hq'⟩

/-- A form that exists only in RV64 is illegal in RV32. -/
theorem illegalIn_rv64 {i : Instr} (h : s.xlen = .rv32) (hi : i.rv64Only = true) : IllegalIn i s :=
  .inl (by simp [Instr.wf, Instr.wfXlen, hi, h])

/-- A shift amount of 32 or more is illegal in RV32. -/
theorem illegalIn_shamt {i : Instr} {amt : BitVec 6} (h : s.xlen = .rv32) (hi : i.shamt6 = some amt)
    (h2 : amt.getLsbD 5 = true) : IllegalIn i s :=
  .inl (by simp only [Instr.wf, Instr.wfShamt, hi, h, h2]; simp)

/-! ## The opcode of each instruction -/

@[simp] theorem opcodeOf_j (off : BitVec 25) :
    opcodeOf (.j off) = 0b1100111#7 := by
  change BitVec.extractLsb' 0 7 (encJ off 0b1100111#7) = _
  rw [low_encJ _ _ 7 (by decide)]; rfl

@[simp] theorem opcodeOf_jal (off : BitVec 25) :
    opcodeOf (.jal off) = 0b1101111#7 := by
  change BitVec.extractLsb' 0 7 (encJ off 0b1101111#7) = _
  rw [low_encJ _ _ 7 (by decide)]; rfl

@[simp] theorem opcodeOf_beq (rs1 : Reg) (rs2 : Reg) (imm : BitVec 12) :
    opcodeOf (.beq rs1 rs2 imm) = 0b1100011#7 := by
  change BitVec.extractLsb' 0 7 (encB rs1 rs2 imm 0b000#3 0b1100011#7) = _
  rw [encB_eq, low_encR _ _ _ _ _ _ 7 (by decide)]; rfl

@[simp] theorem opcodeOf_bne (rs1 : Reg) (rs2 : Reg) (imm : BitVec 12) :
    opcodeOf (.bne rs1 rs2 imm) = 0b1100011#7 := by
  change BitVec.extractLsb' 0 7 (encB rs1 rs2 imm 0b001#3 0b1100011#7) = _
  rw [encB_eq, low_encR _ _ _ _ _ _ 7 (by decide)]; rfl

@[simp] theorem opcodeOf_blt (rs1 : Reg) (rs2 : Reg) (imm : BitVec 12) :
    opcodeOf (.blt rs1 rs2 imm) = 0b1100011#7 := by
  change BitVec.extractLsb' 0 7 (encB rs1 rs2 imm 0b100#3 0b1100011#7) = _
  rw [encB_eq, low_encR _ _ _ _ _ _ 7 (by decide)]; rfl

@[simp] theorem opcodeOf_bge (rs1 : Reg) (rs2 : Reg) (imm : BitVec 12) :
    opcodeOf (.bge rs1 rs2 imm) = 0b1100011#7 := by
  change BitVec.extractLsb' 0 7 (encB rs1 rs2 imm 0b101#3 0b1100011#7) = _
  rw [encB_eq, low_encR _ _ _ _ _ _ 7 (by decide)]; rfl

@[simp] theorem opcodeOf_bltu (rs1 : Reg) (rs2 : Reg) (imm : BitVec 12) :
    opcodeOf (.bltu rs1 rs2 imm) = 0b1100011#7 := by
  change BitVec.extractLsb' 0 7 (encB rs1 rs2 imm 0b110#3 0b1100011#7) = _
  rw [encB_eq, low_encR _ _ _ _ _ _ 7 (by decide)]; rfl

@[simp] theorem opcodeOf_bgeu (rs1 : Reg) (rs2 : Reg) (imm : BitVec 12) :
    opcodeOf (.bgeu rs1 rs2 imm) = 0b1100011#7 := by
  change BitVec.extractLsb' 0 7 (encB rs1 rs2 imm 0b111#3 0b1100011#7) = _
  rw [encB_eq, low_encR _ _ _ _ _ _ 7 (by decide)]; rfl

@[simp] theorem opcodeOf_jalrC (rd : Reg) (rs1 : Reg) (imm : BitVec 12) :
    opcodeOf (.jalrC rd rs1 imm) = 0b1101011#7 := by
  change BitVec.extractLsb' 0 7 (encI rd rs1 imm 0b000#3 0b1101011#7) = _
  rw [low_encI _ _ _ _ _ 7 (by decide)]; rfl

@[simp] theorem opcodeOf_jalrR (rd : Reg) (rs1 : Reg) (imm : BitVec 12) :
    opcodeOf (.jalrR rd rs1 imm) = 0b1101011#7 := by
  change BitVec.extractLsb' 0 7 (encI rd rs1 imm 0b001#3 0b1101011#7) = _
  rw [low_encI _ _ _ _ _ 7 (by decide)]; rfl

@[simp] theorem opcodeOf_jalrJ (rd : Reg) (rs1 : Reg) (imm : BitVec 12) :
    opcodeOf (.jalrJ rd rs1 imm) = 0b1101011#7 := by
  change BitVec.extractLsb' 0 7 (encI rd rs1 imm 0b010#3 0b1101011#7) = _
  rw [low_encI _ _ _ _ _ 7 (by decide)]; rfl

@[simp] theorem opcodeOf_rdnpc (rd : Reg) :
    opcodeOf (.rdnpc rd) = 0b1101011#7 := by
  change BitVec.extractLsb' 0 7 (encI rd 0b00000#5 0b000000000000#12 0b100#3 0b1101011#7) = _
  rw [low_encI _ _ _ _ _ 7 (by decide)]; rfl

@[simp] theorem opcodeOf_lb (rd : Reg) (rs1 : Reg) (imm : BitVec 12) :
    opcodeOf (.lb rd rs1 imm) = 0b0000011#7 := by
  change BitVec.extractLsb' 0 7 (encI rd rs1 imm 0b000#3 0b0000011#7) = _
  rw [low_encI _ _ _ _ _ 7 (by decide)]; rfl

@[simp] theorem opcodeOf_lh (rd : Reg) (rs1 : Reg) (imm : BitVec 12) :
    opcodeOf (.lh rd rs1 imm) = 0b0000011#7 := by
  change BitVec.extractLsb' 0 7 (encI rd rs1 imm 0b001#3 0b0000011#7) = _
  rw [low_encI _ _ _ _ _ 7 (by decide)]; rfl

@[simp] theorem opcodeOf_lw (rd : Reg) (rs1 : Reg) (imm : BitVec 12) :
    opcodeOf (.lw rd rs1 imm) = 0b0000011#7 := by
  change BitVec.extractLsb' 0 7 (encI rd rs1 imm 0b010#3 0b0000011#7) = _
  rw [low_encI _ _ _ _ _ 7 (by decide)]; rfl

@[simp] theorem opcodeOf_ld (rd : Reg) (rs1 : Reg) (imm : BitVec 12) :
    opcodeOf (.ld rd rs1 imm) = 0b0000011#7 := by
  change BitVec.extractLsb' 0 7 (encI rd rs1 imm 0b011#3 0b0000011#7) = _
  rw [low_encI _ _ _ _ _ 7 (by decide)]; rfl

@[simp] theorem opcodeOf_lbu (rd : Reg) (rs1 : Reg) (imm : BitVec 12) :
    opcodeOf (.lbu rd rs1 imm) = 0b0000011#7 := by
  change BitVec.extractLsb' 0 7 (encI rd rs1 imm 0b100#3 0b0000011#7) = _
  rw [low_encI _ _ _ _ _ 7 (by decide)]; rfl

@[simp] theorem opcodeOf_lhu (rd : Reg) (rs1 : Reg) (imm : BitVec 12) :
    opcodeOf (.lhu rd rs1 imm) = 0b0000011#7 := by
  change BitVec.extractLsb' 0 7 (encI rd rs1 imm 0b101#3 0b0000011#7) = _
  rw [low_encI _ _ _ _ _ 7 (by decide)]; rfl

@[simp] theorem opcodeOf_lwu (rd : Reg) (rs1 : Reg) (imm : BitVec 12) :
    opcodeOf (.lwu rd rs1 imm) = 0b0000011#7 := by
  change BitVec.extractLsb' 0 7 (encI rd rs1 imm 0b110#3 0b0000011#7) = _
  rw [low_encI _ _ _ _ _ 7 (by decide)]; rfl

@[simp] theorem opcodeOf_sb (rs1 : Reg) (rs2 : Reg) (imm : BitVec 12) :
    opcodeOf (.sb rs1 rs2 imm) = 0b0100011#7 := by
  change BitVec.extractLsb' 0 7 (encB rs1 rs2 imm 0b000#3 0b0100011#7) = _
  rw [encB_eq, low_encR _ _ _ _ _ _ 7 (by decide)]; rfl

@[simp] theorem opcodeOf_sh (rs1 : Reg) (rs2 : Reg) (imm : BitVec 12) :
    opcodeOf (.sh rs1 rs2 imm) = 0b0100011#7 := by
  change BitVec.extractLsb' 0 7 (encB rs1 rs2 imm 0b001#3 0b0100011#7) = _
  rw [encB_eq, low_encR _ _ _ _ _ _ 7 (by decide)]; rfl

@[simp] theorem opcodeOf_sw (rs1 : Reg) (rs2 : Reg) (imm : BitVec 12) :
    opcodeOf (.sw rs1 rs2 imm) = 0b0100011#7 := by
  change BitVec.extractLsb' 0 7 (encB rs1 rs2 imm 0b010#3 0b0100011#7) = _
  rw [encB_eq, low_encR _ _ _ _ _ _ 7 (by decide)]; rfl

@[simp] theorem opcodeOf_sd (rs1 : Reg) (rs2 : Reg) (imm : BitVec 12) :
    opcodeOf (.sd rs1 rs2 imm) = 0b0100011#7 := by
  change BitVec.extractLsb' 0 7 (encB rs1 rs2 imm 0b011#3 0b0100011#7) = _
  rw [encB_eq, low_encR _ _ _ _ _ _ 7 (by decide)]; rfl

@[simp] theorem opcodeOf_amoaddW (rd : Reg) (rs1 : Reg) (rs2 : Reg) :
    opcodeOf (.amoaddW rd rs1 rs2) = 0b0101011#7 := by
  change BitVec.extractLsb' 0 7 (encR rd rs1 rs2 0b0000000#7 0b010#3 0b0101011#7) = _
  rw [low_encR _ _ _ _ _ _ 7 (by decide)]; rfl

@[simp] theorem opcodeOf_amoswapW (rd : Reg) (rs1 : Reg) (rs2 : Reg) :
    opcodeOf (.amoswapW rd rs1 rs2) = 0b0101011#7 := by
  change BitVec.extractLsb' 0 7 (encR rd rs1 rs2 0b0000001#7 0b010#3 0b0101011#7) = _
  rw [low_encR _ _ _ _ _ _ 7 (by decide)]; rfl

@[simp] theorem opcodeOf_amoandW (rd : Reg) (rs1 : Reg) (rs2 : Reg) :
    opcodeOf (.amoandW rd rs1 rs2) = 0b0101011#7 := by
  change BitVec.extractLsb' 0 7 (encR rd rs1 rs2 0b0000010#7 0b010#3 0b0101011#7) = _
  rw [low_encR _ _ _ _ _ _ 7 (by decide)]; rfl

@[simp] theorem opcodeOf_amoorW (rd : Reg) (rs1 : Reg) (rs2 : Reg) :
    opcodeOf (.amoorW rd rs1 rs2) = 0b0101011#7 := by
  change BitVec.extractLsb' 0 7 (encR rd rs1 rs2 0b0000011#7 0b010#3 0b0101011#7) = _
  rw [low_encR _ _ _ _ _ _ 7 (by decide)]; rfl

@[simp] theorem opcodeOf_amominW (rd : Reg) (rs1 : Reg) (rs2 : Reg) :
    opcodeOf (.amominW rd rs1 rs2) = 0b0101011#7 := by
  change BitVec.extractLsb' 0 7 (encR rd rs1 rs2 0b0000100#7 0b010#3 0b0101011#7) = _
  rw [low_encR _ _ _ _ _ _ 7 (by decide)]; rfl

@[simp] theorem opcodeOf_amomaxW (rd : Reg) (rs1 : Reg) (rs2 : Reg) :
    opcodeOf (.amomaxW rd rs1 rs2) = 0b0101011#7 := by
  change BitVec.extractLsb' 0 7 (encR rd rs1 rs2 0b0000101#7 0b010#3 0b0101011#7) = _
  rw [low_encR _ _ _ _ _ _ 7 (by decide)]; rfl

@[simp] theorem opcodeOf_amominuW (rd : Reg) (rs1 : Reg) (rs2 : Reg) :
    opcodeOf (.amominuW rd rs1 rs2) = 0b0101011#7 := by
  change BitVec.extractLsb' 0 7 (encR rd rs1 rs2 0b0000110#7 0b010#3 0b0101011#7) = _
  rw [low_encR _ _ _ _ _ _ 7 (by decide)]; rfl

@[simp] theorem opcodeOf_amomaxuW (rd : Reg) (rs1 : Reg) (rs2 : Reg) :
    opcodeOf (.amomaxuW rd rs1 rs2) = 0b0101011#7 := by
  change BitVec.extractLsb' 0 7 (encR rd rs1 rs2 0b0000111#7 0b010#3 0b0101011#7) = _
  rw [low_encR _ _ _ _ _ _ 7 (by decide)]; rfl

@[simp] theorem opcodeOf_amoaddD (rd : Reg) (rs1 : Reg) (rs2 : Reg) :
    opcodeOf (.amoaddD rd rs1 rs2) = 0b0101011#7 := by
  change BitVec.extractLsb' 0 7 (encR rd rs1 rs2 0b0000000#7 0b011#3 0b0101011#7) = _
  rw [low_encR _ _ _ _ _ _ 7 (by decide)]; rfl

@[simp] theorem opcodeOf_amoswapD (rd : Reg) (rs1 : Reg) (rs2 : Reg) :
    opcodeOf (.amoswapD rd rs1 rs2) = 0b0101011#7 := by
  change BitVec.extractLsb' 0 7 (encR rd rs1 rs2 0b0000001#7 0b011#3 0b0101011#7) = _
  rw [low_encR _ _ _ _ _ _ 7 (by decide)]; rfl

@[simp] theorem opcodeOf_amoandD (rd : Reg) (rs1 : Reg) (rs2 : Reg) :
    opcodeOf (.amoandD rd rs1 rs2) = 0b0101011#7 := by
  change BitVec.extractLsb' 0 7 (encR rd rs1 rs2 0b0000010#7 0b011#3 0b0101011#7) = _
  rw [low_encR _ _ _ _ _ _ 7 (by decide)]; rfl

@[simp] theorem opcodeOf_amoorD (rd : Reg) (rs1 : Reg) (rs2 : Reg) :
    opcodeOf (.amoorD rd rs1 rs2) = 0b0101011#7 := by
  change BitVec.extractLsb' 0 7 (encR rd rs1 rs2 0b0000011#7 0b011#3 0b0101011#7) = _
  rw [low_encR _ _ _ _ _ _ 7 (by decide)]; rfl

@[simp] theorem opcodeOf_amominD (rd : Reg) (rs1 : Reg) (rs2 : Reg) :
    opcodeOf (.amominD rd rs1 rs2) = 0b0101011#7 := by
  change BitVec.extractLsb' 0 7 (encR rd rs1 rs2 0b0000100#7 0b011#3 0b0101011#7) = _
  rw [low_encR _ _ _ _ _ _ 7 (by decide)]; rfl

@[simp] theorem opcodeOf_amomaxD (rd : Reg) (rs1 : Reg) (rs2 : Reg) :
    opcodeOf (.amomaxD rd rs1 rs2) = 0b0101011#7 := by
  change BitVec.extractLsb' 0 7 (encR rd rs1 rs2 0b0000101#7 0b011#3 0b0101011#7) = _
  rw [low_encR _ _ _ _ _ _ 7 (by decide)]; rfl

@[simp] theorem opcodeOf_amominuD (rd : Reg) (rs1 : Reg) (rs2 : Reg) :
    opcodeOf (.amominuD rd rs1 rs2) = 0b0101011#7 := by
  change BitVec.extractLsb' 0 7 (encR rd rs1 rs2 0b0000110#7 0b011#3 0b0101011#7) = _
  rw [low_encR _ _ _ _ _ _ 7 (by decide)]; rfl

@[simp] theorem opcodeOf_amomaxuD (rd : Reg) (rs1 : Reg) (rs2 : Reg) :
    opcodeOf (.amomaxuD rd rs1 rs2) = 0b0101011#7 := by
  change BitVec.extractLsb' 0 7 (encR rd rs1 rs2 0b0000111#7 0b011#3 0b0101011#7) = _
  rw [low_encR _ _ _ _ _ _ 7 (by decide)]; rfl

@[simp] theorem opcodeOf_addi (rd : Reg) (rs1 : Reg) (imm : BitVec 12) :
    opcodeOf (.addi rd rs1 imm) = 0b0010011#7 := by
  change BitVec.extractLsb' 0 7 (encI rd rs1 imm 0b000#3 0b0010011#7) = _
  rw [low_encI _ _ _ _ _ 7 (by decide)]; rfl

@[simp] theorem opcodeOf_slli (rd : Reg) (rs1 : Reg) (shamt : BitVec 6) :
    opcodeOf (.slli rd rs1 shamt) = 0b0010011#7 := by
  change BitVec.extractLsb' 0 7 (encShift rd rs1 0b000000#6 shamt 0b001#3 0b0010011#7) = _
  rw [low_encShift _ _ _ _ _ _ 7 (by decide)]; rfl

@[simp] theorem opcodeOf_slti (rd : Reg) (rs1 : Reg) (imm : BitVec 12) :
    opcodeOf (.slti rd rs1 imm) = 0b0010011#7 := by
  change BitVec.extractLsb' 0 7 (encI rd rs1 imm 0b010#3 0b0010011#7) = _
  rw [low_encI _ _ _ _ _ 7 (by decide)]; rfl

@[simp] theorem opcodeOf_sltiu (rd : Reg) (rs1 : Reg) (imm : BitVec 12) :
    opcodeOf (.sltiu rd rs1 imm) = 0b0010011#7 := by
  change BitVec.extractLsb' 0 7 (encI rd rs1 imm 0b011#3 0b0010011#7) = _
  rw [low_encI _ _ _ _ _ 7 (by decide)]; rfl

@[simp] theorem opcodeOf_xori (rd : Reg) (rs1 : Reg) (imm : BitVec 12) :
    opcodeOf (.xori rd rs1 imm) = 0b0010011#7 := by
  change BitVec.extractLsb' 0 7 (encI rd rs1 imm 0b100#3 0b0010011#7) = _
  rw [low_encI _ _ _ _ _ 7 (by decide)]; rfl

@[simp] theorem opcodeOf_srli (rd : Reg) (rs1 : Reg) (shamt : BitVec 6) :
    opcodeOf (.srli rd rs1 shamt) = 0b0010011#7 := by
  change BitVec.extractLsb' 0 7 (encShift rd rs1 0b000000#6 shamt 0b101#3 0b0010011#7) = _
  rw [low_encShift _ _ _ _ _ _ 7 (by decide)]; rfl

@[simp] theorem opcodeOf_srai (rd : Reg) (rs1 : Reg) (shamt : BitVec 6) :
    opcodeOf (.srai rd rs1 shamt) = 0b0010011#7 := by
  change BitVec.extractLsb' 0 7 (encShift rd rs1 0b000001#6 shamt 0b101#3 0b0010011#7) = _
  rw [low_encShift _ _ _ _ _ _ 7 (by decide)]; rfl

@[simp] theorem opcodeOf_ori (rd : Reg) (rs1 : Reg) (imm : BitVec 12) :
    opcodeOf (.ori rd rs1 imm) = 0b0010011#7 := by
  change BitVec.extractLsb' 0 7 (encI rd rs1 imm 0b110#3 0b0010011#7) = _
  rw [low_encI _ _ _ _ _ 7 (by decide)]; rfl

@[simp] theorem opcodeOf_andi (rd : Reg) (rs1 : Reg) (imm : BitVec 12) :
    opcodeOf (.andi rd rs1 imm) = 0b0010011#7 := by
  change BitVec.extractLsb' 0 7 (encI rd rs1 imm 0b111#3 0b0010011#7) = _
  rw [low_encI _ _ _ _ _ 7 (by decide)]; rfl

@[simp] theorem opcodeOf_add (rd : Reg) (rs1 : Reg) (rs2 : Reg) :
    opcodeOf (.add rd rs1 rs2) = 0b0110011#7 := by
  change BitVec.extractLsb' 0 7 (encR rd rs1 rs2 0b0000000#7 0b000#3 0b0110011#7) = _
  rw [low_encR _ _ _ _ _ _ 7 (by decide)]; rfl

@[simp] theorem opcodeOf_sub (rd : Reg) (rs1 : Reg) (rs2 : Reg) :
    opcodeOf (.sub rd rs1 rs2) = 0b0110011#7 := by
  change BitVec.extractLsb' 0 7 (encR rd rs1 rs2 0b1000000#7 0b000#3 0b0110011#7) = _
  rw [low_encR _ _ _ _ _ _ 7 (by decide)]; rfl

@[simp] theorem opcodeOf_sll (rd : Reg) (rs1 : Reg) (rs2 : Reg) :
    opcodeOf (.sll rd rs1 rs2) = 0b0110011#7 := by
  change BitVec.extractLsb' 0 7 (encR rd rs1 rs2 0b0000000#7 0b001#3 0b0110011#7) = _
  rw [low_encR _ _ _ _ _ _ 7 (by decide)]; rfl

@[simp] theorem opcodeOf_slt (rd : Reg) (rs1 : Reg) (rs2 : Reg) :
    opcodeOf (.slt rd rs1 rs2) = 0b0110011#7 := by
  change BitVec.extractLsb' 0 7 (encR rd rs1 rs2 0b0000000#7 0b010#3 0b0110011#7) = _
  rw [low_encR _ _ _ _ _ _ 7 (by decide)]; rfl

@[simp] theorem opcodeOf_sltu (rd : Reg) (rs1 : Reg) (rs2 : Reg) :
    opcodeOf (.sltu rd rs1 rs2) = 0b0110011#7 := by
  change BitVec.extractLsb' 0 7 (encR rd rs1 rs2 0b0000000#7 0b011#3 0b0110011#7) = _
  rw [low_encR _ _ _ _ _ _ 7 (by decide)]; rfl

@[simp] theorem opcodeOf_xor (rd : Reg) (rs1 : Reg) (rs2 : Reg) :
    opcodeOf (.xor rd rs1 rs2) = 0b0110011#7 := by
  change BitVec.extractLsb' 0 7 (encR rd rs1 rs2 0b0000000#7 0b100#3 0b0110011#7) = _
  rw [low_encR _ _ _ _ _ _ 7 (by decide)]; rfl

@[simp] theorem opcodeOf_srl (rd : Reg) (rs1 : Reg) (rs2 : Reg) :
    opcodeOf (.srl rd rs1 rs2) = 0b0110011#7 := by
  change BitVec.extractLsb' 0 7 (encR rd rs1 rs2 0b0000000#7 0b101#3 0b0110011#7) = _
  rw [low_encR _ _ _ _ _ _ 7 (by decide)]; rfl

@[simp] theorem opcodeOf_sra (rd : Reg) (rs1 : Reg) (rs2 : Reg) :
    opcodeOf (.sra rd rs1 rs2) = 0b0110011#7 := by
  change BitVec.extractLsb' 0 7 (encR rd rs1 rs2 0b1000000#7 0b101#3 0b0110011#7) = _
  rw [low_encR _ _ _ _ _ _ 7 (by decide)]; rfl

@[simp] theorem opcodeOf_or (rd : Reg) (rs1 : Reg) (rs2 : Reg) :
    opcodeOf (.or rd rs1 rs2) = 0b0110011#7 := by
  change BitVec.extractLsb' 0 7 (encR rd rs1 rs2 0b0000000#7 0b110#3 0b0110011#7) = _
  rw [low_encR _ _ _ _ _ _ 7 (by decide)]; rfl

@[simp] theorem opcodeOf_and (rd : Reg) (rs1 : Reg) (rs2 : Reg) :
    opcodeOf (.and rd rs1 rs2) = 0b0110011#7 := by
  change BitVec.extractLsb' 0 7 (encR rd rs1 rs2 0b0000000#7 0b111#3 0b0110011#7) = _
  rw [low_encR _ _ _ _ _ _ 7 (by decide)]; rfl

@[simp] theorem opcodeOf_mul (rd : Reg) (rs1 : Reg) (rs2 : Reg) :
    opcodeOf (.mul rd rs1 rs2) = 0b0110011#7 := by
  change BitVec.extractLsb' 0 7 (encR rd rs1 rs2 0b0000001#7 0b000#3 0b0110011#7) = _
  rw [low_encR _ _ _ _ _ _ 7 (by decide)]; rfl

@[simp] theorem opcodeOf_mulh (rd : Reg) (rs1 : Reg) (rs2 : Reg) :
    opcodeOf (.mulh rd rs1 rs2) = 0b0110011#7 := by
  change BitVec.extractLsb' 0 7 (encR rd rs1 rs2 0b0000001#7 0b001#3 0b0110011#7) = _
  rw [low_encR _ _ _ _ _ _ 7 (by decide)]; rfl

@[simp] theorem opcodeOf_mulhsu (rd : Reg) (rs1 : Reg) (rs2 : Reg) :
    opcodeOf (.mulhsu rd rs1 rs2) = 0b0110011#7 := by
  change BitVec.extractLsb' 0 7 (encR rd rs1 rs2 0b0000001#7 0b010#3 0b0110011#7) = _
  rw [low_encR _ _ _ _ _ _ 7 (by decide)]; rfl

@[simp] theorem opcodeOf_mulhu (rd : Reg) (rs1 : Reg) (rs2 : Reg) :
    opcodeOf (.mulhu rd rs1 rs2) = 0b0110011#7 := by
  change BitVec.extractLsb' 0 7 (encR rd rs1 rs2 0b0000001#7 0b011#3 0b0110011#7) = _
  rw [low_encR _ _ _ _ _ _ 7 (by decide)]; rfl

@[simp] theorem opcodeOf_div (rd : Reg) (rs1 : Reg) (rs2 : Reg) :
    opcodeOf (.div rd rs1 rs2) = 0b0110011#7 := by
  change BitVec.extractLsb' 0 7 (encR rd rs1 rs2 0b0000001#7 0b100#3 0b0110011#7) = _
  rw [low_encR _ _ _ _ _ _ 7 (by decide)]; rfl

@[simp] theorem opcodeOf_divu (rd : Reg) (rs1 : Reg) (rs2 : Reg) :
    opcodeOf (.divu rd rs1 rs2) = 0b0110011#7 := by
  change BitVec.extractLsb' 0 7 (encR rd rs1 rs2 0b0000001#7 0b101#3 0b0110011#7) = _
  rw [low_encR _ _ _ _ _ _ 7 (by decide)]; rfl

@[simp] theorem opcodeOf_rem (rd : Reg) (rs1 : Reg) (rs2 : Reg) :
    opcodeOf (.rem rd rs1 rs2) = 0b0110011#7 := by
  change BitVec.extractLsb' 0 7 (encR rd rs1 rs2 0b0000001#7 0b110#3 0b0110011#7) = _
  rw [low_encR _ _ _ _ _ _ 7 (by decide)]; rfl

@[simp] theorem opcodeOf_remu (rd : Reg) (rs1 : Reg) (rs2 : Reg) :
    opcodeOf (.remu rd rs1 rs2) = 0b0110011#7 := by
  change BitVec.extractLsb' 0 7 (encR rd rs1 rs2 0b0000001#7 0b111#3 0b0110011#7) = _
  rw [low_encR _ _ _ _ _ _ 7 (by decide)]; rfl

@[simp] theorem opcodeOf_lui (rd : Reg) (imm : BitVec 20) :
    opcodeOf (.lui rd imm) = 0b0110111#7 := by
  change BitVec.extractLsb' 0 7 (encL rd imm 0b0110111#7) = _
  rw [low_encL _ _ _ 7 (by decide)]; rfl

@[simp] theorem opcodeOf_addiw (rd : Reg) (rs1 : Reg) (imm : BitVec 12) :
    opcodeOf (.addiw rd rs1 imm) = 0b0011011#7 := by
  change BitVec.extractLsb' 0 7 (encI rd rs1 imm 0b000#3 0b0011011#7) = _
  rw [low_encI _ _ _ _ _ 7 (by decide)]; rfl

@[simp] theorem opcodeOf_slliw (rd : Reg) (rs1 : Reg) (shamt : BitVec 5) :
    opcodeOf (.slliw rd rs1 shamt) = 0b0011011#7 := by
  change BitVec.extractLsb' 0 7 (encShiftW rd rs1 0b0000000#7 shamt 0b001#3 0b0011011#7) = _
  rw [low_encShiftW _ _ _ _ _ _ 7 (by decide)]; rfl

@[simp] theorem opcodeOf_srliw (rd : Reg) (rs1 : Reg) (shamt : BitVec 5) :
    opcodeOf (.srliw rd rs1 shamt) = 0b0011011#7 := by
  change BitVec.extractLsb' 0 7 (encShiftW rd rs1 0b0000000#7 shamt 0b101#3 0b0011011#7) = _
  rw [low_encShiftW _ _ _ _ _ _ 7 (by decide)]; rfl

@[simp] theorem opcodeOf_sraiw (rd : Reg) (rs1 : Reg) (shamt : BitVec 5) :
    opcodeOf (.sraiw rd rs1 shamt) = 0b0011011#7 := by
  change BitVec.extractLsb' 0 7 (encShiftW rd rs1 0b0000010#7 shamt 0b101#3 0b0011011#7) = _
  rw [low_encShiftW _ _ _ _ _ _ 7 (by decide)]; rfl

@[simp] theorem opcodeOf_addw (rd : Reg) (rs1 : Reg) (rs2 : Reg) :
    opcodeOf (.addw rd rs1 rs2) = 0b0111011#7 := by
  change BitVec.extractLsb' 0 7 (encR rd rs1 rs2 0b0000000#7 0b000#3 0b0111011#7) = _
  rw [low_encR _ _ _ _ _ _ 7 (by decide)]; rfl

@[simp] theorem opcodeOf_subw (rd : Reg) (rs1 : Reg) (rs2 : Reg) :
    opcodeOf (.subw rd rs1 rs2) = 0b0111011#7 := by
  change BitVec.extractLsb' 0 7 (encR rd rs1 rs2 0b1000000#7 0b000#3 0b0111011#7) = _
  rw [low_encR _ _ _ _ _ _ 7 (by decide)]; rfl

@[simp] theorem opcodeOf_sllw (rd : Reg) (rs1 : Reg) (rs2 : Reg) :
    opcodeOf (.sllw rd rs1 rs2) = 0b0111011#7 := by
  change BitVec.extractLsb' 0 7 (encR rd rs1 rs2 0b0000000#7 0b001#3 0b0111011#7) = _
  rw [low_encR _ _ _ _ _ _ 7 (by decide)]; rfl

@[simp] theorem opcodeOf_srlw (rd : Reg) (rs1 : Reg) (rs2 : Reg) :
    opcodeOf (.srlw rd rs1 rs2) = 0b0111011#7 := by
  change BitVec.extractLsb' 0 7 (encR rd rs1 rs2 0b0000000#7 0b101#3 0b0111011#7) = _
  rw [low_encR _ _ _ _ _ _ 7 (by decide)]; rfl

@[simp] theorem opcodeOf_sraw (rd : Reg) (rs1 : Reg) (rs2 : Reg) :
    opcodeOf (.sraw rd rs1 rs2) = 0b0111011#7 := by
  change BitVec.extractLsb' 0 7 (encR rd rs1 rs2 0b1000000#7 0b101#3 0b0111011#7) = _
  rw [low_encR _ _ _ _ _ _ 7 (by decide)]; rfl

@[simp] theorem opcodeOf_mulw (rd : Reg) (rs1 : Reg) (rs2 : Reg) :
    opcodeOf (.mulw rd rs1 rs2) = 0b0111011#7 := by
  change BitVec.extractLsb' 0 7 (encR rd rs1 rs2 0b0000001#7 0b000#3 0b0111011#7) = _
  rw [low_encR _ _ _ _ _ _ 7 (by decide)]; rfl

@[simp] theorem opcodeOf_divw (rd : Reg) (rs1 : Reg) (rs2 : Reg) :
    opcodeOf (.divw rd rs1 rs2) = 0b0111011#7 := by
  change BitVec.extractLsb' 0 7 (encR rd rs1 rs2 0b0000001#7 0b100#3 0b0111011#7) = _
  rw [low_encR _ _ _ _ _ _ 7 (by decide)]; rfl

@[simp] theorem opcodeOf_divuw (rd : Reg) (rs1 : Reg) (rs2 : Reg) :
    opcodeOf (.divuw rd rs1 rs2) = 0b0111011#7 := by
  change BitVec.extractLsb' 0 7 (encR rd rs1 rs2 0b0000001#7 0b101#3 0b0111011#7) = _
  rw [low_encR _ _ _ _ _ _ 7 (by decide)]; rfl

@[simp] theorem opcodeOf_remw (rd : Reg) (rs1 : Reg) (rs2 : Reg) :
    opcodeOf (.remw rd rs1 rs2) = 0b0111011#7 := by
  change BitVec.extractLsb' 0 7 (encR rd rs1 rs2 0b0000001#7 0b110#3 0b0111011#7) = _
  rw [low_encR _ _ _ _ _ _ 7 (by decide)]; rfl

@[simp] theorem opcodeOf_remuw (rd : Reg) (rs1 : Reg) (rs2 : Reg) :
    opcodeOf (.remuw rd rs1 rs2) = 0b0111011#7 := by
  change BitVec.extractLsb' 0 7 (encR rd rs1 rs2 0b0000001#7 0b111#3 0b0111011#7) = _
  rw [low_encR _ _ _ _ _ _ 7 (by decide)]; rfl

@[simp] theorem opcodeOf_flw (rd : Reg) (rs1 : Reg) (imm : BitVec 12) :
    opcodeOf (.flw rd rs1 imm) = 0b0000111#7 := by
  change BitVec.extractLsb' 0 7 (encI rd rs1 imm 0b010#3 0b0000111#7) = _
  rw [low_encI _ _ _ _ _ 7 (by decide)]; rfl

@[simp] theorem opcodeOf_fld (rd : Reg) (rs1 : Reg) (imm : BitVec 12) :
    opcodeOf (.fld rd rs1 imm) = 0b0000111#7 := by
  change BitVec.extractLsb' 0 7 (encI rd rs1 imm 0b011#3 0b0000111#7) = _
  rw [low_encI _ _ _ _ _ 7 (by decide)]; rfl

@[simp] theorem opcodeOf_fsw (rs1 : Reg) (rs2 : Reg) (imm : BitVec 12) :
    opcodeOf (.fsw rs1 rs2 imm) = 0b0100111#7 := by
  change BitVec.extractLsb' 0 7 (encB rs1 rs2 imm 0b010#3 0b0100111#7) = _
  rw [encB_eq, low_encR _ _ _ _ _ _ 7 (by decide)]; rfl

@[simp] theorem opcodeOf_fsd (rs1 : Reg) (rs2 : Reg) (imm : BitVec 12) :
    opcodeOf (.fsd rs1 rs2 imm) = 0b0100111#7 := by
  change BitVec.extractLsb' 0 7 (encB rs1 rs2 imm 0b011#3 0b0100111#7) = _
  rw [encB_eq, low_encR _ _ _ _ _ _ 7 (by decide)]; rfl

@[simp] theorem opcodeOf_faddS (rd : Reg) (rs1 : Reg) (rs2 : Reg) (rm : BitVec 3) :
    opcodeOf (.faddS rd rs1 rs2 rm) = 0b1010011#7 := by
  change BitVec.extractLsb' 0 7 (encFp rd rs1 rs2 0b00000#5 rm 0b00#2 0b1010011#7) = _
  rw [encFp_eq, low_encR4 _ _ _ _ _ _ _ 7 (by decide)]; rfl

@[simp] theorem opcodeOf_fsubS (rd : Reg) (rs1 : Reg) (rs2 : Reg) (rm : BitVec 3) :
    opcodeOf (.fsubS rd rs1 rs2 rm) = 0b1010011#7 := by
  change BitVec.extractLsb' 0 7 (encFp rd rs1 rs2 0b00001#5 rm 0b00#2 0b1010011#7) = _
  rw [encFp_eq, low_encR4 _ _ _ _ _ _ _ 7 (by decide)]; rfl

@[simp] theorem opcodeOf_fmulS (rd : Reg) (rs1 : Reg) (rs2 : Reg) (rm : BitVec 3) :
    opcodeOf (.fmulS rd rs1 rs2 rm) = 0b1010011#7 := by
  change BitVec.extractLsb' 0 7 (encFp rd rs1 rs2 0b00010#5 rm 0b00#2 0b1010011#7) = _
  rw [encFp_eq, low_encR4 _ _ _ _ _ _ _ 7 (by decide)]; rfl

@[simp] theorem opcodeOf_fdivS (rd : Reg) (rs1 : Reg) (rs2 : Reg) (rm : BitVec 3) :
    opcodeOf (.fdivS rd rs1 rs2 rm) = 0b1010011#7 := by
  change BitVec.extractLsb' 0 7 (encFp rd rs1 rs2 0b00011#5 rm 0b00#2 0b1010011#7) = _
  rw [encFp_eq, low_encR4 _ _ _ _ _ _ _ 7 (by decide)]; rfl

@[simp] theorem opcodeOf_fsqrtS (rd : Reg) (rs1 : Reg) (rm : BitVec 3) :
    opcodeOf (.fsqrtS rd rs1 rm) = 0b1010011#7 := by
  change BitVec.extractLsb' 0 7 (encFp rd rs1 0b00000#5 0b00100#5 rm 0b00#2 0b1010011#7) = _
  rw [encFp_eq, low_encR4 _ _ _ _ _ _ _ 7 (by decide)]; rfl

@[simp] theorem opcodeOf_fminS (rd : Reg) (rs1 : Reg) (rs2 : Reg) :
    opcodeOf (.fminS rd rs1 rs2) = 0b1010011#7 := by
  change BitVec.extractLsb' 0 7 (encFp rd rs1 rs2 0b11000#5 0b000#3 0b00#2 0b1010011#7) = _
  rw [encFp_eq, low_encR4 _ _ _ _ _ _ _ 7 (by decide)]; rfl

@[simp] theorem opcodeOf_fmaxS (rd : Reg) (rs1 : Reg) (rs2 : Reg) :
    opcodeOf (.fmaxS rd rs1 rs2) = 0b1010011#7 := by
  change BitVec.extractLsb' 0 7 (encFp rd rs1 rs2 0b11001#5 0b000#3 0b00#2 0b1010011#7) = _
  rw [encFp_eq, low_encR4 _ _ _ _ _ _ _ 7 (by decide)]; rfl

@[simp] theorem opcodeOf_faddD (rd : Reg) (rs1 : Reg) (rs2 : Reg) (rm : BitVec 3) :
    opcodeOf (.faddD rd rs1 rs2 rm) = 0b1010011#7 := by
  change BitVec.extractLsb' 0 7 (encFp rd rs1 rs2 0b00000#5 rm 0b01#2 0b1010011#7) = _
  rw [encFp_eq, low_encR4 _ _ _ _ _ _ _ 7 (by decide)]; rfl

@[simp] theorem opcodeOf_fsubD (rd : Reg) (rs1 : Reg) (rs2 : Reg) (rm : BitVec 3) :
    opcodeOf (.fsubD rd rs1 rs2 rm) = 0b1010011#7 := by
  change BitVec.extractLsb' 0 7 (encFp rd rs1 rs2 0b00001#5 rm 0b01#2 0b1010011#7) = _
  rw [encFp_eq, low_encR4 _ _ _ _ _ _ _ 7 (by decide)]; rfl

@[simp] theorem opcodeOf_fmulD (rd : Reg) (rs1 : Reg) (rs2 : Reg) (rm : BitVec 3) :
    opcodeOf (.fmulD rd rs1 rs2 rm) = 0b1010011#7 := by
  change BitVec.extractLsb' 0 7 (encFp rd rs1 rs2 0b00010#5 rm 0b01#2 0b1010011#7) = _
  rw [encFp_eq, low_encR4 _ _ _ _ _ _ _ 7 (by decide)]; rfl

@[simp] theorem opcodeOf_fdivD (rd : Reg) (rs1 : Reg) (rs2 : Reg) (rm : BitVec 3) :
    opcodeOf (.fdivD rd rs1 rs2 rm) = 0b1010011#7 := by
  change BitVec.extractLsb' 0 7 (encFp rd rs1 rs2 0b00011#5 rm 0b01#2 0b1010011#7) = _
  rw [encFp_eq, low_encR4 _ _ _ _ _ _ _ 7 (by decide)]; rfl

@[simp] theorem opcodeOf_fsqrtD (rd : Reg) (rs1 : Reg) (rm : BitVec 3) :
    opcodeOf (.fsqrtD rd rs1 rm) = 0b1010011#7 := by
  change BitVec.extractLsb' 0 7 (encFp rd rs1 0b00000#5 0b00100#5 rm 0b01#2 0b1010011#7) = _
  rw [encFp_eq, low_encR4 _ _ _ _ _ _ _ 7 (by decide)]; rfl

@[simp] theorem opcodeOf_fminD (rd : Reg) (rs1 : Reg) (rs2 : Reg) :
    opcodeOf (.fminD rd rs1 rs2) = 0b1010011#7 := by
  change BitVec.extractLsb' 0 7 (encFp rd rs1 rs2 0b11000#5 0b000#3 0b01#2 0b1010011#7) = _
  rw [encFp_eq, low_encR4 _ _ _ _ _ _ _ 7 (by decide)]; rfl

@[simp] theorem opcodeOf_fmaxD (rd : Reg) (rs1 : Reg) (rs2 : Reg) :
    opcodeOf (.fmaxD rd rs1 rs2) = 0b1010011#7 := by
  change BitVec.extractLsb' 0 7 (encFp rd rs1 rs2 0b11001#5 0b000#3 0b01#2 0b1010011#7) = _
  rw [encFp_eq, low_encR4 _ _ _ _ _ _ _ 7 (by decide)]; rfl

@[simp] theorem opcodeOf_fmaddS (rd : Reg) (rs1 : Reg) (rs2 : Reg) (rs3 : Reg) (rm : BitVec 3) :
    opcodeOf (.fmaddS rd rs1 rs2 rs3 rm) = 0b1000011#7 := by
  change BitVec.extractLsb' 0 7 (encR4 rd rs1 rs2 rs3 rm 0b00#2 0b1000011#7) = _
  rw [low_encR4 _ _ _ _ _ _ _ 7 (by decide)]; rfl

@[simp] theorem opcodeOf_fmsubS (rd : Reg) (rs1 : Reg) (rs2 : Reg) (rs3 : Reg) (rm : BitVec 3) :
    opcodeOf (.fmsubS rd rs1 rs2 rs3 rm) = 0b1000111#7 := by
  change BitVec.extractLsb' 0 7 (encR4 rd rs1 rs2 rs3 rm 0b00#2 0b1000111#7) = _
  rw [low_encR4 _ _ _ _ _ _ _ 7 (by decide)]; rfl

@[simp] theorem opcodeOf_fnmsubS (rd : Reg) (rs1 : Reg) (rs2 : Reg) (rs3 : Reg) (rm : BitVec 3) :
    opcodeOf (.fnmsubS rd rs1 rs2 rs3 rm) = 0b1001011#7 := by
  change BitVec.extractLsb' 0 7 (encR4 rd rs1 rs2 rs3 rm 0b00#2 0b1001011#7) = _
  rw [low_encR4 _ _ _ _ _ _ _ 7 (by decide)]; rfl

@[simp] theorem opcodeOf_fnmaddS (rd : Reg) (rs1 : Reg) (rs2 : Reg) (rs3 : Reg) (rm : BitVec 3) :
    opcodeOf (.fnmaddS rd rs1 rs2 rs3 rm) = 0b1001111#7 := by
  change BitVec.extractLsb' 0 7 (encR4 rd rs1 rs2 rs3 rm 0b00#2 0b1001111#7) = _
  rw [low_encR4 _ _ _ _ _ _ _ 7 (by decide)]; rfl

@[simp] theorem opcodeOf_fmaddD (rd : Reg) (rs1 : Reg) (rs2 : Reg) (rs3 : Reg) (rm : BitVec 3) :
    opcodeOf (.fmaddD rd rs1 rs2 rs3 rm) = 0b1000011#7 := by
  change BitVec.extractLsb' 0 7 (encR4 rd rs1 rs2 rs3 rm 0b01#2 0b1000011#7) = _
  rw [low_encR4 _ _ _ _ _ _ _ 7 (by decide)]; rfl

@[simp] theorem opcodeOf_fmsubD (rd : Reg) (rs1 : Reg) (rs2 : Reg) (rs3 : Reg) (rm : BitVec 3) :
    opcodeOf (.fmsubD rd rs1 rs2 rs3 rm) = 0b1000111#7 := by
  change BitVec.extractLsb' 0 7 (encR4 rd rs1 rs2 rs3 rm 0b01#2 0b1000111#7) = _
  rw [low_encR4 _ _ _ _ _ _ _ 7 (by decide)]; rfl

@[simp] theorem opcodeOf_fnmsubD (rd : Reg) (rs1 : Reg) (rs2 : Reg) (rs3 : Reg) (rm : BitVec 3) :
    opcodeOf (.fnmsubD rd rs1 rs2 rs3 rm) = 0b1001011#7 := by
  change BitVec.extractLsb' 0 7 (encR4 rd rs1 rs2 rs3 rm 0b01#2 0b1001011#7) = _
  rw [low_encR4 _ _ _ _ _ _ _ 7 (by decide)]; rfl

@[simp] theorem opcodeOf_fnmaddD (rd : Reg) (rs1 : Reg) (rs2 : Reg) (rs3 : Reg) (rm : BitVec 3) :
    opcodeOf (.fnmaddD rd rs1 rs2 rs3 rm) = 0b1001111#7 := by
  change BitVec.extractLsb' 0 7 (encR4 rd rs1 rs2 rs3 rm 0b01#2 0b1001111#7) = _
  rw [low_encR4 _ _ _ _ _ _ _ 7 (by decide)]; rfl

@[simp] theorem opcodeOf_fsgnjS (rd : Reg) (rs1 : Reg) (rs2 : Reg) :
    opcodeOf (.fsgnjS rd rs1 rs2) = 0b1010011#7 := by
  change BitVec.extractLsb' 0 7 (encFp rd rs1 rs2 0b00101#5 0b000#3 0b00#2 0b1010011#7) = _
  rw [encFp_eq, low_encR4 _ _ _ _ _ _ _ 7 (by decide)]; rfl

@[simp] theorem opcodeOf_fsgnjnS (rd : Reg) (rs1 : Reg) (rs2 : Reg) :
    opcodeOf (.fsgnjnS rd rs1 rs2) = 0b1010011#7 := by
  change BitVec.extractLsb' 0 7 (encFp rd rs1 rs2 0b00110#5 0b000#3 0b00#2 0b1010011#7) = _
  rw [encFp_eq, low_encR4 _ _ _ _ _ _ _ 7 (by decide)]; rfl

@[simp] theorem opcodeOf_fsgnjxS (rd : Reg) (rs1 : Reg) (rs2 : Reg) :
    opcodeOf (.fsgnjxS rd rs1 rs2) = 0b1010011#7 := by
  change BitVec.extractLsb' 0 7 (encFp rd rs1 rs2 0b00111#5 0b000#3 0b00#2 0b1010011#7) = _
  rw [encFp_eq, low_encR4 _ _ _ _ _ _ _ 7 (by decide)]; rfl

@[simp] theorem opcodeOf_fsgnjD (rd : Reg) (rs1 : Reg) (rs2 : Reg) :
    opcodeOf (.fsgnjD rd rs1 rs2) = 0b1010011#7 := by
  change BitVec.extractLsb' 0 7 (encFp rd rs1 rs2 0b00101#5 0b000#3 0b01#2 0b1010011#7) = _
  rw [encFp_eq, low_encR4 _ _ _ _ _ _ _ 7 (by decide)]; rfl

@[simp] theorem opcodeOf_fsgnjnD (rd : Reg) (rs1 : Reg) (rs2 : Reg) :
    opcodeOf (.fsgnjnD rd rs1 rs2) = 0b1010011#7 := by
  change BitVec.extractLsb' 0 7 (encFp rd rs1 rs2 0b00110#5 0b000#3 0b01#2 0b1010011#7) = _
  rw [encFp_eq, low_encR4 _ _ _ _ _ _ _ 7 (by decide)]; rfl

@[simp] theorem opcodeOf_fsgnjxD (rd : Reg) (rs1 : Reg) (rs2 : Reg) :
    opcodeOf (.fsgnjxD rd rs1 rs2) = 0b1010011#7 := by
  change BitVec.extractLsb' 0 7 (encFp rd rs1 rs2 0b00111#5 0b000#3 0b01#2 0b1010011#7) = _
  rw [encFp_eq, low_encR4 _ _ _ _ _ _ _ 7 (by decide)]; rfl

@[simp] theorem opcodeOf_fcvtSD (rd : Reg) (rs1 : Reg) (rm : BitVec 3) :
    opcodeOf (.fcvtSD rd rs1 rm) = 0b1010011#7 := by
  change BitVec.extractLsb' 0 7 (encFp rd rs1 0b00000#5 0b10001#5 rm 0b00#2 0b1010011#7) = _
  rw [encFp_eq, low_encR4 _ _ _ _ _ _ _ 7 (by decide)]; rfl

@[simp] theorem opcodeOf_fcvtDS (rd : Reg) (rs1 : Reg) (rm : BitVec 3) :
    opcodeOf (.fcvtDS rd rs1 rm) = 0b1010011#7 := by
  change BitVec.extractLsb' 0 7 (encFp rd rs1 0b00000#5 0b10000#5 rm 0b01#2 0b1010011#7) = _
  rw [encFp_eq, low_encR4 _ _ _ _ _ _ _ 7 (by decide)]; rfl

@[simp] theorem opcodeOf_fcvtSL (rd : Reg) (rs1 : Reg) (rm : BitVec 3) :
    opcodeOf (.fcvtSL rd rs1 rm) = 0b1010011#7 := by
  change BitVec.extractLsb' 0 7 (encFp rd rs1 0b00000#5 0b01100#5 rm 0b00#2 0b1010011#7) = _
  rw [encFp_eq, low_encR4 _ _ _ _ _ _ _ 7 (by decide)]; rfl

@[simp] theorem opcodeOf_fcvtSLU (rd : Reg) (rs1 : Reg) (rm : BitVec 3) :
    opcodeOf (.fcvtSLU rd rs1 rm) = 0b1010011#7 := by
  change BitVec.extractLsb' 0 7 (encFp rd rs1 0b00000#5 0b01101#5 rm 0b00#2 0b1010011#7) = _
  rw [encFp_eq, low_encR4 _ _ _ _ _ _ _ 7 (by decide)]; rfl

@[simp] theorem opcodeOf_fcvtSW (rd : Reg) (rs1 : Reg) (rm : BitVec 3) :
    opcodeOf (.fcvtSW rd rs1 rm) = 0b1010011#7 := by
  change BitVec.extractLsb' 0 7 (encFp rd rs1 0b00000#5 0b01110#5 rm 0b00#2 0b1010011#7) = _
  rw [encFp_eq, low_encR4 _ _ _ _ _ _ _ 7 (by decide)]; rfl

@[simp] theorem opcodeOf_fcvtSWU (rd : Reg) (rs1 : Reg) (rm : BitVec 3) :
    opcodeOf (.fcvtSWU rd rs1 rm) = 0b1010011#7 := by
  change BitVec.extractLsb' 0 7 (encFp rd rs1 0b00000#5 0b01111#5 rm 0b00#2 0b1010011#7) = _
  rw [encFp_eq, low_encR4 _ _ _ _ _ _ _ 7 (by decide)]; rfl

@[simp] theorem opcodeOf_fcvtDL (rd : Reg) (rs1 : Reg) (rm : BitVec 3) :
    opcodeOf (.fcvtDL rd rs1 rm) = 0b1010011#7 := by
  change BitVec.extractLsb' 0 7 (encFp rd rs1 0b00000#5 0b01100#5 rm 0b01#2 0b1010011#7) = _
  rw [encFp_eq, low_encR4 _ _ _ _ _ _ _ 7 (by decide)]; rfl

@[simp] theorem opcodeOf_fcvtDLU (rd : Reg) (rs1 : Reg) (rm : BitVec 3) :
    opcodeOf (.fcvtDLU rd rs1 rm) = 0b1010011#7 := by
  change BitVec.extractLsb' 0 7 (encFp rd rs1 0b00000#5 0b01101#5 rm 0b01#2 0b1010011#7) = _
  rw [encFp_eq, low_encR4 _ _ _ _ _ _ _ 7 (by decide)]; rfl

@[simp] theorem opcodeOf_fcvtDW (rd : Reg) (rs1 : Reg) (rm : BitVec 3) :
    opcodeOf (.fcvtDW rd rs1 rm) = 0b1010011#7 := by
  change BitVec.extractLsb' 0 7 (encFp rd rs1 0b00000#5 0b01110#5 rm 0b01#2 0b1010011#7) = _
  rw [encFp_eq, low_encR4 _ _ _ _ _ _ _ 7 (by decide)]; rfl

@[simp] theorem opcodeOf_fcvtDWU (rd : Reg) (rs1 : Reg) (rm : BitVec 3) :
    opcodeOf (.fcvtDWU rd rs1 rm) = 0b1010011#7 := by
  change BitVec.extractLsb' 0 7 (encFp rd rs1 0b00000#5 0b01111#5 rm 0b01#2 0b1010011#7) = _
  rw [encFp_eq, low_encR4 _ _ _ _ _ _ _ 7 (by decide)]; rfl

@[simp] theorem opcodeOf_mxtfS (rd : Reg) (rs1 : Reg) :
    opcodeOf (.mxtfS rd rs1) = 0b1010011#7 := by
  change BitVec.extractLsb' 0 7 (encFp rd rs1 0b00000#5 0b11110#5 0b000#3 0b00#2 0b1010011#7) = _
  rw [encFp_eq, low_encR4 _ _ _ _ _ _ _ 7 (by decide)]; rfl

@[simp] theorem opcodeOf_mxtfD (rd : Reg) (rs1 : Reg) :
    opcodeOf (.mxtfD rd rs1) = 0b1010011#7 := by
  change BitVec.extractLsb' 0 7 (encFp rd rs1 0b00000#5 0b11110#5 0b000#3 0b01#2 0b1010011#7) = _
  rw [encFp_eq, low_encR4 _ _ _ _ _ _ _ 7 (by decide)]; rfl

@[simp] theorem opcodeOf_mtfsr (rd : Reg) (rs1 : Reg) :
    opcodeOf (.mtfsr rd rs1) = 0b1010011#7 := by
  change BitVec.extractLsb' 0 7 (encFp rd rs1 0b00000#5 0b11111#5 0b000#3 0b00#2 0b1010011#7) = _
  rw [encFp_eq, low_encR4 _ _ _ _ _ _ _ 7 (by decide)]; rfl

@[simp] theorem opcodeOf_fcvtLS (rd : Reg) (rs1 : Reg) (rm : BitVec 3) :
    opcodeOf (.fcvtLS rd rs1 rm) = 0b1010011#7 := by
  change BitVec.extractLsb' 0 7 (encFp rd rs1 0b00000#5 0b01000#5 rm 0b00#2 0b1010011#7) = _
  rw [encFp_eq, low_encR4 _ _ _ _ _ _ _ 7 (by decide)]; rfl

@[simp] theorem opcodeOf_fcvtLUS (rd : Reg) (rs1 : Reg) (rm : BitVec 3) :
    opcodeOf (.fcvtLUS rd rs1 rm) = 0b1010011#7 := by
  change BitVec.extractLsb' 0 7 (encFp rd rs1 0b00000#5 0b01001#5 rm 0b00#2 0b1010011#7) = _
  rw [encFp_eq, low_encR4 _ _ _ _ _ _ _ 7 (by decide)]; rfl

@[simp] theorem opcodeOf_fcvtWS (rd : Reg) (rs1 : Reg) (rm : BitVec 3) :
    opcodeOf (.fcvtWS rd rs1 rm) = 0b1010011#7 := by
  change BitVec.extractLsb' 0 7 (encFp rd rs1 0b00000#5 0b01010#5 rm 0b00#2 0b1010011#7) = _
  rw [encFp_eq, low_encR4 _ _ _ _ _ _ _ 7 (by decide)]; rfl

@[simp] theorem opcodeOf_fcvtWUS (rd : Reg) (rs1 : Reg) (rm : BitVec 3) :
    opcodeOf (.fcvtWUS rd rs1 rm) = 0b1010011#7 := by
  change BitVec.extractLsb' 0 7 (encFp rd rs1 0b00000#5 0b01011#5 rm 0b00#2 0b1010011#7) = _
  rw [encFp_eq, low_encR4 _ _ _ _ _ _ _ 7 (by decide)]; rfl

@[simp] theorem opcodeOf_fcvtLD (rd : Reg) (rs1 : Reg) (rm : BitVec 3) :
    opcodeOf (.fcvtLD rd rs1 rm) = 0b1010011#7 := by
  change BitVec.extractLsb' 0 7 (encFp rd rs1 0b00000#5 0b01000#5 rm 0b01#2 0b1010011#7) = _
  rw [encFp_eq, low_encR4 _ _ _ _ _ _ _ 7 (by decide)]; rfl

@[simp] theorem opcodeOf_fcvtLUD (rd : Reg) (rs1 : Reg) (rm : BitVec 3) :
    opcodeOf (.fcvtLUD rd rs1 rm) = 0b1010011#7 := by
  change BitVec.extractLsb' 0 7 (encFp rd rs1 0b00000#5 0b01001#5 rm 0b01#2 0b1010011#7) = _
  rw [encFp_eq, low_encR4 _ _ _ _ _ _ _ 7 (by decide)]; rfl

@[simp] theorem opcodeOf_fcvtWD (rd : Reg) (rs1 : Reg) (rm : BitVec 3) :
    opcodeOf (.fcvtWD rd rs1 rm) = 0b1010011#7 := by
  change BitVec.extractLsb' 0 7 (encFp rd rs1 0b00000#5 0b01010#5 rm 0b01#2 0b1010011#7) = _
  rw [encFp_eq, low_encR4 _ _ _ _ _ _ _ 7 (by decide)]; rfl

@[simp] theorem opcodeOf_fcvtWUD (rd : Reg) (rs1 : Reg) (rm : BitVec 3) :
    opcodeOf (.fcvtWUD rd rs1 rm) = 0b1010011#7 := by
  change BitVec.extractLsb' 0 7 (encFp rd rs1 0b00000#5 0b01011#5 rm 0b01#2 0b1010011#7) = _
  rw [encFp_eq, low_encR4 _ _ _ _ _ _ _ 7 (by decide)]; rfl

@[simp] theorem opcodeOf_mftxS (rd : Reg) (rs2 : Reg) :
    opcodeOf (.mftxS rd rs2) = 0b1010011#7 := by
  change BitVec.extractLsb' 0 7 (encFp rd 0b00000#5 rs2 0b11100#5 0b000#3 0b00#2 0b1010011#7) = _
  rw [encFp_eq, low_encR4 _ _ _ _ _ _ _ 7 (by decide)]; rfl

@[simp] theorem opcodeOf_mftxD (rd : Reg) (rs2 : Reg) :
    opcodeOf (.mftxD rd rs2) = 0b1010011#7 := by
  change BitVec.extractLsb' 0 7 (encFp rd 0b00000#5 rs2 0b11100#5 0b000#3 0b01#2 0b1010011#7) = _
  rw [encFp_eq, low_encR4 _ _ _ _ _ _ _ 7 (by decide)]; rfl

@[simp] theorem opcodeOf_mffsr (rd : Reg) :
    opcodeOf (.mffsr rd) = 0b1010011#7 := by
  change BitVec.extractLsb' 0 7 (encFp rd 0b00000#5 0b00000#5 0b11101#5 0b000#3 0b00#2 0b1010011#7) = _
  rw [encFp_eq, low_encR4 _ _ _ _ _ _ _ 7 (by decide)]; rfl

@[simp] theorem opcodeOf_feqS (rd : Reg) (rs1 : Reg) (rs2 : Reg) :
    opcodeOf (.feqS rd rs1 rs2) = 0b1010011#7 := by
  change BitVec.extractLsb' 0 7 (encFp rd rs1 rs2 0b10101#5 0b000#3 0b00#2 0b1010011#7) = _
  rw [encFp_eq, low_encR4 _ _ _ _ _ _ _ 7 (by decide)]; rfl

@[simp] theorem opcodeOf_fltS (rd : Reg) (rs1 : Reg) (rs2 : Reg) :
    opcodeOf (.fltS rd rs1 rs2) = 0b1010011#7 := by
  change BitVec.extractLsb' 0 7 (encFp rd rs1 rs2 0b10110#5 0b000#3 0b00#2 0b1010011#7) = _
  rw [encFp_eq, low_encR4 _ _ _ _ _ _ _ 7 (by decide)]; rfl

@[simp] theorem opcodeOf_fleS (rd : Reg) (rs1 : Reg) (rs2 : Reg) :
    opcodeOf (.fleS rd rs1 rs2) = 0b1010011#7 := by
  change BitVec.extractLsb' 0 7 (encFp rd rs1 rs2 0b10111#5 0b000#3 0b00#2 0b1010011#7) = _
  rw [encFp_eq, low_encR4 _ _ _ _ _ _ _ 7 (by decide)]; rfl

@[simp] theorem opcodeOf_feqD (rd : Reg) (rs1 : Reg) (rs2 : Reg) :
    opcodeOf (.feqD rd rs1 rs2) = 0b1010011#7 := by
  change BitVec.extractLsb' 0 7 (encFp rd rs1 rs2 0b10101#5 0b000#3 0b01#2 0b1010011#7) = _
  rw [encFp_eq, low_encR4 _ _ _ _ _ _ _ 7 (by decide)]; rfl

@[simp] theorem opcodeOf_fltD (rd : Reg) (rs1 : Reg) (rs2 : Reg) :
    opcodeOf (.fltD rd rs1 rs2) = 0b1010011#7 := by
  change BitVec.extractLsb' 0 7 (encFp rd rs1 rs2 0b10110#5 0b000#3 0b01#2 0b1010011#7) = _
  rw [encFp_eq, low_encR4 _ _ _ _ _ _ _ 7 (by decide)]; rfl

@[simp] theorem opcodeOf_fleD (rd : Reg) (rs1 : Reg) (rs2 : Reg) :
    opcodeOf (.fleD rd rs1 rs2) = 0b1010011#7 := by
  change BitVec.extractLsb' 0 7 (encFp rd rs1 rs2 0b10111#5 0b000#3 0b01#2 0b1010011#7) = _
  rw [encFp_eq, low_encR4 _ _ _ _ _ _ _ 7 (by decide)]; rfl

@[simp] theorem opcodeOf_fenceI (ignored : BitVec 22) :
    opcodeOf (.fenceI ignored) = 0b0101111#7 := by
  change BitVec.extractLsb' 0 7 (encIgnored ignored 0b001#3 0b0101111#7) = _
  rw [low_encIgnored _ _ _ 7 (by decide)]; rfl

@[simp] theorem opcodeOf_fence (ignored : BitVec 22) :
    opcodeOf (.fence ignored) = 0b0101111#7 := by
  change BitVec.extractLsb' 0 7 (encIgnored ignored 0b010#3 0b0101111#7) = _
  rw [low_encIgnored _ _ _ 7 (by decide)]; rfl

@[simp] theorem opcodeOf_syscall :
    opcodeOf (.syscall) = 0b1110111#7 := by
  change BitVec.extractLsb' 0 7 (encR 0b00000#5 0b00000#5 0b00000#5 0b0000000#7 0b000#3 0b1110111#7) = _
  rw [low_encR _ _ _ _ _ _ 7 (by decide)]; rfl

@[simp] theorem opcodeOf_brk :
    opcodeOf (.brk) = 0b1110111#7 := by
  change BitVec.extractLsb' 0 7 (encR 0b00000#5 0b00000#5 0b00000#5 0b0000000#7 0b001#3 0b1110111#7) = _
  rw [low_encR _ _ _ _ _ _ 7 (by decide)]; rfl

@[simp] theorem opcodeOf_rdcycle (rd : Reg) :
    opcodeOf (.rdcycle rd) = 0b1110111#7 := by
  change BitVec.extractLsb' 0 7 (encR rd 0b00000#5 0b00000#5 0b0000000#7 0b100#3 0b1110111#7) = _
  rw [low_encR _ _ _ _ _ _ 7 (by decide)]; rfl

@[simp] theorem opcodeOf_rdtime (rd : Reg) :
    opcodeOf (.rdtime rd) = 0b1110111#7 := by
  change BitVec.extractLsb' 0 7 (encR rd 0b00000#5 0b00000#5 0b0000001#7 0b100#3 0b1110111#7) = _
  rw [low_encR _ _ _ _ _ _ 7 (by decide)]; rfl

@[simp] theorem opcodeOf_rdinstret (rd : Reg) :
    opcodeOf (.rdinstret rd) = 0b1110111#7 := by
  change BitVec.extractLsb' 0 7 (encR rd 0b00000#5 0b00000#5 0b0000010#7 0b100#3 0b1110111#7) = _
  rw [low_encR _ _ _ _ _ _ 7 (by decide)]; rfl

/-! ## Every instruction -/

theorem outcome_j (off : BitVec 25) (c : HoldsAfter (.j off) s P) :
    Outcome s P (MayTrap (.j off) s) (exec (.j off) s) := by
  change Outcome s P _ (execJ off s)
  unfold execJ
  exact outcome_next (c.jump (by simp) _)

theorem outcome_jal (off : BitVec 25) (c : HoldsAfter (.jal off) s P) :
    Outcome s P (MayTrap (.jal off) s) (exec (.jal off) s) := by
  change Outcome s P _ (execJal off s)
  unfold execJal
  exact outcome_next (c.link (by simp) _ _ _)

theorem outcome_beq (rs1 : Reg) (rs2 : Reg) (imm : BitVec 12) (c : HoldsAfter (.beq rs1 rs2 imm) s P) :
    Outcome s P (MayTrap (.beq rs1 rs2 imm) s) (exec (.beq rs1 rs2 imm) s) := by
  change Outcome s P _ (execBeq rs1 rs2 imm s)
  unfold execBeq
  exact outcome_branch (c.jump (by simp)) c.plain

theorem outcome_bne (rs1 : Reg) (rs2 : Reg) (imm : BitVec 12) (c : HoldsAfter (.bne rs1 rs2 imm) s P) :
    Outcome s P (MayTrap (.bne rs1 rs2 imm) s) (exec (.bne rs1 rs2 imm) s) := by
  change Outcome s P _ (execBne rs1 rs2 imm s)
  unfold execBne
  exact outcome_branch (c.jump (by simp)) c.plain

theorem outcome_blt (rs1 : Reg) (rs2 : Reg) (imm : BitVec 12) (c : HoldsAfter (.blt rs1 rs2 imm) s P) :
    Outcome s P (MayTrap (.blt rs1 rs2 imm) s) (exec (.blt rs1 rs2 imm) s) := by
  change Outcome s P _ (execBlt rs1 rs2 imm s)
  unfold execBlt
  exact outcome_branch (c.jump (by simp)) c.plain

theorem outcome_bge (rs1 : Reg) (rs2 : Reg) (imm : BitVec 12) (c : HoldsAfter (.bge rs1 rs2 imm) s P) :
    Outcome s P (MayTrap (.bge rs1 rs2 imm) s) (exec (.bge rs1 rs2 imm) s) := by
  change Outcome s P _ (execBge rs1 rs2 imm s)
  unfold execBge
  exact outcome_branch (c.jump (by simp)) c.plain

theorem outcome_bltu (rs1 : Reg) (rs2 : Reg) (imm : BitVec 12) (c : HoldsAfter (.bltu rs1 rs2 imm) s P) :
    Outcome s P (MayTrap (.bltu rs1 rs2 imm) s) (exec (.bltu rs1 rs2 imm) s) := by
  change Outcome s P _ (execBltu rs1 rs2 imm s)
  unfold execBltu
  exact outcome_branch (c.jump (by simp)) c.plain

theorem outcome_bgeu (rs1 : Reg) (rs2 : Reg) (imm : BitVec 12) (c : HoldsAfter (.bgeu rs1 rs2 imm) s P) :
    Outcome s P (MayTrap (.bgeu rs1 rs2 imm) s) (exec (.bgeu rs1 rs2 imm) s) := by
  change Outcome s P _ (execBgeu rs1 rs2 imm s)
  unfold execBgeu
  exact outcome_branch (c.jump (by simp)) c.plain

theorem outcome_jalrC (rd : Reg) (rs1 : Reg) (imm : BitVec 12) (c : HoldsAfter (.jalrC rd rs1 imm) s P) :
    Outcome s P (MayTrap (.jalrC rd rs1 imm) s) (exec (.jalrC rd rs1 imm) s) := by
  change Outcome s P _ (execJalrC rd rs1 imm s)
  unfold execJalrC
  exact outcome_next (c.link (by simp) _ _ _)

theorem outcome_jalrR (rd : Reg) (rs1 : Reg) (imm : BitVec 12) (c : HoldsAfter (.jalrR rd rs1 imm) s P) :
    Outcome s P (MayTrap (.jalrR rd rs1 imm) s) (exec (.jalrR rd rs1 imm) s) := by
  change Outcome s P _ (execJalrR rd rs1 imm s)
  unfold execJalrR
  exact outcome_next (c.link (by simp) _ _ _)

theorem outcome_jalrJ (rd : Reg) (rs1 : Reg) (imm : BitVec 12) (c : HoldsAfter (.jalrJ rd rs1 imm) s P) :
    Outcome s P (MayTrap (.jalrJ rd rs1 imm) s) (exec (.jalrJ rd rs1 imm) s) := by
  change Outcome s P _ (execJalrJ rd rs1 imm s)
  unfold execJalrJ
  exact outcome_next (c.link (by simp) _ _ _)

theorem outcome_rdnpc (rd : Reg) (c : HoldsAfter (.rdnpc rd) s P) :
    Outcome s P (MayTrap (.rdnpc rd) s) (exec (.rdnpc rd) s) := by
  change Outcome s P _ (execRdnpc rd s)
  unfold execRdnpc
  exact outcome_setRd (c.x _)

theorem outcome_lb (rd : Reg) (rs1 : Reg) (imm : BitVec 12) (c : HoldsAfter (.lb rd rs1 imm) s P) :
    Outcome s P (MayTrap (.lb rd rs1 imm) s) (exec (.lb rd rs1 imm) s) := by
  change Outcome s P _ (execLb rd rs1 imm s)
  unfold execLb
  exact outcome_load trivial fun v => outcome_setRd (c.x _)

theorem outcome_lh (rd : Reg) (rs1 : Reg) (imm : BitVec 12) (c : HoldsAfter (.lh rd rs1 imm) s P) :
    Outcome s P (MayTrap (.lh rd rs1 imm) s) (exec (.lh rd rs1 imm) s) := by
  change Outcome s P _ (execLh rd rs1 imm s)
  unfold execLh
  exact outcome_load trivial fun v => outcome_setRd (c.x _)

theorem outcome_lw (rd : Reg) (rs1 : Reg) (imm : BitVec 12) (c : HoldsAfter (.lw rd rs1 imm) s P) :
    Outcome s P (MayTrap (.lw rd rs1 imm) s) (exec (.lw rd rs1 imm) s) := by
  change Outcome s P _ (execLw rd rs1 imm s)
  unfold execLw
  exact outcome_load trivial fun v => outcome_setRd (c.x _)

theorem outcome_ld (rd : Reg) (rs1 : Reg) (imm : BitVec 12) (c : HoldsAfter (.ld rd rs1 imm) s P) :
    Outcome s P (MayTrap (.ld rd rs1 imm) s) (exec (.ld rd rs1 imm) s) := by
  change Outcome s P _ (execLd rd rs1 imm s)
  unfold execLd
  exact outcome_rv64 (fun h => ⟨rfl,
      illegalIn_rv64 h rfl⟩) fun _ => outcome_load trivial fun v => outcome_setRd (c.x _)

theorem outcome_lbu (rd : Reg) (rs1 : Reg) (imm : BitVec 12) (c : HoldsAfter (.lbu rd rs1 imm) s P) :
    Outcome s P (MayTrap (.lbu rd rs1 imm) s) (exec (.lbu rd rs1 imm) s) := by
  change Outcome s P _ (execLbu rd rs1 imm s)
  unfold execLbu
  exact outcome_load trivial fun v => outcome_setRd (c.x _)

theorem outcome_lhu (rd : Reg) (rs1 : Reg) (imm : BitVec 12) (c : HoldsAfter (.lhu rd rs1 imm) s P) :
    Outcome s P (MayTrap (.lhu rd rs1 imm) s) (exec (.lhu rd rs1 imm) s) := by
  change Outcome s P _ (execLhu rd rs1 imm s)
  unfold execLhu
  exact outcome_load trivial fun v => outcome_setRd (c.x _)

theorem outcome_lwu (rd : Reg) (rs1 : Reg) (imm : BitVec 12) (c : HoldsAfter (.lwu rd rs1 imm) s P) :
    Outcome s P (MayTrap (.lwu rd rs1 imm) s) (exec (.lwu rd rs1 imm) s) := by
  change Outcome s P _ (execLwu rd rs1 imm s)
  unfold execLwu
  exact outcome_rv64 (fun h => ⟨rfl,
      illegalIn_rv64 h rfl⟩) fun _ => outcome_load trivial fun v => outcome_setRd (c.x _)

theorem outcome_sb (rs1 : Reg) (rs2 : Reg) (imm : BitVec 12) (c : HoldsAfter (.sb rs1 rs2 imm) s P) :
    Outcome s P (MayTrap (.sb rs1 rs2 imm) s) (exec (.sb rs1 rs2 imm) s) := by
  change Outcome s P _ (execSb rs1 rs2 imm s)
  unfold execSb
  exact outcome_store trivial (c.store (by simp) _ _ _)

theorem outcome_sh (rs1 : Reg) (rs2 : Reg) (imm : BitVec 12) (c : HoldsAfter (.sh rs1 rs2 imm) s P) :
    Outcome s P (MayTrap (.sh rs1 rs2 imm) s) (exec (.sh rs1 rs2 imm) s) := by
  change Outcome s P _ (execSh rs1 rs2 imm s)
  unfold execSh
  exact outcome_store trivial (c.store (by simp) _ _ _)

theorem outcome_sw (rs1 : Reg) (rs2 : Reg) (imm : BitVec 12) (c : HoldsAfter (.sw rs1 rs2 imm) s P) :
    Outcome s P (MayTrap (.sw rs1 rs2 imm) s) (exec (.sw rs1 rs2 imm) s) := by
  change Outcome s P _ (execSw rs1 rs2 imm s)
  unfold execSw
  exact outcome_store trivial (c.store (by simp) _ _ _)

theorem outcome_sd (rs1 : Reg) (rs2 : Reg) (imm : BitVec 12) (c : HoldsAfter (.sd rs1 rs2 imm) s P) :
    Outcome s P (MayTrap (.sd rs1 rs2 imm) s) (exec (.sd rs1 rs2 imm) s) := by
  change Outcome s P _ (execSd rs1 rs2 imm s)
  unfold execSd
  exact outcome_rv64 (fun h => ⟨rfl, illegalIn_rv64 h rfl⟩) fun _ => outcome_store trivial (c.store (by simp) _ _ _)

theorem outcome_amoaddW (rd : Reg) (rs1 : Reg) (rs2 : Reg) (c : HoldsAfter (.amoaddW rd rs1 rs2) s P) :
    Outcome s P (MayTrap (.amoaddW rd rs1 rs2) s) (exec (.amoaddW rd rs1 rs2) s) := by
  change Outcome s P _ (execAmoaddW rd rs1 rs2 s)
  unfold execAmoaddW
  exact outcome_amo (opcodeOf_amoaddW _ _ _) trivial (fun v u => c.amo (opcodeOf_amoaddW _ _ _) _ _ v _ u)

theorem outcome_amoswapW (rd : Reg) (rs1 : Reg) (rs2 : Reg) (c : HoldsAfter (.amoswapW rd rs1 rs2) s P) :
    Outcome s P (MayTrap (.amoswapW rd rs1 rs2) s) (exec (.amoswapW rd rs1 rs2) s) := by
  change Outcome s P _ (execAmoswapW rd rs1 rs2 s)
  unfold execAmoswapW
  exact outcome_amo (opcodeOf_amoswapW _ _ _) trivial (fun v u => c.amo (opcodeOf_amoswapW _ _ _) _ _ v _ u)

theorem outcome_amoandW (rd : Reg) (rs1 : Reg) (rs2 : Reg) (c : HoldsAfter (.amoandW rd rs1 rs2) s P) :
    Outcome s P (MayTrap (.amoandW rd rs1 rs2) s) (exec (.amoandW rd rs1 rs2) s) := by
  change Outcome s P _ (execAmoandW rd rs1 rs2 s)
  unfold execAmoandW
  exact outcome_amo (opcodeOf_amoandW _ _ _) trivial (fun v u => c.amo (opcodeOf_amoandW _ _ _) _ _ v _ u)

theorem outcome_amoorW (rd : Reg) (rs1 : Reg) (rs2 : Reg) (c : HoldsAfter (.amoorW rd rs1 rs2) s P) :
    Outcome s P (MayTrap (.amoorW rd rs1 rs2) s) (exec (.amoorW rd rs1 rs2) s) := by
  change Outcome s P _ (execAmoorW rd rs1 rs2 s)
  unfold execAmoorW
  exact outcome_amo (opcodeOf_amoorW _ _ _) trivial (fun v u => c.amo (opcodeOf_amoorW _ _ _) _ _ v _ u)

theorem outcome_amominW (rd : Reg) (rs1 : Reg) (rs2 : Reg) (c : HoldsAfter (.amominW rd rs1 rs2) s P) :
    Outcome s P (MayTrap (.amominW rd rs1 rs2) s) (exec (.amominW rd rs1 rs2) s) := by
  change Outcome s P _ (execAmominW rd rs1 rs2 s)
  unfold execAmominW
  exact outcome_amo (opcodeOf_amominW _ _ _) trivial (fun v u => c.amo (opcodeOf_amominW _ _ _) _ _ v _ u)

theorem outcome_amomaxW (rd : Reg) (rs1 : Reg) (rs2 : Reg) (c : HoldsAfter (.amomaxW rd rs1 rs2) s P) :
    Outcome s P (MayTrap (.amomaxW rd rs1 rs2) s) (exec (.amomaxW rd rs1 rs2) s) := by
  change Outcome s P _ (execAmomaxW rd rs1 rs2 s)
  unfold execAmomaxW
  exact outcome_amo (opcodeOf_amomaxW _ _ _) trivial (fun v u => c.amo (opcodeOf_amomaxW _ _ _) _ _ v _ u)

theorem outcome_amominuW (rd : Reg) (rs1 : Reg) (rs2 : Reg) (c : HoldsAfter (.amominuW rd rs1 rs2) s P) :
    Outcome s P (MayTrap (.amominuW rd rs1 rs2) s) (exec (.amominuW rd rs1 rs2) s) := by
  change Outcome s P _ (execAmominuW rd rs1 rs2 s)
  unfold execAmominuW
  exact outcome_amo (opcodeOf_amominuW _ _ _) trivial (fun v u => c.amo (opcodeOf_amominuW _ _ _) _ _ v _ u)

theorem outcome_amomaxuW (rd : Reg) (rs1 : Reg) (rs2 : Reg) (c : HoldsAfter (.amomaxuW rd rs1 rs2) s P) :
    Outcome s P (MayTrap (.amomaxuW rd rs1 rs2) s) (exec (.amomaxuW rd rs1 rs2) s) := by
  change Outcome s P _ (execAmomaxuW rd rs1 rs2 s)
  unfold execAmomaxuW
  exact outcome_amo (opcodeOf_amomaxuW _ _ _) trivial (fun v u => c.amo (opcodeOf_amomaxuW _ _ _) _ _ v _ u)

theorem outcome_amoaddD (rd : Reg) (rs1 : Reg) (rs2 : Reg) (c : HoldsAfter (.amoaddD rd rs1 rs2) s P) :
    Outcome s P (MayTrap (.amoaddD rd rs1 rs2) s) (exec (.amoaddD rd rs1 rs2) s) := by
  change Outcome s P _ (execAmoaddD rd rs1 rs2 s)
  unfold execAmoaddD
  exact outcome_rv64 (fun h => ⟨rfl,
      illegalIn_rv64 h rfl⟩) fun _ => outcome_amo (opcodeOf_amoaddD _ _ _) trivial (fun v u => c.amo
          (opcodeOf_amoaddD _ _ _) _ _ v _ u)

theorem outcome_amoswapD (rd : Reg) (rs1 : Reg) (rs2 : Reg) (c : HoldsAfter (.amoswapD rd rs1 rs2) s P) :
    Outcome s P (MayTrap (.amoswapD rd rs1 rs2) s) (exec (.amoswapD rd rs1 rs2) s) := by
  change Outcome s P _ (execAmoswapD rd rs1 rs2 s)
  unfold execAmoswapD
  exact outcome_rv64 (fun h => ⟨rfl,
      illegalIn_rv64 h rfl⟩) fun _ => outcome_amo (opcodeOf_amoswapD _ _ _) trivial (fun v u => c.amo
          (opcodeOf_amoswapD _ _ _) _ _ v _ u)

theorem outcome_amoandD (rd : Reg) (rs1 : Reg) (rs2 : Reg) (c : HoldsAfter (.amoandD rd rs1 rs2) s P) :
    Outcome s P (MayTrap (.amoandD rd rs1 rs2) s) (exec (.amoandD rd rs1 rs2) s) := by
  change Outcome s P _ (execAmoandD rd rs1 rs2 s)
  unfold execAmoandD
  exact outcome_rv64 (fun h => ⟨rfl,
      illegalIn_rv64 h rfl⟩) fun _ => outcome_amo (opcodeOf_amoandD _ _ _) trivial (fun v u => c.amo
          (opcodeOf_amoandD _ _ _) _ _ v _ u)

theorem outcome_amoorD (rd : Reg) (rs1 : Reg) (rs2 : Reg) (c : HoldsAfter (.amoorD rd rs1 rs2) s P) :
    Outcome s P (MayTrap (.amoorD rd rs1 rs2) s) (exec (.amoorD rd rs1 rs2) s) := by
  change Outcome s P _ (execAmoorD rd rs1 rs2 s)
  unfold execAmoorD
  exact outcome_rv64 (fun h => ⟨rfl,
      illegalIn_rv64 h rfl⟩) fun _ => outcome_amo (opcodeOf_amoorD _ _ _) trivial (fun v u => c.amo
          (opcodeOf_amoorD _ _ _) _ _ v _ u)

theorem outcome_amominD (rd : Reg) (rs1 : Reg) (rs2 : Reg) (c : HoldsAfter (.amominD rd rs1 rs2) s P) :
    Outcome s P (MayTrap (.amominD rd rs1 rs2) s) (exec (.amominD rd rs1 rs2) s) := by
  change Outcome s P _ (execAmominD rd rs1 rs2 s)
  unfold execAmominD
  exact outcome_rv64 (fun h => ⟨rfl,
      illegalIn_rv64 h rfl⟩) fun _ => outcome_amo (opcodeOf_amominD _ _ _) trivial (fun v u => c.amo
          (opcodeOf_amominD _ _ _) _ _ v _ u)

theorem outcome_amomaxD (rd : Reg) (rs1 : Reg) (rs2 : Reg) (c : HoldsAfter (.amomaxD rd rs1 rs2) s P) :
    Outcome s P (MayTrap (.amomaxD rd rs1 rs2) s) (exec (.amomaxD rd rs1 rs2) s) := by
  change Outcome s P _ (execAmomaxD rd rs1 rs2 s)
  unfold execAmomaxD
  exact outcome_rv64 (fun h => ⟨rfl,
      illegalIn_rv64 h rfl⟩) fun _ => outcome_amo (opcodeOf_amomaxD _ _ _) trivial (fun v u => c.amo
          (opcodeOf_amomaxD _ _ _) _ _ v _ u)

theorem outcome_amominuD (rd : Reg) (rs1 : Reg) (rs2 : Reg) (c : HoldsAfter (.amominuD rd rs1 rs2) s P) :
    Outcome s P (MayTrap (.amominuD rd rs1 rs2) s) (exec (.amominuD rd rs1 rs2) s) := by
  change Outcome s P _ (execAmominuD rd rs1 rs2 s)
  unfold execAmominuD
  exact outcome_rv64 (fun h => ⟨rfl,
      illegalIn_rv64 h rfl⟩) fun _ => outcome_amo (opcodeOf_amominuD _ _ _) trivial (fun v u => c.amo
          (opcodeOf_amominuD _ _ _) _ _ v _ u)

theorem outcome_amomaxuD (rd : Reg) (rs1 : Reg) (rs2 : Reg) (c : HoldsAfter (.amomaxuD rd rs1 rs2) s P) :
    Outcome s P (MayTrap (.amomaxuD rd rs1 rs2) s) (exec (.amomaxuD rd rs1 rs2) s) := by
  change Outcome s P _ (execAmomaxuD rd rs1 rs2 s)
  unfold execAmomaxuD
  exact outcome_rv64 (fun h => ⟨rfl,
      illegalIn_rv64 h rfl⟩) fun _ => outcome_amo (opcodeOf_amomaxuD _ _ _) trivial (fun v u => c.amo
          (opcodeOf_amomaxuD _ _ _) _ _ v _ u)

theorem outcome_addi (rd : Reg) (rs1 : Reg) (imm : BitVec 12) (c : HoldsAfter (.addi rd rs1 imm) s P) :
    Outcome s P (MayTrap (.addi rd rs1 imm) s) (exec (.addi rd rs1 imm) s) := by
  change Outcome s P _ (execAddi rd rs1 imm s)
  unfold execAddi
  exact outcome_setRd (c.x _)

theorem outcome_slli (rd : Reg) (rs1 : Reg) (shamt : BitVec 6) (c : HoldsAfter (.slli rd rs1 shamt) s P) :
    Outcome s P (MayTrap (.slli rd rs1 shamt) s) (exec (.slli rd rs1 shamt) s) := by
  change Outcome s P _ (execSlli rd rs1 shamt s)
  unfold execSlli
  exact outcome_shift (fun h h2 => ⟨rfl, illegalIn_shamt h rfl h2⟩) (c.x _)

theorem outcome_slti (rd : Reg) (rs1 : Reg) (imm : BitVec 12) (c : HoldsAfter (.slti rd rs1 imm) s P) :
    Outcome s P (MayTrap (.slti rd rs1 imm) s) (exec (.slti rd rs1 imm) s) := by
  change Outcome s P _ (execSlti rd rs1 imm s)
  unfold execSlti
  exact outcome_setRd (c.x _)

theorem outcome_sltiu (rd : Reg) (rs1 : Reg) (imm : BitVec 12) (c : HoldsAfter (.sltiu rd rs1 imm) s P) :
    Outcome s P (MayTrap (.sltiu rd rs1 imm) s) (exec (.sltiu rd rs1 imm) s) := by
  change Outcome s P _ (execSltiu rd rs1 imm s)
  unfold execSltiu
  exact outcome_setRd (c.x _)

theorem outcome_xori (rd : Reg) (rs1 : Reg) (imm : BitVec 12) (c : HoldsAfter (.xori rd rs1 imm) s P) :
    Outcome s P (MayTrap (.xori rd rs1 imm) s) (exec (.xori rd rs1 imm) s) := by
  change Outcome s P _ (execXori rd rs1 imm s)
  unfold execXori
  exact outcome_setRd (c.x _)

theorem outcome_srli (rd : Reg) (rs1 : Reg) (shamt : BitVec 6) (c : HoldsAfter (.srli rd rs1 shamt) s P) :
    Outcome s P (MayTrap (.srli rd rs1 shamt) s) (exec (.srli rd rs1 shamt) s) := by
  change Outcome s P _ (execSrli rd rs1 shamt s)
  unfold execSrli
  exact outcome_shift (fun h h2 => ⟨rfl, illegalIn_shamt h rfl h2⟩) (c.x _)

theorem outcome_srai (rd : Reg) (rs1 : Reg) (shamt : BitVec 6) (c : HoldsAfter (.srai rd rs1 shamt) s P) :
    Outcome s P (MayTrap (.srai rd rs1 shamt) s) (exec (.srai rd rs1 shamt) s) := by
  change Outcome s P _ (execSrai rd rs1 shamt s)
  unfold execSrai
  exact outcome_shift (fun h h2 => ⟨rfl, illegalIn_shamt h rfl h2⟩) (c.x _)

theorem outcome_ori (rd : Reg) (rs1 : Reg) (imm : BitVec 12) (c : HoldsAfter (.ori rd rs1 imm) s P) :
    Outcome s P (MayTrap (.ori rd rs1 imm) s) (exec (.ori rd rs1 imm) s) := by
  change Outcome s P _ (execOri rd rs1 imm s)
  unfold execOri
  exact outcome_setRd (c.x _)

theorem outcome_andi (rd : Reg) (rs1 : Reg) (imm : BitVec 12) (c : HoldsAfter (.andi rd rs1 imm) s P) :
    Outcome s P (MayTrap (.andi rd rs1 imm) s) (exec (.andi rd rs1 imm) s) := by
  change Outcome s P _ (execAndi rd rs1 imm s)
  unfold execAndi
  exact outcome_setRd (c.x _)

theorem outcome_add (rd : Reg) (rs1 : Reg) (rs2 : Reg) (c : HoldsAfter (.add rd rs1 rs2) s P) :
    Outcome s P (MayTrap (.add rd rs1 rs2) s) (exec (.add rd rs1 rs2) s) := by
  change Outcome s P _ (execAdd rd rs1 rs2 s)
  unfold execAdd
  exact outcome_setRd (c.x _)

theorem outcome_sub (rd : Reg) (rs1 : Reg) (rs2 : Reg) (c : HoldsAfter (.sub rd rs1 rs2) s P) :
    Outcome s P (MayTrap (.sub rd rs1 rs2) s) (exec (.sub rd rs1 rs2) s) := by
  change Outcome s P _ (execSub rd rs1 rs2 s)
  unfold execSub
  exact outcome_setRd (c.x _)

theorem outcome_sll (rd : Reg) (rs1 : Reg) (rs2 : Reg) (c : HoldsAfter (.sll rd rs1 rs2) s P) :
    Outcome s P (MayTrap (.sll rd rs1 rs2) s) (exec (.sll rd rs1 rs2) s) := by
  change Outcome s P _ (execSll rd rs1 rs2 s)
  unfold execSll
  exact outcome_setRd (c.x _)

theorem outcome_slt (rd : Reg) (rs1 : Reg) (rs2 : Reg) (c : HoldsAfter (.slt rd rs1 rs2) s P) :
    Outcome s P (MayTrap (.slt rd rs1 rs2) s) (exec (.slt rd rs1 rs2) s) := by
  change Outcome s P _ (execSlt rd rs1 rs2 s)
  unfold execSlt
  exact outcome_setRd (c.x _)

theorem outcome_sltu (rd : Reg) (rs1 : Reg) (rs2 : Reg) (c : HoldsAfter (.sltu rd rs1 rs2) s P) :
    Outcome s P (MayTrap (.sltu rd rs1 rs2) s) (exec (.sltu rd rs1 rs2) s) := by
  change Outcome s P _ (execSltu rd rs1 rs2 s)
  unfold execSltu
  exact outcome_setRd (c.x _)

theorem outcome_xor (rd : Reg) (rs1 : Reg) (rs2 : Reg) (c : HoldsAfter (.xor rd rs1 rs2) s P) :
    Outcome s P (MayTrap (.xor rd rs1 rs2) s) (exec (.xor rd rs1 rs2) s) := by
  change Outcome s P _ (execXor rd rs1 rs2 s)
  unfold execXor
  exact outcome_setRd (c.x _)

theorem outcome_srl (rd : Reg) (rs1 : Reg) (rs2 : Reg) (c : HoldsAfter (.srl rd rs1 rs2) s P) :
    Outcome s P (MayTrap (.srl rd rs1 rs2) s) (exec (.srl rd rs1 rs2) s) := by
  change Outcome s P _ (execSrl rd rs1 rs2 s)
  unfold execSrl
  exact outcome_setRd (c.x _)

theorem outcome_sra (rd : Reg) (rs1 : Reg) (rs2 : Reg) (c : HoldsAfter (.sra rd rs1 rs2) s P) :
    Outcome s P (MayTrap (.sra rd rs1 rs2) s) (exec (.sra rd rs1 rs2) s) := by
  change Outcome s P _ (execSra rd rs1 rs2 s)
  unfold execSra
  exact outcome_setRd (c.x _)

theorem outcome_or (rd : Reg) (rs1 : Reg) (rs2 : Reg) (c : HoldsAfter (.or rd rs1 rs2) s P) :
    Outcome s P (MayTrap (.or rd rs1 rs2) s) (exec (.or rd rs1 rs2) s) := by
  change Outcome s P _ (execOr rd rs1 rs2 s)
  unfold execOr
  exact outcome_setRd (c.x _)

theorem outcome_and (rd : Reg) (rs1 : Reg) (rs2 : Reg) (c : HoldsAfter (.and rd rs1 rs2) s P) :
    Outcome s P (MayTrap (.and rd rs1 rs2) s) (exec (.and rd rs1 rs2) s) := by
  change Outcome s P _ (execAnd rd rs1 rs2 s)
  unfold execAnd
  exact outcome_setRd (c.x _)

theorem outcome_mul (rd : Reg) (rs1 : Reg) (rs2 : Reg) (c : HoldsAfter (.mul rd rs1 rs2) s P) :
    Outcome s P (MayTrap (.mul rd rs1 rs2) s) (exec (.mul rd rs1 rs2) s) := by
  change Outcome s P _ (execMul rd rs1 rs2 s)
  unfold execMul
  exact outcome_setRd (c.x _)

theorem outcome_mulh (rd : Reg) (rs1 : Reg) (rs2 : Reg) (c : HoldsAfter (.mulh rd rs1 rs2) s P) :
    Outcome s P (MayTrap (.mulh rd rs1 rs2) s) (exec (.mulh rd rs1 rs2) s) := by
  change Outcome s P _ (execMulh rd rs1 rs2 s)
  unfold execMulh
  exact outcome_setRd (c.x _)

theorem outcome_mulhsu (rd : Reg) (rs1 : Reg) (rs2 : Reg) (c : HoldsAfter (.mulhsu rd rs1 rs2) s P) :
    Outcome s P (MayTrap (.mulhsu rd rs1 rs2) s) (exec (.mulhsu rd rs1 rs2) s) := by
  change Outcome s P _ (execMulhsu rd rs1 rs2 s)
  unfold execMulhsu
  exact outcome_setRd (c.x _)

theorem outcome_mulhu (rd : Reg) (rs1 : Reg) (rs2 : Reg) (c : HoldsAfter (.mulhu rd rs1 rs2) s P) :
    Outcome s P (MayTrap (.mulhu rd rs1 rs2) s) (exec (.mulhu rd rs1 rs2) s) := by
  change Outcome s P _ (execMulhu rd rs1 rs2 s)
  unfold execMulhu
  exact outcome_setRd (c.x _)

theorem outcome_div (rd : Reg) (rs1 : Reg) (rs2 : Reg) (c : HoldsAfter (.div rd rs1 rs2) s P) :
    Outcome s P (MayTrap (.div rd rs1 rs2) s) (exec (.div rd rs1 rs2) s) := by
  change Outcome s P _ (execDiv rd rs1 rs2 s)
  unfold execDiv
  exact outcome_setRd (c.x _)

theorem outcome_divu (rd : Reg) (rs1 : Reg) (rs2 : Reg) (c : HoldsAfter (.divu rd rs1 rs2) s P) :
    Outcome s P (MayTrap (.divu rd rs1 rs2) s) (exec (.divu rd rs1 rs2) s) := by
  change Outcome s P _ (execDivu rd rs1 rs2 s)
  unfold execDivu
  exact outcome_setRd (c.x _)

theorem outcome_rem (rd : Reg) (rs1 : Reg) (rs2 : Reg) (c : HoldsAfter (.rem rd rs1 rs2) s P) :
    Outcome s P (MayTrap (.rem rd rs1 rs2) s) (exec (.rem rd rs1 rs2) s) := by
  change Outcome s P _ (execRem rd rs1 rs2 s)
  unfold execRem
  exact outcome_setRd (c.x _)

theorem outcome_remu (rd : Reg) (rs1 : Reg) (rs2 : Reg) (c : HoldsAfter (.remu rd rs1 rs2) s P) :
    Outcome s P (MayTrap (.remu rd rs1 rs2) s) (exec (.remu rd rs1 rs2) s) := by
  change Outcome s P _ (execRemu rd rs1 rs2 s)
  unfold execRemu
  exact outcome_setRd (c.x _)

theorem outcome_lui (rd : Reg) (imm : BitVec 20) (c : HoldsAfter (.lui rd imm) s P) :
    Outcome s P (MayTrap (.lui rd imm) s) (exec (.lui rd imm) s) := by
  change Outcome s P _ (execLui rd imm s)
  unfold execLui
  exact outcome_setRd (c.x _)

theorem outcome_addiw (rd : Reg) (rs1 : Reg) (imm : BitVec 12) (c : HoldsAfter (.addiw rd rs1 imm) s P) :
    Outcome s P (MayTrap (.addiw rd rs1 imm) s) (exec (.addiw rd rs1 imm) s) := by
  change Outcome s P _ (execAddiw rd rs1 imm s)
  unfold execAddiw
  exact outcome_rv64 (fun h => ⟨rfl, illegalIn_rv64 h rfl⟩) fun _ => outcome_setRd (c.x _)

theorem outcome_slliw (rd : Reg) (rs1 : Reg) (shamt : BitVec 5) (c : HoldsAfter (.slliw rd rs1 shamt) s P) :
    Outcome s P (MayTrap (.slliw rd rs1 shamt) s) (exec (.slliw rd rs1 shamt) s) := by
  change Outcome s P _ (execSlliw rd rs1 shamt s)
  unfold execSlliw
  exact outcome_rv64 (fun h => ⟨rfl, illegalIn_rv64 h rfl⟩) fun _ => outcome_setRd (c.x _)

theorem outcome_srliw (rd : Reg) (rs1 : Reg) (shamt : BitVec 5) (c : HoldsAfter (.srliw rd rs1 shamt) s P) :
    Outcome s P (MayTrap (.srliw rd rs1 shamt) s) (exec (.srliw rd rs1 shamt) s) := by
  change Outcome s P _ (execSrliw rd rs1 shamt s)
  unfold execSrliw
  exact outcome_rv64 (fun h => ⟨rfl, illegalIn_rv64 h rfl⟩) fun _ => outcome_setRd (c.x _)

theorem outcome_sraiw (rd : Reg) (rs1 : Reg) (shamt : BitVec 5) (c : HoldsAfter (.sraiw rd rs1 shamt) s P) :
    Outcome s P (MayTrap (.sraiw rd rs1 shamt) s) (exec (.sraiw rd rs1 shamt) s) := by
  change Outcome s P _ (execSraiw rd rs1 shamt s)
  unfold execSraiw
  exact outcome_rv64 (fun h => ⟨rfl, illegalIn_rv64 h rfl⟩) fun _ => outcome_setRd (c.x _)

theorem outcome_addw (rd : Reg) (rs1 : Reg) (rs2 : Reg) (c : HoldsAfter (.addw rd rs1 rs2) s P) :
    Outcome s P (MayTrap (.addw rd rs1 rs2) s) (exec (.addw rd rs1 rs2) s) := by
  change Outcome s P _ (execAddw rd rs1 rs2 s)
  unfold execAddw
  exact outcome_rv64 (fun h => ⟨rfl, illegalIn_rv64 h rfl⟩) fun _ => outcome_setRd (c.x _)

theorem outcome_subw (rd : Reg) (rs1 : Reg) (rs2 : Reg) (c : HoldsAfter (.subw rd rs1 rs2) s P) :
    Outcome s P (MayTrap (.subw rd rs1 rs2) s) (exec (.subw rd rs1 rs2) s) := by
  change Outcome s P _ (execSubw rd rs1 rs2 s)
  unfold execSubw
  exact outcome_rv64 (fun h => ⟨rfl, illegalIn_rv64 h rfl⟩) fun _ => outcome_setRd (c.x _)

theorem outcome_sllw (rd : Reg) (rs1 : Reg) (rs2 : Reg) (c : HoldsAfter (.sllw rd rs1 rs2) s P) :
    Outcome s P (MayTrap (.sllw rd rs1 rs2) s) (exec (.sllw rd rs1 rs2) s) := by
  change Outcome s P _ (execSllw rd rs1 rs2 s)
  unfold execSllw
  exact outcome_rv64 (fun h => ⟨rfl, illegalIn_rv64 h rfl⟩) fun _ => outcome_setRd (c.x _)

theorem outcome_srlw (rd : Reg) (rs1 : Reg) (rs2 : Reg) (c : HoldsAfter (.srlw rd rs1 rs2) s P) :
    Outcome s P (MayTrap (.srlw rd rs1 rs2) s) (exec (.srlw rd rs1 rs2) s) := by
  change Outcome s P _ (execSrlw rd rs1 rs2 s)
  unfold execSrlw
  exact outcome_rv64 (fun h => ⟨rfl, illegalIn_rv64 h rfl⟩) fun _ => outcome_setRd (c.x _)

theorem outcome_sraw (rd : Reg) (rs1 : Reg) (rs2 : Reg) (c : HoldsAfter (.sraw rd rs1 rs2) s P) :
    Outcome s P (MayTrap (.sraw rd rs1 rs2) s) (exec (.sraw rd rs1 rs2) s) := by
  change Outcome s P _ (execSraw rd rs1 rs2 s)
  unfold execSraw
  exact outcome_rv64 (fun h => ⟨rfl, illegalIn_rv64 h rfl⟩) fun _ => outcome_setRd (c.x _)

theorem outcome_mulw (rd : Reg) (rs1 : Reg) (rs2 : Reg) (c : HoldsAfter (.mulw rd rs1 rs2) s P) :
    Outcome s P (MayTrap (.mulw rd rs1 rs2) s) (exec (.mulw rd rs1 rs2) s) := by
  change Outcome s P _ (execMulw rd rs1 rs2 s)
  unfold execMulw
  exact outcome_rv64 (fun h => ⟨rfl, illegalIn_rv64 h rfl⟩) fun _ => outcome_setRd (c.x _)

theorem outcome_divw (rd : Reg) (rs1 : Reg) (rs2 : Reg) (c : HoldsAfter (.divw rd rs1 rs2) s P) :
    Outcome s P (MayTrap (.divw rd rs1 rs2) s) (exec (.divw rd rs1 rs2) s) := by
  change Outcome s P _ (execDivw rd rs1 rs2 s)
  unfold execDivw
  exact outcome_rv64 (fun h => ⟨rfl, illegalIn_rv64 h rfl⟩) fun _ => outcome_setRd (c.x _)

theorem outcome_divuw (rd : Reg) (rs1 : Reg) (rs2 : Reg) (c : HoldsAfter (.divuw rd rs1 rs2) s P) :
    Outcome s P (MayTrap (.divuw rd rs1 rs2) s) (exec (.divuw rd rs1 rs2) s) := by
  change Outcome s P _ (execDivuw rd rs1 rs2 s)
  unfold execDivuw
  exact outcome_rv64 (fun h => ⟨rfl, illegalIn_rv64 h rfl⟩) fun _ => outcome_setRd (c.x _)

theorem outcome_remw (rd : Reg) (rs1 : Reg) (rs2 : Reg) (c : HoldsAfter (.remw rd rs1 rs2) s P) :
    Outcome s P (MayTrap (.remw rd rs1 rs2) s) (exec (.remw rd rs1 rs2) s) := by
  change Outcome s P _ (execRemw rd rs1 rs2 s)
  unfold execRemw
  exact outcome_rv64 (fun h => ⟨rfl, illegalIn_rv64 h rfl⟩) fun _ => outcome_setRd (c.x _)

theorem outcome_remuw (rd : Reg) (rs1 : Reg) (rs2 : Reg) (c : HoldsAfter (.remuw rd rs1 rs2) s P) :
    Outcome s P (MayTrap (.remuw rd rs1 rs2) s) (exec (.remuw rd rs1 rs2) s) := by
  change Outcome s P _ (execRemuw rd rs1 rs2 s)
  unfold execRemuw
  exact outcome_rv64 (fun h => ⟨rfl, illegalIn_rv64 h rfl⟩) fun _ => outcome_setRd (c.x _)

theorem outcome_flw (rd : Reg) (rs1 : Reg) (imm : BitVec 12) (c : HoldsAfter (.flw rd rs1 imm) s P) :
    Outcome s P (MayTrap (.flw rd rs1 imm) s) (exec (.flw rd rs1 imm) s) := by
  change Outcome s P _ (execFlw rd rs1 imm s)
  unfold execFlw
  exact outcome_load trivial fun v => outcome_next (c.fPlain (by simp [fOpcodes]) (fm := .s) v)

theorem outcome_fld (rd : Reg) (rs1 : Reg) (imm : BitVec 12) (c : HoldsAfter (.fld rd rs1 imm) s P) :
    Outcome s P (MayTrap (.fld rd rs1 imm) s) (exec (.fld rd rs1 imm) s) := by
  change Outcome s P _ (execFld rd rs1 imm s)
  unfold execFld
  exact outcome_load trivial fun v => outcome_next (c.fPlain (by simp [fOpcodes]) (fm := .d) v)

theorem outcome_fsw (rs1 : Reg) (rs2 : Reg) (imm : BitVec 12) (c : HoldsAfter (.fsw rs1 rs2 imm) s P) :
    Outcome s P (MayTrap (.fsw rs1 rs2 imm) s) (exec (.fsw rs1 rs2 imm) s) := by
  change Outcome s P _ (execFsw rs1 rs2 imm s)
  unfold execFsw
  exact outcome_store trivial (c.store (by simp) _ _ _)

theorem outcome_fsd (rs1 : Reg) (rs2 : Reg) (imm : BitVec 12) (c : HoldsAfter (.fsd rs1 rs2 imm) s P) :
    Outcome s P (MayTrap (.fsd rs1 rs2 imm) s) (exec (.fsd rs1 rs2 imm) s) := by
  change Outcome s P _ (execFsd rs1 rs2 imm s)
  unfold execFsd
  exact outcome_store trivial (c.store (by simp) _ _ _)

theorem outcome_faddS (rd : Reg) (rs1 : Reg) (rs2 : Reg) (rm : BitVec 3) (c : HoldsAfter (.faddS rd rs1 rs2 rm) s P) :
    Outcome s P (MayTrap (.faddS rd rs1 rs2 rm) s) (exec (.faddS rd rs1 rs2 rm) s) := by
  change Outcome s P _ (execFaddS rd rs1 rs2 rm s)
  unfold execFaddS
  exact outcome_round (fun h => ⟨rfl, .inr ⟨_, rfl,
      h⟩⟩) fun r => outcome_setFd (fun v fl => c.f (by simp [fOpcodes]) _ _ v fl s (.inl rfl))

theorem outcome_fsubS (rd : Reg) (rs1 : Reg) (rs2 : Reg) (rm : BitVec 3) (c : HoldsAfter (.fsubS rd rs1 rs2 rm) s P) :
    Outcome s P (MayTrap (.fsubS rd rs1 rs2 rm) s) (exec (.fsubS rd rs1 rs2 rm) s) := by
  change Outcome s P _ (execFsubS rd rs1 rs2 rm s)
  unfold execFsubS
  exact outcome_round (fun h => ⟨rfl, .inr ⟨_, rfl,
      h⟩⟩) fun r => outcome_setFd (fun v fl => c.f (by simp [fOpcodes]) _ _ v fl s (.inl rfl))

theorem outcome_fmulS (rd : Reg) (rs1 : Reg) (rs2 : Reg) (rm : BitVec 3) (c : HoldsAfter (.fmulS rd rs1 rs2 rm) s P) :
    Outcome s P (MayTrap (.fmulS rd rs1 rs2 rm) s) (exec (.fmulS rd rs1 rs2 rm) s) := by
  change Outcome s P _ (execFmulS rd rs1 rs2 rm s)
  unfold execFmulS
  exact outcome_round (fun h => ⟨rfl, .inr ⟨_, rfl,
      h⟩⟩) fun r => outcome_setFd (fun v fl => c.f (by simp [fOpcodes]) _ _ v fl s (.inl rfl))

theorem outcome_fdivS (rd : Reg) (rs1 : Reg) (rs2 : Reg) (rm : BitVec 3) (c : HoldsAfter (.fdivS rd rs1 rs2 rm) s P) :
    Outcome s P (MayTrap (.fdivS rd rs1 rs2 rm) s) (exec (.fdivS rd rs1 rs2 rm) s) := by
  change Outcome s P _ (execFdivS rd rs1 rs2 rm s)
  unfold execFdivS
  exact outcome_round (fun h => ⟨rfl, .inr ⟨_, rfl,
      h⟩⟩) fun r => outcome_setFd (fun v fl => c.f (by simp [fOpcodes]) _ _ v fl s (.inl rfl))

theorem outcome_fsqrtS (rd : Reg) (rs1 : Reg) (rm : BitVec 3) (c : HoldsAfter (.fsqrtS rd rs1 rm) s P) :
    Outcome s P (MayTrap (.fsqrtS rd rs1 rm) s) (exec (.fsqrtS rd rs1 rm) s) := by
  change Outcome s P _ (execFsqrtS rd rs1 rm s)
  unfold execFsqrtS
  exact outcome_round (fun h => ⟨rfl, .inr ⟨_, rfl,
      h⟩⟩) fun r => outcome_setFd (fun v fl => c.f (by simp [fOpcodes]) _ _ v fl s (.inl rfl))

theorem outcome_fminS (rd : Reg) (rs1 : Reg) (rs2 : Reg) (c : HoldsAfter (.fminS rd rs1 rs2) s P) :
    Outcome s P (MayTrap (.fminS rd rs1 rs2) s) (exec (.fminS rd rs1 rs2) s) := by
  change Outcome s P _ (execFminS rd rs1 rs2 s)
  unfold execFminS
  exact outcome_minmax (fun v fl t h => c.f (by simp [fOpcodes]) _ _ v fl t h)

theorem outcome_fmaxS (rd : Reg) (rs1 : Reg) (rs2 : Reg) (c : HoldsAfter (.fmaxS rd rs1 rs2) s P) :
    Outcome s P (MayTrap (.fmaxS rd rs1 rs2) s) (exec (.fmaxS rd rs1 rs2) s) := by
  change Outcome s P _ (execFmaxS rd rs1 rs2 s)
  unfold execFmaxS
  exact outcome_minmax (fun v fl t h => c.f (by simp [fOpcodes]) _ _ v fl t h)

theorem outcome_faddD (rd : Reg) (rs1 : Reg) (rs2 : Reg) (rm : BitVec 3) (c : HoldsAfter (.faddD rd rs1 rs2 rm) s P) :
    Outcome s P (MayTrap (.faddD rd rs1 rs2 rm) s) (exec (.faddD rd rs1 rs2 rm) s) := by
  change Outcome s P _ (execFaddD rd rs1 rs2 rm s)
  unfold execFaddD
  exact outcome_round (fun h => ⟨rfl, .inr ⟨_, rfl,
      h⟩⟩) fun r => outcome_setFd (fun v fl => c.f (by simp [fOpcodes]) _ _ v fl s (.inl rfl))

theorem outcome_fsubD (rd : Reg) (rs1 : Reg) (rs2 : Reg) (rm : BitVec 3) (c : HoldsAfter (.fsubD rd rs1 rs2 rm) s P) :
    Outcome s P (MayTrap (.fsubD rd rs1 rs2 rm) s) (exec (.fsubD rd rs1 rs2 rm) s) := by
  change Outcome s P _ (execFsubD rd rs1 rs2 rm s)
  unfold execFsubD
  exact outcome_round (fun h => ⟨rfl, .inr ⟨_, rfl,
      h⟩⟩) fun r => outcome_setFd (fun v fl => c.f (by simp [fOpcodes]) _ _ v fl s (.inl rfl))

theorem outcome_fmulD (rd : Reg) (rs1 : Reg) (rs2 : Reg) (rm : BitVec 3) (c : HoldsAfter (.fmulD rd rs1 rs2 rm) s P) :
    Outcome s P (MayTrap (.fmulD rd rs1 rs2 rm) s) (exec (.fmulD rd rs1 rs2 rm) s) := by
  change Outcome s P _ (execFmulD rd rs1 rs2 rm s)
  unfold execFmulD
  exact outcome_round (fun h => ⟨rfl, .inr ⟨_, rfl,
      h⟩⟩) fun r => outcome_setFd (fun v fl => c.f (by simp [fOpcodes]) _ _ v fl s (.inl rfl))

theorem outcome_fdivD (rd : Reg) (rs1 : Reg) (rs2 : Reg) (rm : BitVec 3) (c : HoldsAfter (.fdivD rd rs1 rs2 rm) s P) :
    Outcome s P (MayTrap (.fdivD rd rs1 rs2 rm) s) (exec (.fdivD rd rs1 rs2 rm) s) := by
  change Outcome s P _ (execFdivD rd rs1 rs2 rm s)
  unfold execFdivD
  exact outcome_round (fun h => ⟨rfl, .inr ⟨_, rfl,
      h⟩⟩) fun r => outcome_setFd (fun v fl => c.f (by simp [fOpcodes]) _ _ v fl s (.inl rfl))

theorem outcome_fsqrtD (rd : Reg) (rs1 : Reg) (rm : BitVec 3) (c : HoldsAfter (.fsqrtD rd rs1 rm) s P) :
    Outcome s P (MayTrap (.fsqrtD rd rs1 rm) s) (exec (.fsqrtD rd rs1 rm) s) := by
  change Outcome s P _ (execFsqrtD rd rs1 rm s)
  unfold execFsqrtD
  exact outcome_round (fun h => ⟨rfl, .inr ⟨_, rfl,
      h⟩⟩) fun r => outcome_setFd (fun v fl => c.f (by simp [fOpcodes]) _ _ v fl s (.inl rfl))

theorem outcome_fminD (rd : Reg) (rs1 : Reg) (rs2 : Reg) (c : HoldsAfter (.fminD rd rs1 rs2) s P) :
    Outcome s P (MayTrap (.fminD rd rs1 rs2) s) (exec (.fminD rd rs1 rs2) s) := by
  change Outcome s P _ (execFminD rd rs1 rs2 s)
  unfold execFminD
  exact outcome_minmax (fun v fl t h => c.f (by simp [fOpcodes]) _ _ v fl t h)

theorem outcome_fmaxD (rd : Reg) (rs1 : Reg) (rs2 : Reg) (c : HoldsAfter (.fmaxD rd rs1 rs2) s P) :
    Outcome s P (MayTrap (.fmaxD rd rs1 rs2) s) (exec (.fmaxD rd rs1 rs2) s) := by
  change Outcome s P _ (execFmaxD rd rs1 rs2 s)
  unfold execFmaxD
  exact outcome_minmax (fun v fl t h => c.f (by simp [fOpcodes]) _ _ v fl t h)

theorem outcome_fmaddS (rd : Reg) (rs1 : Reg) (rs2 : Reg) (rs3 : Reg) (rm : BitVec 3)
    (c : HoldsAfter (.fmaddS rd rs1 rs2 rs3 rm) s P) :
    Outcome s P (MayTrap (.fmaddS rd rs1 rs2 rs3 rm) s) (exec (.fmaddS rd rs1 rs2 rs3 rm) s) := by
  change Outcome s P _ (execFmaddS rd rs1 rs2 rs3 rm s)
  unfold execFmaddS
  exact outcome_round (fun h => ⟨rfl, .inr ⟨_, rfl,
      h⟩⟩) fun r => outcome_setFd (fun v fl => c.f (by simp [fOpcodes]) _ _ v fl s (.inl rfl))

theorem outcome_fmsubS (rd : Reg) (rs1 : Reg) (rs2 : Reg) (rs3 : Reg) (rm : BitVec 3)
    (c : HoldsAfter (.fmsubS rd rs1 rs2 rs3 rm) s P) :
    Outcome s P (MayTrap (.fmsubS rd rs1 rs2 rs3 rm) s) (exec (.fmsubS rd rs1 rs2 rs3 rm) s) := by
  change Outcome s P _ (execFmsubS rd rs1 rs2 rs3 rm s)
  unfold execFmsubS
  exact outcome_round (fun h => ⟨rfl, .inr ⟨_, rfl,
      h⟩⟩) fun r => outcome_setFd (fun v fl => c.f (by simp [fOpcodes]) _ _ v fl s (.inl rfl))

theorem outcome_fnmsubS (rd : Reg) (rs1 : Reg) (rs2 : Reg) (rs3 : Reg) (rm : BitVec 3)
    (c : HoldsAfter (.fnmsubS rd rs1 rs2 rs3 rm) s P) :
    Outcome s P (MayTrap (.fnmsubS rd rs1 rs2 rs3 rm) s) (exec (.fnmsubS rd rs1 rs2 rs3 rm) s) := by
  change Outcome s P _ (execFnmsubS rd rs1 rs2 rs3 rm s)
  unfold execFnmsubS
  exact outcome_round (fun h => ⟨rfl, .inr ⟨_, rfl,
      h⟩⟩) fun r => outcome_setFd (fun v fl => c.f (by simp [fOpcodes]) _ _ v fl s (.inl rfl))

theorem outcome_fnmaddS (rd : Reg) (rs1 : Reg) (rs2 : Reg) (rs3 : Reg) (rm : BitVec 3)
    (c : HoldsAfter (.fnmaddS rd rs1 rs2 rs3 rm) s P) :
    Outcome s P (MayTrap (.fnmaddS rd rs1 rs2 rs3 rm) s) (exec (.fnmaddS rd rs1 rs2 rs3 rm) s) := by
  change Outcome s P _ (execFnmaddS rd rs1 rs2 rs3 rm s)
  unfold execFnmaddS
  exact outcome_round (fun h => ⟨rfl, .inr ⟨_, rfl,
      h⟩⟩) fun r => outcome_setFd (fun v fl => c.f (by simp [fOpcodes]) _ _ v fl s (.inl rfl))

theorem outcome_fmaddD (rd : Reg) (rs1 : Reg) (rs2 : Reg) (rs3 : Reg) (rm : BitVec 3)
    (c : HoldsAfter (.fmaddD rd rs1 rs2 rs3 rm) s P) :
    Outcome s P (MayTrap (.fmaddD rd rs1 rs2 rs3 rm) s) (exec (.fmaddD rd rs1 rs2 rs3 rm) s) := by
  change Outcome s P _ (execFmaddD rd rs1 rs2 rs3 rm s)
  unfold execFmaddD
  exact outcome_round (fun h => ⟨rfl, .inr ⟨_, rfl,
      h⟩⟩) fun r => outcome_setFd (fun v fl => c.f (by simp [fOpcodes]) _ _ v fl s (.inl rfl))

theorem outcome_fmsubD (rd : Reg) (rs1 : Reg) (rs2 : Reg) (rs3 : Reg) (rm : BitVec 3)
    (c : HoldsAfter (.fmsubD rd rs1 rs2 rs3 rm) s P) :
    Outcome s P (MayTrap (.fmsubD rd rs1 rs2 rs3 rm) s) (exec (.fmsubD rd rs1 rs2 rs3 rm) s) := by
  change Outcome s P _ (execFmsubD rd rs1 rs2 rs3 rm s)
  unfold execFmsubD
  exact outcome_round (fun h => ⟨rfl, .inr ⟨_, rfl,
      h⟩⟩) fun r => outcome_setFd (fun v fl => c.f (by simp [fOpcodes]) _ _ v fl s (.inl rfl))

theorem outcome_fnmsubD (rd : Reg) (rs1 : Reg) (rs2 : Reg) (rs3 : Reg) (rm : BitVec 3)
    (c : HoldsAfter (.fnmsubD rd rs1 rs2 rs3 rm) s P) :
    Outcome s P (MayTrap (.fnmsubD rd rs1 rs2 rs3 rm) s) (exec (.fnmsubD rd rs1 rs2 rs3 rm) s) := by
  change Outcome s P _ (execFnmsubD rd rs1 rs2 rs3 rm s)
  unfold execFnmsubD
  exact outcome_round (fun h => ⟨rfl, .inr ⟨_, rfl,
      h⟩⟩) fun r => outcome_setFd (fun v fl => c.f (by simp [fOpcodes]) _ _ v fl s (.inl rfl))

theorem outcome_fnmaddD (rd : Reg) (rs1 : Reg) (rs2 : Reg) (rs3 : Reg) (rm : BitVec 3)
    (c : HoldsAfter (.fnmaddD rd rs1 rs2 rs3 rm) s P) :
    Outcome s P (MayTrap (.fnmaddD rd rs1 rs2 rs3 rm) s) (exec (.fnmaddD rd rs1 rs2 rs3 rm) s) := by
  change Outcome s P _ (execFnmaddD rd rs1 rs2 rs3 rm s)
  unfold execFnmaddD
  exact outcome_round (fun h => ⟨rfl, .inr ⟨_, rfl,
      h⟩⟩) fun r => outcome_setFd (fun v fl => c.f (by simp [fOpcodes]) _ _ v fl s (.inl rfl))

theorem outcome_fsgnjS (rd : Reg) (rs1 : Reg) (rs2 : Reg) (c : HoldsAfter (.fsgnjS rd rs1 rs2) s P) :
    Outcome s P (MayTrap (.fsgnjS rd rs1 rs2) s) (exec (.fsgnjS rd rs1 rs2) s) := by
  change Outcome s P _ (execFsgnjS rd rs1 rs2 s)
  unfold execFsgnjS
  exact outcome_next (c.fPlain (by simp [fOpcodes]) (fm := .s) _)

theorem outcome_fsgnjnS (rd : Reg) (rs1 : Reg) (rs2 : Reg) (c : HoldsAfter (.fsgnjnS rd rs1 rs2) s P) :
    Outcome s P (MayTrap (.fsgnjnS rd rs1 rs2) s) (exec (.fsgnjnS rd rs1 rs2) s) := by
  change Outcome s P _ (execFsgnjnS rd rs1 rs2 s)
  unfold execFsgnjnS
  exact outcome_next (c.fPlain (by simp [fOpcodes]) (fm := .s) _)

theorem outcome_fsgnjxS (rd : Reg) (rs1 : Reg) (rs2 : Reg) (c : HoldsAfter (.fsgnjxS rd rs1 rs2) s P) :
    Outcome s P (MayTrap (.fsgnjxS rd rs1 rs2) s) (exec (.fsgnjxS rd rs1 rs2) s) := by
  change Outcome s P _ (execFsgnjxS rd rs1 rs2 s)
  unfold execFsgnjxS
  exact outcome_next (c.fPlain (by simp [fOpcodes]) (fm := .s) _)

theorem outcome_fsgnjD (rd : Reg) (rs1 : Reg) (rs2 : Reg) (c : HoldsAfter (.fsgnjD rd rs1 rs2) s P) :
    Outcome s P (MayTrap (.fsgnjD rd rs1 rs2) s) (exec (.fsgnjD rd rs1 rs2) s) := by
  change Outcome s P _ (execFsgnjD rd rs1 rs2 s)
  unfold execFsgnjD
  exact outcome_next (c.fPlain (by simp [fOpcodes]) (fm := .d) _)

theorem outcome_fsgnjnD (rd : Reg) (rs1 : Reg) (rs2 : Reg) (c : HoldsAfter (.fsgnjnD rd rs1 rs2) s P) :
    Outcome s P (MayTrap (.fsgnjnD rd rs1 rs2) s) (exec (.fsgnjnD rd rs1 rs2) s) := by
  change Outcome s P _ (execFsgnjnD rd rs1 rs2 s)
  unfold execFsgnjnD
  exact outcome_next (c.fPlain (by simp [fOpcodes]) (fm := .d) _)

theorem outcome_fsgnjxD (rd : Reg) (rs1 : Reg) (rs2 : Reg) (c : HoldsAfter (.fsgnjxD rd rs1 rs2) s P) :
    Outcome s P (MayTrap (.fsgnjxD rd rs1 rs2) s) (exec (.fsgnjxD rd rs1 rs2) s) := by
  change Outcome s P _ (execFsgnjxD rd rs1 rs2 s)
  unfold execFsgnjxD
  exact outcome_next (c.fPlain (by simp [fOpcodes]) (fm := .d) _)

theorem outcome_fcvtSD (rd : Reg) (rs1 : Reg) (rm : BitVec 3) (c : HoldsAfter (.fcvtSD rd rs1 rm) s P) :
    Outcome s P (MayTrap (.fcvtSD rd rs1 rm) s) (exec (.fcvtSD rd rs1 rm) s) := by
  change Outcome s P _ (execFcvtSD rd rs1 rm s)
  unfold execFcvtSD
  exact outcome_round (fun h => ⟨rfl, .inr ⟨_, rfl,
      h⟩⟩) fun r => outcome_setFd (fun v fl => c.f (by simp [fOpcodes]) _ _ v fl s (.inl rfl))

theorem outcome_fcvtDS (rd : Reg) (rs1 : Reg) (rm : BitVec 3) (c : HoldsAfter (.fcvtDS rd rs1 rm) s P) :
    Outcome s P (MayTrap (.fcvtDS rd rs1 rm) s) (exec (.fcvtDS rd rs1 rm) s) := by
  change Outcome s P _ (execFcvtDS rd rs1 rm s)
  unfold execFcvtDS
  exact outcome_round (fun h => ⟨rfl, .inr ⟨_, rfl,
      h⟩⟩) fun r => outcome_setFd (fun v fl => c.f (by simp [fOpcodes]) _ _ v fl s (.inl rfl))

theorem outcome_fcvtSL (rd : Reg) (rs1 : Reg) (rm : BitVec 3) (c : HoldsAfter (.fcvtSL rd rs1 rm) s P) :
    Outcome s P (MayTrap (.fcvtSL rd rs1 rm) s) (exec (.fcvtSL rd rs1 rm) s) := by
  change Outcome s P _ (execFcvtSL rd rs1 rm s)
  unfold execFcvtSL
  exact outcome_rv64 (fun h => ⟨rfl, illegalIn_rv64 h rfl⟩) fun _ => outcome_round (fun h => ⟨rfl, .inr ⟨_, rfl,
      h⟩⟩) fun r => outcome_setFd (fun v fl => c.f (by simp [fOpcodes]) _ _ v fl s (.inl rfl))

theorem outcome_fcvtSLU (rd : Reg) (rs1 : Reg) (rm : BitVec 3) (c : HoldsAfter (.fcvtSLU rd rs1 rm) s P) :
    Outcome s P (MayTrap (.fcvtSLU rd rs1 rm) s) (exec (.fcvtSLU rd rs1 rm) s) := by
  change Outcome s P _ (execFcvtSLU rd rs1 rm s)
  unfold execFcvtSLU
  exact outcome_rv64 (fun h => ⟨rfl, illegalIn_rv64 h rfl⟩) fun _ => outcome_round (fun h => ⟨rfl, .inr ⟨_, rfl,
      h⟩⟩) fun r => outcome_setFd (fun v fl => c.f (by simp [fOpcodes]) _ _ v fl s (.inl rfl))

theorem outcome_fcvtSW (rd : Reg) (rs1 : Reg) (rm : BitVec 3) (c : HoldsAfter (.fcvtSW rd rs1 rm) s P) :
    Outcome s P (MayTrap (.fcvtSW rd rs1 rm) s) (exec (.fcvtSW rd rs1 rm) s) := by
  change Outcome s P _ (execFcvtSW rd rs1 rm s)
  unfold execFcvtSW
  exact outcome_round (fun h => ⟨rfl, .inr ⟨_, rfl,
      h⟩⟩) fun r => outcome_setFd (fun v fl => c.f (by simp [fOpcodes]) _ _ v fl s (.inl rfl))

theorem outcome_fcvtSWU (rd : Reg) (rs1 : Reg) (rm : BitVec 3) (c : HoldsAfter (.fcvtSWU rd rs1 rm) s P) :
    Outcome s P (MayTrap (.fcvtSWU rd rs1 rm) s) (exec (.fcvtSWU rd rs1 rm) s) := by
  change Outcome s P _ (execFcvtSWU rd rs1 rm s)
  unfold execFcvtSWU
  exact outcome_round (fun h => ⟨rfl, .inr ⟨_, rfl,
      h⟩⟩) fun r => outcome_setFd (fun v fl => c.f (by simp [fOpcodes]) _ _ v fl s (.inl rfl))

theorem outcome_fcvtDL (rd : Reg) (rs1 : Reg) (rm : BitVec 3) (c : HoldsAfter (.fcvtDL rd rs1 rm) s P) :
    Outcome s P (MayTrap (.fcvtDL rd rs1 rm) s) (exec (.fcvtDL rd rs1 rm) s) := by
  change Outcome s P _ (execFcvtDL rd rs1 rm s)
  unfold execFcvtDL
  exact outcome_rv64 (fun h => ⟨rfl, illegalIn_rv64 h rfl⟩) fun _ => outcome_round (fun h => ⟨rfl, .inr ⟨_, rfl,
      h⟩⟩) fun r => outcome_setFd (fun v fl => c.f (by simp [fOpcodes]) _ _ v fl s (.inl rfl))

theorem outcome_fcvtDLU (rd : Reg) (rs1 : Reg) (rm : BitVec 3) (c : HoldsAfter (.fcvtDLU rd rs1 rm) s P) :
    Outcome s P (MayTrap (.fcvtDLU rd rs1 rm) s) (exec (.fcvtDLU rd rs1 rm) s) := by
  change Outcome s P _ (execFcvtDLU rd rs1 rm s)
  unfold execFcvtDLU
  exact outcome_rv64 (fun h => ⟨rfl, illegalIn_rv64 h rfl⟩) fun _ => outcome_round (fun h => ⟨rfl, .inr ⟨_, rfl,
      h⟩⟩) fun r => outcome_setFd (fun v fl => c.f (by simp [fOpcodes]) _ _ v fl s (.inl rfl))

theorem outcome_fcvtDW (rd : Reg) (rs1 : Reg) (rm : BitVec 3) (c : HoldsAfter (.fcvtDW rd rs1 rm) s P) :
    Outcome s P (MayTrap (.fcvtDW rd rs1 rm) s) (exec (.fcvtDW rd rs1 rm) s) := by
  change Outcome s P _ (execFcvtDW rd rs1 rm s)
  unfold execFcvtDW
  exact outcome_round (fun h => ⟨rfl, .inr ⟨_, rfl,
      h⟩⟩) fun r => outcome_setFd (fun v fl => c.f (by simp [fOpcodes]) _ _ v fl s (.inl rfl))

theorem outcome_fcvtDWU (rd : Reg) (rs1 : Reg) (rm : BitVec 3) (c : HoldsAfter (.fcvtDWU rd rs1 rm) s P) :
    Outcome s P (MayTrap (.fcvtDWU rd rs1 rm) s) (exec (.fcvtDWU rd rs1 rm) s) := by
  change Outcome s P _ (execFcvtDWU rd rs1 rm s)
  unfold execFcvtDWU
  exact outcome_round (fun h => ⟨rfl, .inr ⟨_, rfl,
      h⟩⟩) fun r => outcome_setFd (fun v fl => c.f (by simp [fOpcodes]) _ _ v fl s (.inl rfl))

theorem outcome_mxtfS (rd : Reg) (rs1 : Reg) (c : HoldsAfter (.mxtfS rd rs1) s P) :
    Outcome s P (MayTrap (.mxtfS rd rs1) s) (exec (.mxtfS rd rs1) s) := by
  change Outcome s P _ (execMxtfS rd rs1 s)
  unfold execMxtfS
  exact outcome_next (c.fPlain (by simp [fOpcodes]) (fm := .s) _)

theorem outcome_mxtfD (rd : Reg) (rs1 : Reg) (c : HoldsAfter (.mxtfD rd rs1) s P) :
    Outcome s P (MayTrap (.mxtfD rd rs1) s) (exec (.mxtfD rd rs1) s) := by
  change Outcome s P _ (execMxtfD rd rs1 s)
  unfold execMxtfD
  exact outcome_rv64 (fun h => ⟨rfl, illegalIn_rv64 h rfl⟩) fun _ => outcome_next (c.fPlain (by simp [fOpcodes])
      (fm := .d) _)

theorem outcome_mtfsr (rd : Reg) (rs1 : Reg) (c : HoldsAfter (.mtfsr rd rs1) s P) :
    Outcome s P (MayTrap (.mtfsr rd rs1) s) (exec (.mtfsr rd rs1) s) := by
  change Outcome s P _ (execMtfsr rd rs1 s)
  unfold execMtfsr
  exact outcome_next (c.fsr ⟨_, _, rfl⟩ _ _ _)

theorem outcome_fcvtLS (rd : Reg) (rs1 : Reg) (rm : BitVec 3) (c : HoldsAfter (.fcvtLS rd rs1 rm) s P) :
    Outcome s P (MayTrap (.fcvtLS rd rs1 rm) s) (exec (.fcvtLS rd rs1 rm) s) := by
  change Outcome s P _ (execFcvtLS rd rs1 rm s)
  unfold execFcvtLS
  exact outcome_rv64 (fun h => ⟨rfl, illegalIn_rv64 h rfl⟩) fun _ => outcome_round (fun h => ⟨rfl, .inr ⟨_, rfl,
      h⟩⟩) fun r => outcome_setRdFlags (fun v fl => c.xFlags _ v fl)

theorem outcome_fcvtLUS (rd : Reg) (rs1 : Reg) (rm : BitVec 3) (c : HoldsAfter (.fcvtLUS rd rs1 rm) s P) :
    Outcome s P (MayTrap (.fcvtLUS rd rs1 rm) s) (exec (.fcvtLUS rd rs1 rm) s) := by
  change Outcome s P _ (execFcvtLUS rd rs1 rm s)
  unfold execFcvtLUS
  exact outcome_rv64 (fun h => ⟨rfl, illegalIn_rv64 h rfl⟩) fun _ => outcome_round (fun h => ⟨rfl, .inr ⟨_, rfl,
      h⟩⟩) fun r => outcome_setRdFlags (fun v fl => c.xFlags _ v fl)

theorem outcome_fcvtWS (rd : Reg) (rs1 : Reg) (rm : BitVec 3) (c : HoldsAfter (.fcvtWS rd rs1 rm) s P) :
    Outcome s P (MayTrap (.fcvtWS rd rs1 rm) s) (exec (.fcvtWS rd rs1 rm) s) := by
  change Outcome s P _ (execFcvtWS rd rs1 rm s)
  unfold execFcvtWS
  exact outcome_round (fun h => ⟨rfl, .inr ⟨_, rfl, h⟩⟩) fun r => outcome_setRdFlags (fun v fl => c.xFlags _ v fl)

theorem outcome_fcvtWUS (rd : Reg) (rs1 : Reg) (rm : BitVec 3) (c : HoldsAfter (.fcvtWUS rd rs1 rm) s P) :
    Outcome s P (MayTrap (.fcvtWUS rd rs1 rm) s) (exec (.fcvtWUS rd rs1 rm) s) := by
  change Outcome s P _ (execFcvtWUS rd rs1 rm s)
  unfold execFcvtWUS
  exact outcome_round (fun h => ⟨rfl, .inr ⟨_, rfl, h⟩⟩) fun r => outcome_setRdFlags (fun v fl => c.xFlags _ v fl)

theorem outcome_fcvtLD (rd : Reg) (rs1 : Reg) (rm : BitVec 3) (c : HoldsAfter (.fcvtLD rd rs1 rm) s P) :
    Outcome s P (MayTrap (.fcvtLD rd rs1 rm) s) (exec (.fcvtLD rd rs1 rm) s) := by
  change Outcome s P _ (execFcvtLD rd rs1 rm s)
  unfold execFcvtLD
  exact outcome_rv64 (fun h => ⟨rfl, illegalIn_rv64 h rfl⟩) fun _ => outcome_round (fun h => ⟨rfl, .inr ⟨_, rfl,
      h⟩⟩) fun r => outcome_setRdFlags (fun v fl => c.xFlags _ v fl)

theorem outcome_fcvtLUD (rd : Reg) (rs1 : Reg) (rm : BitVec 3) (c : HoldsAfter (.fcvtLUD rd rs1 rm) s P) :
    Outcome s P (MayTrap (.fcvtLUD rd rs1 rm) s) (exec (.fcvtLUD rd rs1 rm) s) := by
  change Outcome s P _ (execFcvtLUD rd rs1 rm s)
  unfold execFcvtLUD
  exact outcome_rv64 (fun h => ⟨rfl, illegalIn_rv64 h rfl⟩) fun _ => outcome_round (fun h => ⟨rfl, .inr ⟨_, rfl,
      h⟩⟩) fun r => outcome_setRdFlags (fun v fl => c.xFlags _ v fl)

theorem outcome_fcvtWD (rd : Reg) (rs1 : Reg) (rm : BitVec 3) (c : HoldsAfter (.fcvtWD rd rs1 rm) s P) :
    Outcome s P (MayTrap (.fcvtWD rd rs1 rm) s) (exec (.fcvtWD rd rs1 rm) s) := by
  change Outcome s P _ (execFcvtWD rd rs1 rm s)
  unfold execFcvtWD
  exact outcome_round (fun h => ⟨rfl, .inr ⟨_, rfl, h⟩⟩) fun r => outcome_setRdFlags (fun v fl => c.xFlags _ v fl)

theorem outcome_fcvtWUD (rd : Reg) (rs1 : Reg) (rm : BitVec 3) (c : HoldsAfter (.fcvtWUD rd rs1 rm) s P) :
    Outcome s P (MayTrap (.fcvtWUD rd rs1 rm) s) (exec (.fcvtWUD rd rs1 rm) s) := by
  change Outcome s P _ (execFcvtWUD rd rs1 rm s)
  unfold execFcvtWUD
  exact outcome_round (fun h => ⟨rfl, .inr ⟨_, rfl, h⟩⟩) fun r => outcome_setRdFlags (fun v fl => c.xFlags _ v fl)

theorem outcome_mftxS (rd : Reg) (rs2 : Reg) (c : HoldsAfter (.mftxS rd rs2) s P) :
    Outcome s P (MayTrap (.mftxS rd rs2) s) (exec (.mftxS rd rs2) s) := by
  change Outcome s P _ (execMftxS rd rs2 s)
  unfold execMftxS
  exact outcome_setRd (c.x _)

theorem outcome_mftxD (rd : Reg) (rs2 : Reg) (c : HoldsAfter (.mftxD rd rs2) s P) :
    Outcome s P (MayTrap (.mftxD rd rs2) s) (exec (.mftxD rd rs2) s) := by
  change Outcome s P _ (execMftxD rd rs2 s)
  unfold execMftxD
  exact outcome_rv64 (fun h => ⟨rfl, illegalIn_rv64 h rfl⟩) fun _ => outcome_setRd (c.x _)

theorem outcome_mffsr (rd : Reg) (c : HoldsAfter (.mffsr rd) s P) :
    Outcome s P (MayTrap (.mffsr rd) s) (exec (.mffsr rd) s) := by
  change Outcome s P _ (execMffsr rd s)
  unfold execMffsr
  exact outcome_setRd (c.x _)

theorem outcome_feqS (rd : Reg) (rs1 : Reg) (rs2 : Reg) (c : HoldsAfter (.feqS rd rs1 rs2) s P) :
    Outcome s P (MayTrap (.feqS rd rs1 rs2) s) (exec (.feqS rd rs1 rs2) s) := by
  change Outcome s P _ (execFeqS rd rs1 rs2 s)
  unfold execFeqS
  exact outcome_setRdFlags (fun v fl => c.xFlags _ v fl)

theorem outcome_fltS (rd : Reg) (rs1 : Reg) (rs2 : Reg) (c : HoldsAfter (.fltS rd rs1 rs2) s P) :
    Outcome s P (MayTrap (.fltS rd rs1 rs2) s) (exec (.fltS rd rs1 rs2) s) := by
  change Outcome s P _ (execFltS rd rs1 rs2 s)
  unfold execFltS
  exact outcome_setRdFlags (fun v fl => c.xFlags _ v fl)

theorem outcome_fleS (rd : Reg) (rs1 : Reg) (rs2 : Reg) (c : HoldsAfter (.fleS rd rs1 rs2) s P) :
    Outcome s P (MayTrap (.fleS rd rs1 rs2) s) (exec (.fleS rd rs1 rs2) s) := by
  change Outcome s P _ (execFleS rd rs1 rs2 s)
  unfold execFleS
  exact outcome_setRdFlags (fun v fl => c.xFlags _ v fl)

theorem outcome_feqD (rd : Reg) (rs1 : Reg) (rs2 : Reg) (c : HoldsAfter (.feqD rd rs1 rs2) s P) :
    Outcome s P (MayTrap (.feqD rd rs1 rs2) s) (exec (.feqD rd rs1 rs2) s) := by
  change Outcome s P _ (execFeqD rd rs1 rs2 s)
  unfold execFeqD
  exact outcome_setRdFlags (fun v fl => c.xFlags _ v fl)

theorem outcome_fltD (rd : Reg) (rs1 : Reg) (rs2 : Reg) (c : HoldsAfter (.fltD rd rs1 rs2) s P) :
    Outcome s P (MayTrap (.fltD rd rs1 rs2) s) (exec (.fltD rd rs1 rs2) s) := by
  change Outcome s P _ (execFltD rd rs1 rs2 s)
  unfold execFltD
  exact outcome_setRdFlags (fun v fl => c.xFlags _ v fl)

theorem outcome_fleD (rd : Reg) (rs1 : Reg) (rs2 : Reg) (c : HoldsAfter (.fleD rd rs1 rs2) s P) :
    Outcome s P (MayTrap (.fleD rd rs1 rs2) s) (exec (.fleD rd rs1 rs2) s) := by
  change Outcome s P _ (execFleD rd rs1 rs2 s)
  unfold execFleD
  exact outcome_setRdFlags (fun v fl => c.xFlags _ v fl)

theorem outcome_fenceI (ignored : BitVec 22) (c : HoldsAfter (.fenceI ignored) s P) :
    Outcome s P (MayTrap (.fenceI ignored) s) (exec (.fenceI ignored) s) := by
  change Outcome s P _ (execFenceI ignored s)
  unfold execFenceI
  exact outcome_next c.fenceI

theorem outcome_fence (ignored : BitVec 22) (c : HoldsAfter (.fence ignored) s P) :
    Outcome s P (MayTrap (.fence ignored) s) (exec (.fence ignored) s) := by
  change Outcome s P _ (execFence ignored s)
  unfold execFence
  exact outcome_next c.plain

theorem outcome_syscall (_c : HoldsAfter .syscall s P) :
    Outcome s P (MayTrap .syscall s) (exec .syscall s) := by
  change Outcome s P _ (execSyscall s)
  unfold execSyscall
  exact outcome_raise trivial

theorem outcome_brk (_c : HoldsAfter .brk s P) :
    Outcome s P (MayTrap .brk s) (exec .brk s) := by
  change Outcome s P _ (execBrk s)
  unfold execBrk
  exact outcome_raise trivial

theorem outcome_rdcycle (rd : Reg) (c : HoldsAfter (.rdcycle rd) s P) :
    Outcome s P (MayTrap (.rdcycle rd) s) (exec (.rdcycle rd) s) := by
  change Outcome s P _ (execRdcycle rd s)
  unfold execRdcycle
  exact outcome_next (c.cycle _ _ _ (le_advance _ _ _) (advance_lt _ _ _))

theorem outcome_rdtime (rd : Reg) (c : HoldsAfter (.rdtime rd) s P) :
    Outcome s P (MayTrap (.rdtime rd) s) (exec (.rdtime rd) s) := by
  change Outcome s P _ (execRdtime rd s)
  unfold execRdtime
  exact outcome_next (c.time _ _ _ (le_advance _ _ _) (advance_lt _ _ _))

theorem outcome_rdinstret (rd : Reg) (c : HoldsAfter (.rdinstret rd) s P) :
    Outcome s P (MayTrap (.rdinstret rd) s) (exec (.rdinstret rd) s) := by
  change Outcome s P _ (execRdinstret rd s)
  unfold execRdinstret
  exact outcome_setRd (c.x _)

/-- What any instruction does. -/
theorem exec_outcome (i : Instr) (c : HoldsAfter i s P) : Outcome s P (MayTrap i s) (exec i s) := by
  cases i
  · exact outcome_j _ c
  · exact outcome_jal _ c
  · exact outcome_beq _ _ _ c
  · exact outcome_bne _ _ _ c
  · exact outcome_blt _ _ _ c
  · exact outcome_bge _ _ _ c
  · exact outcome_bltu _ _ _ c
  · exact outcome_bgeu _ _ _ c
  · exact outcome_jalrC _ _ _ c
  · exact outcome_jalrR _ _ _ c
  · exact outcome_jalrJ _ _ _ c
  · exact outcome_rdnpc _ c
  · exact outcome_lb _ _ _ c
  · exact outcome_lh _ _ _ c
  · exact outcome_lw _ _ _ c
  · exact outcome_ld _ _ _ c
  · exact outcome_lbu _ _ _ c
  · exact outcome_lhu _ _ _ c
  · exact outcome_lwu _ _ _ c
  · exact outcome_sb _ _ _ c
  · exact outcome_sh _ _ _ c
  · exact outcome_sw _ _ _ c
  · exact outcome_sd _ _ _ c
  · exact outcome_amoaddW _ _ _ c
  · exact outcome_amoswapW _ _ _ c
  · exact outcome_amoandW _ _ _ c
  · exact outcome_amoorW _ _ _ c
  · exact outcome_amominW _ _ _ c
  · exact outcome_amomaxW _ _ _ c
  · exact outcome_amominuW _ _ _ c
  · exact outcome_amomaxuW _ _ _ c
  · exact outcome_amoaddD _ _ _ c
  · exact outcome_amoswapD _ _ _ c
  · exact outcome_amoandD _ _ _ c
  · exact outcome_amoorD _ _ _ c
  · exact outcome_amominD _ _ _ c
  · exact outcome_amomaxD _ _ _ c
  · exact outcome_amominuD _ _ _ c
  · exact outcome_amomaxuD _ _ _ c
  · exact outcome_addi _ _ _ c
  · exact outcome_slli _ _ _ c
  · exact outcome_slti _ _ _ c
  · exact outcome_sltiu _ _ _ c
  · exact outcome_xori _ _ _ c
  · exact outcome_srli _ _ _ c
  · exact outcome_srai _ _ _ c
  · exact outcome_ori _ _ _ c
  · exact outcome_andi _ _ _ c
  · exact outcome_add _ _ _ c
  · exact outcome_sub _ _ _ c
  · exact outcome_sll _ _ _ c
  · exact outcome_slt _ _ _ c
  · exact outcome_sltu _ _ _ c
  · exact outcome_xor _ _ _ c
  · exact outcome_srl _ _ _ c
  · exact outcome_sra _ _ _ c
  · exact outcome_or _ _ _ c
  · exact outcome_and _ _ _ c
  · exact outcome_mul _ _ _ c
  · exact outcome_mulh _ _ _ c
  · exact outcome_mulhsu _ _ _ c
  · exact outcome_mulhu _ _ _ c
  · exact outcome_div _ _ _ c
  · exact outcome_divu _ _ _ c
  · exact outcome_rem _ _ _ c
  · exact outcome_remu _ _ _ c
  · exact outcome_lui _ _ c
  · exact outcome_addiw _ _ _ c
  · exact outcome_slliw _ _ _ c
  · exact outcome_srliw _ _ _ c
  · exact outcome_sraiw _ _ _ c
  · exact outcome_addw _ _ _ c
  · exact outcome_subw _ _ _ c
  · exact outcome_sllw _ _ _ c
  · exact outcome_srlw _ _ _ c
  · exact outcome_sraw _ _ _ c
  · exact outcome_mulw _ _ _ c
  · exact outcome_divw _ _ _ c
  · exact outcome_divuw _ _ _ c
  · exact outcome_remw _ _ _ c
  · exact outcome_remuw _ _ _ c
  · exact outcome_flw _ _ _ c
  · exact outcome_fld _ _ _ c
  · exact outcome_fsw _ _ _ c
  · exact outcome_fsd _ _ _ c
  · exact outcome_faddS _ _ _ _ c
  · exact outcome_fsubS _ _ _ _ c
  · exact outcome_fmulS _ _ _ _ c
  · exact outcome_fdivS _ _ _ _ c
  · exact outcome_fsqrtS _ _ _ c
  · exact outcome_fminS _ _ _ c
  · exact outcome_fmaxS _ _ _ c
  · exact outcome_faddD _ _ _ _ c
  · exact outcome_fsubD _ _ _ _ c
  · exact outcome_fmulD _ _ _ _ c
  · exact outcome_fdivD _ _ _ _ c
  · exact outcome_fsqrtD _ _ _ c
  · exact outcome_fminD _ _ _ c
  · exact outcome_fmaxD _ _ _ c
  · exact outcome_fmaddS _ _ _ _ _ c
  · exact outcome_fmsubS _ _ _ _ _ c
  · exact outcome_fnmsubS _ _ _ _ _ c
  · exact outcome_fnmaddS _ _ _ _ _ c
  · exact outcome_fmaddD _ _ _ _ _ c
  · exact outcome_fmsubD _ _ _ _ _ c
  · exact outcome_fnmsubD _ _ _ _ _ c
  · exact outcome_fnmaddD _ _ _ _ _ c
  · exact outcome_fsgnjS _ _ _ c
  · exact outcome_fsgnjnS _ _ _ c
  · exact outcome_fsgnjxS _ _ _ c
  · exact outcome_fsgnjD _ _ _ c
  · exact outcome_fsgnjnD _ _ _ c
  · exact outcome_fsgnjxD _ _ _ c
  · exact outcome_fcvtSD _ _ _ c
  · exact outcome_fcvtDS _ _ _ c
  · exact outcome_fcvtSL _ _ _ c
  · exact outcome_fcvtSLU _ _ _ c
  · exact outcome_fcvtSW _ _ _ c
  · exact outcome_fcvtSWU _ _ _ c
  · exact outcome_fcvtDL _ _ _ c
  · exact outcome_fcvtDLU _ _ _ c
  · exact outcome_fcvtDW _ _ _ c
  · exact outcome_fcvtDWU _ _ _ c
  · exact outcome_mxtfS _ _ c
  · exact outcome_mxtfD _ _ c
  · exact outcome_mtfsr _ _ c
  · exact outcome_fcvtLS _ _ _ c
  · exact outcome_fcvtLUS _ _ _ c
  · exact outcome_fcvtWS _ _ _ c
  · exact outcome_fcvtWUS _ _ _ c
  · exact outcome_fcvtLD _ _ _ c
  · exact outcome_fcvtLUD _ _ _ c
  · exact outcome_fcvtWD _ _ _ c
  · exact outcome_fcvtWUD _ _ _ c
  · exact outcome_mftxS _ _ c
  · exact outcome_mftxD _ _ c
  · exact outcome_mffsr _ c
  · exact outcome_feqS _ _ _ c
  · exact outcome_fltS _ _ _ c
  · exact outcome_fleS _ _ _ c
  · exact outcome_feqD _ _ _ c
  · exact outcome_fltD _ _ _ c
  · exact outcome_fleD _ _ _ c
  · exact outcome_fenceI _ c
  · exact outcome_fence _ c
  · exact outcome_syscall c
  · exact outcome_brk c
  · exact outcome_rdcycle _ c
  · exact outcome_rdtime _ c
  · exact outcome_rdinstret _ c

/-- A property of every shape is one of every next state. -/
theorem exec_next {i : Instr} {t : State} (c : HoldsAfter i s P) (h : exec i s = .next t) : P t := by
  rcases exec_outcome i c with ⟨u, e, hu⟩ | ⟨e, he, -⟩
  · rw [e] at h; cases h; exact hu
  · rw [he] at h; cases h

/-- A step traps before it decodes, on a word that does not decode, or runs the decoded instruction. -/
theorem step_cases (s : State) :
    (∃ e, step s = raise s e) ∨
      ∃ i, decode (s.fetchWord s.pcX) = .ok i ∧ step s = exec i (s.afterFetch s.pcX) := by
  simp only [step]
  split
  · exact .inl ⟨_, rfl⟩
  · split
    · split
      · exact .inl ⟨_, rfl⟩
      · next h => exact .inr ⟨_, h, rfl⟩
    · exact .inl ⟨_, rfl⟩

theorem afterFetch_cases (s : State) (a : Word) :
    s.afterFetch a = s ∨ s.afterFetch a = { s with draws := s.draws + 1 } := by
  unfold State.afterFetch; split <;> simp

end Sys2Proof.Machine
end

