-- ==== Sys2Proof/Laws/Ieee.lean ====
section
/-! SUPPORT. The fields of a pattern built from a sign and a magnitude, the magnitude as the order of the numbers, and when
rounding is exact. -/

namespace Sys2Proof.Machine

/-! ## Patterns by sign and magnitude -/

/-- The bits of a pattern below its sign. -/
def magOf {fm : Fmt} (a : Pattern fm) : Nat := a.toNat % 2 ^ (widthOf fm - 1)

theorem fracBits_lt (fm : Fmt) : fracBits fm < widthOf fm - 1 := by cases fm <;> decide

theorem two_pow_width (fm : Fmt) : 2 ^ widthOf fm = 2 * 2 ^ (widthOf fm - 1) := by cases fm <;> rfl

theorem two_pow_width_sub (fm : Fmt) : 2 ^ (widthOf fm - 1) = 2 ^ fracBits fm * 2 ^ expBits fm := by cases fm <;> rfl

theorem expField_eq {fm : Fmt} (a : Pattern fm) : expField a = magOf a / 2 ^ fracBits fm := by
  rw [expField, magOf, two_pow_width_sub, Nat.mod_mul_right_div_self]

theorem fracField_eq {fm : Fmt} (a : Pattern fm) : fracField a = magOf a % 2 ^ fracBits fm := by
  rw [fracField, magOf, two_pow_width_sub, Nat.mod_mul_right_mod]

theorem signOf_eq {fm : Fmt} (a : Pattern fm) : signOf a = decide (2 ^ (widthOf fm - 1) ≤ a.toNat) := by
  rw [signOf, BitVec.msb_eq_decide]

theorem toNat_eq {fm : Fmt} (a : Pattern fm) :
    a.toNat = (if signOf a then 2 ^ (widthOf fm - 1) else 0) + magOf a := by
  have h := a.isLt
  rw [two_pow_width] at h
  rw [signOf_eq, magOf]
  by_cases hs : 2 ^ (widthOf fm - 1) ≤ a.toNat
  · rw [if_pos (by simpa using hs), Nat.mod_eq_sub_mod hs, Nat.mod_eq_of_lt (by omega)]; omega
  · rw [if_neg (by simpa using hs), Nat.mod_eq_of_lt (by omega)]; omega

/-- A pattern is its sign and its magnitude. -/
theorem pattern_ext {fm : Fmt} (a b : Pattern fm) (hs : signOf a = signOf b) (hm : magOf a = magOf b) : a = b :=
  BitVec.eq_of_toNat_eq (by rw [toNat_eq a, toNat_eq b, hs, hm])

theorem magOf_lt {fm : Fmt} (a : Pattern fm) : magOf a < 2 ^ (widthOf fm - 1) := Nat.mod_lt _ (Nat.two_pow_pos _)

theorem ofSignMag_toNat (fm : Fmt) (s : Bool) (m : Nat) (h : m < 2 ^ (widthOf fm - 1)) :
    (ofSignMag fm s m).toNat = (if s then 2 ^ (widthOf fm - 1) else 0) + m := by
  rw [ofSignMag, BitVec.toNat_ofNat, two_pow_width]
  exact Nat.mod_eq_of_lt (by split <;> omega)

theorem signOf_ofSignMag (fm : Fmt) (s : Bool) (m : Nat) (h : m < 2 ^ (widthOf fm - 1)) :
    signOf (ofSignMag fm s m) = s := by
  rw [signOf_eq, ofSignMag_toNat fm s m h]
  cases s
  · simpa using h
  · simp

theorem magOf_ofSignMag (fm : Fmt) (s : Bool) (m : Nat) (h : m < 2 ^ (widthOf fm - 1)) :
    magOf (ofSignMag fm s m) = m := by
  rw [magOf, ofSignMag_toNat fm s m h]
  cases s
  · simpa using Nat.mod_eq_of_lt h
  · simpa using Nat.mod_eq_of_lt h

theorem infMag_lt (fm : Fmt) : infMag fm < 2 ^ (widthOf fm - 1) := by cases fm <;> decide

/-- A pattern is an infinity when its magnitude is that of infinity. -/
theorem isInf_iff {fm : Fmt} (a : Pattern fm) : isInf a = true ↔ magOf a = infMag fm := by
  have h := Nat.div_add_mod (magOf a) (2 ^ fracBits fm)
  simp only [isInf, expField_eq, fracField_eq, Bool.and_eq_true, beq_iff_eq, infMag]
  constructor
  · rintro ⟨h1, h2⟩
    rw [← h, h1, h2, Nat.mul_comm, Nat.add_zero]
  · intro e
    rw [e]
    exact ⟨Nat.mul_div_cancel _ (Nat.two_pow_pos _), Nat.mul_mod_left _ _⟩

/-- A pattern is a NaN when its magnitude is above that of infinity. -/
theorem isNaN_iff {fm : Fmt} (a : Pattern fm) : isNaN a = true ↔ infMag fm < magOf a := by
  have h := Nat.div_add_mod (magOf a) (2 ^ fracBits fm)
  have hr := Nat.mod_lt (magOf a) (Nat.two_pow_pos (fracBits fm))
  have hl := magOf_lt a
  rw [two_pow_width_sub] at hl
  have hq : magOf a / 2 ^ fracBits fm < 2 ^ expBits fm := Nat.div_lt_of_lt_mul hl
  simp only [isNaN, expField_eq, fracField_eq, Bool.and_eq_true, beq_iff_eq, bne_iff_ne, ne_eq, infMag]
  constructor
  · rintro ⟨h1, h2⟩
    rw [← h, h1, Nat.mul_comm (expMax fm)]
    omega
  · intro hlt
    have hm : 2 ^ expBits fm = expMax fm + 1 := by cases fm <;> rfl
    have hge : expMax fm ≤ magOf a / 2 ^ fracBits fm :=
      (Nat.le_div_iff_mul_le (Nat.two_pow_pos _)).2 (Nat.le_of_lt hlt)
    have he : magOf a / 2 ^ fracBits fm = expMax fm := by omega
    refine ⟨he, fun h0 => ?_⟩
    rw [he, h0, Nat.mul_comm] at h
    omega

/-! ## The number of a magnitude -/

/-- The number of a finite magnitude in units of the least subnormal. -/
def unitsOf (fm : Fmt) (m : Nat) : Nat :=
  if m / 2 ^ fracBits fm = 0 then m else (m % 2 ^ fracBits fm + 2 ^ fracBits fm) * 2 ^ (m / 2 ^ fracBits fm - 1)

/-- A greater magnitude is a greater number. -/
theorem unitsOf_lt (fm : Fmt) {m n : Nat} (h : m < n) : unitsOf fm m < unitsOf fm n := by
  have hp : 0 < 2 ^ fracBits fm := Nat.two_pow_pos _
  have hm := Nat.div_add_mod m (2 ^ fracBits fm)
  have hn := Nat.div_add_mod n (2 ^ fracBits fm)
  have hrm := Nat.mod_lt m hp
  have hrn := Nat.mod_lt n hp
  have hq : m / 2 ^ fracBits fm ≤ n / 2 ^ fracBits fm := Nat.div_le_div_right (Nat.le_of_lt h)
  unfold unitsOf
  generalize 2 ^ fracBits fm = u at *
  generalize m / u = a at *
  generalize n / u = b at *
  rcases Nat.lt_or_ge a b with hab | hab
  · rw [if_neg (show ¬ b = 0 by omega)]
    by_cases ha : a = 0
    · rw [if_pos ha]
      subst ha
      have : 1 ≤ 2 ^ (b - 1) := Nat.one_le_two_pow
      have := Nat.mul_le_mul_left (n % u + u) this
      omega
    · rw [if_neg ha]
      have h1 : (m % u + u) * 2 ^ (a - 1) < (2 * u) * 2 ^ (a - 1) :=
        Nat.mul_lt_mul_of_pos_right (by omega) (Nat.two_pow_pos _)
      have h2 : (2 * u) * 2 ^ (a - 1) = u * 2 ^ a := by
        obtain ⟨k, rfl⟩ : ∃ k, a = k + 1 := ⟨a - 1, by omega⟩
        rw [Nat.add_sub_cancel, Nat.pow_succ]; ring
      have h3 : u * 2 ^ a ≤ (n % u + u) * 2 ^ (b - 1) :=
        Nat.mul_le_mul (by omega) (Nat.pow_le_pow_right (by decide) (by omega))
      omega
  · have e : a = b := by omega
    subst e
    by_cases ha : a = 0
    · rw [if_pos ha, if_pos ha]; omega
    · rw [if_neg ha, if_neg ha]
      exact Nat.mul_lt_mul_of_pos_right (by omega) (Nat.two_pow_pos _)

/-- The significand scaled to units of the least subnormal. -/
theorem sigOf_scaled {fm : Fmt} (a : Pattern fm) :
    sigOf a * 2 ^ (expOf a - expMin fm).toNat = unitsOf fm (magOf a) := by
  unfold sigOf expOf unitsOf
  rw [expField_eq, fracField_eq]
  by_cases h : magOf a / 2 ^ fracBits fm = 0
  · have hlt : magOf a < 2 ^ fracBits fm := by
      rcases (Nat.div_eq_zero_iff).1 h with h | h
      · exact absurd h (Nat.two_pow_pos _).ne'
      · exact h
    rw [if_pos h, if_pos h, if_pos h, Nat.mod_eq_of_lt hlt]
    simp
  · rw [if_neg h, if_neg h, if_neg h]
    congr 2
    omega

theorem expMin_le_expOf {fm : Fmt} (a : Pattern fm) : expMin fm ≤ expOf a := by unfold expOf; omega

/-- The number a finite pattern stands for, by its magnitude. -/
theorem valueOf_eq {fm : Fmt} (a : Pattern fm) :
    valueOf a = (signedNat (signOf a) (unitsOf fm (magOf a)) : ℚ) * 2 ^ expMin fm := by
  rw [← sigOf_scaled, valueOf]
  have h : expOf a = ((expOf a - expMin fm).toNat : Int) + expMin fm := by
    have := expMin_le_expOf a
    omega
  have hp : (2 : ℚ) ^ expOf a = 2 ^ (expOf a - expMin fm).toNat * 2 ^ expMin fm := by
    conv_lhs => rw [h]
    rw [zpow_add₀ (by norm_num), zpow_natCast]
  rw [hp]
  unfold signedNat
  split <;> push_cast <;> ring

/-! ## Exact rounding -/

/-- Rounding to units the magnitude is a multiple of changes nothing. -/
theorem roundTo_exact (rm : Rounding) (sign : Bool) (n k : Nat) (q : Int) :
    roundTo rm sign (n * 2 ^ k) (q - k) q = (n, false) := by
  unfold roundTo
  by_cases h : q ≤ q - k
  · have hk : k = 0 := by omega
    subst hk
    simp
  · rw [if_neg h]
    have hk : (q - (q - k)).toNat = k := by omega
    rw [hk]
    simp only [Nat.mul_div_cancel _ (Nat.two_pow_pos k), Nat.mul_mod_left]
    have h0 : roundsAway rm sign n 0 (2 ^ k) = false := by
      have := Nat.two_pow_pos k
      cases rm <;> simp [roundsAway]
      omega
    rw [h0]; rfl

/-- A number that the destination's units divide is packed as it is, with no flag. -/
theorem roundPack_exact (fm : Fmt) (t : Tininess) (rm : Rounding) (sign : Bool) (m : Nat) (e q : Int) (n : Nat)
    (hm : m ≠ 0) (hq : max (leadExp m e - fracBits fm) (expMin fm) = q) (hr : roundTo rm sign m e q = (n, false))
    (hmag : (q - expMin fm).toNat * 2 ^ fracBits fm + n < infMag fm) :
    roundPack fm t rm sign m e = (ofSignMag fm sign ((q - expMin fm).toNat * 2 ^ fracBits fm + n), noFlags) := by
  unfold roundPack
  rw [if_neg hm]
  simp only [hq, hr]
  rw [if_neg (by omega)]
  simp [flagIf, noFlags]

theorem log2_bounds (m : Nat) (h : m ≠ 0) : 2 ^ Nat.log2 m ≤ m ∧ m < 2 ^ (Nat.log2 m + 1) :=
  ⟨Nat.log2_self_le h, Nat.lt_log2_self⟩

/-- A number of at most `fracBits + 1` bits in the normal range is packed exactly. -/
theorem roundPack_normal (fm : Fmt) (t : Tininess) (rm : Rounding) (sign : Bool) (m : Nat) (e : Int)
    (hm : m ≠ 0) (hl : Nat.log2 m ≤ fracBits fm)
    (k : Nat) (hk : e + Nat.log2 m - fracBits fm = expMin fm + k) (hk2 : k + 2 < 2 ^ expBits fm) :
    ∃ p : Pattern fm, roundPack fm t rm sign m e = (p, noFlags) ∧ signOf p = sign ∧
        sigOf p = m * 2 ^ (fracBits fm - Nat.log2 m)
      ∧ expOf p = e + Nat.log2 m - fracBits fm ∧ isNaN p = false ∧ isInf p = false := by
  obtain ⟨b1, b2⟩ := log2_bounds m hm
  set l := Nat.log2 m with hldef
  set n := m * 2 ^ (fracBits fm - l) with hn
  have n1 : 2 ^ fracBits fm ≤ n := by
    calc 2 ^ fracBits fm = 2 ^ l * 2 ^ (fracBits fm - l) := by rw [← Nat.pow_add]; congr 1; omega
      _ ≤ n := Nat.mul_le_mul_right _ b1
  have n2 : n < 2 * 2 ^ fracBits fm := by
    calc n < 2 ^ (l + 1) * 2 ^ (fracBits fm - l) := Nat.mul_lt_mul_of_pos_right b2 (Nat.two_pow_pos _)
      _ = 2 * 2 ^ fracBits fm := by rw [← Nat.pow_add, ← Nat.pow_succ']; congr 1; omega
  have hq : max (leadExp m e - fracBits fm) (expMin fm) = expMin fm + k := by
    rw [leadExp, ← hldef]; omega
  have hr : roundTo rm sign m e (expMin fm + k) = (n, false) := by
    unfold roundTo
    rw [if_pos (by omega), show (e - (expMin fm + k)).toNat = fracBits fm - l by omega]
  have hkk : (expMin fm + k - expMin fm).toNat = k := by omega
  have hmag : k * 2 ^ fracBits fm + n < infMag fm := by
    have : expMax fm = 2 ^ expBits fm - 1 := rfl
    rw [infMag]
    have h2 : (k + 2) * 2 ^ fracBits fm ≤ expMax fm * 2 ^ fracBits fm := Nat.mul_le_mul_right _ (by omega)
    have h3 : (k + 2) * 2 ^ fracBits fm = k * 2 ^ fracBits fm + 2 * 2 ^ fracBits fm := by ring
    omega
  have hlt := Nat.lt_trans hmag (infMag_lt fm)
  refine ⟨ofSignMag fm sign (k * 2 ^ fracBits fm + n), ?_, signOf_ofSignMag _ _ _ hlt, ?_, ?_, ?_, ?_⟩
  · have := roundPack_exact fm t rm sign m e _ n hm hq hr (by rw [hkk]; exact hmag)
    rwa [hkk] at this
  · have hd : (k * 2 ^ fracBits fm + n) / 2 ^ fracBits fm = k + 1 := by
      refine Nat.div_eq_of_lt_le ?_ ?_
      · have : (k + 1) * 2 ^ fracBits fm = k * 2 ^ fracBits fm + 2 ^ fracBits fm := by ring
        omega
      · have : (k + 1 + 1) * 2 ^ fracBits fm = k * 2 ^ fracBits fm + 2 * 2 ^ fracBits fm := by ring
        omega
    have hmm : (k * 2 ^ fracBits fm + n) % 2 ^ fracBits fm = n - 2 ^ fracBits fm := by
      have h1 := Nat.div_add_mod (k * 2 ^ fracBits fm + n) (2 ^ fracBits fm)
      rw [hd] at h1
      have : 2 ^ fracBits fm * (k + 1) = k * 2 ^ fracBits fm + 2 ^ fracBits fm := by ring
      omega
    rw [sigOf, expField_eq, fracField_eq, magOf_ofSignMag _ _ _ hlt, hd, if_neg (by omega), hmm]; omega
  · have hd : (k * 2 ^ fracBits fm + n) / 2 ^ fracBits fm = k + 1 := by
      refine Nat.div_eq_of_lt_le ?_ ?_
      · have : (k + 1) * 2 ^ fracBits fm = k * 2 ^ fracBits fm + 2 ^ fracBits fm := by ring
        omega
      · have : (k + 1 + 1) * 2 ^ fracBits fm = k * 2 ^ fracBits fm + 2 * 2 ^ fracBits fm := by ring
        omega
    rw [expOf, expField_eq, magOf_ofSignMag _ _ _ hlt, hd, if_neg (by omega)]; omega
  · rw [Bool.eq_false_iff]; rw [ne_eq, isNaN_iff, magOf_ofSignMag _ _ _ hlt]; omega
  · rw [Bool.eq_false_iff]; rw [ne_eq, isInf_iff, magOf_ofSignMag _ _ _ hlt]; omega

/-- The number of a pattern from its two fields. -/
theorem valueOf_of_fields (fm : Fmt) (p : Pattern fm) (m : Nat) (j : Nat) (e : Int) (h1 : sigOf p = m * 2 ^ j)
    (h2 : expOf p = e - j) :
    valueOf p = (signedNat (signOf p) m : ℚ) * 2 ^ e := by
  rw [valueOf, h1, h2, zpow_sub₀ (by norm_num), zpow_natCast]
  have : (2:ℚ)^j ≠ 0 := by positivity
  unfold signedNat
  split <;> push_cast <;> field_simp

theorem unitsOf_lt_iff (fm : Fmt) (m n : Nat) : unitsOf fm m < unitsOf fm n ↔ m < n := by
  constructor
  · intro h; by_contra hc
    rcases Nat.lt_or_ge n m with h' | h'
    · have := unitsOf_lt fm h'; omega
    · have : m = n := by omega
      subst this; omega
  · exact unitsOf_lt fm

theorem unitsOf_inj (fm : Fmt) (m n : Nat) : unitsOf fm m = unitsOf fm n ↔ m = n := by
  have h1 := unitsOf_lt_iff fm m n
  have h2 := unitsOf_lt_iff fm n m
  constructor <;> intro h <;> omega

theorem unitsOf_zero (fm : Fmt) : unitsOf fm 0 = 0 := by simp [unitsOf]

theorem log2_eq (m k : Nat) (h1 : 2 ^ k ≤ m) (h2 : m < 2 ^ (k+1)) : Nat.log2 m = k := by
  have hm : m ≠ 0 := by have := Nat.two_pow_pos k; omega
  have a := (Nat.log2_lt hm).2 h2
  have b := (Nat.le_log2 hm).2 h1
  omega

/-! ## Results that are representable -/

theorem finite_iff {fm : Fmt} (a : Pattern fm) : FiniteFp a ↔ magOf a < infMag fm := by
  rw [FiniteFp, Bool.eq_false_iff, Bool.eq_false_iff, ne_eq, ne_eq, isNaN_iff, isInf_iff]
  omega

theorem log2_mul_pow (m k : Nat) (h : m ≠ 0) : Nat.log2 (m * 2 ^ k) = Nat.log2 m + k := by
  obtain ⟨h1, h2⟩ := log2_bounds m h
  apply log2_eq
  · rw [Nat.pow_add]; exact Nat.mul_le_mul_right _ h1
  · rw [show Nat.log2 m + k + 1 = (Nat.log2 m + 1) + k by omega, Nat.pow_add]
    exact Nat.mul_lt_mul_of_pos_right h2 (Nat.two_pow_pos _)

/-- Two ways to write one positive number as a natural number times a power of two. -/
theorem scaled_eq_cases (m n : Nat) (e q : Int) (h : (m : ℚ) * 2 ^ e = (n : ℚ) * 2 ^ q) :
    (∃ k : Nat, e = q - k ∧ m = n * 2 ^ k) ∨ (∃ k : Nat, e = q + k ∧ n = m * 2 ^ k) := by
  have h2 : (2 : ℚ) ≠ 0 := by norm_num
  rcases Int.le_total e q with hle | hle
  · left
    obtain ⟨k, hk⟩ := Int.le.dest hle
    refine ⟨k, by omega, ?_⟩
    rw [← hk, zpow_add₀ h2, zpow_natCast] at h
    have he : (2 : ℚ) ^ e ≠ 0 := zpow_ne_zero _ h2
    have : (m : ℚ) = n * 2 ^ k := by
      apply mul_right_cancel₀ he; rw [h]; ring
    exact_mod_cast this
  · right
    obtain ⟨k, hk⟩ := Int.le.dest hle
    refine ⟨k, by omega, ?_⟩
    rw [← hk, zpow_add₀ h2, zpow_natCast] at h
    have he : (2 : ℚ) ^ q ≠ 0 := zpow_ne_zero _ h2
    have : (n : ℚ) = m * 2 ^ k := by
      apply mul_right_cancel₀ he; rw [← h]; ring
    exact_mod_cast this

/-- The leading bit of a number does not depend on how it is written. -/
theorem leadExp_congr (m n : Nat) (e q : Int) (hm : m ≠ 0) (h : (m : ℚ) * 2 ^ e = (n : ℚ) * 2 ^ q) :
    leadExp m e = leadExp n q := by
  rcases scaled_eq_cases m n e q h with ⟨k, rfl, rfl⟩ | ⟨k, rfl, rfl⟩
  · rw [leadExp, leadExp, log2_mul_pow _ _ (by rintro rfl; simp at hm)]; push_cast; omega
  · rw [leadExp, leadExp, log2_mul_pow _ _ hm]; push_cast; omega

theorem expOf_sub {fm : Fmt} (d : Pattern fm) : (expOf d - expMin fm).toNat = expField d - 1 := by
  unfold expOf; split <;> omega

/-- The unit of a finite number is that of the format's precision at its leading bit. -/
theorem leadExp_sigOf {fm : Fmt} (d : Pattern fm) (hz : sigOf d ≠ 0) :
    max (leadExp (sigOf d) (expOf d) - fracBits fm) (expMin fm) = expOf d := by
  have hf : fracField d < 2 ^ fracBits fm := Nat.mod_lt _ (Nat.two_pow_pos _)
  have hp : 2 ^ (fracBits fm + 1) = 2 * 2 ^ fracBits fm := by rw [Nat.pow_succ]; ring
  rw [leadExp]
  by_cases h : expField d = 0
  · have hs : sigOf d = fracField d := by rw [sigOf, if_pos h]
    have he : expOf d = expMin fm := by rw [expOf, if_pos h]; simp
    have hl : Nat.log2 (sigOf d) < fracBits fm := (Nat.log2_lt hz).2 (by rw [hs]; exact hf)
    omega
  · have hs : sigOf d = fracField d + 2 ^ fracBits fm := by rw [sigOf, if_neg h]
    have hl : Nat.log2 (sigOf d) = fracBits fm := log2_eq _ _ (by omega) (by omega)
    have := expMin_le_expOf d
    omega

/-- Exponent and significand put together again are the magnitude. -/
theorem magOf_of_sigOf {fm : Fmt} (d : Pattern fm) :
    (expOf d - expMin fm).toNat * 2 ^ fracBits fm + sigOf d = magOf d := by
  have h := Nat.div_add_mod (magOf d) (2 ^ fracBits fm)
  rw [← expField_eq, ← fracField_eq] at h
  rw [expOf_sub, sigOf]
  by_cases h0 : expField d = 0
  · rw [if_pos h0, h0]; rw [h0] at h; simpa using h
  · rw [if_neg h0]
    obtain ⟨k, hk⟩ : ∃ k, expField d = k + 1 := ⟨expField d - 1, by omega⟩
    rw [hk] at h ⊢
    rw [Nat.add_sub_cancel, ← h]; ring

/-- Rounding a number that the format has, with its unit. -/
theorem roundTo_represented (rm : Rounding) (sign : Bool) (m n : Nat) (e q : Int)
    (h : (m : ℚ) * 2 ^ e = (n : ℚ) * 2 ^ q) : roundTo rm sign m e q = (n, false) := by
  rcases scaled_eq_cases m n e q h with ⟨k, rfl, rfl⟩ | ⟨k, rfl, rfl⟩
  · exact roundTo_exact rm sign n k q
  · unfold roundTo
    rw [if_pos (by omega), show (q + (k : Int) - q).toNat = k by omega]

theorem signedNat_zero_iff (s : Bool) (n : Nat) : signedNat s n = 0 ↔ n = 0 := by unfold signedNat; split <;> omega

theorem natAbs_signedNat (s : Bool) (n : Nat) : (signedNat s n).natAbs = n := by unfold signedNat; split <;> omega

theorem abs_signedNat (s : Bool) (n : Nat) : |(signedNat s n : ℚ)| = n := by
  rw [← Int.cast_abs, ← Int.natCast_natAbs, natAbs_signedNat]; simp

theorem valueOf_ofSignMag (fm : Fmt) (s : Bool) (m : Nat) (h : m < 2 ^ (widthOf fm - 1)) :
    valueOf (ofSignMag fm s m) = (signedNat s (unitsOf fm m) : ℚ) * 2 ^ expMin fm := by
  rw [valueOf_eq, signOf_ofSignMag _ _ _ h, magOf_ofSignMag _ _ _ h]

theorem finite_zeroOf (fm : Fmt) (s : Bool) : FiniteFp (zeroOf fm s) := by
  rw [finite_iff, zeroOf, magOf_ofSignMag _ _ _ (Nat.two_pow_pos _)]
  cases fm <;> decide

theorem valueOf_zeroOf (fm : Fmt) (s : Bool) : valueOf (zeroOf fm s) = 0 := by
  rw [zeroOf, valueOf_ofSignMag _ _ _ (Nat.two_pow_pos _), unitsOf_zero]; simp [signedNat]

theorem two_zpow_pos (e : Int) : (0 : ℚ) < 2 ^ e := zpow_pos (by norm_num) e

/-- Rounding the number of a finite pattern gives that number, with no flag, in every mode. -/
theorem roundPack_value {fm : Fmt} (t : Tininess) (rm : Rounding) (sign : Bool) (m : Nat) (e : Int) (d : Pattern fm)
    (hd : FiniteFp d) (h : (signedNat sign m : ℚ) * 2 ^ e = valueOf d) : IsExactly (roundPack fm t rm sign m e) d := by
  by_cases hm : m = 0
  · subst hm
    rw [roundPack, if_pos rfl]
    refine ⟨rfl, finite_zeroOf _ _, ?_⟩
    rw [valueOf_zeroOf, ← h]; simp [signedNat]
  · have hmag : magOf d < infMag fm := (finite_iff d).1 hd
    have hlt := Nat.lt_trans hmag (infMag_lt fm)
    have habs : (m : ℚ) * 2 ^ e = (sigOf d : ℚ) * 2 ^ expOf d := by
      have := congrArg abs h
      rw [abs_mul, abs_signedNat, abs_of_pos (two_zpow_pos e), valueOf, abs_mul, abs_signedNat,
        abs_of_pos (two_zpow_pos _)] at this
      exact this
    have hs : sigOf d ≠ 0 := by
      intro h0
      rw [h0] at habs
      have := two_zpow_pos e
      have hm' : (m : ℚ) ≠ 0 := by exact_mod_cast hm
      simp at habs
      rcases habs with h1 | h1
      · exact hm h1
      · exact absurd h1 this.ne'
    have hq : max (leadExp m e - fracBits fm) (expMin fm) = expOf d := by
      rw [leadExp_congr m _ e _ hm habs]; exact leadExp_sigOf d hs
    have hp := roundPack_exact fm t rm sign m e _ (sigOf d) hm hq (roundTo_represented rm sign m _ e _ habs)
      (by rw [magOf_of_sigOf]; exact hmag)
    rw [magOf_of_sigOf] at hp
    rw [hp]
    refine ⟨rfl, (finite_iff _).2 (by rw [magOf_ofSignMag _ _ _ hlt]; exact hmag), ?_⟩
    rw [valueOf_ofSignMag _ _ _ hlt]
    have hu : ((unitsOf fm (magOf d) : Nat) : ℚ) * 2 ^ expMin fm = (m : ℚ) * 2 ^ e := by
      have h1 := congrArg abs (valueOf_eq d)
      rw [abs_mul, abs_signedNat, abs_of_pos (two_zpow_pos _), ← h, abs_mul, abs_signedNat, abs_of_pos (two_zpow_pos _)] at h1
      exact h1.symm
    rw [← h]
    unfold signedNat
    split <;> push_cast <;> linarith

theorem signedNat_scaled (s : Bool) (m : Nat) (e1 e : Int) (h : e ≤ e1) :
    (signedNat s (m * 2 ^ (e1 - e).toNat) : ℚ) * 2 ^ e = (signedNat s m : ℚ) * 2 ^ e1 := by
  obtain ⟨k, hk⟩ := Int.le.dest h
  have hk' : (e1 - e).toNat = k := by omega
  rw [hk', ← hk, zpow_add₀ (by norm_num), zpow_natCast]
  unfold signedNat
  split <;> push_cast <;> ring

/-- The sign and the magnitude of an integer. -/
theorem signedNat_natAbs (n : Int) : signedNat (decide (n < 0)) n.natAbs = n := by
  unfold signedNat; by_cases h : n < 0 <;> simp only [h, decide_true, decide_false, if_true, Bool.false_eq_true, if_false] <;> omega

/-- An exact sum that the format has. -/
theorem addExact_value {fm : Fmt} (t : Tininess) (rm : Rounding) (s1 : Bool) (m1 : Nat) (e1 : Int) (s2 : Bool) (m2 : Nat)
    (e2 : Int) (d : Pattern fm) (hd : FiniteFp d)
    (h : (signedNat s1 m1 : ℚ) * 2 ^ e1 + (signedNat s2 m2 : ℚ) * 2 ^ e2 = valueOf d) :
    IsExactly (addExact fm t rm s1 m1 e1 s2 m2 e2) d := by
  rw [← signedNat_scaled s1 m1 e1 (min e1 e2) (by omega), ← signedNat_scaled s2 m2 e2 (min e1 e2) (by omega), ← add_mul] at h
  unfold addExact
  simp only
  generalize min e1 e2 = e at *
  have hsum : (signedNat s1 (m1 * 2 ^ (e1 - e).toNat) : ℚ) + (signedNat s2 (m2 * 2 ^ (e2 - e).toNat) : ℚ) =
      ((signedNat s1 (m1 * 2 ^ (e1 - e).toNat) + signedNat s2 (m2 * 2 ^ (e2 - e).toNat) : Int) : ℚ) := by push_cast; rfl
  rw [hsum] at h
  generalize signedNat s1 (m1 * 2 ^ (e1 - e).toNat) + signedNat s2 (m2 * 2 ^ (e2 - e).toNat) = n at *
  split
  · rename_i hz
    subst hz
    exact ⟨rfl, finite_zeroOf _ _, by rw [valueOf_zeroOf, ← h]; simp⟩
  · exact roundPack_value t rm _ _ e d hd (by rw [signedNat_natAbs]; exact h)

theorem signedNat_mul (s1 s2 : Bool) (m1 m2 : Nat) :
    signedNat (s1 != s2) (m1 * m2) = signedNat s1 m1 * signedNat s2 m2 := by
  cases s1 <;> cases s2 <;> simp [signedNat]

theorem valueOf_mul {fm : Fmt} (a b : Pattern fm) :
    (signedNat (signOf a != signOf b) (sigOf a * sigOf b) : ℚ) * 2 ^ (expOf a + expOf b) = valueOf a * valueOf b := by
  rw [signedNat_mul, valueOf, valueOf, zpow_add₀ (by norm_num)]
  push_cast; ring

theorem sigOf_eq_zero {fm : Fmt} (a : Pattern fm) : sigOf a = 0 ↔ isZero a = true := by
  have := Nat.two_pow_pos (fracBits fm)
  simp only [isZero, Bool.and_eq_true, beq_iff_eq, sigOf]
  split <;> simp_all

theorem isZero_of_sigOf {fm : Fmt} (a : Pattern fm) (h : sigOf a ≠ 0) : isZero a = false := by
  rw [Bool.eq_false_iff, ne_eq, ← sigOf_eq_zero]; exact h

theorem valueOf_eq_zero {fm : Fmt} (a : Pattern fm) : valueOf a = 0 ↔ sigOf a = 0 := by
  rw [valueOf, mul_eq_zero, or_iff_left (two_zpow_pos _).ne', Int.cast_eq_zero, signedNat_zero_iff]

theorem sigOf_lt {fm : Fmt} (a : Pattern fm) : sigOf a < 2 ^ (fracBits fm + 1) := by
  have hf : fracField a < 2 ^ fracBits fm := Nat.mod_lt _ (Nat.two_pow_pos _)
  rw [Nat.pow_succ]
  unfold sigOf; split <;> omega

theorem signOf_negate {fm : Fmt} (a : Pattern fm) : signOf (negate a) = !signOf a := by
  have h : (BitVec.ofNat (widthOf fm) (2 ^ (widthOf fm - 1))).msb = true := by cases fm <;> decide
  rw [signOf, negate, BitVec.msb_xor, h, Bool.xor_true]; rfl

theorem magOf_negate {fm : Fmt} (a : Pattern fm) : magOf (negate a) = magOf a := by
  have h : (negate a).setWidth (widthOf fm - 1) = a.setWidth (widthOf fm - 1) := by
    rw [negate, BitVec.setWidth_xor]
    have : (BitVec.ofNat (widthOf fm) (2 ^ (widthOf fm - 1))).setWidth (widthOf fm - 1) = 0 := by cases fm <;> decide
    rw [this]; simp
  have := congrArg BitVec.toNat h
  simpa [magOf] using this

theorem valueOf_negate {fm : Fmt} (a : Pattern fm) : valueOf (negate a) = -valueOf a := by
  rw [valueOf_eq, valueOf_eq, signOf_negate, magOf_negate]
  cases signOf a <;> simp [signedNat]

theorem finite_negate {fm : Fmt} (a : Pattern fm) : FiniteFp (negate a) ↔ FiniteFp a := by
  rw [finite_iff, finite_iff, magOf_negate]

/-- `isqrt` is the integer square root. -/
theorem isqrt_spec (fuel n : Nat) (h : n < 4 ^ fuel) :
    isqrt fuel n * isqrt fuel n ≤ n ∧ n < (isqrt fuel n + 1) * (isqrt fuel n + 1) := by
  induction fuel generalizing n with
  | zero =>
    obtain rfl : n = 0 := by rw [Nat.pow_zero] at h; omega
    simp [isqrt]
  | succ fuel ih =>
    obtain ⟨h1, h2⟩ := ih (n / 4) (by rw [Nat.pow_succ] at h; omega)
    rw [isqrt]
    generalize isqrt fuel (n / 4) = r at *
    have h3 : 4 * (r * r) ≤ n := by omega
    have h4 : n < 4 * ((r + 1) * (r + 1)) := by omega
    split
    · constructor
      · assumption
      · nlinarith
    · constructor
      · nlinarith
      · omega

theorem isqrt_sq (fuel r : Nat) (h : r < 2 ^ fuel) : isqrt fuel (r * r) = r := by
  obtain ⟨h1, h2⟩ := isqrt_spec fuel (r * r) (by
    rw [show (4 : Nat) = 2 * 2 by rfl, Nat.mul_pow]; exact Nat.mul_lt_mul'' h h)
  have h3 : isqrt fuel (r * r) ≤ r := Nat.mul_self_le_mul_self_iff.1 h1
  have h4 : r < isqrt fuel (r * r) + 1 := Nat.mul_self_lt_mul_self_iff.1 h2
  omega

end Sys2Proof.Machine
end

