-- ==== Sys2Proof/Laws/Invariant.lean ====
section
/-! SUPPORT. Each update of the state keeps the invariant of Safety.lean. -/

namespace Sys2Proof.Machine

/-- The invariant of a state with the same parameters, field by field. -/

theorem inv_of (s t : State) (he : t.env = s.env) (hm : Memory.wf t.mem = true) (hms : ∀ c ∈ t.mem, c.1 < s.size)
   (hs : ∀ c ∈ t.stale, c.1 < s.size) (hn : t.stale.Nodup) (hx : ∀ v ∈ t.x.toList, truncX s.xlen v = v)
       (hp : truncX s.xlen t.pc = t.pc) (hr : truncX s.xlen t.instret = t.instret)
   (hc : s.xlen = .rv64 → t.cycle < 2^64) (ht : s.xlen = .rv64 → t.time < 2^64) : t.Inv := by
  have hz : t.size = s.size := by simp [State.size, State.xlen, he]
  have hxl : t.xlen = s.xlen := by simp [State.xlen, he]
  exact ⟨hm, hz ▸ hms, hz ▸ hs, hn, hxl ▸ hx, hxl ▸ hp, hxl ▸ hr, hxl ▸ hc, hxl ▸ ht⟩


theorem inv_retireTo (s : State) (a : Word) (hi : s.Inv) : (s.retireTo a).Inv :=
  inv_of s _ rfl hi.memWf hi.memInSpace hi.staleInSpace hi.staleNodup hi.xFits (by simp)
      (by simp) hi.cycleFits hi.timeFits

theorem inv_retire (s : State) (hi : s.Inv) : s.retire.Inv := inv_retireTo s _ hi

theorem inv_writeX (s : State) (r : Reg) (v : Word) (hi : s.Inv) : (s.writeX r v).Inv :=
  inv_of s _ (by simp) (by simpa using hi.memWf) (by simpa using hi.memInSpace) (by simpa using hi.staleInSpace)
      (by simpa using hi.staleNodup)
   (writeX_xFits s r v hi.xFits) (by simpa using hi.pcFits) (by simpa using hi.instretFits)
       (by simpa using hi.cycleFits) (by simpa using hi.timeFits)

theorem inv_accrue (s : State) (fl : FlagSet) (hi : s.Inv) :
    (s.accrue fl).Inv := ⟨hi.1, hi.2, hi.3, hi.4, hi.5, hi.6, hi.7, hi.8, hi.9⟩

theorem inv_writeFsr (s : State) (v : Word) (hi : s.Inv) :
    (s.writeFsr v).Inv := ⟨hi.1, hi.2, hi.3, hi.4, hi.5, hi.6, hi.7, hi.8, hi.9⟩

theorem inv_writeFmt (s : State) {fm : Fmt} (r : Reg) (v : Pattern fm) (hi : s.Inv) : (s.writeFmt r v).Inv := by
  cases fm <;> exact ⟨hi.1, hi.2, hi.3, hi.4, hi.5, hi.6, hi.7, hi.8, hi.9⟩

theorem inv_draws (s : State) (n : Nat) (hi : s.Inv) :
    State.Inv { s with draws := n } := ⟨hi.1, hi.2, hi.3, hi.4, hi.5, hi.6, hi.7, hi.8, hi.9⟩

theorem inv_memWrite (s : State) (a : Word) {w : Nat} (v : BitVec w) (hi : s.Inv) : (s.memWrite a v).Inv :=
  inv_of s _ (by simp) (memWrite_wf s a v hi.memWf) (storeBytes_mem_inSpace _ _ _ _ hi.memInSpace)
      (storeBytes_stale_inSpace _ _ _ _ hi.staleInSpace) (storeBytes_stale_nodup _ _ _ _ hi.staleNodup)
   (by simpa using hi.xFits) (by simpa using hi.pcFits) (by simpa using hi.instretFits)
       (by simpa using hi.cycleFits) (by simpa using hi.timeFits)

end Sys2Proof.Machine
end

