-- ==== Sys2Proof/Laws/PerInstr.lean ====
section
/-! SUPPORT. Statements made of every instruction, one lemma per constructor. LowBits: the two low bits of every encoding are
11, the length code of a 32-bit instruction (30_encoding R85). -/

namespace Sys2Proof.Laws.LowBits

open Sys2Proof

/-- The word of `i` has the length code of a 32-bit instruction (30_encoding R85). -/
def Statement (i : Instr) : Prop := (encode i).extractLsb' 0 2 = 0b11#2

theorem j (off : BitVec 25) : Statement (.j off) :=
  low_encJ _ _ 2 (by decide)

theorem jal (off : BitVec 25) : Statement (.jal off) :=
  low_encJ _ _ 2 (by decide)

theorem beq (rs1 rs2 : Reg) (imm : BitVec 12) : Statement (.beq rs1 rs2 imm) :=
  low_encR _ _ _ _ _ _ 2 (by decide)

theorem bne (rs1 rs2 : Reg) (imm : BitVec 12) : Statement (.bne rs1 rs2 imm) :=
  low_encR _ _ _ _ _ _ 2 (by decide)

theorem blt (rs1 rs2 : Reg) (imm : BitVec 12) : Statement (.blt rs1 rs2 imm) :=
  low_encR _ _ _ _ _ _ 2 (by decide)

theorem bge (rs1 rs2 : Reg) (imm : BitVec 12) : Statement (.bge rs1 rs2 imm) :=
  low_encR _ _ _ _ _ _ 2 (by decide)

theorem bltu (rs1 rs2 : Reg) (imm : BitVec 12) : Statement (.bltu rs1 rs2 imm) :=
  low_encR _ _ _ _ _ _ 2 (by decide)

theorem bgeu (rs1 rs2 : Reg) (imm : BitVec 12) : Statement (.bgeu rs1 rs2 imm) :=
  low_encR _ _ _ _ _ _ 2 (by decide)

theorem jalrC (rd rs1 : Reg) (imm : BitVec 12) : Statement (.jalrC rd rs1 imm) :=
  low_encI _ _ _ _ _ 2 (by decide)

theorem jalrR (rd rs1 : Reg) (imm : BitVec 12) : Statement (.jalrR rd rs1 imm) :=
  low_encI _ _ _ _ _ 2 (by decide)

theorem jalrJ (rd rs1 : Reg) (imm : BitVec 12) : Statement (.jalrJ rd rs1 imm) :=
  low_encI _ _ _ _ _ 2 (by decide)

theorem rdnpc (rd : Reg) : Statement (.rdnpc rd) :=
  low_encI _ _ _ _ _ 2 (by decide)

theorem lb (rd rs1 : Reg) (imm : BitVec 12) : Statement (.lb rd rs1 imm) :=
  low_encI _ _ _ _ _ 2 (by decide)

theorem lh (rd rs1 : Reg) (imm : BitVec 12) : Statement (.lh rd rs1 imm) :=
  low_encI _ _ _ _ _ 2 (by decide)

theorem lw (rd rs1 : Reg) (imm : BitVec 12) : Statement (.lw rd rs1 imm) :=
  low_encI _ _ _ _ _ 2 (by decide)

theorem ld (rd rs1 : Reg) (imm : BitVec 12) : Statement (.ld rd rs1 imm) :=
  low_encI _ _ _ _ _ 2 (by decide)

theorem lbu (rd rs1 : Reg) (imm : BitVec 12) : Statement (.lbu rd rs1 imm) :=
  low_encI _ _ _ _ _ 2 (by decide)

theorem lhu (rd rs1 : Reg) (imm : BitVec 12) : Statement (.lhu rd rs1 imm) :=
  low_encI _ _ _ _ _ 2 (by decide)

theorem lwu (rd rs1 : Reg) (imm : BitVec 12) : Statement (.lwu rd rs1 imm) :=
  low_encI _ _ _ _ _ 2 (by decide)

theorem sb (rs1 rs2 : Reg) (imm : BitVec 12) : Statement (.sb rs1 rs2 imm) :=
  low_encR _ _ _ _ _ _ 2 (by decide)

theorem sh (rs1 rs2 : Reg) (imm : BitVec 12) : Statement (.sh rs1 rs2 imm) :=
  low_encR _ _ _ _ _ _ 2 (by decide)

theorem sw (rs1 rs2 : Reg) (imm : BitVec 12) : Statement (.sw rs1 rs2 imm) :=
  low_encR _ _ _ _ _ _ 2 (by decide)

theorem sd (rs1 rs2 : Reg) (imm : BitVec 12) : Statement (.sd rs1 rs2 imm) :=
  low_encR _ _ _ _ _ _ 2 (by decide)

theorem amoaddW (rd rs1 rs2 : Reg) : Statement (.amoaddW rd rs1 rs2) :=
  low_encR _ _ _ _ _ _ 2 (by decide)

theorem amoswapW (rd rs1 rs2 : Reg) : Statement (.amoswapW rd rs1 rs2) :=
  low_encR _ _ _ _ _ _ 2 (by decide)

theorem amoandW (rd rs1 rs2 : Reg) : Statement (.amoandW rd rs1 rs2) :=
  low_encR _ _ _ _ _ _ 2 (by decide)

theorem amoorW (rd rs1 rs2 : Reg) : Statement (.amoorW rd rs1 rs2) :=
  low_encR _ _ _ _ _ _ 2 (by decide)

theorem amominW (rd rs1 rs2 : Reg) : Statement (.amominW rd rs1 rs2) :=
  low_encR _ _ _ _ _ _ 2 (by decide)

theorem amomaxW (rd rs1 rs2 : Reg) : Statement (.amomaxW rd rs1 rs2) :=
  low_encR _ _ _ _ _ _ 2 (by decide)

theorem amominuW (rd rs1 rs2 : Reg) : Statement (.amominuW rd rs1 rs2) :=
  low_encR _ _ _ _ _ _ 2 (by decide)

theorem amomaxuW (rd rs1 rs2 : Reg) : Statement (.amomaxuW rd rs1 rs2) :=
  low_encR _ _ _ _ _ _ 2 (by decide)

theorem amoaddD (rd rs1 rs2 : Reg) : Statement (.amoaddD rd rs1 rs2) :=
  low_encR _ _ _ _ _ _ 2 (by decide)

theorem amoswapD (rd rs1 rs2 : Reg) : Statement (.amoswapD rd rs1 rs2) :=
  low_encR _ _ _ _ _ _ 2 (by decide)

theorem amoandD (rd rs1 rs2 : Reg) : Statement (.amoandD rd rs1 rs2) :=
  low_encR _ _ _ _ _ _ 2 (by decide)

theorem amoorD (rd rs1 rs2 : Reg) : Statement (.amoorD rd rs1 rs2) :=
  low_encR _ _ _ _ _ _ 2 (by decide)

theorem amominD (rd rs1 rs2 : Reg) : Statement (.amominD rd rs1 rs2) :=
  low_encR _ _ _ _ _ _ 2 (by decide)

theorem amomaxD (rd rs1 rs2 : Reg) : Statement (.amomaxD rd rs1 rs2) :=
  low_encR _ _ _ _ _ _ 2 (by decide)

theorem amominuD (rd rs1 rs2 : Reg) : Statement (.amominuD rd rs1 rs2) :=
  low_encR _ _ _ _ _ _ 2 (by decide)

theorem amomaxuD (rd rs1 rs2 : Reg) : Statement (.amomaxuD rd rs1 rs2) :=
  low_encR _ _ _ _ _ _ 2 (by decide)

theorem addi (rd rs1 : Reg) (imm : BitVec 12) : Statement (.addi rd rs1 imm) :=
  low_encI _ _ _ _ _ 2 (by decide)

theorem slli (rd rs1 : Reg) (shamt : BitVec 6) : Statement (.slli rd rs1 shamt) :=
  low_encShift _ _ _ _ _ _ 2 (by decide)

theorem slti (rd rs1 : Reg) (imm : BitVec 12) : Statement (.slti rd rs1 imm) :=
  low_encI _ _ _ _ _ 2 (by decide)

theorem sltiu (rd rs1 : Reg) (imm : BitVec 12) : Statement (.sltiu rd rs1 imm) :=
  low_encI _ _ _ _ _ 2 (by decide)

theorem xori (rd rs1 : Reg) (imm : BitVec 12) : Statement (.xori rd rs1 imm) :=
  low_encI _ _ _ _ _ 2 (by decide)

theorem srli (rd rs1 : Reg) (shamt : BitVec 6) : Statement (.srli rd rs1 shamt) :=
  low_encShift _ _ _ _ _ _ 2 (by decide)

theorem srai (rd rs1 : Reg) (shamt : BitVec 6) : Statement (.srai rd rs1 shamt) :=
  low_encShift _ _ _ _ _ _ 2 (by decide)

theorem ori (rd rs1 : Reg) (imm : BitVec 12) : Statement (.ori rd rs1 imm) :=
  low_encI _ _ _ _ _ 2 (by decide)

theorem andi (rd rs1 : Reg) (imm : BitVec 12) : Statement (.andi rd rs1 imm) :=
  low_encI _ _ _ _ _ 2 (by decide)

theorem add (rd rs1 rs2 : Reg) : Statement (.add rd rs1 rs2) :=
  low_encR _ _ _ _ _ _ 2 (by decide)

theorem sub (rd rs1 rs2 : Reg) : Statement (.sub rd rs1 rs2) :=
  low_encR _ _ _ _ _ _ 2 (by decide)

theorem sll (rd rs1 rs2 : Reg) : Statement (.sll rd rs1 rs2) :=
  low_encR _ _ _ _ _ _ 2 (by decide)

theorem slt (rd rs1 rs2 : Reg) : Statement (.slt rd rs1 rs2) :=
  low_encR _ _ _ _ _ _ 2 (by decide)

theorem sltu (rd rs1 rs2 : Reg) : Statement (.sltu rd rs1 rs2) :=
  low_encR _ _ _ _ _ _ 2 (by decide)

theorem xor (rd rs1 rs2 : Reg) : Statement (.xor rd rs1 rs2) :=
  low_encR _ _ _ _ _ _ 2 (by decide)

theorem srl (rd rs1 rs2 : Reg) : Statement (.srl rd rs1 rs2) :=
  low_encR _ _ _ _ _ _ 2 (by decide)

theorem sra (rd rs1 rs2 : Reg) : Statement (.sra rd rs1 rs2) :=
  low_encR _ _ _ _ _ _ 2 (by decide)

theorem or (rd rs1 rs2 : Reg) : Statement (.or rd rs1 rs2) :=
  low_encR _ _ _ _ _ _ 2 (by decide)

theorem and (rd rs1 rs2 : Reg) : Statement (.and rd rs1 rs2) :=
  low_encR _ _ _ _ _ _ 2 (by decide)

theorem mul (rd rs1 rs2 : Reg) : Statement (.mul rd rs1 rs2) :=
  low_encR _ _ _ _ _ _ 2 (by decide)

theorem mulh (rd rs1 rs2 : Reg) : Statement (.mulh rd rs1 rs2) :=
  low_encR _ _ _ _ _ _ 2 (by decide)

theorem mulhsu (rd rs1 rs2 : Reg) : Statement (.mulhsu rd rs1 rs2) :=
  low_encR _ _ _ _ _ _ 2 (by decide)

theorem mulhu (rd rs1 rs2 : Reg) : Statement (.mulhu rd rs1 rs2) :=
  low_encR _ _ _ _ _ _ 2 (by decide)

theorem div (rd rs1 rs2 : Reg) : Statement (.div rd rs1 rs2) :=
  low_encR _ _ _ _ _ _ 2 (by decide)

theorem divu (rd rs1 rs2 : Reg) : Statement (.divu rd rs1 rs2) :=
  low_encR _ _ _ _ _ _ 2 (by decide)

theorem rem (rd rs1 rs2 : Reg) : Statement (.rem rd rs1 rs2) :=
  low_encR _ _ _ _ _ _ 2 (by decide)

theorem remu (rd rs1 rs2 : Reg) : Statement (.remu rd rs1 rs2) :=
  low_encR _ _ _ _ _ _ 2 (by decide)

theorem lui (rd : Reg) (imm : BitVec 20) : Statement (.lui rd imm) :=
  low_encL _ _ _ 2 (by decide)

theorem addiw (rd rs1 : Reg) (imm : BitVec 12) : Statement (.addiw rd rs1 imm) :=
  low_encI _ _ _ _ _ 2 (by decide)

theorem slliw (rd rs1 : Reg) (shamt : BitVec 5) : Statement (.slliw rd rs1 shamt) :=
  low_encShiftW _ _ _ _ _ _ 2 (by decide)

theorem srliw (rd rs1 : Reg) (shamt : BitVec 5) : Statement (.srliw rd rs1 shamt) :=
  low_encShiftW _ _ _ _ _ _ 2 (by decide)

theorem sraiw (rd rs1 : Reg) (shamt : BitVec 5) : Statement (.sraiw rd rs1 shamt) :=
  low_encShiftW _ _ _ _ _ _ 2 (by decide)

theorem addw (rd rs1 rs2 : Reg) : Statement (.addw rd rs1 rs2) :=
  low_encR _ _ _ _ _ _ 2 (by decide)

theorem subw (rd rs1 rs2 : Reg) : Statement (.subw rd rs1 rs2) :=
  low_encR _ _ _ _ _ _ 2 (by decide)

theorem sllw (rd rs1 rs2 : Reg) : Statement (.sllw rd rs1 rs2) :=
  low_encR _ _ _ _ _ _ 2 (by decide)

theorem srlw (rd rs1 rs2 : Reg) : Statement (.srlw rd rs1 rs2) :=
  low_encR _ _ _ _ _ _ 2 (by decide)

theorem sraw (rd rs1 rs2 : Reg) : Statement (.sraw rd rs1 rs2) :=
  low_encR _ _ _ _ _ _ 2 (by decide)

theorem mulw (rd rs1 rs2 : Reg) : Statement (.mulw rd rs1 rs2) :=
  low_encR _ _ _ _ _ _ 2 (by decide)

theorem divw (rd rs1 rs2 : Reg) : Statement (.divw rd rs1 rs2) :=
  low_encR _ _ _ _ _ _ 2 (by decide)

theorem divuw (rd rs1 rs2 : Reg) : Statement (.divuw rd rs1 rs2) :=
  low_encR _ _ _ _ _ _ 2 (by decide)

theorem remw (rd rs1 rs2 : Reg) : Statement (.remw rd rs1 rs2) :=
  low_encR _ _ _ _ _ _ 2 (by decide)

theorem remuw (rd rs1 rs2 : Reg) : Statement (.remuw rd rs1 rs2) :=
  low_encR _ _ _ _ _ _ 2 (by decide)

theorem flw (rd rs1 : Reg) (imm : BitVec 12) : Statement (.flw rd rs1 imm) :=
  low_encI _ _ _ _ _ 2 (by decide)

theorem fld (rd rs1 : Reg) (imm : BitVec 12) : Statement (.fld rd rs1 imm) :=
  low_encI _ _ _ _ _ 2 (by decide)

theorem fsw (rs1 rs2 : Reg) (imm : BitVec 12) : Statement (.fsw rs1 rs2 imm) :=
  low_encR _ _ _ _ _ _ 2 (by decide)

theorem fsd (rs1 rs2 : Reg) (imm : BitVec 12) : Statement (.fsd rs1 rs2 imm) :=
  low_encR _ _ _ _ _ _ 2 (by decide)

theorem faddS (rd rs1 rs2 : Reg) (rm : BitVec 3) : Statement (.faddS rd rs1 rs2 rm) :=
  low_encR4 _ _ _ _ _ _ _ 2 (by decide)

theorem fsubS (rd rs1 rs2 : Reg) (rm : BitVec 3) : Statement (.fsubS rd rs1 rs2 rm) :=
  low_encR4 _ _ _ _ _ _ _ 2 (by decide)

theorem fmulS (rd rs1 rs2 : Reg) (rm : BitVec 3) : Statement (.fmulS rd rs1 rs2 rm) :=
  low_encR4 _ _ _ _ _ _ _ 2 (by decide)

theorem fdivS (rd rs1 rs2 : Reg) (rm : BitVec 3) : Statement (.fdivS rd rs1 rs2 rm) :=
  low_encR4 _ _ _ _ _ _ _ 2 (by decide)

theorem fsqrtS (rd rs1 : Reg) (rm : BitVec 3) : Statement (.fsqrtS rd rs1 rm) :=
  low_encR4 _ _ _ _ _ _ _ 2 (by decide)

theorem fminS (rd rs1 rs2 : Reg) : Statement (.fminS rd rs1 rs2) :=
  low_encR4 _ _ _ _ _ _ _ 2 (by decide)

theorem fmaxS (rd rs1 rs2 : Reg) : Statement (.fmaxS rd rs1 rs2) :=
  low_encR4 _ _ _ _ _ _ _ 2 (by decide)

theorem faddD (rd rs1 rs2 : Reg) (rm : BitVec 3) : Statement (.faddD rd rs1 rs2 rm) :=
  low_encR4 _ _ _ _ _ _ _ 2 (by decide)

theorem fsubD (rd rs1 rs2 : Reg) (rm : BitVec 3) : Statement (.fsubD rd rs1 rs2 rm) :=
  low_encR4 _ _ _ _ _ _ _ 2 (by decide)

theorem fmulD (rd rs1 rs2 : Reg) (rm : BitVec 3) : Statement (.fmulD rd rs1 rs2 rm) :=
  low_encR4 _ _ _ _ _ _ _ 2 (by decide)

theorem fdivD (rd rs1 rs2 : Reg) (rm : BitVec 3) : Statement (.fdivD rd rs1 rs2 rm) :=
  low_encR4 _ _ _ _ _ _ _ 2 (by decide)

theorem fsqrtD (rd rs1 : Reg) (rm : BitVec 3) : Statement (.fsqrtD rd rs1 rm) :=
  low_encR4 _ _ _ _ _ _ _ 2 (by decide)

theorem fminD (rd rs1 rs2 : Reg) : Statement (.fminD rd rs1 rs2) :=
  low_encR4 _ _ _ _ _ _ _ 2 (by decide)

theorem fmaxD (rd rs1 rs2 : Reg) : Statement (.fmaxD rd rs1 rs2) :=
  low_encR4 _ _ _ _ _ _ _ 2 (by decide)

theorem fmaddS (rd rs1 rs2 rs3 : Reg) (rm : BitVec 3) : Statement (.fmaddS rd rs1 rs2 rs3 rm) :=
  low_encR4 _ _ _ _ _ _ _ 2 (by decide)

theorem fmsubS (rd rs1 rs2 rs3 : Reg) (rm : BitVec 3) : Statement (.fmsubS rd rs1 rs2 rs3 rm) :=
  low_encR4 _ _ _ _ _ _ _ 2 (by decide)

theorem fnmsubS (rd rs1 rs2 rs3 : Reg) (rm : BitVec 3) : Statement (.fnmsubS rd rs1 rs2 rs3 rm) :=
  low_encR4 _ _ _ _ _ _ _ 2 (by decide)

theorem fnmaddS (rd rs1 rs2 rs3 : Reg) (rm : BitVec 3) : Statement (.fnmaddS rd rs1 rs2 rs3 rm) :=
  low_encR4 _ _ _ _ _ _ _ 2 (by decide)

theorem fmaddD (rd rs1 rs2 rs3 : Reg) (rm : BitVec 3) : Statement (.fmaddD rd rs1 rs2 rs3 rm) :=
  low_encR4 _ _ _ _ _ _ _ 2 (by decide)

theorem fmsubD (rd rs1 rs2 rs3 : Reg) (rm : BitVec 3) : Statement (.fmsubD rd rs1 rs2 rs3 rm) :=
  low_encR4 _ _ _ _ _ _ _ 2 (by decide)

theorem fnmsubD (rd rs1 rs2 rs3 : Reg) (rm : BitVec 3) : Statement (.fnmsubD rd rs1 rs2 rs3 rm) :=
  low_encR4 _ _ _ _ _ _ _ 2 (by decide)

theorem fnmaddD (rd rs1 rs2 rs3 : Reg) (rm : BitVec 3) : Statement (.fnmaddD rd rs1 rs2 rs3 rm) :=
  low_encR4 _ _ _ _ _ _ _ 2 (by decide)

theorem fsgnjS (rd rs1 rs2 : Reg) : Statement (.fsgnjS rd rs1 rs2) :=
  low_encR4 _ _ _ _ _ _ _ 2 (by decide)

theorem fsgnjnS (rd rs1 rs2 : Reg) : Statement (.fsgnjnS rd rs1 rs2) :=
  low_encR4 _ _ _ _ _ _ _ 2 (by decide)

theorem fsgnjxS (rd rs1 rs2 : Reg) : Statement (.fsgnjxS rd rs1 rs2) :=
  low_encR4 _ _ _ _ _ _ _ 2 (by decide)

theorem fsgnjD (rd rs1 rs2 : Reg) : Statement (.fsgnjD rd rs1 rs2) :=
  low_encR4 _ _ _ _ _ _ _ 2 (by decide)

theorem fsgnjnD (rd rs1 rs2 : Reg) : Statement (.fsgnjnD rd rs1 rs2) :=
  low_encR4 _ _ _ _ _ _ _ 2 (by decide)

theorem fsgnjxD (rd rs1 rs2 : Reg) : Statement (.fsgnjxD rd rs1 rs2) :=
  low_encR4 _ _ _ _ _ _ _ 2 (by decide)

theorem fcvtSD (rd rs1 : Reg) (rm : BitVec 3) : Statement (.fcvtSD rd rs1 rm) :=
  low_encR4 _ _ _ _ _ _ _ 2 (by decide)

theorem fcvtDS (rd rs1 : Reg) (rm : BitVec 3) : Statement (.fcvtDS rd rs1 rm) :=
  low_encR4 _ _ _ _ _ _ _ 2 (by decide)

theorem fcvtSL (rd rs1 : Reg) (rm : BitVec 3) : Statement (.fcvtSL rd rs1 rm) :=
  low_encR4 _ _ _ _ _ _ _ 2 (by decide)

theorem fcvtSLU (rd rs1 : Reg) (rm : BitVec 3) : Statement (.fcvtSLU rd rs1 rm) :=
  low_encR4 _ _ _ _ _ _ _ 2 (by decide)

theorem fcvtSW (rd rs1 : Reg) (rm : BitVec 3) : Statement (.fcvtSW rd rs1 rm) :=
  low_encR4 _ _ _ _ _ _ _ 2 (by decide)

theorem fcvtSWU (rd rs1 : Reg) (rm : BitVec 3) : Statement (.fcvtSWU rd rs1 rm) :=
  low_encR4 _ _ _ _ _ _ _ 2 (by decide)

theorem fcvtDL (rd rs1 : Reg) (rm : BitVec 3) : Statement (.fcvtDL rd rs1 rm) :=
  low_encR4 _ _ _ _ _ _ _ 2 (by decide)

theorem fcvtDLU (rd rs1 : Reg) (rm : BitVec 3) : Statement (.fcvtDLU rd rs1 rm) :=
  low_encR4 _ _ _ _ _ _ _ 2 (by decide)

theorem fcvtDW (rd rs1 : Reg) (rm : BitVec 3) : Statement (.fcvtDW rd rs1 rm) :=
  low_encR4 _ _ _ _ _ _ _ 2 (by decide)

theorem fcvtDWU (rd rs1 : Reg) (rm : BitVec 3) : Statement (.fcvtDWU rd rs1 rm) :=
  low_encR4 _ _ _ _ _ _ _ 2 (by decide)

theorem mxtfS (rd rs1 : Reg) : Statement (.mxtfS rd rs1) :=
  low_encR4 _ _ _ _ _ _ _ 2 (by decide)

theorem mxtfD (rd rs1 : Reg) : Statement (.mxtfD rd rs1) :=
  low_encR4 _ _ _ _ _ _ _ 2 (by decide)

theorem mtfsr (rd rs1 : Reg) : Statement (.mtfsr rd rs1) :=
  low_encR4 _ _ _ _ _ _ _ 2 (by decide)

theorem fcvtLS (rd rs1 : Reg) (rm : BitVec 3) : Statement (.fcvtLS rd rs1 rm) :=
  low_encR4 _ _ _ _ _ _ _ 2 (by decide)

theorem fcvtLUS (rd rs1 : Reg) (rm : BitVec 3) : Statement (.fcvtLUS rd rs1 rm) :=
  low_encR4 _ _ _ _ _ _ _ 2 (by decide)

theorem fcvtWS (rd rs1 : Reg) (rm : BitVec 3) : Statement (.fcvtWS rd rs1 rm) :=
  low_encR4 _ _ _ _ _ _ _ 2 (by decide)

theorem fcvtWUS (rd rs1 : Reg) (rm : BitVec 3) : Statement (.fcvtWUS rd rs1 rm) :=
  low_encR4 _ _ _ _ _ _ _ 2 (by decide)

theorem fcvtLD (rd rs1 : Reg) (rm : BitVec 3) : Statement (.fcvtLD rd rs1 rm) :=
  low_encR4 _ _ _ _ _ _ _ 2 (by decide)

theorem fcvtLUD (rd rs1 : Reg) (rm : BitVec 3) : Statement (.fcvtLUD rd rs1 rm) :=
  low_encR4 _ _ _ _ _ _ _ 2 (by decide)

theorem fcvtWD (rd rs1 : Reg) (rm : BitVec 3) : Statement (.fcvtWD rd rs1 rm) :=
  low_encR4 _ _ _ _ _ _ _ 2 (by decide)

theorem fcvtWUD (rd rs1 : Reg) (rm : BitVec 3) : Statement (.fcvtWUD rd rs1 rm) :=
  low_encR4 _ _ _ _ _ _ _ 2 (by decide)

theorem mftxS (rd rs2 : Reg) : Statement (.mftxS rd rs2) :=
  low_encR4 _ _ _ _ _ _ _ 2 (by decide)

theorem mftxD (rd rs2 : Reg) : Statement (.mftxD rd rs2) :=
  low_encR4 _ _ _ _ _ _ _ 2 (by decide)

theorem mffsr (rd : Reg) : Statement (.mffsr rd) :=
  low_encR4 _ _ _ _ _ _ _ 2 (by decide)

theorem feqS (rd rs1 rs2 : Reg) : Statement (.feqS rd rs1 rs2) :=
  low_encR4 _ _ _ _ _ _ _ 2 (by decide)

theorem fltS (rd rs1 rs2 : Reg) : Statement (.fltS rd rs1 rs2) :=
  low_encR4 _ _ _ _ _ _ _ 2 (by decide)

theorem fleS (rd rs1 rs2 : Reg) : Statement (.fleS rd rs1 rs2) :=
  low_encR4 _ _ _ _ _ _ _ 2 (by decide)

theorem feqD (rd rs1 rs2 : Reg) : Statement (.feqD rd rs1 rs2) :=
  low_encR4 _ _ _ _ _ _ _ 2 (by decide)

theorem fltD (rd rs1 rs2 : Reg) : Statement (.fltD rd rs1 rs2) :=
  low_encR4 _ _ _ _ _ _ _ 2 (by decide)

theorem fleD (rd rs1 rs2 : Reg) : Statement (.fleD rd rs1 rs2) :=
  low_encR4 _ _ _ _ _ _ _ 2 (by decide)

theorem fenceI (ignored : BitVec 22) : Statement (.fenceI ignored) :=
  low_encIgnored _ _ _ 2 (by decide)

theorem fence (ignored : BitVec 22) : Statement (.fence ignored) :=
  low_encIgnored _ _ _ 2 (by decide)

theorem syscall : Statement (.syscall) :=
  low_encR _ _ _ _ _ _ 2 (by decide)

theorem brk : Statement (.brk) :=
  low_encR _ _ _ _ _ _ 2 (by decide)

theorem rdcycle (rd : Reg) : Statement (.rdcycle rd) :=
  low_encR _ _ _ _ _ _ 2 (by decide)

theorem rdtime (rd : Reg) : Statement (.rdtime rd) :=
  low_encR _ _ _ _ _ _ 2 (by decide)

theorem rdinstret (rd : Reg) : Statement (.rdinstret rd) :=
  low_encR _ _ _ _ _ _ 2 (by decide)

end Sys2Proof.Laws.LowBits
end

