-- ==== Sys2Proof/Laws/Rounding.lean ====
section
/-! SUPPORT. Rounding: what `roundTo` and `roundPack` say of the exact number, and that the numbers of a format leave no room
between the result and its neighbours. -/

namespace Sys2Proof.Machine

/-- The natural number `n` is `y ≥ 0`, the magnitude of a number of the given sign, rounded to an integer. -/
def RoundedNat (rm : Rounding) (sign : Bool) (y : ℝ) (n : Nat) : Prop :=
  match rm with
  | .rne => |y - n| ≤ 1 / 2 ∧ (|y - n| = 1 / 2 → n % 2 = 0)
  | .rtz => (n : ℝ) ≤ y ∧ y < n + 1
  | .rdn => if sign = true then y ≤ n ∧ (n : ℝ) < y + 1 else (n : ℝ) ≤ y ∧ y < n + 1
  | .rup => if sign = true then (n : ℝ) ≤ y ∧ y < n + 1 else y ≤ n ∧ (n : ℝ) < y + 1
  | .rmm => |y - n| ≤ 1 / 2 ∧ (|y - n| = 1 / 2 → y < n)

/-- What the quotient and the remainder of a division have to say of `y` for rounding by them to be rounding `y`. -/
structure Splits (y : ℝ) (k rem unit : Nat) : Prop where
  le : (k : ℝ) ≤ y
  lt : y < k + 1
  zero : rem = 0 ↔ y = k
  half : 2 * rem = unit ↔ y = k + 1 / 2
  above : unit < 2 * rem ↔ (k : ℝ) + 1 / 2 < y

theorem roundsAway_spec (rm : Rounding) (sign : Bool) (y : ℝ) (k rem unit : Nat) (h : Splits y k rem unit) :
    RoundedNat rm sign y (if roundsAway rm sign k rem unit then k + 1 else k) ∧
      ((rem != 0) = true ↔ ((if roundsAway rm sign k rem unit then k + 1 else k : Nat) : ℝ) ≠ y) := by
  obtain ⟨h1, h2, h3, h4, h5⟩ := h
  have hz : (rem != 0) = true ↔ y ≠ k := by simp [h3]
  have hu : rem = 0 → unit ≠ 0 := by
    rintro h0 rfl
    have := h3.1 h0; have := h4.1 (by omega); linarith
  have key : ∀ c : Bool, (rem = 0 → c = false) →
      ((rem != 0) = true ↔ ((if c then k + 1 else k : Nat) : ℝ) ≠ y) := by
    intro c hc
    rw [hz]
    cases c
    · simp [eq_comm]
    · have : ¬ rem = 0 := fun h0 => by simpa using hc h0
      simp only [if_true, Nat.cast_add, Nat.cast_one]
      exact ⟨fun _ e => by linarith, fun _ => mt h3.2 this⟩
  have up : ∀ c : Bool, ((if c then k + 1 else k : Nat) : ℝ) = k + if c then 1 else 0 := by intro c; cases c <;> simp
  have a0 : |y - k| = y - k := abs_of_nonneg (by linarith)
  have a1 : |y - (k + 1)| = k + 1 - y := by rw [abs_of_nonpos (by linarith)]; ring
  cases rm
  case rtz => exact ⟨⟨by simpa [roundsAway] using h1, by simpa [roundsAway] using h2⟩, key _ (fun _ => rfl)⟩
  case rdn =>
    refine ⟨?_, key _ (fun h0 => by simp [roundsAway, h0])⟩
    simp only [RoundedNat, roundsAway]
    cases sign
    · simp [h1, h2]
    · by_cases h0 : rem = 0
      · simp [h0, h3.1 h0]
      · have := lt_of_le_of_ne h1 (fun e => h0 (h3.2 e.symm))
        simp [h0]; constructor <;> linarith
  case rup =>
    refine ⟨?_, key _ (fun h0 => by simp [roundsAway, h0])⟩
    simp only [RoundedNat, roundsAway]
    cases sign
    · by_cases h0 : rem = 0
      · simp [h0, h3.1 h0]
      · have := lt_of_le_of_ne h1 (fun e => h0 (h3.2 e.symm))
        simp [h0]; constructor <;> linarith
    · simp [h1, h2]
  case rne =>
    refine ⟨?_, key _ (fun h0 => by have := hu h0; simp only [roundsAway, h0]; simp; omega)⟩
    simp only [RoundedNat]
    by_cases ha : unit < 2 * rem
    · have h := h5.1 ha
      simp only [roundsAway, ha, decide_true, Bool.true_or, if_true, Nat.cast_add, Nat.cast_one, a1]
      exact ⟨by linarith, fun e => by linarith⟩
    · have h := not_lt.1 (mt h5.2 ha)
      by_cases hb : 2 * rem = unit
      · have hy := h4.1 hb
        by_cases hk : k % 2 = 1
        · have hc : roundsAway .rne sign k rem unit = true := by simp [roundsAway, hb, hk]
          rw [hc, if_pos rfl, Nat.cast_add, Nat.cast_one, a1]
          exact ⟨by linarith, fun _ => by omega⟩
        · have hc : roundsAway .rne sign k rem unit = false := by simp [roundsAway, hb, hk]
          rw [hc, if_neg (by simp), a0]
          exact ⟨by linarith, fun _ => by omega⟩
      · have hne := mt h4.2 hb
        simp only [roundsAway, ha, hb, decide_false, Bool.false_or, Bool.false_and, Bool.false_eq_true, if_false, a0]
        exact ⟨by linarith, fun e => absurd (by linarith) hne⟩
  case rmm =>
    refine ⟨?_, key _ (fun h0 => by simp [roundsAway, h0])⟩
    simp only [RoundedNat]
    by_cases ha : unit ≤ 2 * rem
    · have h : (k : ℝ) + 1 / 2 ≤ y := by
        rcases Nat.lt_or_ge unit (2 * rem) with hl | hl
        · exact (h5.1 hl).le
        · exact (h4.1 (by omega)).ge
      have h0 : rem ≠ 0 := fun h0 => by have := h3.1 h0; linarith
      simp only [roundsAway, ha, h0, decide_true, Bool.true_and, bne_iff_ne, ne_eq, not_false_eq_true, if_true, Nat.cast_add, Nat.cast_one, a1]
      exact ⟨by linarith, fun e => by linarith⟩
    · have h : y < k + 1 / 2 := by
        rcases lt_trichotomy y (k + 1 / 2) with hl | hl | hl
        · exact hl
        · have := h4.2 hl; omega
        · have := h5.2 hl; omega
      simp only [roundsAway, ha, decide_false, Bool.false_and, Bool.false_eq_true, if_false, a0]
      exact ⟨by linarith, fun e => by linarith⟩

/-- `m · 2^e` stands for the magnitude `X` in a rounding to multiples of `2^q`: it is `X`, or `m` is odd, `X` lies between its
neighbours and two bits of `m` at least are below the unit, so that the last of them says that `X` is no tie. -/
def Stands (m : Nat) (e : Int) (X : ℝ) (q : Int) : Prop :=
  X = m * 2 ^ e ∨ (m % 2 = 1 ∧ e + 2 ≤ q ∧ ((m : ℝ) - 1) * 2 ^ e < X ∧ X < (m + 1) * 2 ^ e)

theorem rpos (e : Int) : (0 : ℝ) < 2 ^ e := zpow_pos (by norm_num) e

theorem splits_of_stands (m : Nat) (e q : Int) (X : ℝ) (h : Stands m e X q) (hq : e < q) :
    Splits (X / 2 ^ q) (m / 2 ^ (q - e).toNat) (m % 2 ^ (q - e).toNat) (2 ^ (q - e).toNat) := by
  obtain ⟨j, hj⟩ : ∃ j : Nat, q = e + (j + 1 : Nat) := ⟨(q - e).toNat - 1, by omega⟩
  have hjn : (q - e).toNat = j + 1 := by omega
  rw [hjn]
  have hX : X / 2 ^ q = X / 2 ^ e / 2 ^ (j + 1) := by
    rw [hj, zpow_add₀ (by norm_num), zpow_natCast, div_div]
  rw [hX]
  have hm := Nat.div_add_mod m (2 ^ (j + 1))
  have hlt := Nat.mod_lt m (Nat.two_pow_pos (j + 1))
  generalize m / 2 ^ (j + 1) = k at *
  generalize m % 2 ^ (j + 1) = rem at *
  have hz : X / 2 ^ e = m ∨ (m % 2 = 1 ∧ 1 ≤ j ∧ ((m : ℝ) - 1) < X / 2 ^ e ∧ X / 2 ^ e < m + 1) := by
    rcases h with h | ⟨ho, hq', h1, h2⟩
    · left; rw [h]; field_simp
    · right; exact ⟨ho, by omega, (lt_div_iff₀ (rpos e)).2 h1, (div_lt_iff₀ (rpos e)).2 h2⟩
  generalize X / 2 ^ e = z at *
  have hu : (2 : ℝ) ^ (j + 1) = 2 * 2 ^ j := by rw [pow_succ]; ring
  have hun : 2 ^ (j + 1) = 2 * 2 ^ j := by rw [Nat.pow_succ]; ring
  rw [hun] at hm hlt ⊢
  rw [hu]
  have hpos : (0 : ℝ) < 2 ^ j := by positivity
  have hmr : (m : ℝ) = 2 * 2 ^ j * k + rem := by rw [← hm]; push_cast; ring
  have hp : 0 < 2 * (2 : ℝ) ^ j := by positivity
  have hP : ((2 ^ j : Nat) : ℝ) = 2 ^ j := by push_cast; ring
  have e1 : (k : ℝ) ≤ z / (2 * 2 ^ j) ↔ 2 * 2 ^ j * k ≤ z := by rw [le_div_iff₀ hp, mul_comm]
  have e2 : z / (2 * 2 ^ j) < (k : ℝ) + 1 ↔ z < 2 * 2 ^ j * k + 2 * 2 ^ j := by
    rw [div_lt_iff₀ hp]; constructor <;> intro h <;> linarith
  have e3 : z / (2 * 2 ^ j) = (k : ℝ) ↔ z = 2 * 2 ^ j * k := by rw [div_eq_iff hp.ne', mul_comm]
  have e4 : z / (2 * 2 ^ j) = (k : ℝ) + 1 / 2 ↔ z = 2 * 2 ^ j * k + 2 ^ j := by
    rw [div_eq_iff hp.ne']; constructor <;> intro h <;> linarith
  have e5 : (k : ℝ) + 1 / 2 < z / (2 * 2 ^ j) ↔ 2 * 2 ^ j * k + 2 ^ j < z := by
    rw [lt_div_iff₀ hp]; constructor <;> intro h <;> linarith
  have c1 : 2 ^ j < rem ↔ (2 : ℝ) ^ j < rem := by rw [← hP, Nat.cast_lt]
  have c2 : rem = 2 ^ j ↔ (rem : ℝ) = 2 ^ j := by rw [← hP, Nat.cast_inj]
  have c3 : (rem : ℝ) < 2 * 2 ^ j := by rw [← hP]; exact_mod_cast hlt
  have c4 : rem = 0 ↔ (rem : ℝ) = 0 := by rw [Nat.cast_eq_zero]
  have c0 : (0 : ℝ) ≤ rem := Nat.cast_nonneg _
  rcases hz with rfl | ⟨ho, hj1, h1, h2⟩
  · rw [hmr] at *
    refine ⟨e1.2 (by linarith), e2.2 (by linarith), ?_, ?_, ?_⟩
    · rw [e3, c4]; constructor <;> intro h <;> linarith
    · rw [e4, show 2 * rem = 2 * 2 ^ j ↔ rem = 2 ^ j by omega, c2]; constructor <;> intro h <;> linarith
    · rw [e5, show 2 * 2 ^ j < 2 * rem ↔ 2 ^ j < rem by omega, c1]; constructor <;> intro h <;> linarith
  · obtain ⟨i, rfl⟩ : ∃ i, j = i + 1 := ⟨j - 1, by omega⟩
    have hi : 2 ^ (i + 1) = 2 * 2 ^ i := by rw [Nat.pow_succ]; ring
    have hro : rem % 2 = 1 := by
      rw [hi] at hm
      have : 2 * (2 * 2 ^ i) * k = 2 * (2 * 2 ^ i * k) := by ring
      omega
    have d1 : (1 : ℝ) ≤ rem := by exact_mod_cast (show 1 ≤ rem by omega)
    have d2 : (rem : ℝ) + 1 ≤ 2 * 2 ^ (i + 1) := by rw [← hP]; exact_mod_cast (show rem + 1 ≤ 2 * 2 ^ (i + 1) by omega)
    have d3 : 2 ^ (i + 1) < rem → (2 : ℝ) ^ (i + 1) + 1 ≤ rem := by
      intro h; rw [← hP]; exact_mod_cast (show 2 ^ (i + 1) + 1 ≤ rem by omega)
    have d4 : ¬ 2 ^ (i + 1) < rem → (rem : ℝ) + 1 ≤ (2 : ℝ) ^ (i + 1) := by
      intro h; rw [← hP]; exact_mod_cast (show rem + 1 ≤ 2 ^ (i + 1) by omega)
    have d5 : rem ≠ 2 ^ (i + 1) := by omega
    rw [hmr] at h1 h2
    refine ⟨e1.2 (by linarith), e2.2 (by linarith), ?_, ?_, ?_⟩
    · rw [e3]; constructor <;> intro h
      · omega
      · linarith
    · rw [e4]; constructor <;> intro h
      · omega
      · by_cases hc : 2 ^ (i + 1) < rem
        · have := d3 hc; linarith
        · have := d4 hc; linarith
    · rw [e5, show 2 * 2 ^ (i + 1) < 2 * rem ↔ 2 ^ (i + 1) < rem by omega]
      by_cases hc : 2 ^ (i + 1) < rem
      · have := d3 hc; exact ⟨fun _ => by linarith, fun _ => hc⟩
      · have := d4 hc; exact ⟨fun h => absurd h hc, fun h => by linarith⟩

/-- Rounding to a multiple of `2^q` is rounding the number of those units to an integer, and says whether that changed it. -/
theorem roundTo_spec (rm : Rounding) (sign : Bool) (m : Nat) (e q : Int) (X : ℝ) (h : Stands m e X q) :
    RoundedNat rm sign (X / 2 ^ q) (roundTo rm sign m e q).1 ∧
      ((roundTo rm sign m e q).2 = true ↔ ((roundTo rm sign m e q).1 : ℝ) ≠ X / 2 ^ q) := by
  unfold roundTo
  by_cases hq : q ≤ e
  · rw [if_pos hq]
    have hX : X / 2 ^ q = ((m * 2 ^ (e - q).toNat : Nat) : ℝ) := by
      rcases h with h | ⟨_, h, _⟩
      · obtain ⟨k, hk⟩ := Int.le.dest hq
        rw [h, ← hk, zpow_add₀ (by norm_num), zpow_natCast, show (q + (k : Int) - q).toNat = k by omega]
        have := (rpos q).ne'
        push_cast; field_simp
      · omega
    rw [hX]
    generalize m * 2 ^ (e - q).toNat = n
    refine ⟨?_, by simp⟩
    cases rm <;> simp only [RoundedNat, sub_self, abs_zero] <;> (try split) <;> (try constructor) <;> norm_num
  · rw [if_neg hq]
    exact roundsAway_spec rm sign _ _ _ _ (splits_of_stands m e q X h (by omega))

/-- A magnitude with a sign. -/
def signedR (sign : Bool) (z : ℝ) : ℝ := if sign = true then -z else z

theorem signedR_signedR (s : Bool) (z : ℝ) : signedR s (signedR s z) = z := by cases s <;> simp [signedR]

/-- A rounded magnitude is the rounded number, on a grid that has nothing between `k` and `k + 1` units where the number lies
between them. -/
theorem roundsTo_of_nat (rm : Rounding) (sign : Bool) (y u : ℝ) (n k : Nat) (grid : ℝ → Prop) (even : Prop) (hu : 0 < u)
    (h1 : (k : ℝ) ≤ y) (h2 : y < k + 1) (hn : RoundedNat rm sign y n) (hv : grid (signedR sign (n * u)))
    (hgrid : ∀ d, grid d → signedR sign d ≤ k * u ∨ (k + 1) * u ≤ signedR sign d) (he : n % 2 = 0 → even) :
    RoundsTo rm grid even (signedR sign (y * u)) (signedR sign (n * u)) := by
  have hk0 : (0 : ℝ) ≤ k := Nat.cast_nonneg k
  -- the candidates in units, along the sign
  have hd : ∀ d, grid d → ∃ δ : ℝ, d = signedR sign (δ * u) ∧ (δ ≤ k ∨ k + 1 ≤ δ) := by
    intro d hg
    refine ⟨signedR sign d / u, by rw [div_mul_cancel₀ _ hu.ne', signedR_signedR], ?_⟩
    rcases hgrid d hg with h | h
    · exact .inl ((div_le_iff₀ hu).2 h)
    · exact .inr ((le_div_iff₀ hu).2 h)
  have hle : ∀ p q : ℝ, p * u ≤ q * u ↔ p ≤ q := fun p q => mul_le_mul_iff_left₀ hu
  have hlt : ∀ p q : ℝ, p * u < q * u ↔ p < q := fun p q => mul_lt_mul_iff_left₀ hu
  have hnk : n = k ∨ n = k + 1 := by
    have : (n : ℝ) < k + 2 ∧ (k : ℝ) < n + 1 := by
      cases rm <;> simp only [RoundedNat] at hn
      · obtain ⟨h, -⟩ := hn; rw [abs_le] at h; constructor <;> linarith
      · constructor <;> linarith
      · split at hn <;> constructor <;> linarith
      · split at hn <;> constructor <;> linarith
      · obtain ⟨h, -⟩ := hn; rw [abs_le] at h; constructor <;> linarith
    have a : n < k + 2 := by exact_mod_cast this.1
    have b : k < n + 1 := by exact_mod_cast this.2
    omega
  have habs : ∀ p q : ℝ, |signedR sign (p * u) - signedR sign (q * u)| = |p - q| * u := by
    intro p q
    rw [← abs_of_pos hu, ← abs_mul, abs_of_pos hu]
    cases sign
    · simp only [signedR, Bool.false_eq_true, if_false]; congr 1; ring
    · simp only [signedR, if_true]; rw [← abs_neg]; congr 1; ring
  have habs0 : ∀ p : ℝ, |signedR sign (p * u)| = |p| * u := by
    intro p
    rw [← abs_of_pos hu, ← abs_mul, abs_of_pos hu]
    cases sign <;> simp [signedR]
  have hdown : (n : ℝ) ≤ y → y < n + 1 → if sign = true then RoundsUp grid (signedR sign (y * u)) (signedR sign (n * u))
      else RoundsDown grid (signedR sign (y * u)) (signedR sign (n * u)) := by
    intro a b
    have hn' : (n : ℝ) = k := by
      rcases hnk with h | h
      · rw [h]
      · rw [h] at a; push_cast at a; linarith
    rw [hn']
    cases sign
    · simp only [signedR, Bool.false_eq_true, if_false] at *
      refine ⟨(hle _ _).2 h1, fun d hg hdx => ?_⟩
      obtain ⟨δ, rfl, hδ⟩ := hd d hg
      rw [hle] at hdx ⊢
      rcases hδ with h | h <;> linarith
    · simp only [signedR, if_true] at *
      refine ⟨by have := (hle _ _).2 h1; linarith, fun d hg hdx => ?_⟩
      obtain ⟨δ, rfl, hδ⟩ := hd d hg
      rw [neg_le_neg_iff, hle] at hdx ⊢
      rcases hδ with h | h <;> linarith
  have hup : y ≤ n → (n : ℝ) < y + 1 → if sign = true then RoundsDown grid (signedR sign (y * u)) (signedR sign (n * u))
      else RoundsUp grid (signedR sign (y * u)) (signedR sign (n * u)) := by
    intro a b
    have hδn : ∀ δ : ℝ, (δ ≤ k ∨ k + 1 ≤ δ) → y ≤ δ → (n : ℝ) ≤ δ := by
      intro δ hδ hy
      rcases hnk with h | h
      · rw [h] at a ⊢; linarith
      · rw [h] at b ⊢; push_cast at b ⊢
        rcases hδ with h | h <;> linarith
    cases sign
    · simp only [signedR, Bool.false_eq_true, if_false] at *
      refine ⟨(hle _ _).2 a, fun d hg hdx => ?_⟩
      obtain ⟨δ, rfl, hδ⟩ := hd d hg
      rw [hle] at hdx ⊢
      exact hδn δ hδ hdx
    · simp only [signedR, if_true] at *
      refine ⟨by have := (hle _ _).2 a; linarith, fun d hg hdx => ?_⟩
      obtain ⟨δ, rfl, hδ⟩ := hd d hg
      rw [neg_le_neg_iff, hle] at hdx ⊢
      exact hδn δ hδ hdx
  have hnear : |y - n| ≤ 1 / 2 → ∀ δ : ℝ, (δ ≤ k ∨ k + 1 ≤ δ) → |y - n| ≤ |y - δ| ∧
      (|y - n| = |y - δ| → δ ≠ n → |y - n| = 1 / 2 ∧ (y < n → δ = k ∧ n = k + 1)) := by
    intro hy δ hδ
    have a0 : |y - k| = y - k := abs_of_nonneg (by linarith)
    have a1 : |y - (k + 1)| = k + 1 - y := by rw [abs_of_nonpos (by linarith)]; ring
    rcases hδ with hδ | hδ
    · have a2 : |y - δ| = y - δ := abs_of_nonneg (by linarith)
      rw [a2]
      rcases hnk with rfl | rfl
      · rw [a0] at hy ⊢
        exact ⟨by linarith, fun e hne => absurd (by linarith) hne⟩
      · push_cast at hy ⊢
        rw [a1] at hy ⊢
        exact ⟨by linarith, fun e _ => ⟨by linarith, fun _ => ⟨by linarith, rfl⟩⟩⟩
    · have a2 : |y - δ| = δ - y := by rw [abs_of_nonpos (by linarith)]; ring
      rw [a2]
      rcases hnk with rfl | rfl
      · rw [a0] at hy ⊢
        exact ⟨by linarith, fun e _ => ⟨by linarith, fun h => by linarith⟩⟩
      · push_cast at hy ⊢
        rw [a1] at hy ⊢
        exact ⟨by linarith, fun e hne => absurd (by linarith) hne⟩
  have hne : ∀ δ : ℝ, signedR sign (δ * u) ≠ signedR sign (n * u) → δ ≠ n := by rintro δ h rfl; exact h rfl
  refine ⟨hv, ?_⟩
  cases rm <;> simp only [RoundedNat] at hn ⊢
  case rne =>
    intro d hg
    obtain ⟨δ, rfl, hδ⟩ := hd d hg
    obtain ⟨b1, b2⟩ := hnear hn.1 δ hδ
    rw [habs, habs, hle]
    exact ⟨b1, fun e h => he (hn.2 (b2 (mul_right_cancel₀ hu.ne' e) (hne δ h)).1)⟩
  case rmm =>
    intro d hg
    obtain ⟨δ, rfl, hδ⟩ := hd d hg
    obtain ⟨b1, b2⟩ := hnear hn.1 δ hδ
    rw [habs, habs, hle, habs0, habs0, hlt]
    refine ⟨b1, fun e h => ?_⟩
    obtain ⟨c1, c2⟩ := b2 (mul_right_cancel₀ hu.ne' e) (hne δ h)
    obtain ⟨rfl, rfl⟩ := c2 (hn.2 c1)
    rw [abs_of_nonneg hk0, abs_of_nonneg (Nat.cast_nonneg _)]
    push_cast; linarith
  case rtz =>
    have h := hdown hn.1 hn.2
    have hyu : 0 ≤ y * u := mul_nonneg (by linarith) hu.le
    cases sign
    · simp only [Bool.false_eq_true, if_false] at h
      refine ⟨fun _ => h, fun hx => ?_⟩
      have hy0 : y * u = 0 := le_antisymm (by simpa [signedR] using hx) hyu
      have hy : y = 0 := (mul_eq_zero.1 hy0).resolve_right hu.ne'
      have hn0 : (n : ℝ) = 0 := le_antisymm (by linarith [hn.1]) (Nat.cast_nonneg n)
      rw [hn0, hy]
      exact ⟨le_refl _, fun d _ hd => hd⟩
    · simp only [if_true] at h
      refine ⟨fun hx => ?_, fun _ => h⟩
      have hy0 : y * u = 0 := le_antisymm (by simp only [signedR, if_true] at hx; linarith) hyu
      have hy : y = 0 := (mul_eq_zero.1 hy0).resolve_right hu.ne'
      have hn0 : (n : ℝ) = 0 := le_antisymm (by linarith [hn.1]) (Nat.cast_nonneg n)
      rw [hn0, hy]
      exact ⟨le_refl _, fun d _ hd => hd⟩
  case rdn =>
    cases sign
    · simpa using hdown (by simpa using hn.1) (by simpa using hn.2)
    · simpa using hup (by simpa using hn.1) (by simpa using hn.2)
  case rup =>
    cases sign
    · simpa using hup (by simpa using hn.1) (by simpa using hn.2)
    · simpa using hdown (by simpa using hn.1) (by simpa using hn.2)

/-! ## The numbers of a format -/

theorem signedR_pos (s : Bool) (z : ℝ) (h : 0 < z) : signedR s z < 0 ↔ s = true := by
  cases s <;> simp [signedR, h, h.le]

theorem abs_signedR (s : Bool) (z : ℝ) (h : 0 ≤ z) : |signedR s z| = z := by
  cases s <;> simp [signedR, h]

theorem cast_signedNat (s : Bool) (n : Nat) : ((signedNat s n : Int) : ℝ) = signedR s n := by
  cases s <;> simp [signedNat, signedR]

theorem signedR_mul (s : Bool) (a b : ℝ) : signedR s a * b = signedR s (a * b) := by cases s <;> simp [signedR]

theorem signedR_inj (s : Bool) (a b : ℝ) : signedR s a = signedR s b ↔ a = b := by cases s <;> simp [signedR]

/-- The number of a pattern as a real number. -/
theorem valueOf_real {fm : Fmt} (p : Pattern fm) : ((valueOf p : ℚ) : ℝ) = signedR (signOf p) (sigOf p * 2 ^ expOf p) := by
  rw [valueOf, ← signedR_mul, ← cast_signedNat]
  push_cast; rfl

/-- Between `k` and `k + 1` units of `2^q` a format has no number, when the units are its least or `k` has all the bits of its
precision. -/
theorem grid_gap (fm : Fmt) (sign : Bool) (q : Int) (k : Nat) (hq : q = expMin fm ∨ 2 ^ fracBits fm ≤ k) (d : ℝ)
    (hd : IsNumberOf fm d) : signedR sign d ≤ k * 2 ^ q ∨ (k + 1) * 2 ^ q ≤ signedR sign d := by
  obtain ⟨p, -, rfl⟩ := hd
  rw [valueOf_real]
  have hk : (0 : ℝ) ≤ k * 2 ^ q := mul_nonneg (Nat.cast_nonneg _) (rpos q).le
  have hD : (0 : ℝ) ≤ sigOf p * 2 ^ expOf p := mul_nonneg (Nat.cast_nonneg _) (rpos _).le
  by_cases hs : signOf p = sign
  · rw [hs, signedR_signedR]
    by_cases he : q ≤ expOf p
    · obtain ⟨j, hj⟩ := Int.le.dest he
      have e1 : (sigOf p : ℝ) * 2 ^ expOf p = ((sigOf p * 2 ^ j : Nat) : ℝ) * 2 ^ q := by
        rw [← hj, zpow_add₀ (by norm_num), zpow_natCast]; push_cast; ring
      rw [e1]
      rcases Nat.lt_or_ge k (sigOf p * 2 ^ j) with h | h
      · right
        exact mul_le_mul_of_nonneg_right (by exact_mod_cast h) (rpos q).le
      · left
        exact mul_le_mul_of_nonneg_right (by exact_mod_cast h) (rpos q).le
    · left
      have hm := expMin_le_expOf p
      have hk2 : 2 ^ fracBits fm ≤ k := hq.resolve_left (by omega)
      obtain ⟨j, hj⟩ : ∃ j : Nat, q = expOf p + (j + 1 : Nat) := ⟨(q - expOf p).toNat - 1, by omega⟩
      have e1 : (k : ℝ) * 2 ^ q = ((k * 2 ^ (j + 1) : Nat) : ℝ) * 2 ^ expOf p := by
        rw [hj, zpow_add₀ (by norm_num), zpow_natCast]; push_cast; ring
      rw [e1]
      refine mul_le_mul_of_nonneg_right ?_ (rpos _).le
      have := sigOf_lt p
      rw [Nat.pow_succ] at this
      have h2 : 2 ^ fracBits fm * 2 ^ 1 ≤ k * 2 ^ (j + 1) :=
        Nat.mul_le_mul hk2 (Nat.pow_le_pow_right (by decide) (by omega))
      exact_mod_cast (show sigOf p ≤ k * 2 ^ (j + 1) by omega)
  · left
    have : signedR sign (signedR (signOf p) (sigOf p * 2 ^ expOf p)) = -(sigOf p * 2 ^ expOf p) := by
      cases sign <;> cases h : signOf p <;> simp_all [signedR]
    rw [this]
    linarith

/-- The magnitude put together from an exponent and a rounded significand, in units of the least subnormal. -/
theorem unitsOf_pack (fm : Fmt) (j n : Nat) (h1 : j = 0 ∨ 2 ^ fracBits fm ≤ n) (h2 : n ≤ 2 ^ (fracBits fm + 1)) :
    unitsOf fm (j * 2 ^ fracBits fm + n) = n * 2 ^ j := by
  have hp := Nat.two_pow_pos (fracBits fm)
  rw [Nat.pow_succ] at h2
  unfold unitsOf
  generalize 2 ^ fracBits fm = u at *
  rcases Nat.lt_or_ge n u with h | h
  · obtain rfl : j = 0 := by omega
    rw [Nat.zero_mul, Nat.zero_add, Nat.div_eq_of_lt h]; simp
  · rcases Nat.lt_or_ge n (2 * u) with h' | h'
    · have hd : (j * u + n) / u = j + 1 := by
        rw [show j * u + n = (n - u) + u * (j + 1) by rw [Nat.mul_succ, Nat.mul_comm u j]; omega, Nat.add_mul_div_left _ _ hp,
          Nat.div_eq_of_lt (by omega)]; omega
      have hm : (j * u + n) % u = n - u := by
        rw [show j * u + n = (n - u) + u * (j + 1) by rw [Nat.mul_succ, Nat.mul_comm u j]; omega, Nat.add_mul_mod_self_left,
          Nat.mod_eq_of_lt (by omega)]
      rw [hd, hm, if_neg (by omega), Nat.add_sub_cancel, Nat.sub_add_cancel h]
    · obtain rfl : n = u * 2 := by omega
      have e : j * u + u * 2 = u * (j + 2) := by ring
      rw [e, Nat.mul_div_cancel_left _ hp, Nat.mul_mod_right, if_neg (by omega), show j + 2 - 1 = j + 1 by omega,
        Nat.pow_succ]
      ring

/-! ## Reaching a power of two -/

theorem RoundedNat.ge {rm : Rounding} {s : Bool} {y : ℝ} {n N : Nat} (h : RoundedNat rm s y n) (hN : (N : ℝ) ≤ y) : N ≤ n := by
  have : (N : ℝ) < n + 1 := by
    cases rm <;> simp only [RoundedNat] at h
    · have := abs_le.1 h.1; linarith
    · linarith
    · split at h <;> linarith
    · split at h <;> linarith
    · have := abs_le.1 h.1; linarith
  have : N < n + 1 := by exact_mod_cast this
  omega

theorem RoundedNat.le {rm : Rounding} {s : Bool} {y : ℝ} {n N : Nat} (h : RoundedNat rm s y n) (hN : y ≤ N) : n ≤ N := by
  have : (n : ℝ) < N + 1 := by
    cases rm <;> simp only [RoundedNat] at h
    · have := abs_le.1 h.1; linarith
    · linarith
    · split at h <;> linarith
    · split at h <;> linarith
    · have := abs_le.1 h.1; linarith
  have : n < N + 1 := by exact_mod_cast this
  omega

theorem reaches_of_le (rm : Rounding) (x b g : ℝ) (hg : 0 ≤ g) (h : b ≤ |x|) : ReachesBound rm x b g := by
  cases rm <;> simp only [ReachesBound]
  · linarith
  · exact h
  · exact .inl h
  · exact .inl h
  · linarith

theorem not_reaches_of_le (rm : Rounding) (x b g : ℝ) (hg : 0 < g) (h : |x| ≤ b - g) : ¬ ReachesBound rm x b g := by
  cases rm <;> simp only [ReachesBound] <;> intro hr
  · linarith
  · linarith
  · rcases hr with hr | ⟨-, hr⟩ <;> linarith
  · rcases hr with hr | ⟨-, hr⟩ <;> linarith
  · linarith

theorem zpow_le_two {a b : Int} (h : a ≤ b) : (2 : ℝ) ^ a ≤ 2 ^ b := zpow_le_zpow_right₀ (by norm_num) h
theorem zpow_lt_two {a b : Int} : (2 : ℝ) ^ a < 2 ^ b ↔ a < b := zpow_lt_zpow_iff_right₀ (by norm_num)
theorem zpow_succ_two (a : Int) : (2 : ℝ) ^ (a + 1) = 2 * 2 ^ a := by rw [zpow_add_one₀ (by norm_num)]; ring

/-- A magnitude below `N` is rounded up to it. -/
def ReachesNat (rm : Rounding) (s : Bool) (y : ℝ) (N : Nat) : Prop :=
  match rm with
  | .rtz => False
  | .rdn => s = true ∧ (N : ℝ) - 1 < y
  | .rup => s = false ∧ (N : ℝ) - 1 < y
  | .rne => (N : ℝ) - 1 / 2 ≤ y
  | .rmm => (N : ℝ) - 1 / 2 ≤ y

/-- A number with its leading bit at `L`, rounded to `f + 1` bits, reaches `2^p` when `L` does, or when it lies just below
and is rounded up to it. -/
theorem reaches_iff (rm : Rounding) (s : Bool) (X : ℝ) (L p : Int) (f n : Nat) (h1 : (2 : ℝ) ^ L ≤ X) (h2 : X < 2 ^ (L + 1))
    (hn : RoundedNat rm s (X / 2 ^ (L - f)) n) :
    ReachesBound rm (signedR s X) (2 ^ p) (2 ^ (p - 1 - f)) ↔ p ≤ L ∨ (p = L + 1 ∧ n = 2 ^ (f + 1)) := by
  have hX : 0 < X := lt_of_lt_of_le (rpos L) h1
  have habs : |signedR s X| = X := abs_signedR s X hX.le
  rcases lt_trichotomy p (L + 1) with hp | hp | hp
  · exact ⟨fun _ => .inl (by omega), fun _ => reaches_of_le _ _ _ _ (rpos _).le
      (by rw [habs]; exact le_trans (zpow_le_two (by omega)) h1)⟩
  · subst hp
    have hu := rpos (L - f)
    have hN : (2 : ℝ) ^ (L + 1) = ((2 ^ (f + 1) : Nat) : ℝ) * 2 ^ (L - f) := by
      rw [Nat.cast_pow, Nat.cast_two, ← zpow_natCast, ← zpow_add₀ (by norm_num)]; congr 1; push_cast; ring
    have hg : L + 1 - 1 - (f : Int) = L - f := by ring
    have hy : X = X / 2 ^ (L - f) * 2 ^ (L - f) := (div_mul_cancel₀ _ hu.ne').symm
    have hev : 2 ^ (f + 1) % 2 = 0 := by rw [Nat.pow_succ]; omega
    rw [hg, hN]
    rw [hN] at h2
    have hle : n ≤ 2 ^ (f + 1) := hn.le (by rw [div_le_iff₀ hu]; exact h2.le)
    have hNpos := Nat.two_pow_pos (f + 1)
    generalize 2 ^ (f + 1) = N at *
    have hyN : X / 2 ^ (L - f) < N := (div_lt_iff₀ hu).2 h2
    have hR : ReachesBound rm (signedR s X) (N * 2 ^ (L - f)) (2 ^ (L - f)) ↔
        ReachesNat rm s (X / 2 ^ (L - f)) N := by
      have hneg : signedR s X < 0 ↔ s = true := signedR_pos s X hX
      have hpos : 0 < signedR s X ↔ s = false := by cases s <;> simp [signedR, hX, hX.le]
      have c1 : (N : ℝ) * 2 ^ (L - f) - 2 ^ (L - f) / 2 ≤ X ↔ (N : ℝ) - 1 / 2 ≤ X / 2 ^ (L - f) := by
        rw [le_div_iff₀ hu, sub_mul]; constructor <;> intro h <;> linarith
      have c2 : (N : ℝ) * 2 ^ (L - f) - 2 ^ (L - f) < X ↔ (N : ℝ) - 1 < X / 2 ^ (L - f) := by
        rw [lt_div_iff₀ hu, sub_mul]; constructor <;> intro h <;> linarith
      cases rm <;> simp only [ReachesBound, ReachesNat, habs, hneg, hpos, c1, c2]
      · simp only [iff_false, not_le]; exact h2
      · rw [or_iff_right (not_le.2 h2)]
      · rw [or_iff_right (not_le.2 h2)]
    rw [hR]
    generalize X / 2 ^ (L - f) = y at *
    have hcast : n = N ↔ ¬ ((n : ℝ) ≤ N - 1) := by
      constructor
      · rintro rfl; linarith
      · intro h
        have : (N : ℝ) < n + 1 := by linarith
        have : N < n + 1 := by exact_mod_cast this
        omega
    have hlt : n ≠ N → (n : ℝ) ≤ N - 1 := fun h => by by_contra hc; exact h (hcast.2 hc)
    have hor : (L + 1 ≤ L ∨ L + 1 = L + 1 ∧ n = N) ↔ n = N :=
      ⟨fun h => h.elim (fun h => by omega) (fun h => h.2), fun h => .inr ⟨rfl, h⟩⟩
    rw [hor]
    cases rm <;> simp only [RoundedNat, ReachesNat] at hn ⊢
    · constructor
      · intro h
        by_contra hc
        have h3 := hlt hc
        obtain ⟨h4, h5⟩ := hn
        rw [abs_le] at h4
        have h6 : (n : ℝ) = N - 1 := by linarith
        have h7 : y - n = 1 / 2 := by linarith
        have h8 := h5 (by rw [h7]; norm_num)
        have h9 : n + 1 = N := by have : (n : ℝ) + 1 = N := by linarith
                                  exact_mod_cast this
        omega
      · rintro rfl
        have := abs_le.1 hn.1; linarith
    · simp only [false_iff]; rintro rfl; linarith
    · cases s
      · simp only [Bool.false_eq_true, false_and, if_false, false_iff] at *; rintro rfl; linarith
      · simp only [if_true, true_and] at *
        constructor
        · intro h; by_contra hc; have := hlt hc; linarith
        · rintro rfl; linarith
    · cases s
      · simp only [Bool.false_eq_true, if_false, true_and] at *
        constructor
        · intro h; by_contra hc; have := hlt hc; linarith
        · rintro rfl; linarith
      · simp only [if_true, Bool.true_eq_false, false_and, false_iff] at *; rintro rfl; linarith
    · constructor
      · intro h
        by_contra hc
        have h3 := hlt hc
        obtain ⟨h4, h5⟩ := hn
        rw [abs_le] at h4
        have h6 : (n : ℝ) = N - 1 := by linarith
        have h7 : y - n = 1 / 2 := by linarith
        have h8 := h5 (by rw [h7]; norm_num)
        linarith
      · rintro rfl
        have := abs_le.1 hn.1; linarith
  · refine ⟨fun h => absurd h (not_reaches_of_le _ _ _ _ (rpos _) ?_), fun h => by omega⟩
    rw [habs]
    have a1 : (2 : ℝ) ^ p = 2 ^ (p - 1) + 2 ^ (p - 1) := by
      have := zpow_succ_two (p - 1); rw [show p - 1 + 1 = p by ring] at this; linarith
    have a2 : (2 : ℝ) ^ (p - 1 - f) ≤ 2 ^ (p - 1) := zpow_le_two (by omega)
    have a3 : (2 : ℝ) ^ (L + 1) ≤ 2 ^ (p - 1) := zpow_le_two (by omega)
    linarith

/-! ## The packed result -/

/-- Where the leading bit of the exact magnitude is. -/
theorem lead_of_stands (fm : Fmt) (m : Nat) (e : Int) (X : ℝ) (hm : m ≠ 0) (h : Stands m e X (leadExp m e - fracBits fm)) :
    (2 : ℝ) ^ leadExp m e ≤ X ∧ X < 2 ^ (leadExp m e + 1) := by
  obtain ⟨b1, b2⟩ := log2_bounds m hm
  have e1 : (2 : ℝ) ^ leadExp m e = ((2 ^ Nat.log2 m : Nat) : ℝ) * 2 ^ e := by
    rw [leadExp, zpow_add₀ (by norm_num), zpow_natCast]; push_cast; ring
  have e2 : (2 : ℝ) ^ (leadExp m e + 1) = ((2 ^ (Nat.log2 m + 1) : Nat) : ℝ) * 2 ^ e := by
    rw [zpow_succ_two, e1, Nat.pow_succ]; push_cast; ring
  rw [e1, e2]
  have hp := rpos e
  rcases h with rfl | ⟨ho, hq, h1, h2⟩
  · exact ⟨mul_le_mul_of_nonneg_right (by exact_mod_cast b1) hp.le, mul_lt_mul_of_pos_right (by exact_mod_cast b2) hp⟩
  · have hl : 1 ≤ Nat.log2 m := by rw [leadExp] at hq; omega
    obtain ⟨k, hk⟩ : ∃ k, Nat.log2 m = k + 1 := ⟨Nat.log2 m - 1, by omega⟩
    rw [hk] at b1 b2 ⊢
    have c1 : 2 ^ (k + 1) + 1 ≤ m := by rw [Nat.pow_succ] at b1 ⊢; omega
    have c2 : m + 1 ≤ 2 ^ (k + 1 + 1) := b2
    constructor
    · refine le_trans (mul_le_mul_of_nonneg_right ?_ hp.le) h1.le
      have : ((2 ^ (k + 1) : Nat) : ℝ) + 1 ≤ m := by exact_mod_cast c1
      linarith
    · refine lt_of_lt_of_le h2 (mul_le_mul_of_nonneg_right ?_ hp.le)
      exact_mod_cast c2

theorem Stands.mono {m : Nat} {e q q' : Int} {X : ℝ} (h : Stands m e X q) (hq : q ≤ q') : Stands m e X q' := by
  rcases h with h | ⟨h1, h2, h3⟩
  · exact .inl h
  · exact .inr ⟨h1, by omega, h3⟩

theorem minNormal_eq (fm : Fmt) : expMin fm + fracBits fm = 1 - bias fm := by unfold expMin; ring

theorem overflows_iff (fm : Fmt) (r : Rounding) (x : ℝ) :
    Overflows fm r x ↔ ReachesBound r x (2 ^ ((bias fm : Int) + 1)) (2 ^ ((bias fm : Int) + 1 - 1 - fracBits fm)) := by
  have h1 : (2 : ℝ) ^ ((bias fm : Int) + 1) = 2 ^ (bias fm + 1) := by exact_mod_cast zpow_natCast (2 : ℝ) (bias fm + 1)
  have h2 : (2 : ℝ) ^ ((bias fm : Int) + 1 - 1 - fracBits fm) = 2 ^ (bias fm - fracBits fm) := by
    rw [← zpow_natCast]; congr 1; cases fm <;> decide
  rw [h1, h2, Overflows]

theorem tiny_iff (fm : Fmt) (t : Tininess) (r : Rounding) (x : ℝ) :
    Tiny fm t r x ↔ match t with
      | .beforeRounding => |x| < 2 ^ (1 - (bias fm : Int))
      | .afterRounding => ¬ ReachesBound r x (2 ^ (1 - (bias fm : Int))) (2 ^ (1 - (bias fm : Int) - 1 - fracBits fm)) := by
  have h1 : (2 : ℝ) ^ (1 - (bias fm : Int)) = 1 / 2 ^ (bias fm - 1) := by
    rw [one_div, ← zpow_natCast, ← zpow_neg]; congr 1; cases fm <;> decide
  have h2 : (2 : ℝ) ^ (1 - (bias fm : Int) - 1 - fracBits fm) = 1 / 2 ^ (bias fm + fracBits fm) := by
    rw [one_div, ← zpow_natCast, ← zpow_neg]; congr 1; cases fm <;> decide
  cases t <;> simp only [Tiny, h1, h2]

theorem isTiny_iff (fm : Fmt) (t : Tininess) (rm : Rounding) (sign : Bool) (m : Nat) (e : Int) (X : ℝ) (hm : m ≠ 0)
    (h : Stands m e X (leadExp m e - fracBits fm)) :
    isTiny fm t rm sign m e = true ↔ Tiny fm t rm (signedR sign X) := by
  obtain ⟨h1, h2⟩ := lead_of_stands fm m e X hm h
  have hX : 0 < X := lt_of_lt_of_le (rpos _) h1
  rw [tiny_iff]
  cases t
  · simp only [isTiny, minNormal_eq, decide_eq_true_eq, abs_signedR sign X hX.le]
    constructor
    · intro hl; exact lt_of_lt_of_le h2 (zpow_le_two (by omega))
    · intro hx; exact zpow_lt_two.1 (lt_of_le_of_lt h1 hx)
  · have hr := reaches_iff rm sign X _ (1 - (bias fm : Int)) (fracBits fm) _ h1 h2 (roundTo_spec rm sign m e _ X h).1
    simp only [isTiny, minNormal_eq, hr, Bool.and_eq_true, decide_eq_true_eq, Bool.not_eq_true', Bool.and_eq_false_iff, beq_eq_false_iff_ne, ne_eq]
    omega

/-- The parity of a pattern's magnitude is its lowest bit. -/
theorem lowBit_ofSignMag (fm : Fmt) (s : Bool) (mag : Nat) (h : mag < 2 ^ (widthOf fm - 1)) :
    (ofSignMag fm s mag).getLsbD 0 = false ↔ mag % 2 = 0 := by
  have hp : (2 ^ (widthOf fm - 1)) % 2 = 0 := by cases fm <;> decide
  rw [BitVec.getLsbD, ofSignMag_toNat fm s mag h, Nat.testBit_zero, decide_eq_false_iff_not]
  split <;> omega

theorem infinity_eq (fm : Fmt) (s : Bool) : infinity fm s = infBits fm s := by cases fm <;> cases s <;> decide
theorem largestFinite_eq (fm : Fmt) (s : Bool) : largestFinite fm s = largestBits fm s := by cases fm <;> cases s <;> decide
theorem zeroOf_eq (fm : Fmt) (s : Bool) : zeroOf fm s = zeroBits fm s := by cases fm <;> cases s <;> decide
theorem canonicalNaN_eq (fm : Fmt) : canonicalNaN fm = canonicalBits fm := by cases fm <;> decide

theorem finite_largest (fm : Fmt) (s : Bool) : FiniteFp (largestFinite fm s) := by
  unfold FiniteFp; cases fm <;> cases s <;> decide

theorem signOf_largest (fm : Fmt) (s : Bool) : signOf (largestFinite fm s) = s := by cases fm <;> cases s <;> decide

theorem signOf_infinity (fm : Fmt) (s : Bool) : signOf (infinity fm s) = s := by cases fm <;> cases s <;> decide

theorem isInf_infinity (fm : Fmt) (s : Bool) : isInf (infinity fm s) = true := by cases fm <;> cases s <;> decide

theorem expMax_eq (fm : Fmt) : expMax fm = 2 * bias fm + 1 := by cases fm <;> decide

theorem valueOf_pack (fm : Fmt) (s : Bool) (mag : Nat) (h : mag < infMag fm) :
    ((valueOf (ofSignMag fm s mag) : ℚ) : ℝ) = signedR s (unitsOf fm mag * 2 ^ expMin fm) := by
  rw [valueOf_ofSignMag _ _ _ (Nat.lt_trans h (infMag_lt fm)), ← signedR_mul, ← cast_signedNat]
  push_cast; rfl

theorem abs_largest_lt (fm : Fmt) (s : Bool) : |((valueOf (largestFinite fm s) : ℚ) : ℝ)| < 2 ^ ((bias fm : Int) + 1) := by
  have h0 : 0 < infMag fm := by cases fm <;> decide
  rw [largestFinite, valueOf_pack _ _ _ (by omega), abs_signedR _ _ (mul_nonneg (Nat.cast_nonneg _) (rpos _).le)]
  have h1 : infMag fm = (2 * bias fm) * 2 ^ fracBits fm + 2 ^ fracBits fm := by
    rw [infMag, expMax_eq, Nat.add_mul]; omega
  have h2 : unitsOf fm (infMag fm) = 2 ^ fracBits fm * 2 ^ (2 * bias fm) := by
    rw [h1, unitsOf_pack _ _ _ (.inr (Nat.le_refl _)) (Nat.pow_le_pow_right (by decide) (by omega))]
  have h3 : (2 : ℝ) ^ ((bias fm : Int) + 1) = (unitsOf fm (infMag fm) : ℝ) * 2 ^ expMin fm := by
    rw [h2, ← Nat.pow_add, Nat.cast_pow, Nat.cast_two, ← zpow_natCast, ← zpow_add₀ (by norm_num)]
    congr 1; unfold expMin; push_cast; ring
  rw [h3]
  exact mul_lt_mul_of_pos_right (by exact_mod_cast unitsOf_lt fm (by omega)) (rpos _)

/-- The exact number, rounded once. -/
theorem roundPack_correct (fm : Fmt) (t : Tininess) (rm : Rounding) (sign : Bool) (m : Nat) (e : Int) (X : ℝ) (hm : m ≠ 0)
    (h : Stands m e X (leadExp m e - fracBits fm)) :
    RoundsCorrectly fm t rm (signedR sign X) (roundPack fm t rm sign m e) := by
  obtain ⟨h1, h2⟩ := lead_of_stands fm m e X hm h
  have hX : 0 < X := lt_of_lt_of_le (rpos _) h1
  have habs := abs_signedR sign X hX.le
  have hneg := signedR_pos sign X hX
  have hpos : 0 < signedR sign X ↔ sign = false := by cases sign <;> simp [signedR, hX, hX.le]
  have htiny := isTiny_iff fm t rm sign m e X hm h
  -- the unit of the result
  set L := leadExp m e with hL
  obtain ⟨j, hj⟩ : ∃ j : Nat, max (L - fracBits fm) (expMin fm) = expMin fm + j :=
    ⟨(max (L - fracBits fm) (expMin fm) - expMin fm).toNat, by omega⟩
  obtain ⟨hn, hx⟩ := roundTo_spec rm sign m e (expMin fm + j) X (h.mono (by omega))
  have hpack : roundPack fm t rm sign m e =
      if infMag fm ≤ j * 2 ^ fracBits fm + (roundTo rm sign m e (expMin fm + j)).1 then
        (if overflowsToInf rm sign then infinity fm sign else largestFinite fm sign, flagOF ||| flagNX)
      else (ofSignMag fm sign (j * 2 ^ fracBits fm + (roundTo rm sign m e (expMin fm + j)).1),
        flagIf (roundTo rm sign m e (expMin fm + j)).2 flagNX |||
          flagIf ((roundTo rm sign m e (expMin fm + j)).2 && isTiny fm t rm sign m e) flagUF) := by
    unfold roundPack
    rw [if_neg hm]
    simp only [← hL, hj, show (expMin fm + (j : Int) - expMin fm).toNat = j by omega]
  generalize (roundTo rm sign m e (expMin fm + j)).1 = n at *
  generalize (roundTo rm sign m e (expMin fm + j)).2 = inexact at *
  have hu := rpos (expMin fm + j)
  -- the rounded significand
  have hpw : ∀ (k : Nat) (q : Int), (2 : ℝ) ^ (q + k) / 2 ^ q = ((2 ^ k : Nat) : ℝ) := by
    intro k q
    rw [zpow_add₀ (by norm_num), zpow_natCast, mul_div_cancel_left₀ _ (rpos q).ne']; push_cast; rfl
  have hnle : n ≤ 2 ^ (fracBits fm + 1) := by
    refine hn.le ?_
    rw [← hpw (fracBits fm + 1) (expMin fm + j)]
    exact div_le_div_of_nonneg_right (le_trans h2.le (zpow_le_two (by push_cast; omega))) hu.le
  have hyge : j = 0 ∨ ((2 ^ fracBits fm : Nat) : ℝ) ≤ X / 2 ^ (expMin fm + j) := by
    by_cases hj0 : j = 0
    · exact .inl hj0
    · right
      rw [← hpw (fracBits fm) (expMin fm + j)]
      exact div_le_div_of_nonneg_right (le_trans (zpow_le_two (by omega)) h1) hu.le
  have hnge : j = 0 ∨ 2 ^ fracBits fm ≤ n := hyge.imp id fun h => hn.ge h
  have hf1 : 2 ^ (fracBits fm + 1) = 2 * 2 ^ fracBits fm := by rw [Nat.pow_succ]; ring
  have hfb : (fracBits fm : Int) < bias fm := by cases fm <;> decide
  -- overflow
  have hover : infMag fm ≤ j * 2 ^ fracBits fm + n ↔ Overflows fm rm (signedR sign X) := by
    have hmul : ∀ a b : Nat, a ≤ b → a * 2 ^ fracBits fm ≤ b * 2 ^ fracBits fm := fun a b => Nat.mul_le_mul_right _
    have hinf : infMag fm = (2 * bias fm + 1) * 2 ^ fracBits fm := by rw [infMag, expMax_eq]
    have hm1 : ∀ a : Nat, (a + 1) * 2 ^ fracBits fm = a * 2 ^ fracBits fm + 2 ^ fracBits fm := fun a => by ring
    have hpp := Nat.two_pow_pos (fracBits fm)
    rw [overflows_iff]
    have hmn : expMin fm = 1 - bias fm - fracBits fm := rfl
    by_cases hq : expMin fm ≤ L - fracBits fm
    · have hq' : expMin fm + (j : Int) = L - fracBits fm := by omega
      rw [hq'] at hn hyge
      have hge : 2 ^ fracBits fm ≤ n := hn.ge (by
        rw [← hpw (fracBits fm) (L - fracBits fm), sub_add_cancel]
        exact div_le_div_of_nonneg_right h1 (rpos _).le)
      rw [reaches_iff rm sign X L _ (fracBits fm) n h1 h2 hn, hinf]
      have hb : (j : Int) = L - 1 + bias fm := by omega
      have hB := hm1 (2 * bias fm)
      constructor
      · intro hle
        by_contra hc
        rcases Nat.lt_or_ge j (2 * bias fm - 1) with hlt | hlt
        · have a1 := hmul (j + 2) (2 * bias fm) (by omega)
          have a2 := hm1 j; have a3 := hm1 (j + 1)
          rw [show j + 2 = j + 1 + 1 by rfl] at a1
          omega
        · have a0 : j + 1 = 2 * bias fm := by omega
          have a2 := hm1 j
          rw [a0] at a2
          omega
      · rintro (hc | ⟨hc, rfl⟩)
        · have a1 := hmul (2 * bias fm) j (by omega)
          omega
        · have a0 : j + 1 = 2 * bias fm := by omega
          have a2 := hm1 j
          rw [a0] at a2
          omega
    · have hj0 : j = 0 := by omega
      have hnr : ¬ ReachesBound rm (signedR sign X) (2 ^ ((bias fm : Int) + 1)) (2 ^ ((bias fm : Int) + 1 - 1 - fracBits fm)) := by
        refine not_reaches_of_le _ _ _ _ (rpos _) ?_
        rw [habs]
        have a1 : (2 : ℝ) ^ (L + 1) ≤ 2 ^ (bias fm : Int) := zpow_le_two (by omega)
        have a2 := zpow_succ_two (bias fm : Int)
        have a3 : (2 : ℝ) ^ ((bias fm : Int) + 1 - 1 - fracBits fm) ≤ 2 ^ (bias fm : Int) := zpow_le_two (by omega)
        linarith
      refine ⟨fun hle => ?_, fun hr => absurd hr hnr⟩
      subst hj0
      have a1 := hmul 2 (2 * bias fm) (by omega)
      have a2 := hm1 (2 * bias fm)
      omega
  by_cases ho : infMag fm ≤ j * 2 ^ fracBits fm + n
  · -- overflow
    rw [if_pos ho] at hpack
    have hO := hover.1 ho
    have hXb : (2 : ℝ) ^ (bias fm : Int) ≤ X := by
      by_contra hc
      refine not_reaches_of_le rm (signedR sign X) _ _ (rpos _) ?_ ((overflows_iff _ _ _).1 hO)
      rw [habs]
      have a2 := zpow_succ_two (bias fm : Int)
      have a3 : (2 : ℝ) ^ ((bias fm : Int) + 1 - 1 - fracBits fm) ≤ 2 ^ (bias fm : Int) := zpow_le_two (by omega)
      linarith
    have hnt : ¬ Tiny fm t rm (signedR sign X) := by
      have hle : (2 : ℝ) ^ (1 - (bias fm : Int)) ≤ |signedR sign X| := by
        rw [habs]; exact le_trans (zpow_le_two (by omega)) hXb
      rw [tiny_iff]
      cases t
      · exact not_lt.2 hle
      · exact not_not.2 (reaches_of_le _ _ _ _ (rpos _).le hle)
    have hval : (flagOF ||| flagNX).getLsbD 0 = true ∧ (flagOF ||| flagNX).getLsbD 1 = false ∧
        (flagOF ||| flagNX).getLsbD 2 = true ∧ (flagOF ||| flagNX).getLsbD 3 = false ∧ (flagOF ||| flagNX).getLsbD 4 = false := by
      decide
    obtain ⟨v0, v1, v2, v3, v4⟩ := hval
    rw [hpack]
    by_cases hi : overflowsToInf rm sign = true
    · rw [if_pos hi]
      refine ⟨?_, fun h => absurd hO h, ?_, ?_, ?_, ?_, ?_, ?_⟩
      · simp only [signOf_infinity, hneg]
      · intro _ _; simp only [signOf_infinity]; exact infinity_eq fm sign
      · rintro _ (rfl | ⟨rfl, hs⟩ | ⟨rfl, hs⟩)
        · simp [overflowsToInf] at hi
        · rw [hpos] at hs; simp [overflowsToInf, hs] at hi
        · rw [hneg] at hs; simp [overflowsToInf, hs] at hi
      · simp only [v0, true_iff]
        rintro ⟨hfin, -⟩
        have := isInf_infinity fm sign
        rw [hfin.2] at this
        exact absurd this (by simp)
      · simp only [v1, hnt, Bool.false_eq_true, false_and]
      · simp only [v2, hO]
      · exact ⟨v3, v4⟩
    · rw [if_neg hi]
      have hbig : (2 : ℝ) ^ ((bias fm : Int) + 1) ≤ X := by
        have hr := (overflows_iff _ _ _).1 hO
        cases rm <;> cases sign <;> simp only [overflowsToInf, ReachesBound, habs, hneg, hpos] at hi hr
        all_goals first | exact hr | (exact absurd trivial hi) | (exact absurd rfl hi) | exact hr.resolve_right (fun h => by simp at h)
      refine ⟨?_, fun h => absurd hO h, ?_, ?_, ?_, ?_, ?_, ?_⟩
      · simp only [signOf_largest, hneg]
      · rintro _ (rfl | rfl | ⟨rfl, hs⟩ | ⟨rfl, hs⟩)
        · simp [overflowsToInf] at hi
        · simp [overflowsToInf] at hi
        · rw [hneg] at hs; simp [overflowsToInf, hs] at hi
        · rw [hpos] at hs; simp [overflowsToInf, hs] at hi
      · intro _ _; simp only [signOf_largest]; exact largestFinite_eq fm sign
      · simp only [v0, true_iff]
        rintro ⟨-, hv⟩
        have := abs_largest_lt fm sign
        rw [hv, habs] at this
        linarith
      · simp only [v1, hnt, Bool.false_eq_true, false_and]
      · simp only [v2, hO]
      · exact ⟨v3, v4⟩
  · -- no overflow
    rw [if_neg ho] at hpack
    have hO := fun h => ho (hover.2 h)
    have hlt : j * 2 ^ fracBits fm + n < infMag fm := by omega
    have hltw := Nat.lt_trans hlt (infMag_lt fm)
    have hfin : FiniteFp (ofSignMag fm sign (j * 2 ^ fracBits fm + n)) := (finite_iff _).2 (by rw [magOf_ofSignMag _ _ _ hltw]; exact hlt)
    have hv : ((valueOf (ofSignMag fm sign (j * 2 ^ fracBits fm + n)) : ℚ) : ℝ) = signedR sign (n * 2 ^ (expMin fm + j)) := by
      rw [valueOf_pack _ _ _ hlt, unitsOf_pack _ _ _ hnge hnle, zpow_add₀ (by norm_num), zpow_natCast]
      push_cast; congr 1; ring
    have hxy : X = X / 2 ^ (expMin fm + j) * 2 ^ (expMin fm + j) := (div_mul_cancel₀ _ hu.ne').symm
    have hflag : ∀ a b : Bool, (flagIf a flagNX ||| flagIf (a && b) flagUF).getLsbD 0 = a ∧
        (flagIf a flagNX ||| flagIf (a && b) flagUF).getLsbD 1 = (a && b) ∧
        (flagIf a flagNX ||| flagIf (a && b) flagUF).getLsbD 2 = false ∧
        (flagIf a flagNX ||| flagIf (a && b) flagUF).getLsbD 3 = false ∧
        (flagIf a flagNX ||| flagIf (a && b) flagUF).getLsbD 4 = false := by decide
    obtain ⟨v0, v1, v2, v3, v4⟩ := hflag inexact (isTiny fm t rm sign m e)
    rw [hpack]
    refine ⟨?_, fun _ => ⟨hfin, ?_⟩, fun h => absurd h hO, fun h => absurd h hO, ?_, ?_, ?_, ⟨v3, v4⟩⟩
    · simp only [signOf_ofSignMag _ _ _ hltw, hneg]
    · simp only
      have hnum : IsNumberOf fm (signedR sign (n * 2 ^ (expMin fm + j))) := ⟨_, hfin, hv.symm⟩
      rw [hv]
      have hk1 := Nat.floor_le (a := X / 2 ^ (expMin fm + (j : Int))) (div_pos hX hu).le
      have hk2 := Nat.lt_floor_add_one (X / 2 ^ (expMin fm + (j : Int)))
      have hk3 : expMin fm + (j : Int) = expMin fm ∨ 2 ^ fracBits fm ≤ ⌊X / 2 ^ (expMin fm + (j : Int))⌋₊ :=
        hyge.imp (by omega) fun h => Nat.le_floor h
      generalize ⌊X / 2 ^ (expMin fm + (j : Int))⌋₊ = k at *
      have := roundsTo_of_nat rm sign _ _ n k (IsNumberOf fm)
        ((ofSignMag fm sign (j * 2 ^ fracBits fm + n)).getLsbD 0 = false) hu hk1 hk2 hn hnum
        (grid_gap fm sign _ k hk3) (by
          intro hn2
          rw [lowBit_ofSignMag _ _ _ hltw]
          obtain ⟨f', hf'⟩ : ∃ f', fracBits fm = f' + 1 := ⟨fracBits fm - 1, by cases fm <;> decide⟩
          rw [hf', Nat.pow_succ, ← Nat.mul_assoc]
          omega)
      rwa [← hxy] at this
    · rw [v0, hx]
      simp only [hfin, true_and, hv, signedR_inj]
      rw [not_iff_not]
      conv_rhs => rw [hxy]
      exact ⟨fun h => by rw [h], fun h => mul_right_cancel₀ hu.ne' h⟩
    · rw [v0, v1, Bool.and_eq_true, htiny, and_comm]
    · simp only [v2, Bool.false_eq_true, false_iff]; exact hO

/-- `roundPack_correct` for a number that is given exactly. -/
theorem roundPack_exactly (fm : Fmt) (t : Tininess) (rm : Rounding) (sign : Bool) (m : Nat) (e : Int) (x : ℝ) (hx : x ≠ 0)
    (h : x = signedR sign (m * 2 ^ e)) : RoundsCorrectly fm t rm x (roundPack fm t rm sign m e) := by
  rw [h]
  refine roundPack_correct fm t rm sign m e _ ?_ (.inl rfl)
  rintro rfl
  rw [h] at hx; simp [signedR] at hx

theorem cast_signed_natAbs (n : Int) : ((n : Int) : ℝ) = signedR (decide (n < 0)) n.natAbs := by
  rw [← cast_signedNat, signedNat_natAbs]

theorem addExact_correct (fm : Fmt) (t : Tininess) (rm : Rounding) (s1 : Bool) (m1 : Nat) (e1 : Int) (s2 : Bool) (m2 : Nat)
    (e2 : Int) (x : ℝ) (hx : x ≠ 0)
    (h : x = (((signedNat s1 m1 : ℚ) * 2 ^ e1 + (signedNat s2 m2 : ℚ) * 2 ^ e2 : ℚ) : ℝ)) :
    RoundsCorrectly fm t rm x (addExact fm t rm s1 m1 e1 s2 m2 e2) := by
  rw [← signedNat_scaled s1 m1 e1 (min e1 e2) (by omega), ← signedNat_scaled s2 m2 e2 (min e1 e2) (by omega), ← add_mul,
    ← Int.cast_add] at h
  unfold addExact
  simp only
  generalize min e1 e2 = e at *
  generalize signedNat s1 (m1 * 2 ^ (e1 - e).toNat) + signedNat s2 (m2 * 2 ^ (e2 - e).toNat) = n at *
  have h' : x = (n : ℝ) * 2 ^ e := by rw [h]; push_cast; rfl
  rw [if_neg (by rintro rfl; rw [h'] at hx; simp at hx)]
  exact roundPack_exactly fm t rm _ _ e x hx (by rw [h', cast_signed_natAbs, signedR_mul])

theorem signedR_div (s1 s2 : Bool) (a b : ℝ) : signedR s1 a / signedR s2 b = signedR (s1 != s2) (a / b) := by
  cases s1 <;> cases s2 <;> simp [signedR, neg_div, div_neg]

theorem sigOf_real_pos {fm : Fmt} (a : Pattern fm) (h : ((valueOf a : ℚ) : ℝ) ≠ 0) : sigOf a ≠ 0 := by
  intro h0; apply h; rw [valueOf_real, h0]; cases signOf a <;> simp [signedR]

/-- The quotient of `ieeeDiv`, with its last bit, stands for the exact one. -/
theorem div_stands (A B f k : Nat) (d : Int) (hA : A ≠ 0) (hB : B ≠ 0) (hBf : B < 2 ^ (f + 1)) (hk : k = 2 * f + 5) :
    2 * (A * 2 ^ k / B) + (if A * 2 ^ k % B = 0 then 0 else 1) ≠ 0 ∧
    Stands (2 * (A * 2 ^ k / B) + (if A * 2 ^ k % B = 0 then 0 else 1)) (d - k - 1) ((A : ℝ) / B * 2 ^ d)
      (leadExp (2 * (A * 2 ^ k / B) + (if A * 2 ^ k % B = 0 then 0 else 1)) (d - k - 1) - f) := by
  have hdm := Nat.div_add_mod (A * 2 ^ k) B
  have hml := Nat.mod_lt (A * 2 ^ k) (Nat.pos_of_ne_zero hB)
  have hq : 2 ^ (f + 3) ≤ A * 2 ^ k / B := by
    rw [Nat.le_div_iff_mul_le (Nat.pos_of_ne_zero hB)]
    calc 2 ^ (f + 3) * B ≤ 2 ^ (f + 3) * 2 ^ (f + 1) := Nat.mul_le_mul_left _ hBf.le
      _ = 2 ^ (2 * f + 4) := by rw [← Nat.pow_add]; congr 1; omega
      _ ≤ 2 ^ k := Nat.pow_le_pow_right (by decide) (by omega)
      _ ≤ A * 2 ^ k := Nat.le_mul_of_pos_left _ (Nat.pos_of_ne_zero hA)
  have hp3 := Nat.two_pow_pos (f + 3)
  have hBr : (0 : ℝ) < B := by exact_mod_cast Nat.pos_of_ne_zero hB
  have hval : (A : ℝ) / B * 2 ^ d = 2 * ((A * 2 ^ k : Nat) : ℝ) / B * 2 ^ (d - k - 1) := by
    rw [show d = d - k - 1 + ((k + 1 : Nat) : Int) by push_cast; ring, zpow_add₀ (by norm_num), zpow_natCast,
      show d - k - 1 + ((k + 1 : Nat) : Int) - k - 1 = d - k - 1 by push_cast; ring]
    push_cast; rw [pow_succ]; ring
  generalize A * 2 ^ k / B = q at *
  generalize A * 2 ^ k % B = r at *
  generalize A * 2 ^ k = N at *
  have hN : (N : ℝ) = B * q + r := by exact_mod_cast hdm.symm
  refine ⟨by omega, ?_⟩
  rw [hval]
  by_cases hr : r = 0
  · left
    rw [if_pos hr, hN, hr]; push_cast; field_simp; ring
  · right
    rw [if_neg hr]
    have hr1 : (0 : ℝ) < r := by exact_mod_cast Nat.pos_of_ne_zero hr
    have hr2 : (r : ℝ) < B := by exact_mod_cast hml
    refine ⟨by omega, ?_, ?_, ?_⟩
    · have hl : f + 2 ≤ Nat.log2 (2 * q + 1) := by
        rw [Nat.le_log2 (by omega)]
        have : 2 ^ (f + 3) = 2 * 2 ^ (f + 2) := by rw [Nat.pow_succ]; ring
        omega
      rw [leadExp]; omega
    · refine mul_lt_mul_of_pos_right ?_ (rpos _)
      rw [lt_div_iff₀ hBr, hN]; push_cast; nlinarith
    · refine mul_lt_mul_of_pos_right ?_ (rpos _)
      rw [div_lt_iff₀ hBr, hN]; push_cast; nlinarith

/-- The root of `ieeeSqrt`, with its last bit, stands for the exact one. -/
theorem sqrt_stands (s f k fuel : Nat) (h : Int) (hs : s ≠ 0) (hfuel : s * 2 ^ (2 * k) < 4 ^ fuel) (hk : k = f + 4) :
    2 * isqrt fuel (s * 2 ^ (2 * k)) +
      (if isqrt fuel (s * 2 ^ (2 * k)) * isqrt fuel (s * 2 ^ (2 * k)) = s * 2 ^ (2 * k) then 0 else 1) ≠ 0 ∧
    Stands (2 * isqrt fuel (s * 2 ^ (2 * k)) +
      (if isqrt fuel (s * 2 ^ (2 * k)) * isqrt fuel (s * 2 ^ (2 * k)) = s * 2 ^ (2 * k) then 0 else 1)) (h - k - 1)
      (Real.sqrt s * 2 ^ h)
      (leadExp (2 * isqrt fuel (s * 2 ^ (2 * k)) +
        (if isqrt fuel (s * 2 ^ (2 * k)) * isqrt fuel (s * 2 ^ (2 * k)) = s * 2 ^ (2 * k) then 0 else 1)) (h - k - 1) - f) := by
  obtain ⟨h1, h2⟩ := isqrt_spec fuel _ hfuel
  have hr : 2 ^ k ≤ isqrt fuel (s * 2 ^ (2 * k)) := by
    by_contra hc
    have h3 : isqrt fuel (s * 2 ^ (2 * k)) + 1 ≤ 2 ^ k := by omega
    have h4 := Nat.mul_le_mul h3 h3
    have h5 : 1 * 2 ^ (2 * k) ≤ s * 2 ^ (2 * k) := Nat.mul_le_mul_right _ (Nat.pos_of_ne_zero hs)
    have h6 : 2 ^ (2 * k) = 2 ^ k * 2 ^ k := by rw [two_mul, Nat.pow_add]
    omega
  have hp := Nat.two_pow_pos k
  have hval : Real.sqrt s * 2 ^ h = 2 * Real.sqrt ((s * 2 ^ (2 * k) : Nat) : ℝ) * 2 ^ (h - k - 1) := by
    have e1 : (((s * 2 ^ (2 * k) : Nat)) : ℝ) = s * (2 ^ k) ^ 2 := by push_cast; rw [← pow_mul, Nat.mul_comm]
    rw [e1, Real.sqrt_mul (Nat.cast_nonneg _), Real.sqrt_sq (by positivity),
      show h = h - k - 1 + ((k + 1 : Nat) : Int) by push_cast; ring, zpow_add₀ (by norm_num), zpow_natCast,
      show h - k - 1 + ((k + 1 : Nat) : Int) - k - 1 = h - k - 1 by push_cast; ring, pow_succ]
    ring
  rw [hval]
  generalize isqrt fuel (s * 2 ^ (2 * k)) = r at *
  generalize s * 2 ^ (2 * k) = N at *
  refine ⟨by omega, ?_⟩
  have c1 : ((r : ℝ)) * r ≤ N := by exact_mod_cast h1
  have c2 : (N : ℝ) < (r + 1) * (r + 1) := by exact_mod_cast h2
  have hr0 : (0 : ℝ) ≤ r := Nat.cast_nonneg r
  by_cases he : r * r = N
  · left
    rw [if_pos he, ← he]; push_cast
    rw [Real.sqrt_mul_self hr0]; ring
  · right
    rw [if_neg he]
    have c3 : (r : ℝ) * r < N := by exact_mod_cast lt_of_le_of_ne h1 he
    have d1 : (r : ℝ) < Real.sqrt N := Real.lt_sqrt_of_sq_lt (by nlinarith)
    have d2 : Real.sqrt N < r + 1 := (Real.sqrt_lt' (by linarith)).2 (by nlinarith)
    refine ⟨by omega, ?_, ?_, ?_⟩
    · have hl : f + 2 ≤ Nat.log2 (2 * r + 1) := by
        rw [Nat.le_log2 (by omega)]
        have : 2 ^ (f + 2) ≤ 2 ^ k := Nat.pow_le_pow_right (by decide) (by omega)
        omega
      rw [leadExp]; omega
    · exact mul_lt_mul_of_pos_right (by push_cast; linarith) (rpos _)
    · exact mul_lt_mul_of_pos_right (by push_cast; linarith) (rpos _)

/-! ## Zeros, infinities and invalid operations -/

theorem roundPack_zero (fm : Fmt) (t : Tininess) (rm : Rounding) (s : Bool) (e : Int) :
    roundPack fm t rm s 0 e = (zeroBits fm s, noFlags) := by
  rw [roundPack, if_pos rfl, zeroOf_eq]

/-- An exact zero sum has the sign its terms share, else the one of the rounding mode. -/
theorem addExact_zero (fm : Fmt) (t : Tininess) (rm : Rounding) (s1 : Bool) (m1 : Nat) (e1 : Int) (s2 : Bool) (m2 : Nat)
    (e2 : Int) (h : (signedNat s1 m1 : ℚ) * 2 ^ e1 + (signedNat s2 m2 : ℚ) * 2 ^ e2 = 0) :
    addExact fm t rm s1 m1 e1 s2 m2 e2 = (zeroBits fm (zeroSumSign rm s1 s2), noFlags) := by
  rw [← signedNat_scaled s1 m1 e1 (min e1 e2) (by omega), ← signedNat_scaled s2 m2 e2 (min e1 e2) (by omega), ← add_mul,
    ← Int.cast_add] at h
  have h0 := (mul_eq_zero.1 h).resolve_right (two_zpow_pos _).ne'
  rw [Int.cast_eq_zero] at h0
  unfold addExact
  simp only
  rw [if_pos h0, zeroOf_eq]

theorem invalid_eq (fm : Fmt) : invalid fm = (canonicalBits fm, flagNV) := by rw [invalid, canonicalNaN_eq]

theorem isInf_of_isZero {fm : Fmt} (a : Pattern fm) (h : isZero a = true) : isInf a = false := by
  rw [Bool.eq_false_iff]; intro hi
  simp only [isInf, isZero, Bool.and_eq_true, beq_iff_eq] at hi h
  have : expMax fm ≠ 0 := by cases fm <;> decide
  omega

theorem isInf_negate {fm : Fmt} (a : Pattern fm) : isInf (negate a) = isInf a := by
  rw [Bool.eq_iff_iff, isInf_iff, isInf_iff, magOf_negate]

theorem isZero_negate {fm : Fmt} (a : Pattern fm) : isZero (negate a) = isZero a := by
  rw [isZero, isZero, expField_eq, expField_eq, fracField_eq, fracField_eq, magOf_negate]

/-- A magnitude orders as its number of units does, whatever the signs. -/
theorem signedNat_unitsOf_lt (fm : Fmt) (sa sb : Bool) (m n : Nat) :
    signedNat sa m < signedNat sb n ↔ signedNat sa (unitsOf fm m) < signedNat sb (unitsOf fm n) := by
  have h1 := unitsOf_lt_iff fm m n
  have h2 := unitsOf_lt_iff fm n m
  have h3 := unitsOf_inj fm m 0
  have h4 := unitsOf_inj fm n 0
  rw [unitsOf_zero] at h3 h4
  cases sa <;> cases sb <;> simp only [signedNat, if_true, if_false, Bool.false_eq_true] <;> constructor <;> intro h <;> omega

end Sys2Proof.Machine
end

