-- ==== Sys2Proof/Tests/Slice0.lean ====
section
/-! SUPPORT. Tests whose expected values are the spec's own: the smoke test of `wf`, the decoding of the words of
95_test_vectors (sections 2.1 and 2.11), one step per instruction from the vectors of 95_test_vectors and
96_test_vectors_fp, and, for every statement with hypotheses, a witness that meets them at the bounds of their ranges. -/

namespace Sys2Proof.Tests
open Sys2Proof Sys2Proof.Machine

/-! ## Helpers -/

/-- The machine at pc 1000 (hexadecimal) with some x and f registers set. -/
def machine (m : Xlen) (xs : List (Reg × Word)) (fs : List (Reg × BitVec 64)) : State :=
  let s := { State.reset with env := { Env.reset with xlen := m }, pc := 0x1000 }
  fs.foldl (fun s c => s.writeD c.1 c.2) (xs.foldl (fun s c => s.writeX c.1 c.2) s)

/-- The machine with bytes in memory from an address on. -/
def holding (a : Nat) (bs : List Byte) (s : State) : State :=
  { s with mem := (bs.zipIdx a).foldl (fun m c => writeCell m c.2 c.1) s.mem }

/-- The machine with a big-endian memory. -/
def big (s : State) : State := { s with env := { s.env with endian := .big } }

/-- The machine with a value of `fsr`. -/
def withFsr (v : BitVec 8) (s : State) : State := { s with fsr := v }

/-- The machine with bytes from `lo` up to `hi` that no access of one kind may touch: for each size, the accesses that start
less than the size below `lo`, or from there up to `hi`. -/
def withHole (lo hi : Nat) (kind : AccessKind) (s : State) : State :=
  { s with env := { s.env with holes := [1, 2, 4, 8].map fun n => ⟨n, kind, lo - (n - 1), hi⟩ } }

/-- The machine with a region where only accesses of one size are not possible. -/
def withoutSize (n lo hi : Nat) (kind : AccessKind) (s : State) : State :=
  { s with env := { s.env with holes := [⟨n, kind, lo, hi⟩] } }

/-- The machine of the AMO table (95_test_vectors, section 2.7), big-endian: `x6` is 2000, `x7` the source, the bytes stand at
2000. -/
def atomic (m : Xlen) (src : Word) (bs : List Byte) : State := big (holding 0x2000 bs (machine m [(6, 0x2000), (7, src)] []))

/-- A view of the state after the word at the pc has run. -/
def after {α : Type} (s : State) (w : Nat) (get : State → α) : Option α :=
  match step (s.withFetchWord 32 w) with
  | .next t => some (get t)
  | _ => none

/-- The exception the word at the pc takes. -/
def trapOf (s : State) (w : Nat) : Option Exception :=
  match step (s.withFetchWord 32 w) with
  | .fault (.trap e _) => some e
  | _ => none

def xAfter (s : State) (w : Nat) (r : Reg) : Option Word := after s w (·.readX r)
def pcAfter (s : State) (w : Nat) : Option Word := after s w (·.pcX)
def xFlagsAfter (s : State) (w : Nat) (r : Reg) : Option (Word × BitVec 8) := after s w (fun t => (t.readX r, t.fsr))
def fAfter (s : State) (w : Nat) (r : Reg) : Option (BitVec 64 × BitVec 8) := after s w (fun t => (t.readF r, t.fsr))
def bytesAfter (s : State) (w : Nat) (a n : Nat) : Option (List Byte) :=
  after s w (fun t => (List.range n).map (fun i => t.readByte (a + i)))

/-- An f register after the first write of a single: its upper half is the first draw. -/
def single (v : BitVec 32) : BitVec 64 := Config.freeUpperHalf 0 ++ v

/-- The bytes of the load tables of 95_test_vectors, section 2.2, from address 1FF8 on. -/
def loadBytes : List Byte :=
  [0x80, 0x81, 0x82, 0x83, 0x84, 0x85, 0x86, 0x87, 0x88, 0x89, 0x8A, 0x8B, 0x8C, 0x8D, 0x8E, 0x8F]

/-! ## The smoke test of `wf` (95_test_vectors, section 2.11) -/

theorem test_wf_refuses_rv64_rows : Instr.wf (.ld 5 6 0) .rv32 = false ∧ Instr.wf (.ld 5 6 0) .rv64 = true ∧
    Instr.wf (.addiw 5 6 0) .rv32 = false ∧ Instr.wf (.amoaddD 5 6 7) .rv32 = false := by decide
theorem test_wf_refuses_shamt_32 : Instr.wf (.slli 5 6 32) .rv32 = false ∧ Instr.wf (.slli 5 6 31) .rv32 = true ∧
    Instr.wf (.slli 5 6 63) .rv64 = true := by decide
theorem test_wf_refuses_rm : Instr.wf (.faddS 3 1 2 5) .rv64 = false ∧ Instr.wf (.faddS 3 1 2 6) .rv64 = false ∧
    Instr.wf (.faddS 3 1 2 4) .rv64 = true ∧ Instr.wf (.faddS 3 1 2 7) .rv64 = true := by decide
theorem test_rv64_rows : ([.ld 5 6 0, .lwu 5 6 0, .sd 6 7 0, .addiw 5 6 0, .addw 5 6 7, .mulw 5 6 7, .divw 5 6 7,
    .fcvtLS 5 6 0, .fcvtDL 5 6 0, .mftxD 5 6, .mxtfD 5 6] : List Instr).all Instr.rv64Only = true := by decide

/-! ## Decoding: the word of every instruction (95_test_vectors, section 2.1) -/

theorem test_decode_control_transfer_1 :
    decode 0xFFFFFD67#32 = .ok (.j (-6)) ∧
    decode 0xFFFFFD6F#32 = .ok (.jal (-6)) ∧
    decode 0xF98FF463#32 = .ok (.beq 6 7 (-3)) ∧
    decode 0xF98FF4E3#32 = .ok (.bne 6 7 (-3)) ∧
    decode 0xF98FF663#32 = .ok (.blt 6 7 (-3)) ∧
    decode 0xF98FF6E3#32 = .ok (.bge 6 7 (-3)) ∧
    decode 0xF98FF763#32 = .ok (.bltu 6 7 (-3)) ∧
    decode 0xF98FF7E3#32 = .ok (.bgeu 6 7 (-3)) ∧
    decode 0x29BFF46B#32 = .ok (.jalrC 5 6 (-3)) ∧
    decode 0x29BFF4EB#32 = .ok (.jalrR 5 6 (-3)) ∧
    decode 0x29BFF56B#32 = .ok (.jalrJ 5 6 (-3)) ∧
    decode 0x2800026B#32 = .ok (.rdnpc 5) := by decide
theorem test_decode_loads_and_stores_1 :
    decode 0x29BFF403#32 = .ok (.lb 5 6 (-3)) ∧
    decode 0x29BFF483#32 = .ok (.lh 5 6 (-3)) ∧
    decode 0x29BFF503#32 = .ok (.lw 5 6 (-3)) ∧
    decode 0x29BFF583#32 = .ok (.ld 5 6 (-3)) ∧
    decode 0x29BFF603#32 = .ok (.lbu 5 6 (-3)) ∧
    decode 0x29BFF683#32 = .ok (.lhu 5 6 (-3)) ∧
    decode 0x29BFF703#32 = .ok (.lwu 5 6 (-3)) ∧
    decode 0xF98FF423#32 = .ok (.sb 6 7 (-3)) ∧
    decode 0xF98FF4A3#32 = .ok (.sh 6 7 (-3)) ∧
    decode 0xF98FF523#32 = .ok (.sw 6 7 (-3)) ∧
    decode 0xF98FF5A3#32 = .ok (.sd 6 7 (-3)) := by decide
theorem test_decode_atomic_memory_operations_1 :
    decode 0x298E012B#32 = .ok (.amoaddW 5 6 7) ∧
    decode 0x298E052B#32 = .ok (.amoswapW 5 6 7) ∧
    decode 0x298E092B#32 = .ok (.amoandW 5 6 7) ∧
    decode 0x298E0D2B#32 = .ok (.amoorW 5 6 7) ∧
    decode 0x298E112B#32 = .ok (.amominW 5 6 7) ∧
    decode 0x298E152B#32 = .ok (.amomaxW 5 6 7) ∧
    decode 0x298E192B#32 = .ok (.amominuW 5 6 7) ∧
    decode 0x298E1D2B#32 = .ok (.amomaxuW 5 6 7) ∧
    decode 0x298E01AB#32 = .ok (.amoaddD 5 6 7) ∧
    decode 0x298E05AB#32 = .ok (.amoswapD 5 6 7) ∧
    decode 0x298E09AB#32 = .ok (.amoandD 5 6 7) ∧
    decode 0x298E0DAB#32 = .ok (.amoorD 5 6 7) := by decide
theorem test_decode_atomic_memory_operations_2 :
    decode 0x298E11AB#32 = .ok (.amominD 5 6 7) ∧
    decode 0x298E15AB#32 = .ok (.amomaxD 5 6 7) ∧
    decode 0x298E19AB#32 = .ok (.amominuD 5 6 7) ∧
    decode 0x298E1DAB#32 = .ok (.amomaxuD 5 6 7) := by decide
theorem test_decode_integer_register_immediate_1 :
    decode 0x29BFF413#32 = .ok (.addi 5 6 (-3)) ∧
    decode 0x29804493#32 = .ok (.slli 5 6 17) ∧
    decode 0x29BFF513#32 = .ok (.slti 5 6 (-3)) ∧
    decode 0x29BFF593#32 = .ok (.sltiu 5 6 (-3)) ∧
    decode 0x29BFF613#32 = .ok (.xori 5 6 (-3)) ∧
    decode 0x29804693#32 = .ok (.srli 5 6 17) ∧
    decode 0x29814693#32 = .ok (.srai 5 6 17) ∧
    decode 0x29BFF713#32 = .ok (.ori 5 6 (-3)) ∧
    decode 0x29BFF793#32 = .ok (.andi 5 6 (-3)) := by decide
theorem test_decode_integer_register_register_1 :
    decode 0x298E0033#32 = .ok (.add 5 6 7) ∧
    decode 0x298F0033#32 = .ok (.sub 5 6 7) ∧
    decode 0x298E00B3#32 = .ok (.sll 5 6 7) ∧
    decode 0x298E0133#32 = .ok (.slt 5 6 7) ∧
    decode 0x298E01B3#32 = .ok (.sltu 5 6 7) ∧
    decode 0x298E0233#32 = .ok (.xor 5 6 7) ∧
    decode 0x298E02B3#32 = .ok (.srl 5 6 7) ∧
    decode 0x298F02B3#32 = .ok (.sra 5 6 7) ∧
    decode 0x298E0333#32 = .ok (.or 5 6 7) ∧
    decode 0x298E03B3#32 = .ok (.and 5 6 7) ∧
    decode 0x298E0433#32 = .ok (.mul 5 6 7) ∧
    decode 0x298E04B3#32 = .ok (.mulh 5 6 7) := by decide
theorem test_decode_integer_register_register_2 :
    decode 0x298E0533#32 = .ok (.mulhsu 5 6 7) ∧
    decode 0x298E05B3#32 = .ok (.mulhu 5 6 7) ∧
    decode 0x298E0633#32 = .ok (.div 5 6 7) ∧
    decode 0x298E06B3#32 = .ok (.divu 5 6 7) ∧
    decode 0x298E0733#32 = .ok (.rem 5 6 7) ∧
    decode 0x298E07B3#32 = .ok (.remu 5 6 7) := by decide
theorem test_decode_integer_register_immediate_2 :
    decode 0x2C0000B7#32 = .ok (.lui 5 0x80001) ∧
    decode 0x29BFF41B#32 = .ok (.addiw 5 6 (-3)) ∧
    decode 0x2980449B#32 = .ok (.slliw 5 6 17) ∧
    decode 0x2980469B#32 = .ok (.srliw 5 6 17) ∧
    decode 0x2981469B#32 = .ok (.sraiw 5 6 17) := by decide
theorem test_decode_integer_register_register_3 :
    decode 0x298E003B#32 = .ok (.addw 5 6 7) ∧
    decode 0x298F003B#32 = .ok (.subw 5 6 7) ∧
    decode 0x298E00BB#32 = .ok (.sllw 5 6 7) ∧
    decode 0x298E02BB#32 = .ok (.srlw 5 6 7) ∧
    decode 0x298F02BB#32 = .ok (.sraw 5 6 7) ∧
    decode 0x298E043B#32 = .ok (.mulw 5 6 7) ∧
    decode 0x298E063B#32 = .ok (.divw 5 6 7) ∧
    decode 0x298E06BB#32 = .ok (.divuw 5 6 7) ∧
    decode 0x298E073B#32 = .ok (.remw 5 6 7) ∧
    decode 0x298E07BB#32 = .ok (.remuw 5 6 7) := by decide
theorem test_decode_loads_and_stores_2 :
    decode 0x29BFF507#32 = .ok (.flw 5 6 (-3)) ∧
    decode 0x29BFF587#32 = .ok (.fld 5 6 (-3)) ∧
    decode 0xF98FF527#32 = .ok (.fsw 6 7 (-3)) ∧
    decode 0xF98FF5A7#32 = .ok (.fsd 6 7 (-3)) := by decide
theorem test_decode_floating_point_computation_1 :
    decode 0x298E0253#32 = .ok (.faddS 5 6 7 1) ∧
    decode 0x298E1253#32 = .ok (.fsubS 5 6 7 1) ∧
    decode 0x298E2253#32 = .ok (.fmulS 5 6 7 1) ∧
    decode 0x298E3253#32 = .ok (.fdivS 5 6 7 1) ∧
    decode 0x29804253#32 = .ok (.fsqrtS 5 6 1) ∧
    decode 0x298F8053#32 = .ok (.fminS 5 6 7) ∧
    decode 0x298F9053#32 = .ok (.fmaxS 5 6 7) ∧
    decode 0x298E02D3#32 = .ok (.faddD 5 6 7 1) ∧
    decode 0x298E12D3#32 = .ok (.fsubD 5 6 7 1) ∧
    decode 0x298E22D3#32 = .ok (.fmulD 5 6 7 1) ∧
    decode 0x298E32D3#32 = .ok (.fdivD 5 6 7 1) ∧
    decode 0x298042D3#32 = .ok (.fsqrtD 5 6 1) := by decide
theorem test_decode_floating_point_computation_2 :
    decode 0x298F80D3#32 = .ok (.fminD 5 6 7) ∧
    decode 0x298F90D3#32 = .ok (.fmaxD 5 6 7) ∧
    decode 0x298E8243#32 = .ok (.fmaddS 5 6 7 8 1) ∧
    decode 0x298E8247#32 = .ok (.fmsubS 5 6 7 8 1) ∧
    decode 0x298E824B#32 = .ok (.fnmsubS 5 6 7 8 1) ∧
    decode 0x298E824F#32 = .ok (.fnmaddS 5 6 7 8 1) ∧
    decode 0x298E82C3#32 = .ok (.fmaddD 5 6 7 8 1) ∧
    decode 0x298E82C7#32 = .ok (.fmsubD 5 6 7 8 1) ∧
    decode 0x298E82CB#32 = .ok (.fnmsubD 5 6 7 8 1) ∧
    decode 0x298E82CF#32 = .ok (.fnmaddD 5 6 7 8 1) := by decide
theorem test_decode_floating_point_conversion_sign_injection_moves_fsr_1 :
    decode 0x298E5053#32 = .ok (.fsgnjS 5 6 7) ∧
    decode 0x298E6053#32 = .ok (.fsgnjnS 5 6 7) ∧
    decode 0x298E7053#32 = .ok (.fsgnjxS 5 6 7) ∧
    decode 0x298E50D3#32 = .ok (.fsgnjD 5 6 7) ∧
    decode 0x298E60D3#32 = .ok (.fsgnjnD 5 6 7) ∧
    decode 0x298E70D3#32 = .ok (.fsgnjxD 5 6 7) ∧
    decode 0x29811253#32 = .ok (.fcvtSD 5 6 1) ∧
    decode 0x298102D3#32 = .ok (.fcvtDS 5 6 1) ∧
    decode 0x2980C253#32 = .ok (.fcvtSL 5 6 1) ∧
    decode 0x2980D253#32 = .ok (.fcvtSLU 5 6 1) ∧
    decode 0x2980E253#32 = .ok (.fcvtSW 5 6 1) ∧
    decode 0x2980F253#32 = .ok (.fcvtSWU 5 6 1) := by decide
theorem test_decode_floating_point_conversion_sign_injection_moves_fsr_2 :
    decode 0x2980C2D3#32 = .ok (.fcvtDL 5 6 1) ∧
    decode 0x2980D2D3#32 = .ok (.fcvtDLU 5 6 1) ∧
    decode 0x2980E2D3#32 = .ok (.fcvtDW 5 6 1) ∧
    decode 0x2980F2D3#32 = .ok (.fcvtDWU 5 6 1) ∧
    decode 0x2981E053#32 = .ok (.mxtfS 5 6) ∧
    decode 0x2981E0D3#32 = .ok (.mxtfD 5 6) ∧
    decode 0x2981F053#32 = .ok (.mtfsr 5 6) ∧
    decode 0x29808253#32 = .ok (.fcvtLS 5 6 1) ∧
    decode 0x29809253#32 = .ok (.fcvtLUS 5 6 1) ∧
    decode 0x2980A253#32 = .ok (.fcvtWS 5 6 1) ∧
    decode 0x2980B253#32 = .ok (.fcvtWUS 5 6 1) ∧
    decode 0x298082D3#32 = .ok (.fcvtLD 5 6 1) := by decide
theorem test_decode_floating_point_conversion_sign_injection_moves_fsr_3 :
    decode 0x298092D3#32 = .ok (.fcvtLUD 5 6 1) ∧
    decode 0x2980A2D3#32 = .ok (.fcvtWD 5 6 1) ∧
    decode 0x2980B2D3#32 = .ok (.fcvtWUD 5 6 1) ∧
    decode 0x280FC053#32 = .ok (.mftxS 5 7) ∧
    decode 0x280FC0D3#32 = .ok (.mftxD 5 7) ∧
    decode 0x2801D053#32 = .ok (.mffsr 5) := by decide
theorem test_decode_floating_point_compare_1 :
    decode 0x298F5053#32 = .ok (.feqS 5 6 7) ∧
    decode 0x298F6053#32 = .ok (.fltS 5 6 7) ∧
    decode 0x298F7053#32 = .ok (.fleS 5 6 7) ∧
    decode 0x298F50D3#32 = .ok (.feqD 5 6 7) ∧
    decode 0x298F60D3#32 = .ok (.fltD 5 6 7) ∧
    decode 0x298F70D3#32 = .ok (.fleD 5 6 7) := by decide
theorem test_decode_fences_1 :
    decode 0x000000AF#32 = .ok (.fenceI 0) ∧
    decode 0x0000012F#32 = .ok (.fence 0) := by decide
theorem test_decode_system_1 :
    decode 0x00000077#32 = .ok .syscall ∧
    decode 0x000000F7#32 = .ok .brk ∧
    decode 0x28000277#32 = .ok (.rdcycle 5) ∧
    decode 0x28000677#32 = .ok (.rdtime 5) ∧
    decode 0x28000A77#32 = .ok (.rdinstret 5) := by decide

/-! ## One step of each instruction (95_test_vectors, sections 2.2 to 2.8; 96_test_vectors_fp) -/

theorem test_j :
    pcAfter (machine .rv32 [] []) 0x00000467 = some 0x1010 ∧
    xAfter (machine .rv32 [] []) 0x00000467 1 = some 0x0 ∧
    pcAfter (machine .rv64 [(1, 0x55)] []) 0xFFFFFF67 = some 0xFFC := by decide
theorem test_jal :
    pcAfter (machine .rv32 [(1, 0x55)] []) 0x0000046F = some 0x1010 ∧
    xAfter (machine .rv32 [(1, 0x55)] []) 0x0000046F 1 = some 0x1004 ∧
    pcAfter (machine .rv64 [] []) 0xFFFC006F = some 0x0 := by decide
theorem test_beq :
    pcAfter (machine .rv32 [] []) 0x7801FC63 = some 0x1FFE ∧
    pcAfter (machine .rv32 [(6, 0x5), (7, 0x6)] []) 0xF98FE063 = some 0x1004 := by decide
theorem test_bne :
    pcAfter (machine .rv32 [(6, 0x5), (7, 0x6)] []) 0xF98FE0E3 = some 0xFF0 ∧
    pcAfter (machine .rv32 [(6, 0x5), (7, 0x5)] []) 0xF98FE0E3 = some 0x1004 := by decide
theorem test_blt :
    pcAfter (machine .rv32 [(6, 0xFFFFFFFF), (7, 0x1)] []) 0xF98FE263 = some 0xFF0 ∧
    pcAfter (machine .rv32 [(6, 0x1), (7, 0xFFFFFFFF)] []) 0xF98FE263 = some 0x1004 := by decide
theorem test_bge :
    pcAfter (machine .rv32 [(6, 0x3), (7, 0x3)] []) 0xF98FE2E3 = some 0xFF0 ∧
    pcAfter (machine .rv32 [(6, 0xFFFFFFFF), (7, 0x1)] []) 0xF98FE2E3 = some 0x1004 := by decide
theorem test_bltu :
    pcAfter (machine .rv32 [(6, 0x1), (7, 0xFFFFFFFF)] []) 0xF98FE363 = some 0xFF0 ∧
    pcAfter (machine .rv32 [(6, 0xFFFFFFFF), (7, 0x1)] []) 0xF98FE363 = some 0x1004 := by decide
theorem test_bgeu :
    pcAfter (machine .rv32 [(6, 0xFFFFFFFF), (7, 0x1)] []) 0xF98FE3E3 = some 0xFF0 ∧
    pcAfter (machine .rv32 [(6, 0x1), (7, 0xFFFFFFFF)] []) 0xF98FE3E3 = some 0x1004 := by decide
theorem test_jalrC :
    pcAfter (machine .rv32 [(6, 0xFFFFFFFF)] []) 0x099FFC6B = some 0x7FE ∧
    xAfter (machine .rv32 [(6, 0xFFFFFFFF)] []) 0x099FFC6B 1 = some 0x1004 := by decide
theorem test_jalrR :
    pcAfter (machine .rv32 [(1, 0x2004)] []) 0x004000EB = some 0x2004 ∧
    xAfter (machine .rv32 [(1, 0x2004)] []) 0x004000EB 1 = some 0x2004 := by decide
theorem test_jalrJ :
    pcAfter (machine .rv32 [(6, 0x2000)] []) 0x01800D6B = some 0x2003 ∧
    pcAfter (machine .rv64 [(5, 0x3000)] []) 0x297FF16B = some 0x2FFC ∧
    xAfter (machine .rv64 [(5, 0x3000)] []) 0x297FF16B 5 = some 0x1004 := by decide
theorem test_rdnpc :
    xAfter (machine .rv32 [] []) 0x2800026B 5 = some 0x1004 ∧
    xAfter (machine .rv64 [] []) 0x2800026B 5 = some 0x1004 := by decide
theorem test_lb :
    xAfter (big (holding 0x1FF8 loadBytes (machine .rv32 [(6, 0x2000)] []))) 0x29BFE003 5 = some 0xFFFFFF80 ∧
    xAfter (big (holding 0x1FF8 loadBytes (machine .rv64 [(6, 0x2000)] []))) 0x29800003 5
      = some 0xFFFFFFFFFFFFFF88 := by decide
theorem test_lh :
    xAfter (big (holding 0x1FF8 loadBytes (machine .rv32 [(6, 0x2000)] []))) 0x29BFF883 5 = some 0xFFFF8687 ∧
    xAfter (big (holding 0x1FF8 loadBytes (machine .rv64 [(6, 0x2000)] []))) 0x29800C83 5
      = some 0xFFFFFFFFFFFF8B8C := by decide
theorem test_lw :
    xAfter (big (holding 0x1FF8 loadBytes (machine .rv32 [(6, 0x2000)] []))) 0x29800503 5 = some 0x898A8B8C ∧
    xAfter (big (holding 0x1FF8 loadBytes (machine .rv64 [(6, 0x2000)] []))) 0x29800103 5
      = some 0xFFFFFFFF88898A8B := by decide
theorem test_ld :
    xAfter (big (holding 0x1FF8 loadBytes (machine .rv64 [(6, 0x2000)] []))) 0x29BFF583 5
      = some 0x85868788898A8B8C := by decide
theorem test_lbu :
    xAfter (big (holding 0x1FF8 loadBytes (machine .rv32 [(6, 0x2000)] []))) 0x29800203 5 = some 0x88 := by decide
theorem test_lhu :
    xAfter (big (holding 0x1FF8 loadBytes (machine .rv32 [(6, 0x2000)] []))) 0x29800283 5 = some 0x8889 ∧
    xAfter (big (holding 0x1FF8 loadBytes (machine .rv64 [(6, 0x2000)] []))) 0x29800283 5 = some 0x8889 := by decide
theorem test_lwu :
    xAfter (big (holding 0x1FF8 loadBytes (machine .rv64 [(6, 0x2000)] []))) 0x29800303 5 = some 0x88898A8B := by decide
theorem test_sb :
    bytesAfter (big (machine .rv64 [(6, 0x2000), (7, 0x102030405060708)] [])) 0x018E0023 0x2000 1 = some [0x8] := by decide
theorem test_sh :
    bytesAfter (big (machine .rv64 [(6, 0x2000), (7, 0x102030405060708)] [])) 0x018E0CA3 0x2003 2
      = some [0x7, 0x8] := by decide
theorem test_sw :
    bytesAfter (big (machine .rv64 [(6, 0x2000), (7, 0x102030405060708)] [])) 0x798FFD23 0x27FF 4
      = some [0x5, 0x6, 0x7, 0x8] := by decide
theorem test_sd :
    bytesAfter (big (machine .rv64 [(6, 0x2000), (7, 0x102030405060708)] [])) 0x018E01A3 0x2000 8
      = some [0x1, 0x2, 0x3, 0x4, 0x5, 0x6, 0x7, 0x8] := by decide
theorem test_amoaddW :
    xAfter (atomic .rv32 0x1 [0x7F, 0xFF, 0xFF, 0xFF]) 0x298E012B 5 = some 0x7FFFFFFF ∧
    bytesAfter (atomic .rv32 0x1 [0x7F, 0xFF, 0xFF, 0xFF]) 0x298E012B 0x2000 4 = some [0x80, 0x0, 0x0, 0x0] ∧
    xAfter (atomic .rv64 0x1 [0xFF, 0xFF, 0xFF, 0xFF]) 0x298E012B 5 = some 0xFFFFFFFFFFFFFFFF := by decide
theorem test_amoswapW :
    xAfter (atomic .rv32 0x1 [0x0, 0x0, 0x0, 0x0]) 0x018E052B 0 = some 0x0 ∧
    bytesAfter (atomic .rv32 0x1 [0x0, 0x0, 0x0, 0x0]) 0x018E052B 0x2000 4 = some [0x0, 0x0, 0x0, 0x1] ∧
    xAfter (atomic .rv64 0x1122334455667788 [0x80, 0x0, 0x0, 0x0]) 0x298E052B 5 = some 0xFFFFFFFF80000000 := by decide
theorem test_amoandW :
    xAfter (atomic .rv32 0xFF00FF0 [0xFF, 0x0, 0xFF, 0x0]) 0x298E092B 5 = some 0xFF00FF00 ∧
    bytesAfter (atomic .rv32 0xFF00FF0 [0xFF, 0x0, 0xFF, 0x0]) 0x298E092B 0x2000 4 = some [0xF, 0x0, 0xF, 0x0] := by decide
theorem test_amoorW :
    xAfter (atomic .rv32 0xFF00FF0 [0xFF, 0x0, 0xFF, 0x0]) 0x298E0D2B 5 = some 0xFF00FF00 ∧
    bytesAfter (atomic .rv32 0xFF00FF0 [0xFF, 0x0, 0xFF, 0x0]) 0x298E0D2B 0x2000 4
      = some [0xFF, 0xF0, 0xFF, 0xF0] := by decide
theorem test_amominW :
    xAfter (atomic .rv32 0x1 [0x80, 0x0, 0x0, 0x0]) 0x298E112B 5 = some 0x80000000 ∧
    bytesAfter (atomic .rv32 0x1 [0x80, 0x0, 0x0, 0x0]) 0x298E112B 0x2000 4 = some [0x80, 0x0, 0x0, 0x0] ∧
    xAfter (atomic .rv64 0xFFFFFFFF [0x0, 0x0, 0x0, 0x5]) 0x298E112B 5 = some 0x5 := by decide
theorem test_amomaxW :
    xAfter (atomic .rv32 0x1 [0x80, 0x0, 0x0, 0x0]) 0x298E152B 5 = some 0x80000000 ∧
    bytesAfter (atomic .rv32 0x1 [0x80, 0x0, 0x0, 0x0]) 0x298E152B 0x2000 4 = some [0x0, 0x0, 0x0, 0x1] := by decide
theorem test_amominuW :
    xAfter (atomic .rv32 0x1 [0x80, 0x0, 0x0, 0x0]) 0x298E192B 5 = some 0x80000000 ∧
    bytesAfter (atomic .rv32 0x1 [0x80, 0x0, 0x0, 0x0]) 0x298E192B 0x2000 4 = some [0x0, 0x0, 0x0, 0x1] := by decide
theorem test_amomaxuW :
    xAfter (atomic .rv32 0x1 [0x80, 0x0, 0x0, 0x0]) 0x298E1D2B 5 = some 0x80000000 ∧
    bytesAfter (atomic .rv32 0x1 [0x80, 0x0, 0x0, 0x0]) 0x298E1D2B 0x2000 4 = some [0x80, 0x0, 0x0, 0x0] ∧
    xAfter (atomic .rv64 0x1 [0x80, 0x0, 0x0, 0x0]) 0x298E1D2B 5 = some 0xFFFFFFFF80000000 := by decide
theorem test_amoaddD :
    xAfter (atomic .rv64 0x2 [0xFF, 0xFF, 0xFF, 0xFF, 0xFF, 0xFF, 0xFF, 0xFF]) 0x298E01AB 5
      = some 0xFFFFFFFFFFFFFFFF ∧
    bytesAfter (atomic .rv64 0x2 [0xFF, 0xFF, 0xFF, 0xFF, 0xFF, 0xFF, 0xFF, 0xFF]) 0x298E01AB 0x2000 8
      = some [0x0, 0x0, 0x0, 0x0, 0x0, 0x0, 0x0, 0x1] := by decide
theorem test_amoswapD :
    xAfter (atomic .rv64 0x2 [0x0, 0x0, 0x0, 0x0, 0x0, 0x0, 0x0, 0x1]) 0x298E05AB 5 = some 0x1 ∧
    bytesAfter (atomic .rv64 0x2 [0x0, 0x0, 0x0, 0x0, 0x0, 0x0, 0x0, 0x1]) 0x298E05AB 0x2000 8
      = some [0x0, 0x0, 0x0, 0x0, 0x0, 0x0, 0x0, 0x2] := by decide
theorem test_amoandD :
    xAfter (atomic .rv64 0xFF00FF00FF00FF0 [0xFF, 0x0, 0xFF, 0x0, 0xFF, 0x0, 0xFF, 0x0]) 0x298E09AB 5
      = some 0xFF00FF00FF00FF00 ∧
    bytesAfter (atomic .rv64 0xFF00FF00FF00FF0 [0xFF, 0x0, 0xFF, 0x0, 0xFF, 0x0, 0xFF, 0x0]) 0x298E09AB 0x2000 8
      = some [0xF, 0x0, 0xF, 0x0, 0xF, 0x0, 0xF, 0x0] := by decide
theorem test_amoorD :
    xAfter (atomic .rv64 0xFF00FF00FF00FF0 [0xFF, 0x0, 0xFF, 0x0, 0xFF, 0x0, 0xFF, 0x0]) 0x298E0DAB 5
      = some 0xFF00FF00FF00FF00 ∧
    bytesAfter (atomic .rv64 0xFF00FF00FF00FF0 [0xFF, 0x0, 0xFF, 0x0, 0xFF, 0x0, 0xFF, 0x0]) 0x298E0DAB 0x2000 8
      = some [0xFF, 0xF0, 0xFF, 0xF0, 0xFF, 0xF0, 0xFF, 0xF0] := by decide
theorem test_amominD :
    xAfter (atomic .rv64 0x1 [0x80, 0x0, 0x0, 0x0, 0x0, 0x0, 0x0, 0x0]) 0x298E11AB 5 = some 0x8000000000000000 ∧
    bytesAfter (atomic .rv64 0x1 [0x80, 0x0, 0x0, 0x0, 0x0, 0x0, 0x0, 0x0]) 0x298E11AB 0x2000 8
      = some [0x80, 0x0, 0x0, 0x0, 0x0, 0x0, 0x0, 0x0] := by decide
theorem test_amomaxD :
    xAfter (atomic .rv64 0x1 [0x80, 0x0, 0x0, 0x0, 0x0, 0x0, 0x0, 0x0]) 0x298E15AB 5 = some 0x8000000000000000 ∧
    bytesAfter (atomic .rv64 0x1 [0x80, 0x0, 0x0, 0x0, 0x0, 0x0, 0x0, 0x0]) 0x298E15AB 0x2000 8
      = some [0x0, 0x0, 0x0, 0x0, 0x0, 0x0, 0x0, 0x1] := by decide
theorem test_amominuD :
    xAfter (atomic .rv64 0x1 [0x80, 0x0, 0x0, 0x0, 0x0, 0x0, 0x0, 0x0]) 0x298E19AB 5 = some 0x8000000000000000 ∧
    bytesAfter (atomic .rv64 0x1 [0x80, 0x0, 0x0, 0x0, 0x0, 0x0, 0x0, 0x0]) 0x298E19AB 0x2000 8
      = some [0x0, 0x0, 0x0, 0x0, 0x0, 0x0, 0x0, 0x1] := by decide
theorem test_amomaxuD :
    xAfter (atomic .rv64 0x1 [0x80, 0x0, 0x0, 0x0, 0x0, 0x0, 0x0, 0x0]) 0x298E1DAB 5 = some 0x8000000000000000 ∧
    bytesAfter (atomic .rv64 0x1 [0x80, 0x0, 0x0, 0x0, 0x0, 0x0, 0x0, 0x0]) 0x298E1DAB 0x2000 8
      = some [0x80, 0x0, 0x0, 0x0, 0x0, 0x0, 0x0, 0x0] := by decide
theorem test_addi :
    xAfter (machine .rv32 [(6, 0x7FFFFFFF)] []) 0x299FFC13 5 = some 0x800007FE ∧
    xAfter (machine .rv64 [(6, 0x7FFFFFFF)] []) 0x299FFC13 5 = some 0x800007FE := by decide
theorem test_slli :
    xAfter (machine .rv32 [(6, 0x3)] []) 0x29807C93 5 = some 0x80000000 ∧
    xAfter (machine .rv64 [(6, 0x3)] []) 0x29807C93 5 = some 0x180000000 := by decide
theorem test_slti :
    xAfter (machine .rv32 [(6, 0xFFFFFFFE)] []) 0x29BFFD13 5 = some 0x1 ∧
    xAfter (machine .rv64 [(6, 0x0)] []) 0x29800113 5 = some 0x0 := by decide
theorem test_sltiu :
    xAfter (machine .rv32 [(6, 0xFFFFFFFE)] []) 0x29BFFD93 5 = some 0x1 ∧
    xAfter (machine .rv64 [(6, 0x0)] []) 0x29800593 5 = some 0x1 := by decide
theorem test_xori :
    xAfter (machine .rv32 [(6, 0xFF00FF)] []) 0x29BFFE13 5 = some 0xFF00FF00 ∧
    xAfter (machine .rv64 [(6, 0xFF00FF00FF00FF)] []) 0x29BFFE13 5 = some 0xFF00FF00FF00FF00 := by decide
theorem test_srli :
    xAfter (machine .rv32 [(6, 0x80000000)] []) 0x29801293 5 = some 0x8000000 ∧
    xAfter (machine .rv64 [(6, 0x8000000080000000)] []) 0x29801293 5 = some 0x800000008000000 := by decide
theorem test_srai :
    xAfter (machine .rv32 [(6, 0x80000000)] []) 0x29811293 5 = some 0xF8000000 ∧
    xAfter (machine .rv64 [(6, 0x8000000080000000)] []) 0x29811293 5 = some 0xF800000008000000 := by decide
theorem test_ori :
    xAfter (machine .rv32 [(6, 0xF)] []) 0x29A00313 5 = some 0xFFFFF80F ∧
    xAfter (machine .rv64 [(6, 0xF)] []) 0x29A00313 5 = some 0xFFFFFFFFFFFFF80F := by decide
theorem test_andi :
    xAfter (machine .rv32 [(6, 0x9ABCDEFF)] []) 0x29BFC393 5 = some 0x9ABCDEF0 ∧
    xAfter (machine .rv64 [(6, 0x123456789ABCDEFF)] []) 0x29BFC393 5 = some 0x123456789ABCDEF0 := by decide
theorem test_add :
    xAfter (machine .rv32 [(6, 0x7FFFFFFF), (7, 0x1)] []) 0x298E0033 5 = some 0x80000000 ∧
    xAfter (machine .rv64 [(6, 0x7FFFFFFF), (7, 0x1)] []) 0x298E0033 5 = some 0x80000000 := by decide
theorem test_sub :
    xAfter (machine .rv32 [(6, 0x0), (7, 0x1)] []) 0x298F0033 5 = some 0xFFFFFFFF ∧
    xAfter (machine .rv64 [(6, 0x0), (7, 0x1)] []) 0x298F0033 5 = some 0xFFFFFFFFFFFFFFFF := by decide
theorem test_sll :
    xAfter (machine .rv32 [(6, 0x1), (7, 0x21)] []) 0x298E00B3 5 = some 0x2 ∧
    xAfter (machine .rv64 [(6, 0x1), (7, 0x21)] []) 0x298E00B3 5 = some 0x200000000 := by decide
theorem test_slt :
    xAfter (machine .rv32 [(6, 0xFFFFFFFF), (7, 0x1)] []) 0x298E0133 5 = some 0x1 ∧
    xAfter (machine .rv64 [(6, 0xFFFFFFFFFFFFFFFF), (7, 0x1)] []) 0x298E0133 5 = some 0x1 := by decide
theorem test_sltu :
    xAfter (machine .rv32 [(6, 0xFFFFFFFF), (7, 0x1)] []) 0x298E01B3 5 = some 0x0 ∧
    xAfter (machine .rv64 [(7, 0x1)] []) 0x280E01B3 5 = some 0x1 := by decide
theorem test_xor :
    xAfter (machine .rv32 [(6, 0xF0F0), (7, 0xFF00)] []) 0x298E0233 5 = some 0xFF0 ∧
    xAfter (machine .rv64 [(6, 0xF0F0), (7, 0xFF00)] []) 0x298E0233 5 = some 0xFF0 := by decide
theorem test_srl :
    xAfter (machine .rv32 [(6, 0x80000000), (7, 0x3F)] []) 0x298E02B3 5 = some 0x1 ∧
    xAfter (machine .rv64 [(6, 0x8000000080000000), (7, 0x3F)] []) 0x298E02B3 5 = some 0x1 := by decide
theorem test_sra :
    xAfter (machine .rv32 [(6, 0x80000000), (7, 0x3F)] []) 0x298F02B3 5 = some 0xFFFFFFFF ∧
    xAfter (machine .rv64 [(6, 0x8000000080000000), (7, 0x3F)] []) 0x298F02B3 5 = some 0xFFFFFFFFFFFFFFFF := by decide
theorem test_or :
    xAfter (machine .rv32 [(6, 0xF0F0), (7, 0xFF00)] []) 0x298E0333 5 = some 0xFFF0 ∧
    xAfter (machine .rv64 [(6, 0xF0F0), (7, 0xFF00)] []) 0x298E0333 5 = some 0xFFF0 := by decide
theorem test_and :
    xAfter (machine .rv32 [(6, 0xF0F0), (7, 0xFF00)] []) 0x298E03B3 5 = some 0xF000 ∧
    xAfter (machine .rv64 [(6, 0xF0F0), (7, 0xFF00)] []) 0x298E03B3 5 = some 0xF000 := by decide
theorem test_mul :
    xAfter (machine .rv32 [(6, 0xFFFFFFFF), (7, 0xFFFFFFFF)] []) 0x298E0433 5 = some 0x1 ∧
    xAfter (machine .rv64 [(6, 0xFFFFFFFFFFFFFFFF), (7, 0xFFFFFFFFFFFFFFFF)] []) 0x298E0433 5 = some 0x1 := by decide
theorem test_mulh :
    xAfter (machine .rv32 [(6, 0x80000000), (7, 0x80000000)] []) 0x298E04B3 5 = some 0x40000000 ∧
    xAfter (machine .rv64 [(6, 0x8000000000000000), (7, 0x8000000000000000)] []) 0x298E04B3 5
      = some 0x4000000000000000 := by decide
theorem test_mulhsu :
    xAfter (machine .rv32 [(6, 0xFFFFFFFF), (7, 0xFFFFFFFF)] []) 0x298E0533 5 = some 0xFFFFFFFF ∧
    xAfter (machine .rv64 [(6, 0x2), (7, 0xFFFFFFFFFFFFFFFF)] []) 0x298E0533 5 = some 0x1 := by decide
theorem test_mulhu :
    xAfter (machine .rv32 [(6, 0xFFFFFFFF), (7, 0xFFFFFFFF)] []) 0x298E05B3 5 = some 0xFFFFFFFE ∧
    xAfter (machine .rv64 [(6, 0xFFFFFFFFFFFFFFFF), (7, 0xFFFFFFFFFFFFFFFF)] []) 0x298E05B3 5
      = some 0xFFFFFFFFFFFFFFFE := by decide
theorem test_div :
    xAfter (machine .rv32 [(6, 0x80000000), (7, 0xFFFFFFFF)] []) 0x298E0633 5 = some 0x80000000 ∧
    xAfter (machine .rv64 [(6, 0xFFFFFFFFFFFFFFF9), (7, 0x2)] []) 0x298E0633 5 = some 0xFFFFFFFFFFFFFFFD := by decide
theorem test_divu :
    xAfter (machine .rv32 [(6, 0x1234)] []) 0x298006B3 5 = some 0xFFFFFFFF ∧
    xAfter (machine .rv64 [(6, 0xFFFFFFFFFFFFFFF9), (7, 0x2)] []) 0x298E06B3 5 = some 0x7FFFFFFFFFFFFFFC := by decide
theorem test_rem :
    xAfter (machine .rv32 [(6, 0x80000000), (7, 0xFFFFFFFF)] []) 0x298E0733 5 = some 0x0 ∧
    xAfter (machine .rv64 [(6, 0xFFFFFFFFFFFFFFF9), (7, 0x2)] []) 0x298E0733 5 = some 0xFFFFFFFFFFFFFFFF := by decide
theorem test_remu :
    xAfter (machine .rv32 [(6, 0x1234)] []) 0x298007B3 5 = some 0x1234 ∧
    xAfter (machine .rv64 [(6, 0xFFFFFFFFFFFFFFF9), (7, 0x2)] []) 0x298E07B3 5 = some 0x1 := by decide
theorem test_lui :
    xAfter (machine .rv32 [] []) 0x2891A2B7 5 = some 0x12345000 ∧
    xAfter (machine .rv64 [] []) 0x2FFFFFB7 5 = some 0xFFFFFFFFFFFFF000 := by decide
theorem test_addiw :
    xAfter (machine .rv64 [(6, 0x7FFFFFFF)] []) 0x2980041B 5 = some 0xFFFFFFFF80000000 := by decide
theorem test_slliw :
    xAfter (machine .rv64 [(6, 0xFFFFFFFF00000001)] []) 0x29807C9B 5 = some 0xFFFFFFFF80000000 := by decide
theorem test_srliw :
    xAfter (machine .rv64 [(6, 0x80000000)] []) 0x2980029B 5 = some 0xFFFFFFFF80000000 := by decide
theorem test_sraiw :
    xAfter (machine .rv64 [(6, 0x80000000)] []) 0x2981069B 5 = some 0xFFFFFFFFC0000000 := by decide
theorem test_addw :
    xAfter (machine .rv64 [(6, 0x7FFFFFFF), (7, 0x1)] []) 0x298E003B 5 = some 0xFFFFFFFF80000000 := by decide
theorem test_subw :
    xAfter (machine .rv64 [(6, 0x100000000), (7, 0x1)] []) 0x298F003B 5 = some 0xFFFFFFFFFFFFFFFF := by decide
theorem test_sllw :
    xAfter (machine .rv64 [(6, 0x1), (7, 0x3F)] []) 0x298E00BB 5 = some 0xFFFFFFFF80000000 := by decide
theorem test_srlw :
    xAfter (machine .rv64 [(6, 0xABCDEF0180000000), (7, 0x24)] []) 0x298E02BB 5 = some 0x8000000 := by decide
theorem test_sraw :
    xAfter (machine .rv64 [(6, 0xABCDEF0180000000), (7, 0x24)] []) 0x298F02BB 5 = some 0xFFFFFFFFF8000000 := by decide
theorem test_mulw :
    xAfter (machine .rv64 [(6, 0x10000), (7, 0x8000)] []) 0x298E043B 5 = some 0xFFFFFFFF80000000 := by decide
theorem test_divw :
    xAfter (machine .rv64 [(6, 0x80000000), (7, 0xFFFFFFFF)] []) 0x298E063B 5 = some 0xFFFFFFFF80000000 := by decide
theorem test_divuw :
    xAfter (machine .rv64 [(6, 0x7)] []) 0x298006BB 5 = some 0xFFFFFFFFFFFFFFFF := by decide
theorem test_remw :
    xAfter (machine .rv64 [(6, 0x80000000), (7, 0xFFFFFFFF)] []) 0x298E073B 5 = some 0x0 := by decide
theorem test_remuw :
    xAfter (machine .rv64 [(6, 0x80000007)] []) 0x298007BB 5 = some 0xFFFFFFFF80000007 := by decide
theorem test_flw :
    fAfter (big (holding 0x2000 [0x3F, 0x80, 0x0, 0x0, 0x3F, 0xF0, 0x0, 0x0] (machine .rv32 [(6, 0x2000)] []))) 0x19800107 3
      = some (single 0x3F800000, 0x0) := rfl
theorem test_fld :
    fAfter (big (holding 0x2000 [0x3F, 0x80, 0x0, 0x0, 0x3F, 0xF0, 0x0, 0x0] (machine .rv32 [(6, 0x2000)] []))) 0x19800187 3
      = some (0x3F8000003FF00000, 0x0) := by decide
theorem test_fsw :
    bytesAfter (big (machine .rv32 [(6, 0x2000)] [(2, 0xAAAAAAAA40490FDB)])) 0x01840127 0x2000 4
      = some [0x40, 0x49, 0xF, 0xDB] := by decide
theorem test_fsd :
    bytesAfter (big (machine .rv32 [(6, 0x2000)] [(2, 0x400921FB54442D18)])) 0x018401A7 0x2000 8
      = some [0x40, 0x9, 0x21, 0xFB, 0x54, 0x44, 0x2D, 0x18] := by decide
theorem test_faddS :
    fAfter (machine .rv32 [] [(1, 0xDEADBEEFBF800000), (2, 0xDEADBEEFB3800000)]) 0x18440453 3
      = some (single 0xBF800001, 0x1) ∧
    fAfter (machine .rv64 [] [(1, 0xDEADBEEF3F800000), (2, 0xDEADBEEFFF800001)]) 0x18440253 3
      = some (single 0xFFC00001, 0x10) := ⟨rfl, rfl⟩
theorem test_fsubS :
    fAfter (machine .rv64 [] [(1, 0xDEADBEEF7F800000), (2, 0xDEADBEEF7F800000)]) 0x18441253 3
      = some (single 0x7FFFFFFF, 0x10) := rfl
theorem test_fmulS :
    fAfter (machine .rv32 [] [(1, 0xDEADBEEF3F800001), (2, 0xDEADBEEF3F800001)]) 0x18442253 3
      = some (single 0x3F800002, 0x1) ∧
    fAfter (machine .rv32 [] [(1, 0xDEADBEEF80000001), (2, 0xDEADBEEF3F000000)]) 0x18442453 3
      = some (single 0x80000001, 0x3) := ⟨rfl, rfl⟩
theorem test_fdivS :
    fAfter (machine .rv32 [] [(1, 0xDEADBEEFBF800000), (2, 0xDEADBEEF40400000)]) 0x18443253 3
      = some (single 0xBEAAAAAA, 0x1) ∧
    fAfter (machine .rv64 [] [(1, 0xDEADBEEFBF800000), (2, 0xDEADBEEF00000000)]) 0x18443253 3
      = some (single 0xFF800000, 0x8) := ⟨rfl, rfl⟩
set_option maxRecDepth 4000 in
theorem test_fsqrtS :
    fAfter (machine .rv32 [] [(1, 0xDEADBEEF00000001)]) 0x18404253 3 = some (single 0x1A3504F3, 0x1) ∧
    fAfter (machine .rv64 [] [(1, 0xDEADBEEF7FA00000)]) 0x18404253 3 = some (single 0x7FE00000, 0x10) := ⟨rfl, rfl⟩
theorem test_fminS :
    fAfter (machine .rv64 [] [(1, 0xDEADBEEF3F800000), (2, 0xDEADBEEF7F800001)]) 0x18458053 3
      = some (single 0x7FC00001, 0x10) := rfl
theorem test_fmaxS :
    fAfter (machine .rv64 [] [(1, 0xDEADBEEF7FC00005), (2, 0xDEADBEEFFF800001)]) 0x18459053 3
      = some (single 0xFFC00001, 0x10) := rfl
theorem test_faddD :
    fAfter (machine .rv32 [] [(1, 0x3FB999999999999A), (2, 0x3FC999999999999A)]) 0x184406D3 3
      = some (0x3FD3333333333334, 0x1) ∧
    fAfter (machine .rv64 [] [(1, 0x7FF0000000000000), (2, 0xFFF0000000000000)]) 0x184402D3 3
      = some (0x7FFFFFFFFFFFFFFF, 0x10) := by decide
theorem test_fsubD :
    fAfter (machine .rv64 [] [(1, 0x7FF0000000000001), (2, 0x7FF8000000000002)]) 0x184412D3 3
      = some (0x7FF8000000000001, 0x10) := by decide
theorem test_fmulD :
    fAfter (machine .rv32 [] [(1, 0x7FE0000000000000), (2, 0x4000000000000000)]) 0x184422D3 3
      = some (0x7FEFFFFFFFFFFFFF, 0x5) := by decide
theorem test_fdivD :
    fAfter (machine .rv32 [] [(1, 0x3FF0000000000000), (2, 0x4008000000000000)]) 0x184436D3 3
      = some (0x3FD5555555555556, 0x1) ∧
    fAfter (machine .rv64 [] [(1, 0x3FF0000000000000), (2, 0x0)]) 0x184432D3 3 = some (0x7FF0000000000000, 0x8) := by decide
set_option maxRecDepth 4000 in
theorem test_fsqrtD :
    fAfter (machine .rv32 [] [(1, 0x4000000000000000)]) 0x184046D3 3 = some (0x3FF6A09E667F3BCD, 0x1) ∧
    fAfter (machine .rv64 [] [(1, 0xBFF0000000000000)]) 0x184042D3 3 = some (0x7FFFFFFFFFFFFFFF, 0x10) := by decide
theorem test_fminD :
    fAfter (machine .rv64 [] [(1, 0x3FF0000000000000), (2, 0xC000000000000000)]) 0x184580D3 3
      = some (0xC000000000000000, 0x0) := by decide
theorem test_fmaxD :
    fAfter (machine .rv64 [] [(1, 0x7FF0000000000001), (2, 0x4000000000000000)]) 0x184590D3 3
      = some (0x7FF8000000000001, 0x10) := by decide
theorem test_fmaddS :
    fAfter (machine .rv32 [] [(1, 0xDEADBEEF3F800001), (2, 0xDEADBEEF3F800001), (3, 0xDEADBEEF3F800000)]) 0x20443243 4
      = some (single 0x40000001, 0x1) ∧
    fAfter (machine .rv64 [] [(1, 0xDEADBEEF3F800000), (2, 0xDEADBEEF7FC00002), (3, 0xDEADBEEF7F800003)]) 0x20443243 4
      = some (single 0x7FC00003, 0x10) := ⟨rfl, rfl⟩
theorem test_fmsubS :
    fAfter (machine .rv32 [] [(1, 0xDEADBEEF3F800001), (2, 0xDEADBEEF3F800001), (3, 0xDEADBEEF3F800000)]) 0x20443647 4
      = some (single 0x34800001, 0x1) ∧
    fAfter (machine .rv64 [] [(1, 0xDEADBEEF7F800000), (2, 0xDEADBEEF3F800000), (3, 0xDEADBEEF7F800000)]) 0x20443247 4
      = some (single 0x7FFFFFFF, 0x10) := ⟨rfl, rfl⟩
theorem test_fnmsubS :
    fAfter (machine .rv32 [] [(1, 0xDEADBEEF3F800001), (2, 0xDEADBEEF3F800001), (3, 0xDEADBEEF3F800000)]) 0x2044344B 4
      = some (single 0xB4800001, 0x1) ∧
    fAfter (machine .rv32 [] [(1, 0xDEADBEEF40000000), (2, 0xDEADBEEF40400000), (3, 0xDEADBEEF3F800000)]) 0x2044324B 4
      = some (single 0xC0A00000, 0x0) := ⟨rfl, rfl⟩
theorem test_fnmaddS :
    fAfter (machine .rv32 [] [(1, 0xDEADBEEF3F800001), (2, 0xDEADBEEF3F800001), (3, 0xDEADBEEF3F800000)]) 0x2044324F 4
      = some (single 0xC0000001, 0x1) ∧
    fAfter (machine .rv64 [] [(1, 0xDEADBEEF00000000), (2, 0xDEADBEEF7F800000), (3, 0xDEADBEEF3F800000)]) 0x2044324F 4
      = some (single 0x7FFFFFFF, 0x10) := ⟨rfl, rfl⟩
theorem test_fmaddD :
    fAfter (machine .rv32 [] [(1, 0x4000000000000000), (2, 0x4008000000000000), (3, 0x3FF0000000000000)]) 0x204432C3 4
      = some (0x401C000000000000, 0x0) := by decide
theorem test_fmsubD :
    fAfter (machine .rv32 [] [(1, 0x4000000000000000), (2, 0x4008000000000000), (3, 0x3FF0000000000000)]) 0x204432C7 4
      = some (0x4014000000000000, 0x0) := by decide
theorem test_fnmsubD :
    fAfter (machine .rv32 [] [(1, 0x4000000000000000), (2, 0x4008000000000000), (3, 0x3FF0000000000000)]) 0x204432CB 4
      = some (0xC014000000000000, 0x0) := by decide
theorem test_fnmaddD :
    fAfter (machine .rv32 [] [(1, 0x3FF0000000000001), (2, 0x3FF0000000000001), (3, 0x3FF0000000000000)]) 0x204432CF 4
      = some (0xC000000000000001, 0x1) ∧
    fAfter (machine .rv32 [] [(1, 0x4000000000000000), (2, 0x4008000000000000), (3, 0x3FF0000000000000)]) 0x204432CF 4
      = some (0xC01C000000000000, 0x0) := by decide
theorem test_fsgnjS :
    fAfter (machine .rv64 [] [(1, 0xDEADBEEF3F800000), (2, 0xDEADBEEFC0000000)]) 0x18445053 3
      = some (single 0xBF800000, 0x0) := rfl
theorem test_fsgnjnS :
    fAfter (machine .rv64 [] [(1, 0xDEADBEEF3F800000)]) 0x18426053 3 = some (single 0xBF800000, 0x0) := rfl
theorem test_fsgnjxS :
    fAfter (machine .rv64 [] [(1, 0xDEADBEEF3F800000), (2, 0xDEADBEEFC0000000)]) 0x18447053 3
      = some (single 0xBF800000, 0x0) := rfl
theorem test_fsgnjD :
    fAfter (machine .rv64 [] [(1, 0x123456789ABCDEF)]) 0x184250D3 3 = some (0x123456789ABCDEF, 0x0) := by decide
theorem test_fsgnjnD :
    fAfter (machine .rv64 [] [(1, 0x3FF0000000000000)]) 0x184260D3 3 = some (0xBFF0000000000000, 0x0) := by decide
theorem test_fsgnjxD :
    fAfter (machine .rv64 [] [(1, 0xC008000000000000)]) 0x184270D3 3 = some (0x4008000000000000, 0x0) := by decide
theorem test_fcvtSD :
    fAfter (machine .rv32 [] [(1, 0xBFB999999999999A)]) 0x18411253 3 = some (single 0xBDCCCCCC, 0x1) ∧
    fAfter (machine .rv64 [] [(1, 0xBFB999999999999A)]) 0x18411453 3 = some (single 0xBDCCCCCD, 0x1) := ⟨rfl, rfl⟩
theorem test_fcvtDS :
    fAfter (machine .rv64 [] [(1, 0xDEADBEEF7F800001)]) 0x184102D3 3 = some (0x7FF8000020000000, 0x10) := by decide
theorem test_fcvtSL :
    fAfter (machine .rv64 [(5, 0xFFFFFFFFFFFFFFFF)] []) 0x1940C253 3 = some (single 0xBF800000, 0x0) := rfl
theorem test_fcvtSLU :
    fAfter (machine .rv64 [(5, 0xFFFFFFFFFFFFFFFF)] []) 0x1940D653 3 = some (single 0x5F800000, 0x1) := rfl
theorem test_fcvtSW :
    fAfter (machine .rv32 [(5, 0x75BCD15)] []) 0x1940E253 3 = some (single 0x4CEB79A2, 0x1) ∧
    fAfter (machine .rv64 [(5, 0x75BCD15)] []) 0x1940E453 3 = some (single 0x4CEB79A2, 0x1) := ⟨rfl, rfl⟩
theorem test_fcvtSWU :
    fAfter (machine .rv32 [(5, 0xFFFFFFFF)] []) 0x1940F653 3 = some (single 0x4F800000, 0x1) ∧
    fAfter (machine .rv64 [(5, 0xFFFFFFFF)] []) 0x1940F853 3 = some (single 0x4F800000, 0x1) := ⟨rfl, rfl⟩
theorem test_fcvtDL :
    fAfter (machine .rv64 [(5, 0x20000000000001)] []) 0x1940C6D3 3 = some (0x4340000000000001, 0x1) := by decide
theorem test_fcvtDLU :
    fAfter (machine .rv64 [(5, 0xFFFFFFFFFFFFFFFF)] []) 0x1940D2D3 3 = some (0x43EFFFFFFFFFFFFF, 0x1) := by decide
theorem test_fcvtDW :
    fAfter (machine .rv32 [(5, 0x75BCD15)] []) 0x1940E2D3 3 = some (0x419D6F3454000000, 0x0) ∧
    fAfter (machine .rv64 [(5, 0x75BCD15)] []) 0x1940E4D3 3 = some (0x419D6F3454000000, 0x0) := by decide
theorem test_fcvtDWU :
    fAfter (machine .rv32 [(5, 0xFFFFFFFF)] []) 0x1940F2D3 3 = some (0x41EFFFFFFFE00000, 0x0) ∧
    fAfter (machine .rv64 [(5, 0xFFFFFFFF)] []) 0x1940F4D3 3 = some (0x41EFFFFFFFE00000, 0x0) := by decide
theorem test_mxtfS :
    fAfter (machine .rv64 [(5, 0xAAAAAAAA40490FDB)] []) 0x1941E053 3 = some (single 0x40490FDB, 0x0) := rfl
theorem test_mxtfD :
    fAfter (machine .rv64 [(5, 0x400921FB54442D18)] []) 0x1941E0D3 3 = some (0x400921FB54442D18, 0x0) := by decide
theorem test_mtfsr :
    xFlagsAfter (withFsr 0x11 (machine .rv32 [(6, 0xFFFFFF45)] [])) 0x2981F053 5 = some (0x11, 0x45) ∧
    xFlagsAfter (withFsr 0x03 (machine .rv64 [(5, 0x80)] [])) 0x2941F053 5 = some (0x3, 0x80) := by decide
theorem test_fcvtLS :
    xFlagsAfter (machine .rv64 [] [(1, 0xDEADBEEF501502F9)]) 0x28408253 5 = some (0x2540BE400, 0x0) := by decide
theorem test_fcvtLUS :
    xFlagsAfter (machine .rv64 [] [(1, 0xDEADBEEF5F000000)]) 0x28409253 5 = some (0x8000000000000000, 0x0) := by decide
theorem test_fcvtWS :
    xFlagsAfter (machine .rv32 [] [(1, 0xDEADBEEFC0200000)]) 0x2840A253 5 = some (0xFFFFFFFE, 0x1) ∧
    xFlagsAfter (machine .rv64 [] [(1, 0xDEADBEEFC0200000)]) 0x2840A453 5 = some (0xFFFFFFFFFFFFFFFD, 0x1) := by decide
theorem test_fcvtWUS :
    xFlagsAfter (machine .rv32 [] [(1, 0xDEADBEEF4F000000)]) 0x2840B253 5 = some (0x80000000, 0x0) ∧
    xFlagsAfter (machine .rv64 [] [(1, 0xDEADBEEF4F000000)]) 0x2840B453 5 = some (0xFFFFFFFF80000000, 0x0) := by decide
theorem test_fcvtLD :
    xFlagsAfter (machine .rv64 [] [(1, 0x4202A05F20000000)]) 0x284082D3 5 = some (0x2540BE400, 0x0) := by decide
theorem test_fcvtLUD :
    xFlagsAfter (machine .rv64 [] [(1, 0x43EFFFFFFFFFFFFF)]) 0x284092D3 5 = some (0xFFFFFFFFFFFFF800, 0x0) := by decide
theorem test_fcvtWD :
    xFlagsAfter (machine .rv32 [] [(1, 0xC1E0000000100000)]) 0x2840A2D3 5 = some (0x80000000, 0x1) ∧
    xFlagsAfter (machine .rv64 [] [(1, 0xC1E0000000100000)]) 0x2840A6D3 5 = some (0xFFFFFFFF80000000, 0x1) := by decide
theorem test_fcvtWUD :
    xFlagsAfter (machine .rv32 [] [(1, 0x41EFFFFFFFF00000)]) 0x2840B2D3 5 = some (0xFFFFFFFF, 0x1) ∧
    xFlagsAfter (machine .rv64 [] [(1, 0x41EFFFFFFFF00000)]) 0x2840B4D3 5 = some (0xFFFFFFFFFFFFFFFF, 0x1) := by decide
theorem test_mftxS :
    xAfter (machine .rv32 [] [(1, 0xDEADBEEFBF800000)]) 0x2803C053 5 = some 0xBF800000 ∧
    xAfter (machine .rv64 [] [(1, 0x400921FB54442D18)]) 0x2803C053 5 = some 0x54442D18 := by decide
theorem test_mftxD :
    xAfter (machine .rv64 [] [(1, 0x3FF8000000000000)]) 0x2803C0D3 5 = some 0x3FF8000000000000 := by decide
theorem test_mffsr :
    xFlagsAfter (withFsr 0x71 (machine .rv64 [] [])) 0x2801D053 5 = some (0x71, 0x71) := by decide
theorem test_feqS :
    xFlagsAfter (machine .rv64 [] [(1, 0xDEADBEEF00000000), (2, 0xDEADBEEF80000000)]) 0x28455053 5
      = some (0x1, 0x0) ∧
    xFlagsAfter (machine .rv64 [] [(1, 0xDEADBEEF7F800001), (2, 0xDEADBEEF3F800000)]) 0x28455053 5
      = some (0x0, 0x10) := by decide
theorem test_fltS :
    xFlagsAfter (machine .rv64 [] [(1, 0xDEADBEEFBF800000), (2, 0xDEADBEEF80000001)]) 0x28456053 5
      = some (0x1, 0x0) ∧
    xFlagsAfter (machine .rv64 [] [(1, 0xDEADBEEF7FC00000), (2, 0xDEADBEEF3F800000)]) 0x28456053 5
      = some (0x0, 0x10) := by decide
theorem test_fleS :
    xFlagsAfter (machine .rv64 [] [(1, 0xDEADBEEF80000000), (2, 0xDEADBEEF00000000)]) 0x28457053 5
      = some (0x1, 0x0) ∧
    xFlagsAfter (machine .rv64 [] [(1, 0xDEADBEEF3F800000), (2, 0xDEADBEEF7FC00000)]) 0x28457053 5
      = some (0x0, 0x10) := by decide
theorem test_feqD :
    xFlagsAfter (machine .rv64 [] [(1, 0x0), (2, 0x8000000000000000)]) 0x284550D3 5 = some (0x1, 0x0) ∧
    xFlagsAfter (machine .rv64 [] [(1, 0x7FF8000000000000), (2, 0x7FF8000000000000)]) 0x284550D3 5
      = some (0x0, 0x0) := by decide
theorem test_fltD :
    xFlagsAfter (machine .rv64 [] [(1, 0xBFF0000000000000), (2, 0x3FF0000000000000)]) 0x284560D3 5
      = some (0x1, 0x0) ∧
    xFlagsAfter (machine .rv64 [] [(1, 0x3FF0000000000000), (2, 0x7FF8000000000000)]) 0x284560D3 5
      = some (0x0, 0x10) := by decide
theorem test_fleD :
    xFlagsAfter (machine .rv64 [] [(1, 0x4000000000000000), (2, 0x4000000000000000)]) 0x284570D3 5
      = some (0x1, 0x0) ∧
    xFlagsAfter (machine .rv64 [] [(1, 0x7FF0000000000001), (2, 0x4000000000000000)]) 0x284570D3 5
      = some (0x0, 0x10) := by decide

/-! ## Traps and what they carry (95_test_vectors, sections 2.7, 2.10 and 2.11) -/

theorem test_illegal_words : [0x00000000, 0x00000001, 0x00000002, 0x0000001F, 0x0000007F, 0xFFFFFFFF, 0x29800383,
    0x29800223, 0x2980032B, 0x298E0E33, 0x000001BB, 0x2980829B, 0x2980FC9B, 0x2800066B, 0x2840026B, 0x0000076B, 0x000002EB,
    0x18604053, 0x18440153, 0x184401D3, 0x18458253, 0x2843C053, 0x2801D0D3, 0x2801D253, 0x0000022F, 0x000001AF, 0x000003AF,
    0x08000077, 0x00400077, 0x28400277, 0x28020677, 0x00000177, 0x00000E77, 0x280002F7].all
      (fun w : Nat => trapOf (machine .rv64 [] []) w == some (.illegalInstruction (BitVec.ofNat 32 w))) = true := by decide
theorem test_illegal_on_rv32 : [0x29808093, 0x29800183, 0x29800303, 0x018E01A3, 0x2980001B, 0x298E003B, 0x298E043B,
    0x298E063B, 0x298E01AB, 0x28408053, 0x1940C0D3, 0x2803C0D3, 0x1941E0D3].all
      (fun w : Nat => trapOf (machine .rv32 [] []) w == some (.illegalInstruction (BitVec.ofNat 32 w))) = true := by decide
theorem test_illegal_rounding_mode :
    trapOf (machine .rv64 [] []) 0x18440A53 = some (.illegalInstruction 0x18440A53) ∧
    trapOf (machine .rv64 [] []) 0x18440C53 = some (.illegalInstruction 0x18440C53) ∧
    trapOf (withFsr 0xA0 (machine .rv64 [] [])) 0x18440E53 = some (.illegalInstruction 0x18440E53) ∧
    trapOf (withFsr 0x80 (machine .rv64 [] [])) 0x18440E53 = none := by decide
theorem test_misaligned_pc : step { machine .rv64 [] [] with pc := 0x1002 } =
    .fault (.trap (.instructionAddressMisaligned 0x1002) 0x1002) := rfl
theorem test_fetch_access_fault : step (withHole 0x1003 0x1004 .fetch (machine .rv64 [] [])) =
    .fault (.trap (.accessFault 0x1000 .fetch) 0x1000) := rfl
theorem test_load_access_fault : trapOf (withHole 0x2003 0x2004 .load (machine .rv32 [(6, 0x2000)] [])) 0x29800103 =
    some (.accessFault 0x2000 .load) := by decide
theorem test_access_depends_on_size : let s := withoutSize 1 0x2000 0x3000 .load (machine .rv64 [(6, 0x2000)] [])
    trapOf s 0x29800003 = some (.accessFault 0x2000 .load) ∧ trapOf s 0x29800103 = none := by decide
theorem test_amo_misaligned : trapOf (machine .rv32 [(6, 0x2002)] []) 0x298E012B = some (.misalignedAddress 0x2002) ∧
    trapOf (machine .rv64 [(6, 0x2004)] []) 0x298E01AB = some (.misalignedAddress 0x2004) := by decide
theorem test_syscall : trapOf (machine .rv64 [] []) 0x00000077 = some .syscall := by decide
theorem test_break : trapOf (machine .rv64 [] []) 0x000000F7 = some .brk := by decide
theorem test_misaligned_load_runs : xAfter (holding 0x1FF8 loadBytes (machine .rv32 [(6, 0x2001)] [])) 0x29800103 5 =
    some 0x8C8B8A89 := by decide

/-! ## Counters and fences (95_test_vectors, sections 2.9 and 2.10) -/

theorem test_rdinstret : after { machine .rv64 [] [] with instret := 7 } 0x28000A77 (fun t => (t.readX 5, t.instret)) =
    some (7, 8) := by decide
theorem test_rdinstret_rv32 : after { machine .rv32 [] [] with instret := 0xFFFFFFFF } 0x28000A77
    (fun t => (t.readX 5, t.instret)) = some (0xFFFFFFFF, 0) := by decide
theorem test_rdcycle_x0 : after (machine .rv64 [(5, 7)] []) 0x00000277 (fun t => (t.pcX, t.instret, t.readX 5)) =
    some (0x1004, 1, 7) := by decide
theorem test_rdtime_completes : after (machine .rv64 [(6, 7)] []) 0x28000677 (fun t => (t.pcX, t.instret, t.readX 6)) =
    some (0x1004, 1, 7) := by decide
theorem test_fence : [0x0000012F, 0xFFFFFD2F, 0x2980012F].all
    (fun w => after (machine .rv64 [(5, 7)] []) w (fun t => (t.pcX, t.instret, t.readX 5)) == some (0x1004, 1, 7)) =
      true := by decide
theorem test_fence_i : after { machine .rv64 [] [] with stale := [(0x2000, 1)] } 0xFFFFFCAF
    (fun t => (t.pcX, t.instret, t.stale)) = some (0x1004, 1, []) := by decide
theorem test_store_is_recorded : after (machine .rv64 [(6, 0x2000), (7, 8)] []) 0x018E0023 (·.stale) =
    some [(0x2000, 0)] := by decide

/-! ## Tininess (96_test_vectors_fp, section 10) -/

theorem test_tininess_after : fAfter (machine .rv64 [] [(1, 0x14918E00), (2, 0x2B612000)]) 0x18442053 3 =
    some (single 0x00800000, 0x01) := by rfl
theorem test_tininess_before : fAfter { machine .rv64 [] [(1, 0x14918E00), (2, 0x2B612000)] with
      env := { Env.reset with tininess := .beforeRounding } } 0x18442053 3 = some (single 0x00800000, 0x03) := by rfl

/-! ## Witnesses: states and operands that meet the hypotheses of a statement -/

theorem witness_EncodeOfDecode : decode 0xFFFFFD67#32 = .ok (.j (-6)) ∧ decode 0x28000A77#32 = .ok (.rdinstret 5) := by decide
theorem witness_OtherLengthsDoNotDecode :
    (0x00000002#32).extractLsb' 0 2 ≠ 0b11#2 ∧ (0x0000001F#32).extractLsb' 0 5 = 0b11111#5 := by decide
theorem witness_IllegalInstructions :
    Instr.wf (.ld 5 6 0) (machine .rv32 [] []).xlen = false ∧ Instr.wf (.srai 5 6 32) (machine .rv32 [] []).xlen = false ∧
    Instr.wf (.faddS 3 1 2 5) (machine .rv64 [] []).xlen = false ∧
    (Instr.rmField (.faddS 3 1 2 7) = some 0b111#3 ∧ 5 ≤ (withFsr 0xA0 (machine .rv64 [] [])).fsrRM.toNat) ∧
    exec (.ld 5 6 0) (machine .rv32 [] []) = .fault (.trap (.illegalInstruction 0x29800183) 0x1000) ∧
    exec (.faddS 3 1 2 7) (withFsr 0xA0 (machine .rv64 [] [])) =
      .fault (.trap (.illegalInstruction 0x18440E53) 0x1000) := ⟨by decide, by decide, by decide, by decide, rfl, rfl⟩
theorem witness_StepRunsDecoded :
    let s := holding 0x1000 [0x13, 0xFC, 0xBF, 0x29] (machine .rv64 [] [])
    s.pcX.toNat % 4 = 0 ∧ s.accessible s.pcX 4 .fetch = true ∧ decode (s.fetchWord s.pcX) = .ok (.addi 5 6 (-1)) ∧
      s.fetchIsStale s.pcX = false := by decide
theorem witness_StepRunsDecoded_stale :
    let s := { holding 0x1000 [0x13, 0xFC, 0xBF, 0x29] (machine .rv64 [] []) with stale := [(0x1000, 0x13)] }
    s.pcX.toNat % 4 = 0 ∧ s.accessible s.pcX 4 .fetch = true ∧ decode (s.fetchWord s.pcX) = .ok (.addi 5 6 (-1)) ∧
      s.fetchIsStale s.pcX = true := by
  intro s
  have h : s.fetchByte 0x1000 = 0x13 := by
    have hl : s.fetchByte 0x1000 = [0x13#8, 0x13#8].getD (Config.staleChoice 0 0x1000 % 2) 0x13#8 := rfl
    rw [hl]
    rcases Nat.mod_two_eq_zero_or_one (Config.staleChoice 0 0x1000) with h | h <;> rw [h] <;> rfl
  have hw : s.fetchWord s.pcX = wordOfBytes .little (s.fetchByte 0x1000) 0xFC 0xBF 0x29 := rfl
  exact ⟨by decide, by decide, by rw [hw, h]; decide, by decide⟩
theorem witness_FetchTraps :
    ([0x1001#64, 0x1002#64, 0x1003#64].all fun pc =>
      ({ machine .rv64 [] [] with pc := pc } : State).pcX.toNat % 4 != 0) = true ∧
    (let s := withHole 0x1003 0x1004 .fetch (machine .rv64 [] [])
     s.pcX.toNat % 4 = 0 ∧ s.accessible s.pcX 4 .fetch = false) ∧
    (let s := withHole 0x1004 0x1005 .fetch (machine .rv64 [] [])
     s.pcX.toNat % 4 = 0 ∧ s.accessible s.pcX 4 .fetch = true ∧ (decode (s.fetchWord s.pcX)).isOk = false) :=
  ⟨by decide, by decide, by decide, by decide, rfl⟩
theorem witness_FetchParcels : (machine .rv32 [] []).fetchIsStale 0xFFFFFFFE = false ∧
    ({ machine .rv32 [] [] with stale := [(0x1004, 1)] } : State).fetchIsStale 0x1000 = false := by decide
theorem witness_FetchSeesOldOrNew : ∀ b, (0x1000, b) ∉ ({ machine .rv32 [] [] with stale := [(0x1001, 1)] } : State).stale := by
  decide
theorem witness_StepKeepsInv :
    let s := holding 0x1000 [0x13, 0xFC, 0xBF, 0x29] (machine .rv64 [] [])
    s.Inv ∧ ∃ t, step s = .next t :=
  ⟨⟨by decide, by decide, by decide, by decide, by simp [holding, machine, State.reset, truncX], by decide,
    by decide, by decide, by decide⟩, _, rfl⟩
theorem witness_StepCounts : ∃ t, step (holding 0x1000 [0x13, 0xFC, 0xBF, 0x29] (machine .rv32 [] [])) = .next t :=
  ⟨_, rfl⟩
theorem witness_OtherInstructionsAdvance : (∃ t, exec (.addi 5 6 1) (machine .rv32 [] []) = .next t) ∧
    opcodeOf (.addi 5 6 1) ∉ [0b1100111#7, 0b1101111#7, 0b1101011#7, 0b1100011#7] := ⟨⟨_, rfl⟩, by decide⟩
theorem witness_WhoWritesMemoryAndF : (∃ t, exec (.addi 5 6 1) (machine .rv32 [] []) = .next t) ∧
    opcodeOf (.addi 5 6 1) ∉ [0b0100011#7, 0b0100111#7, 0b0101011#7] ∧
    opcodeOf (.addi 5 6 1) ∉ [0b0000111#7, 0b1010011#7, 0b1000011#7, 0b1000111#7, 0b1001011#7, 0b1001111#7] :=
  ⟨⟨_, rfl⟩, by decide, by decide⟩
theorem witness_FlagsAccrue : (∃ t, exec (.fdivS 3 1 2 0) (withFsr 0x08 (machine .rv32 [] [])) = .next t) ∧
    (∀ rd rs1, Instr.fdivS 3 1 2 0 ≠ .mtfsr rd rs1) ∧
    (withFsr 0x08 (machine .rv32 [] [])).fsrFlags.getLsbD 3 = true :=
  ⟨⟨_, rfl⟩, by simp, by decide⟩
theorem witness_XRegisterFile : (31#5 = 31#5 ∧ 31#5 ≠ 0#5) ∧ (1#5 ≠ 31#5 ∨ 31#5 = 0#5) ∧ (0#5 ≠ 0#5 ∨ 0#5 = 0#5) := by decide
theorem witness_FRegisterFile : (0#5 : Reg) ≠ 31#5 := by decide
theorem witness_Shifts : (31#6).toNat < (machine .rv32 [] []).xlen.width ∧ (63#6).toNat < (machine .rv64 [] []).xlen.width ∧
    ¬(32#6).toNat < (machine .rv32 [] []).xlen.width := by decide
theorem witness_WordForms_DivideWord_BitMoves : (machine .rv64 [] []).xlen = .rv64 := by decide
theorem witness_QuotientAndRemainder :
    let s := machine .rv32 [(6, 0xFFFFFFF9), (7, 2)] []
    (∃ t, exec (.div 5 6 7) s = .next t) ∧ (∃ u, exec (.rem 5 6 7) s = .next u) ∧ signedX s.xlen (s.readX 7) ≠ 0 ∧
      ¬(signedX s.xlen (s.readX 6) = -2 ^ (s.xlen.width - 1) ∧ signedX s.xlen (s.readX 7) = -1) :=
  ⟨⟨_, rfl⟩, ⟨_, rfl⟩, by decide, by decide⟩
theorem witness_MisalignedTarget :
    ([0x2001#64, 0x2002#64, 0x2003#64].all fun v =>
      ((((machine .rv32 [(6, v)] []).readX 6).toNat + (0#12).toInt) % (machine .rv32 [(6, v)] []).size).toNat % 4 != 0) = true ∧
    (machine .rv32 [] []).pcX.toNat % 4 = 0 ∧ (1#25).toNat % 2 = 1 ∧ (0x1000001#25).toNat % 2 = 1 ∧
    (0x7FF#12).toNat % 2 = 1 ∧ (0x801#12).toNat % 2 = 1 := by decide
theorem witness_MisalignedTarget_branches : let s := machine .rv32 [(6, 0x80000000), (7, 1)] []
    s.readX 6 = s.readX 6 ∧ s.readX 6 ≠ s.readX 7 ∧ signedX s.xlen (s.readX 6) < signedX s.xlen (s.readX 7) ∧
    signedX s.xlen (s.readX 6) ≤ signedX s.xlen (s.readX 6) ∧ (s.readX 7).toNat < (s.readX 6).toNat ∧
    (s.readX 6).toNat ≤ (s.readX 6).toNat := by decide
theorem witness_MemReadBytes : (8 = 1 ∨ 8 = 2 ∨ 8 = 4 ∨ 8 = 8) ∧
    ∃ t, loadThen (machine .rv32 [] []) 0xFFFFFFFF (8 * 8) (fun _ => .next State.reset) = .next t := ⟨by decide, _, rfl⟩
theorem witness_MemWriteBytes : (8 = 1 ∨ 8 = 2 ∨ 8 = 4 ∨ 8 = 8) ∧ Memory.wf (machine .rv32 [] []).mem = true ∧
    ∃ t, storeAt (machine .rv32 [] []) 0xFFFFFFFF (0x0102030405060708 : BitVec (8 * 8)) = .next t :=
  ⟨by decide, by decide, _, rfl⟩
theorem witness_StoreThenLoad : ∃ t u, Memory.wf (machine .rv32 [(6, 0xFFFFFFFE), (7, 9)] []).mem = true ∧ (5 : Reg) ≠ 0#5 ∧
    exec (.sw 6 7 0) (machine .rv32 [(6, 0xFFFFFFFE), (7, 9)] []) = .next t ∧ exec (.lw 5 6 0) t = .next u :=
  ⟨_, _, by decide, by decide, rfl, rfl⟩
theorem witness_PortableInstructionStore :
    let s := withHole 0x2004 0x3000 .store (big (holding 0x1FF8 loadBytes (machine .rv32 [(3, 0x2000), (2, 9)] [])))
    Memory.wf s.mem = true ∧ (3 : Reg) ≠ 2 ∧ s.accessible (s.regOffset 3 0#12) 2 .store = true ∧
      s.accessible (s.regOffset 3 2#12) 2 .store = true := by decide
theorem witness_Loads : ([(1, 0x2001), (2, 0x2002), (4, 0x2004), (8, 0x2008)] : List (Nat × Nat)).all (fun c =>
    let s := withHole c.2 0x3000 .load (machine .rv64 [(6, 0x2000)] [])
    s.accessible (s.regOffset 6 0) c.1 .load) = true := by decide
theorem witness_Stores : ([(1, 0x2001), (2, 0x2002), (4, 0x2004), (8, 0x2008)] : List (Nat × Nat)).all (fun c =>
    let s := withHole c.2 0x3000 .store (machine .rv64 [(6, 0x2000)] [])
    Memory.wf s.mem && s.accessible (s.regOffset 6 0) c.1 .store) = true := by decide
theorem witness_DataAccessFaults : ([(1, 0x2000), (2, 0x2001), (4, 0x2003), (8, 0x2007)] : List (Nat × Nat)).all (fun c =>
    let s := withHole c.2 0x3000 .load (machine .rv64 [(6, 0x2000)] [])
    let t := withHole c.2 0x3000 .store (machine .rv64 [(6, 0x2000)] [])
    !s.accessible (s.regOffset 6 0) c.1 .load && !t.accessible (t.regOffset 6 0) c.1 .store) = true := by decide
theorem witness_AmoWord :
    let s := withHole 0x2004 0x3000 .amo (machine .rv32 [(6, 0x2000)] [])
    Memory.wf s.mem = true ∧ (s.readX 6).toNat % 4 = 0 ∧ s.accessible (s.readX 6) 4 .amo = true := by decide
theorem witness_AmoDouble :
    let s := withHole 0x2008 0x3000 .amo (machine .rv64 [(6, 0x2000)] [])
    s.xlen = .rv64 ∧ Memory.wf s.mem = true ∧ (s.readX 6).toNat % 8 = 0 ∧ s.accessible (s.readX 6) 8 .amo = true := by decide
theorem witness_AmoTraps :
    ([0x2001#64, 0x2002#64, 0x2003#64].all fun a => ((machine .rv32 [(6, a)] []).readX 6).toNat % 4 != 0) = true ∧
    (let s := withHole 0x2003 0x2004 .amo (machine .rv32 [(6, 0x2000)] [])
     (s.readX 6).toNat % 4 = 0 ∧ s.accessible (s.readX 6) 4 .amo = false) ∧
    ((machine .rv64 [(6, 0x2004)] []).readX 6).toNat % 8 ≠ 0 ∧
    (let s := withHole 0x2007 0x2008 .amo (machine .rv64 [(6, 0x2000)] [])
     (s.readX 6).toNat % 8 = 0 ∧ s.accessible (s.readX 6) 8 .amo = false) ∧
    exec (.amoaddW 5 6 7) (machine .rv32 [(6, 0x2002)] []) = .fault (.trap (.misalignedAddress 0x2002) 0x1000) :=
  ⟨by decide, by decide, by decide, by decide, rfl⟩
theorem witness_FpArithmetic_FpSquareRoot_FpFused_IntToFp_FpToInt :
    resolveRm (machine .rv64 [] []) 0 = some .rne ∧ resolveRm (machine .rv64 [] []) 4 = some .rmm ∧
    resolveRm (withFsr 0x80 (machine .rv64 [] [])) 7 = some .rmm ∧ (machine .rv64 [] []).xlen = .rv64 := by decide
theorem witness_nan_clauses : isNaN (fm := .s) 0x7F800001#32 = true ∧ isNaN (fm := .s) 0x7F800000#32 = false ∧
    isNaN (fm := .s) 0x7F7FFFFF#32 = false ∧ isNaN (fm := .d) 0x7FF0000000000001#64 = true ∧
    isNaN (fm := .d) 0x7FF0000000000000#64 = false := by decide
theorem witness_FpMinMax : ieeeLt (fm := .s) 0x80000001#32 0#32 = true ∧ ieeeLt (fm := .s) 0x80000000#32 0#32 = false ∧
    ieeeLt (fm := .s) 0#32 0x80000000#32 = false ∧ ieeeLt (fm := .s) 0x7F7FFFFF#32 0x7F800000#32 = true := by decide
theorem witness_FpToInt :
    (roundToInteger (fm := .s) .rne 0x4EFFFFFF#32).1 ≤ 2 ^ 31 - 1 ∧ 2 ^ 31 - 1 < (roundToInteger (fm := .s) .rne 0x4F000000#32).1 ∧
    -2 ^ 31 ≤ (roundToInteger (fm := .s) .rne 0xCF000000#32).1 ∧ (roundToInteger (fm := .s) .rne 0xCF000001#32).1 < -2 ^ 31 ∧
    (roundToInteger (fm := .d) .rtz 0xBFEFFFFFFFFFFFFF#64).1 = 0 ∧ isInf (fm := .s) 0x7F800000#32 = true ∧
    isInf (fm := .s) 0x7F7FFFFF#32 = false := by decide
theorem witness_IntToFp_zero : ((machine .rv64 [] []).readX 5).toInt = 0 := by decide
theorem witness_CompareIsNumeric : isNaN (fm := .s) 0x7F800000#32 = false ∧ isInf (fm := .s) 0x7F800000#32 = true ∧
    isInf (fm := .s) 0x7F7FFFFF#32 = false ∧ isNaN (fm := .s) 0x80000000#32 = false ∧
    isNaN (fm := .s) 0xFF800000#32 = false ∧ isInf (fm := .s) 0xFF800000#32 = true := by decide
theorem witness_RoundingModes : 0 < 1 ∧ 2 * (3 % 2 ^ 1) = 2 ^ 1 ∧
    [0x00#8, 0x20#8, 0x40#8, 0x60#8, 0x80#8].map (fun v => (withFsr v (machine .rv64 [] [])).fsrRM) = [0, 1, 2, 3, 4] ∧
    5 ≤ (withFsr 0xA0 (machine .rv64 [] [])).fsrRM.toNat ∧ 5 ≤ (withFsr 0xFF (machine .rv64 [] [])).fsrRM.toNat := by decide
theorem witness_finite : FiniteFp (fm := .s) 0x7F7FFFFF#32 ∧ FiniteFp (fm := .s) 0x80000001#32 ∧
    FiniteFp (fm := .d) 0xFFEFFFFFFFFFFFFF#64 ∧ FiniteFp (fm := .d) 0#64 := by unfold FiniteFp; decide
theorem test_numbers : valueOf (fm := .s) 0x3F800000#32 = 1 ∧ valueOf (fm := .s) 0x40000000#32 = 2 ∧
    valueOf (fm := .s) 0x40400000#32 = 3 ∧ valueOf (fm := .s) 0xC0800000#32 = -4 ∧
    valueOf (fm := .s) 0x00000001#32 = 2 ^ (-149 : Int) := by
  have hs : signOf (fm := .s) 0x3F800000#32 = false ∧ signOf (fm := .s) 0x40000000#32 = false ∧
      signOf (fm := .s) 0x40400000#32 = false ∧ signOf (fm := .s) 0xC0800000#32 = true ∧ signOf (fm := .s) 1#32 = false := by decide
  obtain ⟨h1, h2, h3, h4, h5⟩ := hs
  refine ⟨?_, ?_, ?_, ?_, ?_⟩ <;>
    norm_num [valueOf, signedNat, h1, h2, h3, h4, h5, sigOf, expOf, expField, fracField, expMin, bias, fracBits, expBits]
theorem witness_ExactArithmetic :
    let v := fun a : Pattern .s => valueOf a
    (FiniteFp (fm := .s) 0x3F800000#32 ∧ FiniteFp (fm := .s) 0x40000000#32 ∧ FiniteFp (fm := .s) 0x7F7FFFFF#32) ∧
    v 0x3F800000#32 + v 0x40000000#32 = v 0x40400000#32 ∧ v 0x40400000#32 - v 0x3F800000#32 = v 0x40000000#32 ∧
    v 0x40000000#32 * v 0x3F800000#32 = v 0x40000000#32 ∧ v 0x3F800000#32 * v 0x40000000#32 + v 0x3F800000#32 = v 0x40400000#32 ∧
    (v 0x3F800000#32 ≠ 0 ∧ v 0x40000000#32 = v 0x40000000#32 * v 0x3F800000#32) ∧
    (0 ≤ v 0x3F800000#32 ∧ v 0x3F800000#32 = v 0x3F800000#32 * v 0x3F800000#32) := by
  obtain ⟨h1, h2, h3, -, -⟩ := test_numbers
  refine ⟨⟨by unfold FiniteFp; decide, by unfold FiniteFp; decide, by unfold FiniteFp; decide⟩, ?_⟩
  norm_num [h1, h2, h3]
theorem witness_ExactArithmetic_zero :
    let v := fun a : Pattern .s => valueOf a
    FiniteFp (fm := .s) 0#32 ∧ FiniteFp (fm := .s) 0x80000000#32 ∧ v 0#32 = 0 ∧ v 0x80000000#32 = 0 ∧
    v 0#32 + v 0x80000000#32 = 0 ∧ v 0x3F800000#32 - v 0x3F800000#32 = 0 ∧ v 0x3F800000#32 * v 0x80000000#32 = 0 ∧
    v 0x3F800000#32 * v 0#32 + v 0x80000000#32 = 0 ∧ v 0x40000000#32 ≠ 0 := by
  obtain ⟨h1, h2, -, -, -⟩ := test_numbers
  have z : valueOf (fm := .s) 0#32 = 0 ∧ valueOf (fm := .s) 0x80000000#32 = 0 := by
    constructor <;> norm_num [valueOf, signedNat, sigOf, expField, fracField, fracBits, expBits]
  refine ⟨by unfold FiniteFp; decide, by unfold FiniteFp; decide, z.1, z.2, ?_⟩
  norm_num [h1, h2, z.1, z.2]
theorem witness_CorrectRounding :
    let v := fun a : Pattern .s => ((valueOf a : ℚ) : ℝ)
    (v 0x3F800000#32 + v 0x40000000#32 ≠ 0 ∧ v 0x3F800000#32 - v 0x40000000#32 ≠ 0 ∧ v 0x3F800000#32 * v 0x00000001#32 ≠ 0 ∧
      v 0x3F800000#32 * v 0x40000000#32 + v 0xC0800000#32 ≠ 0 ∧ v 0x3F800000#32 ≠ 0 ∧ v 0x40400000#32 ≠ 0 ∧
      0 < v 0x00000001#32) ∧ (-2 ^ 63 : Int) ≠ 0 := by
  obtain ⟨h1, h2, h3, h4, h5⟩ := test_numbers
  norm_num [h1, h2, h3, h4, h5]
theorem test_overflow_bound : let x : ℝ := 2 ^ 128 - 2 ^ 103
    Overflows .s .rne x ∧ Overflows .s .rmm (-x) ∧ Overflows .s .rup x ∧ Overflows .s .rdn (-x) ∧
    ¬ Overflows .s .rtz x ∧ ¬ Overflows .s .rdn x ∧ ¬ Overflows .s .rup (-x) := by
  norm_num [Overflows, ReachesBound, bias, fracBits]
theorem test_tiny_bound : let x : ℝ := 1 / 2 ^ 126 - 1 / 2 ^ 151
    Tiny .s .beforeRounding .rne x ∧ ¬ Tiny .s .afterRounding .rne x ∧ Tiny .s .afterRounding .rtz x ∧
    ¬ Tiny .s .afterRounding .rup x ∧ Tiny .s .afterRounding .rdn x ∧ ¬ Tiny .s .beforeRounding .rne (1 / 2 ^ 126) := by
  norm_num [Tiny, ReachesBound, bias, fracBits, abs_of_pos]
theorem witness_SpecialOperands :
    (isNaN (fm := .s) 0x7F800000#32 = false ∧ isInf (fm := .s) 0x7F800000#32 = true ∧ isInf (fm := .s) 0xFF800000#32 = true) ∧
    (isNaN (fm := .s) 0x7F7FFFFF#32 = false ∧ isInf (fm := .s) 0x7F7FFFFF#32 = false ∧ isZero (fm := .s) 0x7F7FFFFF#32 = false) ∧
    (isZero (fm := .s) 0x80000000#32 = true ∧ isInf (fm := .s) 0x80000000#32 = false ∧ isNaN (fm := .s) 0x80000000#32 = false) ∧
    (signOf (fm := .s) 0x80000001#32 = true ∧ isZero (fm := .s) 0x80000001#32 = false) := by decide
theorem witness_NaNRules :
    (isSNaN (fm := .s) 0x7F800001#32 = true ∧ isSNaN (fm := .s) 0x7FBFFFFF#32 = true) ∧
    (isSNaN (fm := .s) 0x7FC00000#32 = false ∧ isQNaN (fm := .s) 0x7FC00000#32 = true) ∧
    (isSNaN (fm := .s) 0x7F800000#32 = false ∧ isQNaN (fm := .s) 0x7F800000#32 = false) ∧
    isNaN (fm := .s) 0xFFFFFFFF#32 = true := by decide
theorem witness_ExactConversions : isNaN (fm := .s) 0x00000001#32 = false ∧ isInf (fm := .s) 0x7F7FFFFF#32 = false ∧
    isNaN (fm := .s) 0xFF800000#32 = false ∧ (-2 ^ 31 : Int) ≤ -2 ^ 31 ∧ (2 ^ 32 - 1 : Int) ≤ 2 ^ 32 - 1 := by decide
theorem witness_Counters : (machine .rv64 [] []).xlen = .rv64 ∧
    ({ machine .rv64 [] [] with cycle := 2 ^ 64 - 1, time := 2 ^ 64 - 1 } : State).cycle < 2 ^ 64 := by decide

end Sys2Proof.Tests
end

/-! Correct rounding (45_fp_compute R303): each operation hands `roundPack` or `addExact` its exact result, or a number that
stands for it, and those round once. -/

namespace Sys2Proof.Machine

/-! ## The operations on finite operands, without their special cases -/

theorem isZero_of_value_ne {fm : Fmt} (a : Pattern fm) (h : (valueOf a : ℝ) ≠ 0) : isZero a = false :=
  isZero_of_sigOf a (sigOf_real_pos a h)

theorem ieeeAdd_of_finite (fm : Fmt) (t : Tininess) (r : Rounding) (a b : Pattern fm) (ha : FiniteFp a) (hb : FiniteFp b) :
    ieeeAdd fm t r a b = addExact fm t r (signOf a) (sigOf a) (expOf a) (signOf b) (sigOf b) (expOf b) := by
  simp [ieeeAdd, ha.2, hb.2]

theorem ieeeMul_of_finite (fm : Fmt) (t : Tininess) (r : Rounding) (a b : Pattern fm) (ha : FiniteFp a) (hb : FiniteFp b) :
    ieeeMul fm t r a b = roundPack fm t r (signOf a != signOf b) (sigOf a * sigOf b) (expOf a + expOf b) := by
  simp [ieeeMul, ha.2, hb.2]

theorem ieeeFma_of_finite (fm : Fmt) (t : Tininess) (r : Rounding) (a b c : Pattern fm) (ha : FiniteFp a) (hb : FiniteFp b)
    (hc : FiniteFp c) : ieeeFma fm t r a b c =
      addExact fm t r (signOf a != signOf b) (sigOf a * sigOf b) (expOf a + expOf b) (signOf c) (sigOf c) (expOf c) := by
  simp [ieeeFma, ha.2, hb.2, hc.2]

theorem ieeeConvert_of_finite (src dst : Fmt) (t : Tininess) (r : Rounding) (a : Pattern src) (ha : FiniteFp a) :
    ieeeConvert src dst t r a = roundPack dst t r (signOf a) (sigOf a) (expOf a) := by
  simp [ieeeConvert, ha.2]

/-- The quotient of two significands to `2 * fracBits + 5` bits after the point, with a last bit that says
whether a remainder is left. -/
def quotientSig (fm : Fmt) (A B : Nat) : Nat :=
  let num := A * 2 ^ (2 * fracBits fm + 5)
  2 * (num / B) + (if num % B = 0 then 0 else 1)

theorem ieeeDiv_of_finite (fm : Fmt) (t : Tininess) (r : Rounding) (a b : Pattern fm) (ha : FiniteFp a) (hb : FiniteFp b)
    (hz : isZero b = false) : ieeeDiv fm t r a b =
      roundPack fm t r (signOf a != signOf b) (quotientSig fm (sigOf a) (sigOf b))
        (expOf a - expOf b - (2 * fracBits fm + 5 : Nat) - 1) := by
  simp [ieeeDiv, quotientSig, ha.2, hb.2, hz]

/-- The significand of a number written with an even exponent, `rootArg · 4 ^ rootExp`. -/
def rootArg {fm : Fmt} (a : Pattern fm) : Nat := if expOf a % 2 = 1 then 2 * sigOf a else sigOf a

/-- Half the exponent that goes with `rootArg`. -/
def rootExp {fm : Fmt} (a : Pattern fm) : Int := (if expOf a % 2 = 1 then expOf a - 1 else expOf a) / 2

/-- The root of a significand to `fracBits + 4` bits after the point, with a last bit that says whether it is inexact. -/
def rootSig (fm : Fmt) (s : Nat) : Nat :=
  let m := s * 2 ^ (2 * (fracBits fm + 4))
  let root := isqrt (2 * fracBits fm + 8) m
  2 * root + (if root * root = m then 0 else 1)

theorem ieeeSqrt_of_finite (fm : Fmt) (t : Tininess) (r : Rounding) (a : Pattern fm) (ha : FiniteFp a)
    (hz : isZero a = false) (hs : signOf a = false) : ieeeSqrt fm t r a =
      roundPack fm t r false (rootSig fm (rootArg a)) (rootExp a - (fracBits fm + 4 : Nat) - 1) := by
  simp [ieeeSqrt, rootSig, rootArg, rootExp, ha.2, hz, hs]

theorem sigOf_eq_rootArg {fm : Fmt} (a : Pattern fm) :
    (sigOf a : ℝ) * 2 ^ expOf a = rootArg a * (2 ^ rootExp a) ^ 2 := by
  rw [← zpow_natCast, ← zpow_mul, rootArg, rootExp]
  by_cases h : expOf a % 2 = 1
  · obtain ⟨k, hk⟩ : ∃ k, expOf a = 2 * k + 1 := ⟨expOf a / 2, by omega⟩
    rw [if_pos h, if_pos h, hk, zpow_succ_two, show (2 * k + 1 - 1) / 2 * ((2 : Nat) : Int) = 2 * k by omega]
    push_cast; ring
  · rw [if_neg h, if_neg h, show expOf a / 2 * ((2 : Nat) : Int) = expOf a by omega]

theorem rootArg_ne_zero {fm : Fmt} (a : Pattern fm) (h : sigOf a ≠ 0) : rootArg a ≠ 0 := by
  unfold rootArg; split <;> omega

/-- The steps `ieeeSqrt` gives `isqrt` suffice. -/
theorem rootArg_lt_four_pow {fm : Fmt} (a : Pattern fm) :
    rootArg a * 2 ^ (2 * (fracBits fm + 4)) < 4 ^ (2 * fracBits fm + 8) := by
  have hlt : rootArg a < 2 ^ (fracBits fm + 2) := by
    have h := sigOf_lt a
    have h2 : 2 ^ (fracBits fm + 2) = 2 * 2 ^ (fracBits fm + 1) := Nat.pow_succ'
    unfold rootArg; split <;> omega
  calc rootArg a * 2 ^ (2 * (fracBits fm + 4))
      < 2 ^ (fracBits fm + 2) * 2 ^ (2 * (fracBits fm + 4)) := Nat.mul_lt_mul_of_pos_right hlt (Nat.two_pow_pos _)
    _ = 2 ^ (fracBits fm + 2 + 2 * (fracBits fm + 4)) := (Nat.pow_add ..).symm
    _ ≤ 2 ^ (2 * (2 * fracBits fm + 8)) := Nat.pow_le_pow_right (by decide) (by omega)
    _ = 4 ^ (2 * fracBits fm + 8) := Nat.pow_mul ..

theorem signOf_of_value_pos {fm : Fmt} (a : Pattern fm) (h : 0 < (valueOf a : ℝ)) : signOf a = false := by
  rw [valueOf_real] at h
  by_contra hs
  rw [Bool.not_eq_false] at hs
  have hm : (0 : ℝ) ≤ sigOf a * 2 ^ expOf a := mul_nonneg (Nat.cast_nonneg _) (rpos _).le
  rw [hs, signedR, if_pos rfl] at h
  linarith

/-- The root of a positive number, from its significand with an even exponent. -/
theorem sqrt_valueOf {fm : Fmt} (a : Pattern fm) (hs : signOf a = false) :
    Real.sqrt (valueOf a : ℝ) = Real.sqrt (rootArg a) * 2 ^ rootExp a := by
  rw [valueOf_real, hs, signedR, if_neg (by decide), sigOf_eq_rootArg, Real.sqrt_mul (Nat.cast_nonneg _),
    Real.sqrt_sq (rpos _).le]

theorem div_valueOf {fm : Fmt} (a b : Pattern fm) : (valueOf a : ℝ) / (valueOf b : ℝ) =
    signedR (signOf a != signOf b) ((sigOf a : ℝ) / sigOf b * 2 ^ (expOf a - expOf b)) := by
  rw [valueOf_real, valueOf_real, signedR_div, mul_div_mul_comm, zpow_sub₀ (by norm_num)]

/-! ## Each operation rounds its exact result once -/

theorem ieeeAdd_correct (fm : Fmt) (t : Tininess) (r : Rounding) (a b : Pattern fm) (ha : FiniteFp a) (hb : FiniteFp b)
    (hx : (valueOf a : ℝ) + (valueOf b : ℝ) ≠ 0) :
    RoundsCorrectly fm t r ((valueOf a : ℝ) + (valueOf b : ℝ)) (ieeeAdd fm t r a b) := by
  rw [ieeeAdd_of_finite fm t r a b ha hb]
  exact addExact_correct fm t r _ _ _ _ _ _ _ hx (Rat.cast_add ..).symm

/-- Subtraction is addition of the negated operand. -/
theorem ieeeSub_correct (fm : Fmt) (t : Tininess) (r : Rounding) (a b : Pattern fm) (ha : FiniteFp a) (hb : FiniteFp b)
    (hx : (valueOf a : ℝ) - (valueOf b : ℝ) ≠ 0) :
    RoundsCorrectly fm t r ((valueOf a : ℝ) - (valueOf b : ℝ)) (ieeeSub fm t r a b) := by
  have hneg : (valueOf (negate b) : ℝ) = -(valueOf b : ℝ) := by rw [valueOf_negate, Rat.cast_neg]
  rw [sub_eq_add_neg, ← hneg] at hx ⊢
  exact ieeeAdd_correct fm t r a (negate b) ha ((finite_negate b).2 hb) hx

theorem ieeeMul_correct (fm : Fmt) (t : Tininess) (r : Rounding) (a b : Pattern fm) (ha : FiniteFp a) (hb : FiniteFp b)
    (hx : (valueOf a : ℝ) * (valueOf b : ℝ) ≠ 0) :
    RoundsCorrectly fm t r ((valueOf a : ℝ) * (valueOf b : ℝ)) (ieeeMul fm t r a b) := by
  rw [ieeeMul_of_finite fm t r a b ha hb]
  refine roundPack_exactly fm t r _ _ _ _ hx ?_
  rw [← signedR_mul, ← cast_signedNat, ← Rat.cast_mul, ← valueOf_mul]
  push_cast; rfl

theorem ieeeFma_correct (fm : Fmt) (t : Tininess) (r : Rounding) (a b c : Pattern fm) (ha : FiniteFp a) (hb : FiniteFp b)
    (hc : FiniteFp c) (hx : (valueOf a : ℝ) * (valueOf b : ℝ) + (valueOf c : ℝ) ≠ 0) :
    RoundsCorrectly fm t r ((valueOf a : ℝ) * (valueOf b : ℝ) + (valueOf c : ℝ)) (ieeeFma fm t r a b c) := by
  rw [ieeeFma_of_finite fm t r a b c ha hb hc]
  refine addExact_correct fm t r _ _ _ _ _ _ _ hx ?_
  rw [valueOf_mul, ← valueOf, Rat.cast_add, Rat.cast_mul]

theorem ieeeDiv_correct (fm : Fmt) (t : Tininess) (r : Rounding) (a b : Pattern fm) (ha : FiniteFp a) (hb : FiniteFp b)
    (hx : (valueOf a : ℝ) ≠ 0) (hy : (valueOf b : ℝ) ≠ 0) :
    RoundsCorrectly fm t r ((valueOf a : ℝ) / (valueOf b : ℝ)) (ieeeDiv fm t r a b) := by
  obtain ⟨hne, hstands⟩ := div_stands (sigOf a) (sigOf b) (fracBits fm) _ (expOf a - expOf b)
    (sigOf_real_pos a hx) (sigOf_real_pos b hy) (sigOf_lt b) rfl
  rw [ieeeDiv_of_finite fm t r a b ha hb (isZero_of_value_ne b hy), div_valueOf]
  exact roundPack_correct fm t r _ _ _ _ hne hstands

theorem ieeeSqrt_correct (fm : Fmt) (t : Tininess) (r : Rounding) (a : Pattern fm) (ha : FiniteFp a)
    (hx : 0 < (valueOf a : ℝ)) :
    RoundsCorrectly fm t r (Real.sqrt (valueOf a : ℝ)) (ieeeSqrt fm t r a) := by
  have hs := signOf_of_value_pos a hx
  obtain ⟨hne, hstands⟩ := sqrt_stands (rootArg a) (fracBits fm) _ _ (rootExp a)
    (rootArg_ne_zero a (sigOf_real_pos a hx.ne')) (rootArg_lt_four_pow a) rfl
  rw [ieeeSqrt_of_finite fm t r a ha (isZero_of_value_ne a hx.ne') hs, sqrt_valueOf a hs]
  exact roundPack_correct fm t r false _ _ _ hne hstands

theorem ieeeConvert_correct (src dst : Fmt) (t : Tininess) (r : Rounding) (a : Pattern src) (ha : FiniteFp a)
    (hx : (valueOf a : ℝ) ≠ 0) :
    RoundsCorrectly dst t r (valueOf a : ℝ) (ieeeConvert src dst t r a) := by
  rw [ieeeConvert_of_finite src dst t r a ha]
  exact roundPack_exactly dst t r _ _ _ _ hx (valueOf_real a)

theorem ieeeFromInt_correct (dst : Fmt) (t : Tininess) (r : Rounding) (n : Int) (hn : n ≠ 0) :
    RoundsCorrectly dst t r n (ieeeFromInt dst t r n) :=
  roundPack_exactly dst t r _ _ _ _ (Int.cast_ne_zero.2 hn) (by rw [cast_signed_natAbs, zpow_zero, mul_one])

/-- Settles O54: each clause is the operation's own correctness lemma. -/
theorem correctRounding : Obligations.CorrectRounding := by
  intro fm dst t r a b c n ha hb hc
  exact ⟨ieeeAdd_correct fm t r a b ha hb, ieeeSub_correct fm t r a b ha hb, ieeeMul_correct fm t r a b ha hb,
    ieeeFma_correct fm t r a b c ha hb hc, ieeeDiv_correct fm t r a b ha hb, ieeeSqrt_correct fm t r a ha,
    ieeeConvert_correct fm dst t r a ha, ieeeFromInt_correct dst t r n⟩

end Sys2Proof.Machine

/-! What any next state keeps: the invariant, the counts, the pc, memory, the f registers and the flags (10_state). Each is a
property of the shapes of `HoldsAfter`, and so of every instruction by `exec_next`. -/

namespace Sys2Proof.Machine

/-! ## A write of an f register in a format leaves the other fields -/

@[simp] theorem writeFmt_pc (s : State) {fm : Fmt} (r : Reg) (v : Pattern fm) : (s.writeFmt r v).pc = s.pc := by
  cases fm <;> rfl

@[simp] theorem writeFmt_fsr (s : State) {fm : Fmt} (r : Reg) (v : Pattern fm) : (s.writeFmt r v).fsr = s.fsr := by
  cases fm <;> rfl

@[simp] theorem writeFmt_instret (s : State) {fm : Fmt} (r : Reg) (v : Pattern fm) :
    (s.writeFmt r v).instret = s.instret := by cases fm <;> rfl

@[simp] theorem writeFmt_cycle (s : State) {fm : Fmt} (r : Reg) (v : Pattern fm) : (s.writeFmt r v).cycle = s.cycle := by
  cases fm <;> rfl

@[simp] theorem writeFmt_time (s : State) {fm : Fmt} (r : Reg) (v : Pattern fm) : (s.writeFmt r v).time = s.time := by
  cases fm <;> rfl

@[simp] theorem writeFmt_mem (s : State) {fm : Fmt} (r : Reg) (v : Pattern fm) : (s.writeFmt r v).mem = s.mem := by
  cases fm <;> rfl

/-! ## The step -/

/-- The alignment test of the fetch, as a number. -/
theorem lowBits_eq_zero_iff (a : Word) : a.extractLsb' 0 2 = 0b00#2 ↔ a.toNat % 4 = 0 := by
  rw [← BitVec.toNat_inj, BitVec.extractLsb'_toNat, Nat.shiftRight_zero]; rfl

theorem step_misaligned (s : State) (h : s.pcX.toNat % 4 ≠ 0) :
    Traps s (step s) (.instructionAddressMisaligned s.pcX) := if_pos (mt (lowBits_eq_zero_iff _).1 h)

theorem step_decoded (s : State) (i : Instr) (hp : s.pcX.toNat % 4 = 0) (ha : s.accessible s.pcX 4 .fetch = true)
    (hd : decode (s.fetchWord s.pcX) = .ok i) : step s = exec i (s.afterFetch s.pcX) := by
  have hz : ¬ s.pcX.extractLsb' 0 2 ≠ 0b00#2 := not_not.2 ((lowBits_eq_zero_iff _).2 hp)
  simp only [step, if_neg hz, if_pos ha, hd]

/-- A step that completes is an instruction that completes after the fetch. -/
theorem step_next {s t : State} (h : step s = .next t) : ∃ i, exec i (s.afterFetch s.pcX) = .next t := by
  rcases step_cases s with ⟨e, he⟩ | ⟨i, -, hi⟩
  · exact absurd (he.symm.trans h) (raise_ne_next s t e)
  · exact ⟨i, hi.symm.trans h⟩

theorem afterFetch_of_fresh (s : State) (a : Word) (h : s.fetchIsStale a = false) : s.afterFetch a = s := by
  simp [State.afterFetch, h]

theorem afterFetch_of_stale (s : State) (a : Word) (h : s.fetchIsStale a = true) :
    s.afterFetch a = { s with draws := s.draws + 1 } := if_pos h

/-- Settles O6, from what a step runs and what the fetch leaves. -/
theorem stepRunsDecoded : Obligations.StepRunsDecoded := by
  intro s i hp ha hd
  have hstep := step_decoded s i hp ha hd
  exact ⟨fun h => by rw [hstep, afterFetch_of_fresh s _ h], fun h => by rw [hstep, afterFetch_of_stale s _ h]⟩

/-! ## The invariant -/

theorem inv_noStale (s : State) (hi : s.Inv) : State.Inv { s with stale := [] } :=
  inv_of s _ rfl hi.memWf hi.memInSpace (by simp) List.nodup_nil hi.xFits hi.pcFits hi.instretFits hi.cycleFits hi.timeFits

theorem inv_cycle (s : State) (count n : Nat) (hi : s.Inv) (hc : s.xlen = .rv64 → s.cycle < 2 ^ 64 → count < 2 ^ 64) :
    State.Inv { s with cycle := count, draws := n } :=
  inv_of s _ rfl hi.memWf hi.memInSpace hi.staleInSpace hi.staleNodup hi.xFits hi.pcFits hi.instretFits
    (fun h => hc h (hi.cycleFits h)) hi.timeFits

theorem inv_time (s : State) (count n : Nat) (hi : s.Inv) (hc : s.xlen = .rv64 → s.time < 2 ^ 64 → count < 2 ^ 64) :
    State.Inv { s with time := count, draws := n } :=
  inv_of s _ rfl hi.memWf hi.memInSpace hi.staleInSpace hi.staleNodup hi.xFits hi.pcFits hi.instretFits hi.cycleFits
    (fun h => hc h (hi.timeFits h))

theorem inv_afterFetch (s : State) (a : Word) (hi : s.Inv) : (s.afterFetch a).Inv := by
  rcases afterFetch_cases s a with h | h <;> rw [h]
  · exact hi
  · exact inv_draws s _ hi

/-- Whatever its shape, an instruction keeps the invariant: every update it is made of does. -/
theorem holdsAfter_inv (i : Instr) (s : State) (hi : s.Inv) : HoldsAfter i s State.Inv where
  x rd v := inv_retire _ (inv_writeX s rd v hi)
  plain := inv_retire s hi
  link _ rd v a := inv_retireTo _ a (inv_writeX s rd v hi)
  jump _ a := inv_retireTo s a hi
  f _ fm rd v fl t ht := by
    have hit : t.Inv := by
      rcases ht with rfl | rfl
      · exact hi
      · exact inv_draws s _ hi
    exact inv_retire _ (inv_accrue _ fl (inv_writeFmt t rd v hit))
  xFlags rd v fl := inv_retire _ (inv_accrue _ fl (inv_writeX s rd v hi))
  store _ a w v := inv_retire _ (inv_memWrite s a v hi)
  amo _ a w v rd u := inv_retire _ (inv_writeX _ rd u (inv_memWrite s a v hi))
  fsr _ rd v u := inv_retire _ (inv_writeX _ rd v (inv_writeFsr s u hi))
  fenceI := inv_retire _ (inv_noStale s hi)
  cycle rd v count _ hc := inv_retire _ (inv_writeX _ rd v (inv_cycle s count _ hi hc))
  time rd v count _ hc := inv_retire _ (inv_writeX _ rd v (inv_time s count _ hi hc))

/-- Settles O11: the fetch keeps the invariant, and so does every shape of instruction. -/
theorem stepKeepsInv : Obligations.StepKeepsInv := by
  intro s t hi h
  obtain ⟨i, hexec⟩ := step_next h
  exact exec_next (holdsAfter_inv i _ (inv_afterFetch s _ hi)) hexec

/-! ## What a step counts -/

/-- One instruction is counted, the parameters stay, and neither count goes back. -/
structure Counts (s t : State) : Prop where
  retires : Retires s t
  env : t.env = s.env
  cycle : s.cycle ≤ t.cycle
  time : s.time ≤ t.time

/-- An update that leaves the parameters and `instret` alone and lets no count go back, and then completes. -/
theorem counts_retireTo {s u : State} (henv : u.env = s.env) (hret : u.instret = s.instret) (hc : s.cycle ≤ u.cycle)
    (ht : s.time ≤ u.time) (a : Word) : Counts s (u.retireTo a) where
  retires := by
    have h := retireTo_retires u a
    simpa only [Retires, State.size, State.xlen, henv, hret] using h
  env := henv
  cycle := hc
  time := ht

theorem holdsAfter_counts (i : Instr) (s : State) : HoldsAfter i s (Counts s) where
  x rd v := counts_retireTo (by simp) (by simp) (by simp) (by simp) _
  plain := counts_retireTo rfl rfl le_rfl le_rfl _
  link _ rd v a := counts_retireTo (by simp) (by simp) (by simp) (by simp) a
  jump _ a := counts_retireTo rfl rfl le_rfl le_rfl a
  f _ fm rd v fl t ht := by
    rcases ht with rfl | rfl <;>
      exact counts_retireTo (by simp [writeFmt_env]) (by simp) (by simp) (by simp) _
  xFlags rd v fl := counts_retireTo (by simp) (by simp) (by simp) (by simp) _
  store _ a w v := counts_retireTo (by simp) (by simp) (by simp) (by simp) _
  amo _ a w v rd u := counts_retireTo (by simp) (by simp) (by simp) (by simp) _
  fsr _ rd v u := counts_retireTo (by simp) (by simp) (by simp) (by simp) _
  fenceI := counts_retireTo (s := s) (u := { s with stale := [] }) rfl rfl le_rfl le_rfl _
  cycle rd v count hle _ := counts_retireTo (by simp) (by simp) (by simpa using hle) (by simp) _
  time rd v count hle _ := counts_retireTo (by simp) (by simp) (by simp) (by simpa using hle) _

/-- The fetch counts nothing. -/
theorem counts_of_afterFetch {s t : State} {a : Word} (h : Counts (s.afterFetch a) t) : Counts s t := by
  rcases afterFetch_cases s a with e | e <;> rw [e] at h
  · exact h
  · exact ⟨h.retires, h.env, h.cycle, h.time⟩

/-- Settles O13: the fetch counts nothing, every shape of instruction counts once. -/
theorem stepCounts : Obligations.StepCounts := by
  intro s t h
  obtain ⟨i, hexec⟩ := step_next h
  have hc := counts_of_afterFetch (exec_next (holdsAfter_counts i _) hexec)
  exact ⟨hc.retires, hc.env, hc.cycle, hc.time⟩

/-! ## Who sets the pc -/

/-- An instruction of an opcode that does not transfer control goes on to `pc + 4`: none of its shapes touches the pc before
it retires. -/
theorem holdsAfter_advances (i : Instr) (s : State)
    (hop : opcodeOf i ∉ [0b1100111#7, 0b1101111#7, 0b1101011#7, 0b1100011#7]) : HoldsAfter i s (Advances s) where
  x rd v := advances_of_eq _ _ (by simp) (by simp)
  plain := retire_advances s
  link h := absurd ((by decide : [0b1101111#7, 0b1101011#7] ⊆ _) h) hop
  jump h := absurd ((by decide : [0b1100111#7, 0b1100011#7] ⊆ _) h) hop
  f _ fm rd v fl t ht := by
    rcases ht with rfl | rfl <;> exact advances_of_eq _ _ (by simp [writeFmt_env]) (by simp)
  xFlags rd v fl := advances_of_eq _ _ (by simp) (by simp)
  store _ a w v := advances_of_eq _ _ (by simp) (by simp)
  amo _ a w v rd u := advances_of_eq _ _ (by simp) (by simp)
  fsr _ rd v u := advances_of_eq _ _ (by simp) (by simp)
  fenceI := advances_of_eq _ _ rfl rfl
  cycle rd v count _ _ := advances_of_eq _ _ (by simp) (by simp)
  time rd v count _ _ := advances_of_eq _ _ (by simp) (by simp)

/-- Settles O14, shape by shape. -/
theorem otherInstructionsAdvance : Obligations.OtherInstructionsAdvance :=
  fun i s _ h hop => exec_next (holdsAfter_advances i s hop) h

/-! ## Who writes memory and the f registers -/

theorem sameF_of_eq (s t : State) (h : t.f = s.f) : SameF s t := fun r => by simp [State.readF, h]

/-- Only a store and an AMO have a shape that writes memory. -/
theorem holdsAfter_sameMemory (i : Instr) (s : State) (hop : opcodeOf i ∉ [0b0100011#7, 0b0100111#7, 0b0101011#7]) :
    HoldsAfter i s (SameMemory s) where
  x rd v := sameMemory_of_eq _ _ (by simp)
  plain := sameMemory_of_eq _ _ rfl
  link _ rd v a := sameMemory_of_eq _ _ (by simp)
  jump _ a := sameMemory_of_eq _ _ rfl
  f _ fm rd v fl t ht := by
    rcases ht with rfl | rfl <;> exact sameMemory_of_eq _ _ (by simp)
  xFlags rd v fl := sameMemory_of_eq _ _ (by simp)
  store h := absurd ((by decide : [0b0100011#7, 0b0100111#7] ⊆ _) h) hop
  amo h := absurd (by simp [h]) hop
  fsr _ rd v u := sameMemory_of_eq _ _ (by simp)
  fenceI := sameMemory_of_eq _ _ rfl
  cycle rd v count _ _ := sameMemory_of_eq _ _ (by simp)
  time rd v count _ _ := sameMemory_of_eq _ _ (by simp)

/-- Only the floating-point shape writes an f register. -/
theorem holdsAfter_sameF (i : Instr) (s : State) (hop : opcodeOf i ∉ fOpcodes) : HoldsAfter i s (SameF s) where
  x rd v := sameF_of_eq _ _ (by simp)
  plain := sameF_of_eq _ _ rfl
  link _ rd v a := sameF_of_eq _ _ (by simp)
  jump _ a := sameF_of_eq _ _ rfl
  f h := absurd h hop
  xFlags rd v fl := sameF_of_eq _ _ (by simp)
  store _ a w v := sameF_of_eq _ _ (by simp)
  amo _ a w v rd u := sameF_of_eq _ _ (by simp)
  fsr _ rd v u := sameF_of_eq _ _ (by simp)
  fenceI := sameF_of_eq _ _ rfl
  cycle rd v count _ _ := sameF_of_eq _ _ (by simp)
  time rd v count _ _ := sameF_of_eq _ _ (by simp)

/-- Settles O15, shape by shape. -/
theorem whoWritesMemoryAndF : Obligations.WhoWritesMemoryAndF := fun i s _ h =>
  ⟨fun hop => exec_next (holdsAfter_sameMemory i s hop) h, fun hop => exec_next (holdsAfter_sameF i s hop) h⟩

/-! ## The flags -/

/-- The rounding mode is as before and every flag that was raised still is. -/
def Accrues (s t : State) : Prop :=
  t.fsrRM = s.fsrRM ∧ ∀ k, s.fsrFlags.getLsbD k = true → t.fsrFlags.getLsbD k = true

theorem accrues_of_eq (s t : State) (h : t.fsr = s.fsr) : Accrues s t :=
  ⟨by simp [State.fsrRM, h], fun k hk => by simpa [State.fsrFlags, h] using hk⟩

theorem accrues_accrue (s u : State) (fl : FlagSet) (h : u.fsr = s.fsr) : Accrues s (u.accrue fl).retire := by
  obtain ⟨hrm, hflags⟩ := accrues_of_eq s u h
  refine ⟨by rw [retire_fsrRM, accrue_fsrRM, hrm], fun k hk => ?_⟩
  rw [retire_fsrFlags, accrue_fsrFlags, BitVec.getLsbD_or, hflags k hk, Bool.true_or]

/-- Of the shapes only MTFSR's writes `fsr` otherwise than by accruing flags. -/
theorem holdsAfter_accrues (i : Instr) (s : State) (hi : ∀ rd rs1, i ≠ .mtfsr rd rs1) :
    HoldsAfter i s (Accrues s) where
  x rd v := accrues_of_eq _ _ (by simp)
  plain := accrues_of_eq _ _ rfl
  link _ rd v a := accrues_of_eq _ _ (by simp)
  jump _ a := accrues_of_eq _ _ rfl
  f _ fm rd v fl t ht := by
    rcases ht with rfl | rfl <;> exact accrues_accrue _ _ fl (by simp)
  xFlags rd v fl := accrues_accrue _ _ fl (by simp)
  store _ a w v := accrues_of_eq _ _ (by simp)
  amo _ a w v rd u := accrues_of_eq _ _ (by simp)
  fsr := fun ⟨rd, rs1, h⟩ => absurd h (hi rd rs1)
  fenceI := accrues_of_eq _ _ rfl
  cycle rd v count _ _ := accrues_of_eq _ _ (by simp)
  time rd v count _ _ := accrues_of_eq _ _ (by simp)

/-- Settles O16, shape by shape. -/
theorem flagsAccrue : Obligations.FlagsAccrue :=
  fun i s _ h hi => exec_next (holdsAfter_accrues i s hi) h

/-! ## The register files -/

/-- Settles O17, by what a read gives after a write. -/
theorem xRegisterFile : Obligations.XRegisterFile := by
  intro s r q v
  refine ⟨readX_zero s, readX_lt s q, ?_, ?_⟩
  · rintro rfl hr
    rw [readX_writeX_self s q v hr, truncX_toNat, size_eq]
  · intro h
    rw [readX_writeX, if_neg]
    rintro ⟨hq, hr⟩
    exact h.elim (· hq) hr

/-- Settles O18, by what a read gives after a write in either format. -/
theorem fRegisterFile : Obligations.FRegisterFile := fun s r q v =>
  ⟨readF_writeD s r q v, fun w => ⟨readS_writeS_self s r w, readF_writeS_ne s r q w⟩⟩

/-! ## Misaligned targets -/

/-- Where a transfer went to an address that is not a multiple of 4, the next step traps there. -/
theorem goesThenTraps_of_goesTo {s : State} {res : Result} {target : Nat} (h : GoesTo s res target)
    (hm : target % 4 ≠ 0) : GoesThenTraps s res target := by
  obtain ⟨t, hres, rfl, hpc⟩ := h
  exact ⟨t, hres, rfl, hpc, step_misaligned t hm⟩

theorem linksThenTraps_of_linksTo {s : State} {res : Result} {rd : Reg} {target : Nat} (h : LinksTo s res rd target)
    (hm : target % 4 ≠ 0) : LinksThenTraps s res rd target := by
  obtain ⟨t, hres, rfl, hlink, hx⟩ := h
  exact ⟨t, hres, rfl, hlink, hx, step_misaligned t hm⟩

theorem linksTo_indirect (s : State) (rd rs1 : Reg) (imm : BitVec 12) :
    LinksTo s (linkTo rd (s.regOffset rs1 imm) s) rd (((s.readX rs1).toNat + imm.toInt) % s.size).toNat := by
  have h := regOffset_toNat s rs1 imm
  exact linksTo_linkTo s rd _ _ (by rw [truncX_regOffset]; omega)

theorem goesTo_branch_taken {s : State} {p : (w : Nat) → BitVec w → BitVec w → Bool} {rs1 rs2 : Reg} (imm : BitVec 12)
    (h : p s.xlen.width ((s.readX rs1).setWidth _) ((s.readX rs2).setWidth _) = true) :
    GoesTo s (branch p rs1 rs2 imm s) ((s.pcX.toNat + 2 * imm.toInt) % s.size).toNat := by
  have hb := goesTo_branch s p rs1 rs2 imm True (by simpa using h)
  rwa [if_pos trivial] at hb

theorem toInt_emod_two {w : Nat} (hw : 0 < w) (v : BitVec w) : v.toInt % 2 = v.toNat % 2 := by
  have h2 : 2 ^ w = 2 * 2 ^ (w - 1) := by rw [← Nat.pow_succ', Nat.succ_eq_add_one, Nat.sub_add_cancel hw]
  rw [BitVec.toInt_eq_toNat_cond, h2]
  split <;> omega

/-- An odd number of halfwords from an aligned pc is half a word off. -/
theorem halfwordTarget_mod_four (s : State) {w : Nat} (hw : 0 < w) (off : BitVec w) (hp : s.pcX.toNat % 4 = 0)
    (ho : off.toNat % 2 = 1) : ((s.pcX.toNat + 2 * off.toInt) % s.size).toNat % 4 = 2 := by
  have hodd := toInt_emod_two hw off
  have hsize : s.size = 2 ^ 32 ∨ s.size = 2 ^ 64 := by
    rw [size_eq]; cases s.xlen
    · exact .inl rfl
    · exact .inr rfl
  rcases hsize with h | h <;> rw [h] <;> omega

/-- Settles O29: the transfer completes as its shape says, and `step` tests the alignment of the pc first. -/
theorem misalignedTarget : Obligations.MisalignedTarget := by
  intro s rd rs1 rs2 imm off a b indirect jump target
  refine ⟨fun hm => ?_, fun hp ho => ?_, fun hp ho => ?_⟩
  · have h := linksThenTraps_of_linksTo (linksTo_indirect s rd rs1 imm) hm
    exact ⟨h, h, h⟩
  · have hm : jump % 4 = 2 := halfwordTarget_mod_four s (by decide) off hp ho
    have hpc := pcRelative_toNat s _ _ (jumpOffset_toNat s off)
    exact ⟨hm, goesThenTraps_of_goesTo (goesTo_retireTo s _ _ hpc) (by omega),
      linksThenTraps_of_linksTo (linksTo_linkTo s _ _ _ hpc) (by omega)⟩
  · have hm : target % 4 = 2 := halfwordTarget_mod_four s (by decide) imm hp ho
    have taken : ∀ p : (w : Nat) → BitVec w → BitVec w → Bool,
        p s.xlen.width ((s.readX rs1).setWidth _) ((s.readX rs2).setWidth _) = true →
          GoesThenTraps s (branch p rs1 rs2 imm s) target := fun p h =>
      goesThenTraps_of_goesTo (goesTo_branch_taken imm h) (by omega)
    refine ⟨hm, fun h => taken tstEq ?_, fun h => taken tstNe ?_, fun h => taken tstLt ?_, fun h => taken tstGe ?_,
      fun h => taken tstLtu ?_, fun h => taken tstGeu ?_⟩
    · rwa [tstEq, beq_iff_eq, setWidth_readX_inj]
    · rwa [tstNe, bne_iff_ne, ne_eq, setWidth_readX_inj]
    · rwa [tstLt, BitVec.slt_iff_toInt_lt, toInt_w, toInt_w]
    · rwa [tstGe, BitVec.sle_iff_toInt_le, toInt_w, toInt_w]
    · rwa [tstLtu, BitVec.ult_iff_lt, BitVec.lt_def, setWidth_readX_toNat, setWidth_readX_toNat]
    · rwa [tstGeu, BitVec.ule_iff_le, BitVec.le_def, setWidth_readX_toNat, setWidth_readX_toNat]

end Sys2Proof.Machine

/-! Rounding to an integer and exact results. The five modes are read off `roundTo_spec` and the division of a magnitude by its
unit (10_state R36); where the exact result is a number of the format, rounding it correctly leaves it as it is, and an exact
zero has its own sign rule (45_fp_compute R311). -/

namespace Sys2Proof.Machine

/-! ## The codes of the modes (45_fp_compute R302) -/

theorem resolveRm_static (s : State) (rm : BitVec 3) (h : rm ≠ 0b111#3) : resolveRm s rm = roundingOf rm := if_neg h

theorem resolveRm_dynamic (s : State) : resolveRm s 0b111#3 = roundingOf s.fsrRM := if_pos rfl

theorem roundingOf_reserved (code : BitVec 3) (h : 5 ≤ code.toNat) : roundingOf code = none := by
  have hne : ∀ k : BitVec 3, k.toNat < 5 → code ≠ k := by
    rintro k hk rfl
    omega
  rw [roundingOf, if_neg (hne _ (by decide)), if_neg (hne _ (by decide)), if_neg (hne _ (by decide)),
    if_neg (hne _ (by decide)), if_neg (hne _ (by decide))]

/-! ## A finite operand rounded to an integer -/

theorem roundToInteger_eq {fm : Fmt} (r : Rounding) (a : Pattern fm) :
    roundToInteger r a = (signedNat (signOf a) (roundTo r (signOf a) (sigOf a) (expOf a) 0).1,
      (roundTo r (signOf a) (sigOf a) (expOf a) 0).2) := rfl

theorem isInteger_gap (sign : Bool) (k : Nat) (d : ℝ) (hd : IsInteger d) :
    signedR sign d ≤ k * 1 ∨ (k + 1) * 1 ≤ signedR sign d := by
  obtain ⟨n, rfl⟩ := hd
  obtain ⟨j, hj⟩ : ∃ j : Int, signedR sign n = j := by
    cases sign
    · exact ⟨n, rfl⟩
    · exact ⟨-n, by simp [signedR]⟩
  rw [hj, mul_one, mul_one]
  rcases lt_or_ge (k : Int) j with h | h
  · exact .inr (by exact_mod_cast h)
  · exact .inl (by exact_mod_cast h)

theorem signedNat_emod_two (s : Bool) (n : Nat) (h : n % 2 = 0) : signedNat s n % 2 = 0 := by
  unfold signedNat
  split <;> omega

/-- The magnitude is rounded as `roundTo_spec` says, and the integers leave no room between two magnitudes. -/
theorem roundToInteger_spec {fm : Fmt} (r : Rounding) (a : Pattern fm) :
    RoundsTo r IsInteger ((roundToInteger r a).1 % 2 = 0) (valueOf a : ℝ) (roundToInteger r a).1 ∧
      ((roundToInteger r a).2 = true ↔ ((roundToInteger r a).1 : ℚ) ≠ valueOf a) := by
  rw [roundToInteger_eq]
  obtain ⟨hround, hinexact⟩ := roundTo_spec r (signOf a) (sigOf a) (expOf a) 0 _ (.inl rfl)
  rw [zpow_zero, div_one] at hround hinexact
  generalize roundTo r (signOf a) (sigOf a) (expOf a) 0 = res at *
  have hy : (0 : ℝ) ≤ sigOf a * 2 ^ expOf a := mul_nonneg (Nat.cast_nonneg _) (rpos _).le
  constructor
  · have h := roundsTo_of_nat r (signOf a) _ 1 res.1 _ IsInteger (signedNat (signOf a) res.1 % 2 = 0) one_pos
      (Nat.floor_le hy) (Nat.lt_floor_add_one _) hround ⟨signedNat (signOf a) res.1, by rw [cast_signedNat, mul_one]⟩
      (isInteger_gap _ _) (signedNat_emod_two _ _)
    rwa [mul_one, mul_one, ← valueOf_real, ← cast_signedNat] at h
  · rw [hinexact, not_iff_not, ← Rat.cast_inj (α := ℝ), valueOf_real, Rat.cast_intCast, cast_signedNat, signedR_inj]

/-! ## A magnitude `m / 2^d` rounded to an integer -/

theorem roundTo_fraction (rm : Rounding) (sign : Bool) (m d : Nat) (hd : 0 < d) :
    roundTo rm sign m (-(d : Int)) 0 =
      (if roundsAway rm sign (m / 2 ^ d) (m % 2 ^ d) (2 ^ d) then m / 2 ^ d + 1 else m / 2 ^ d, m % 2 ^ d != 0) := by
  rw [roundTo, if_neg (by omega), show (0 - -(d : Int)).toNat = d by omega]

/-- What is a multiple of its unit is not rounded away. -/
theorem roundsAway_zero (rm : Rounding) (sign : Bool) (n unit : Nat) (h : 0 < unit) :
    roundsAway rm sign n 0 unit = false := by
  cases rm <;> simp [roundsAway]
  omega

/-- Rounding up the quotient is dividing with the unit less one added. -/
theorem div_add_pred (m u : Nat) (h : 0 < u) : (m + (u - 1)) / u = if m % u = 0 then m / u else m / u + 1 := by
  have hm := Nat.div_add_mod' m u
  have hlt := Nat.mod_lt m h
  have hsucc : (m / u + 1) * u = m / u * u + u := Nat.succ_mul ..
  split <;> rw [Nat.div_eq_iff h] <;> omega

theorem roundTo_fraction_inexact (rm : Rounding) (sign : Bool) (m d : Nat) (hd : 0 < d) :
    (roundTo rm sign m (-(d : Int)) 0).2 = true ↔ (roundTo rm sign m (-(d : Int)) 0).1 * 2 ^ d ≠ m := by
  rw [roundTo_fraction rm sign m d hd]
  have hu := Nat.two_pow_pos d
  have hm := Nat.div_add_mod' m (2 ^ d)
  have hlt := Nat.mod_lt m hu
  have hsucc : (m / 2 ^ d + 1) * 2 ^ d = m / 2 ^ d * 2 ^ d + 2 ^ d := Nat.succ_mul ..
  by_cases hr : m % 2 ^ d = 0
  · have hmul : m / 2 ^ d * 2 ^ d = m := by omega
    simp [hr, roundsAway_zero _ _ _ _ hu, hmul]
  · simp only [bne_iff_ne, ne_eq, hr, not_false_eq_true, true_iff]
    split <;> omega

theorem roundTo_fraction_rtz (sign : Bool) (m d : Nat) (hd : 0 < d) :
    (roundTo .rtz sign m (-(d : Int)) 0).1 = m / 2 ^ d := by
  rw [roundTo_fraction _ _ _ _ hd]
  rfl

/-- The mode that rounds the magnitude up for one sign and down for the other. -/
theorem roundTo_fraction_directed (rm : Rounding) (sign up : Bool) (m d : Nat) (hd : 0 < d)
    (h : ∀ n rem unit, roundsAway rm sign n rem unit = (up && rem != 0)) :
    (roundTo rm sign m (-(d : Int)) 0).1 = if up then (m + (2 ^ d - 1)) / 2 ^ d else m / 2 ^ d := by
  rw [roundTo_fraction _ _ _ _ hd, h, div_add_pred _ _ (Nat.two_pow_pos d)]
  cases up
  · rfl
  · by_cases hr : m % 2 ^ d = 0 <;> simp [hr]

theorem roundsAway_rne_iff (sign : Bool) (n rem unit : Nat) :
    roundsAway .rne sign n rem unit = true ↔ unit < 2 * rem ∨ (2 * rem = unit ∧ n % 2 = 1) := by
  simp [roundsAway]

theorem roundsAway_rmm_iff (sign : Bool) (n rem unit : Nat) (h : 0 < unit) :
    roundsAway .rmm sign n rem unit = true ↔ unit ≤ 2 * rem := by
  simp only [roundsAway, Bool.and_eq_true, decide_eq_true_eq, bne_iff_ne]
  omega

/-- Up from half a unit on, down to half a unit: the rounded magnitude is a nearest one. -/
theorem nearest_of_half (m d n : Nat)
    (h : n = m / 2 ^ d + 1 ∧ 2 ^ d ≤ 2 * (m % 2 ^ d) ∨ n = m / 2 ^ d ∧ 2 * (m % 2 ^ d) ≤ 2 ^ d) :
    2 * m ≤ 2 * (n * 2 ^ d) + 2 ^ d ∧ 2 * (n * 2 ^ d) ≤ 2 * m + 2 ^ d := by
  have hm := Nat.div_add_mod' m (2 ^ d)
  have hlt := Nat.mod_lt m (Nat.two_pow_pos d)
  have hsucc : (m / 2 ^ d + 1) * 2 ^ d = m / 2 ^ d * 2 ^ d + 2 ^ d := Nat.succ_mul ..
  rcases h with ⟨rfl, h⟩ | ⟨rfl, h⟩ <;> omega

theorem roundTo_fraction_rne (sign : Bool) (m d : Nat) (hd : 0 < d) :
    let n := (roundTo .rne sign m (-(d : Int)) 0).1
    2 * m ≤ 2 * (n * 2 ^ d) + 2 ^ d ∧ 2 * (n * 2 ^ d) ≤ 2 * m + 2 ^ d ∧ (2 * (m % 2 ^ d) = 2 ^ d → n % 2 = 0) := by
  simp only [roundTo_fraction _ _ _ _ hd, roundsAway_rne_iff]
  rw [← and_assoc]
  refine ⟨nearest_of_half m d _ ?_, fun htie => ?_⟩
  · split <;> omega
  · split <;> omega

theorem roundTo_fraction_rmm (sign : Bool) (m d : Nat) (hd : 0 < d) :
    let n := (roundTo .rmm sign m (-(d : Int)) 0).1
    2 * m ≤ 2 * (n * 2 ^ d) + 2 ^ d ∧ 2 * (n * 2 ^ d) ≤ 2 * m + 2 ^ d ∧ (2 * (m % 2 ^ d) = 2 ^ d → n = m / 2 ^ d + 1) := by
  simp only [roundTo_fraction _ _ _ _ hd, roundsAway_rmm_iff _ _ _ _ (Nat.two_pow_pos d)]
  rw [← and_assoc]
  refine ⟨nearest_of_half m d _ ?_, fun htie => if_pos htie.ge⟩
  split <;> omega

/-- Settles O52: the codes by `roundingOf`, the operands by `roundToInteger_spec`, the fractions mode by mode. -/
theorem roundingModes : Obligations.RoundingModes := by
  refine ⟨fun s => ?_, fun fm r a _ => roundToInteger_spec r a, fun sign m d hd => ?_⟩
  · have hstatic := resolveRm_static s
    have hdynamic : ∀ {code : BitVec 3} {mode : Option Rounding}, roundingOf code = mode → s.fsrRM = code →
        resolveRm s 0b111#3 = mode := fun hmode hcode => by rw [resolveRm_dynamic, hcode, hmode]
    exact ⟨hstatic _ (by decide), hstatic _ (by decide), hstatic _ (by decide), hstatic _ (by decide),
      hstatic _ (by decide), hstatic _ (by decide), hstatic _ (by decide), hdynamic rfl, hdynamic rfl, hdynamic rfl,
      hdynamic rfl, hdynamic rfl, fun h => hdynamic (roundingOf_reserved _ h) rfl⟩
  · exact ⟨fun rm => roundTo_fraction_inexact rm sign m d hd, roundTo_fraction_rtz sign m d hd,
      roundTo_fraction_directed .rdn sign sign m d hd fun _ _ _ => rfl,
      by cases sign <;> exact roundTo_fraction_directed .rup _ _ m d hd fun _ _ _ => rfl,
      roundTo_fraction_rne sign m d hd, roundTo_fraction_rmm sign m d hd⟩

/-! ## A result that a format has is left as it is -/

/-- A number of the grid is rounded to itself. -/
theorem roundsTo_of_grid {r : Rounding} {grid : ℝ → Prop} {even : Prop} {x v : ℝ} (h : RoundsTo r grid even x v)
    (hx : grid x) : v = x := by
  obtain ⟨-, h⟩ := h
  have down : RoundsDown grid x v → v = x := fun ⟨hle, hmax⟩ => le_antisymm hle (hmax x hx le_rfl)
  have up : RoundsUp grid x v → v = x := fun ⟨hle, hmin⟩ => le_antisymm (hmin x hx le_rfl) hle
  have near : |x - v| ≤ |x - x| → v = x := fun hd => by
    rw [sub_self, abs_zero] at hd
    exact (sub_eq_zero.1 (abs_nonpos_iff.1 hd)).symm
  cases r
  case rne => exact near (h x hx).1
  case rtz => exact (le_total 0 x).elim (fun h0 => down (h.1 h0)) (fun h0 => up (h.2 h0))
  case rdn => exact down h
  case rup => exact up h
  case rmm => exact near (h x hx).1

theorem expOf_le_of_finite {fm : Fmt} (d : Pattern fm) (hd : FiniteFp d) : expOf d ≤ (bias fm : Int) - fracBits fm := by
  have hmax : expField d < expMax fm := by
    rw [expField_eq, Nat.div_lt_iff_lt_mul (Nat.two_pow_pos _)]
    exact (finite_iff d).1 hd
  rw [expMax_eq] at hmax
  have hbias : 1 ≤ bias fm := by cases fm <;> decide
  unfold expOf expMin
  split <;> omega

/-- A finite number is at most the largest one, which is one unit below the bound of an overflow. -/
theorem abs_valueOf_le_of_finite {fm : Fmt} (d : Pattern fm) (hd : FiniteFp d) :
    |(valueOf d : ℝ)| ≤ 2 ^ (bias fm + 1) - 2 ^ (bias fm - fracBits fm) := by
  have hf : fracBits fm ≤ bias fm := by cases fm <;> decide
  have hsig : (sigOf d : ℝ) ≤ 2 ^ (fracBits fm + 1) - 1 := by
    have := sigOf_lt d
    rw [le_sub_iff_add_le]
    exact_mod_cast this
  have hexp : (2 : ℝ) ^ expOf d ≤ 2 ^ (bias fm - fracBits fm) := by
    rw [← zpow_natCast]
    exact zpow_le_two (by have := expOf_le_of_finite d hd; omega)
  rw [valueOf_real, abs_signedR _ _ (mul_nonneg (Nat.cast_nonneg _) (rpos _).le)]
  calc (sigOf d : ℝ) * 2 ^ expOf d
      ≤ (2 ^ (fracBits fm + 1) - 1) * 2 ^ (bias fm - fracBits fm) :=
        mul_le_mul hsig hexp (rpos _).le (le_trans (Nat.cast_nonneg _) hsig)
    _ = 2 ^ (bias fm + 1) - 2 ^ (bias fm - fracBits fm) := by
        rw [sub_mul, one_mul, ← pow_add, show fracBits fm + 1 + (bias fm - fracBits fm) = bias fm + 1 by omega]

theorem not_overflows_of_finite {fm : Fmt} (r : Rounding) (d : Pattern fm) (hd : FiniteFp d) :
    ¬ Overflows fm r (valueOf d : ℝ) :=
  not_reaches_of_le r _ _ _ (by positivity) (abs_valueOf_le_of_finite d hd)

theorem flagSet_eq_none {fl : FlagSet} (h : ∀ k < 5, fl.getLsbD k = false) : fl = noFlags :=
  BitVec.eq_of_getLsbD_eq fun k hk => by rw [h k hk]; simp [noFlags]

/-- A correctly rounded result is exact where the exact number is one of the format. -/
theorem isExactly_of_roundsCorrectly {fm : Fmt} {t : Tininess} {r : Rounding} {res : Pattern fm × FlagSet} {d : Pattern fm}
    (hd : FiniteFp d) (h : RoundsCorrectly fm t r (valueOf d : ℝ) res) : IsExactly res d := by
  have hover := not_overflows_of_finite r d hd
  obtain ⟨hfin, hround⟩ := h.within hover
  have hval : (valueOf res.1 : ℝ) = valueOf d := roundsTo_of_grid hround ⟨d, hd, rfl⟩
  have hNX : res.2.getLsbD 0 = false := by
    rw [Bool.eq_false_iff, ne_eq, h.inexact, not_not]
    exact ⟨hfin, hval⟩
  have hUF : res.2.getLsbD 1 = false := by
    rw [Bool.eq_false_iff, ne_eq, h.underflow, hNX]
    simp
  have hOF : res.2.getLsbD 2 = false := by rwa [Bool.eq_false_iff, ne_eq, h.overflow]
  obtain ⟨hDZ, hNV⟩ := h.others
  refine ⟨flagSet_eq_none fun k hk => ?_, hfin, Rat.cast_injective hval⟩
  interval_cases k <;> assumption

theorem isExactly_zero {fm : Fmt} {res : Pattern fm × FlagSet} {d : Pattern fm} {s : Bool}
    (h : res = (zeroBits fm s, noFlags)) (hd : valueOf d = 0) : IsExactly res d := by
  rw [h, ← zeroOf_eq]
  exact ⟨rfl, finite_zeroOf fm s, by rw [valueOf_zeroOf, hd]⟩

/-! ## Exact zeros (45_fp_compute R311) -/

theorem ieeeAdd_zero (fm : Fmt) (t : Tininess) (r : Rounding) (a b : Pattern fm) (ha : FiniteFp a) (hb : FiniteFp b)
    (h : valueOf a + valueOf b = 0) :
    ieeeAdd fm t r a b = (zeroBits fm (zeroSumSign r (signOf a) (signOf b)), noFlags) := by
  rw [ieeeAdd_of_finite fm t r a b ha hb]
  exact addExact_zero fm t r _ _ _ _ _ _ h

theorem ieeeSub_zero (fm : Fmt) (t : Tininess) (r : Rounding) (a b : Pattern fm) (ha : FiniteFp a) (hb : FiniteFp b)
    (h : valueOf a - valueOf b = 0) :
    ieeeSub fm t r a b = (zeroBits fm (zeroSumSign r (signOf a) (!signOf b)), noFlags) := by
  rw [ieeeSub, ← signOf_negate]
  exact ieeeAdd_zero fm t r a _ ha ((finite_negate b).2 hb) (by rwa [valueOf_negate, ← sub_eq_add_neg])

theorem ieeeMul_zero (fm : Fmt) (t : Tininess) (r : Rounding) (a b : Pattern fm) (ha : FiniteFp a) (hb : FiniteFp b)
    (h : valueOf a * valueOf b = 0) : ieeeMul fm t r a b = (zeroBits fm (signOf a != signOf b), noFlags) := by
  have hs : sigOf a * sigOf b = 0 := by
    rwa [mul_eq_zero, valueOf_eq_zero, valueOf_eq_zero, ← Nat.mul_eq_zero] at h
  rw [ieeeMul_of_finite fm t r a b ha hb, hs, roundPack_zero]

theorem ieeeFma_zero (fm : Fmt) (t : Tininess) (r : Rounding) (a b c : Pattern fm) (ha : FiniteFp a) (hb : FiniteFp b)
    (hc : FiniteFp c) (h : valueOf a * valueOf b + valueOf c = 0) :
    ieeeFma fm t r a b c = (zeroBits fm (zeroSumSign r (signOf a != signOf b) (signOf c)), noFlags) := by
  rw [ieeeFma_of_finite fm t r a b c ha hb hc]
  exact addExact_zero fm t r _ _ _ _ _ _ (by rwa [valueOf_mul])

theorem ieeeDiv_zero (fm : Fmt) (t : Tininess) (r : Rounding) (a b : Pattern fm) (ha : FiniteFp a) (hb : FiniteFp b)
    (hb0 : valueOf b ≠ 0) (h : valueOf a = 0) :
    ieeeDiv fm t r a b = (zeroBits fm (signOf a != signOf b), noFlags) := by
  have hz : isZero b = false := isZero_of_sigOf b (mt (valueOf_eq_zero b).2 hb0)
  have hq : quotientSig fm 0 (sigOf b) = 0 := by simp [quotientSig]
  rw [ieeeDiv_of_finite fm t r a b ha hb hz, (valueOf_eq_zero a).1 h, hq, roundPack_zero]

theorem ieeeSqrt_zero (fm : Fmt) (t : Tininess) (r : Rounding) (a : Pattern fm) (h : valueOf a = 0) :
    ieeeSqrt fm t r a = (a, noFlags) := if_pos ((sigOf_eq_zero a).1 ((valueOf_eq_zero a).1 h))

theorem ieeeConvert_zero (src dst : Fmt) (t : Tininess) (r : Rounding) (a : Pattern src) (ha : FiniteFp a)
    (h : valueOf a = 0) : ieeeConvert src dst t r a = (zeroBits dst (signOf a), noFlags) := by
  rw [ieeeConvert_of_finite src dst t r a ha, (valueOf_eq_zero a).1 h, roundPack_zero]

/-! ## Each operation is exact where it can be -/

section
variable {fm : Fmt} (t : Tininess) (r : Rounding) {a b c d : Pattern fm}

/-- A zero by its own rule, any other number by correct rounding. -/
theorem isExactly_of_value {res : Pattern fm × FlagSet} {x : ℝ} (hd : FiniteFp d) (hx : x = valueOf d)
    (hzero : valueOf d = 0 → IsExactly res d) (hround : x ≠ 0 → RoundsCorrectly fm t r x res) : IsExactly res d := by
  subst hx
  by_cases h0 : valueOf d = 0
  · exact hzero h0
  · exact isExactly_of_roundsCorrectly hd (hround (Rat.cast_ne_zero.2 h0))

theorem ieeeAdd_exact (ha : FiniteFp a) (hb : FiniteFp b) (hd : FiniteFp d) (h : valueOf a + valueOf b = valueOf d) :
    IsExactly (ieeeAdd fm t r a b) d :=
  isExactly_of_value t r hd (by rw [← h, Rat.cast_add])
    (fun h0 => isExactly_zero (ieeeAdd_zero fm t r a b ha hb (h.trans h0)) h0) (ieeeAdd_correct fm t r a b ha hb)

/-- Subtraction is addition of the negated operand. -/
theorem ieeeSub_exact (ha : FiniteFp a) (hb : FiniteFp b) (hd : FiniteFp d) (h : valueOf a - valueOf b = valueOf d) :
    IsExactly (ieeeSub fm t r a b) d :=
  ieeeAdd_exact t r ha ((finite_negate b).2 hb) hd (by rw [valueOf_negate, ← sub_eq_add_neg, h])

theorem ieeeMul_exact (ha : FiniteFp a) (hb : FiniteFp b) (hd : FiniteFp d) (h : valueOf a * valueOf b = valueOf d) :
    IsExactly (ieeeMul fm t r a b) d :=
  isExactly_of_value t r hd (by rw [← h, Rat.cast_mul])
    (fun h0 => isExactly_zero (ieeeMul_zero fm t r a b ha hb (h.trans h0)) h0) (ieeeMul_correct fm t r a b ha hb)

theorem ieeeFma_exact (ha : FiniteFp a) (hb : FiniteFp b) (hc : FiniteFp c) (hd : FiniteFp d)
    (h : valueOf a * valueOf b + valueOf c = valueOf d) : IsExactly (ieeeFma fm t r a b c) d :=
  isExactly_of_value t r hd (by rw [← h, Rat.cast_add, Rat.cast_mul])
    (fun h0 => isExactly_zero (ieeeFma_zero fm t r a b c ha hb hc (h.trans h0)) h0) (ieeeFma_correct fm t r a b c ha hb hc)

theorem ieeeDiv_exact (ha : FiniteFp a) (hb : FiniteFp b) (hd : FiniteFp d) (hb0 : valueOf b ≠ 0)
    (h : valueOf a = valueOf d * valueOf b) : IsExactly (ieeeDiv fm t r a b) d := by
  have hy : (valueOf b : ℝ) ≠ 0 := Rat.cast_ne_zero.2 hb0
  refine isExactly_of_value t r hd (x := (valueOf a : ℝ) / valueOf b) ?_ (fun h0 => ?_) fun hx => ?_
  · rw [h, Rat.cast_mul, mul_div_cancel_right₀ _ hy]
  · exact isExactly_zero (ieeeDiv_zero fm t r a b ha hb hb0 (by rw [h, h0, zero_mul])) h0
  · exact ieeeDiv_correct fm t r a b ha hb (fun ha0 => hx (by rw [ha0, zero_div])) hy

theorem ieeeSqrt_exact (ha : FiniteFp a) (hd : FiniteFp d) (hd0 : 0 ≤ valueOf d) (h : valueOf a = valueOf d * valueOf d) :
    IsExactly (ieeeSqrt fm t r a) d := by
  refine isExactly_of_value t r hd (x := Real.sqrt (valueOf a : ℝ)) ?_ (fun h0 => ?_) fun hx => ?_
  · rw [h, Rat.cast_mul, Real.sqrt_mul_self (Rat.cast_nonneg.2 hd0)]
  · have ha0 : valueOf a = 0 := by rw [h, h0, zero_mul]
    rw [ieeeSqrt_zero fm t r a ha0]
    exact ⟨rfl, ha, ha0.trans h0.symm⟩
  · exact ieeeSqrt_correct fm t r a ha (Real.sqrt_ne_zero'.1 hx)

end

/-- Settles O53: a representable result by the operation's correct rounding, a zero by its own rule. -/
theorem exactArithmetic : Obligations.ExactArithmetic := by
  refine ⟨fun fm t r a b c d ha hb hc hd => ?_, fun fm dst t r a b c ha hb hc => ?_⟩
  · exact ⟨ieeeAdd_exact t r ha hb hd, ieeeSub_exact t r ha hb hd, ieeeMul_exact t r ha hb hd,
      ieeeFma_exact t r ha hb hc hd, ieeeDiv_exact t r ha hb hd, ieeeSqrt_exact t r ha hd⟩
  · exact ⟨ieeeAdd_zero fm t r a b ha hb, ieeeSub_zero fm t r a b ha hb, ieeeMul_zero fm t r a b ha hb,
      ieeeFma_zero fm t r a b c ha hb hc, ieeeDiv_zero fm t r a b ha hb, ieeeSqrt_zero fm t r a,
      ieeeConvert_zero fm dst t r a ha, roundPack_zero dst t r false 0⟩

end Sys2Proof.Machine

/-! Memory (20_memory): the bytes of a value read and of a value stored, the two parcels of a fetch, and instructions written
as data. What a store leaves is read back by `memRead_memWrite`, so a statement about it follows from one about `memRead`. -/

namespace Sys2Proof.Machine

/-! ## The bytes of a value read (R56) -/

@[simp] theorem bytesAt_length (s : State) (a : Word) (n : Nat) : (s.bytesAt a n).length = n := by simp [State.bytesAt]

theorem bytesAt_getD (s : State) (a : Word) {n i : Nat} (hi : i < n) :
    (s.bytesAt a n).getD i 0#8 = s.readByte (s.byteAddr a i) := by
  simp [State.bytesAt, List.getD_eq_getElem?_getD, hi]

theorem byteIndex_lt (e : Endian) {n i : Nat} (hi : i < n) : byteIndex e n i < n := by
  cases e
  · exact hi
  · simp only [byteIndex]; omega

/-- A value read is the number its bytes make in the memory's order: there is room for all of them. -/
theorem memRead_toNat (s : State) (a : Word) (w : Nat) :
    (s.memRead a w).toNat = natOfBytes (byteOrder s.env.endian (s.bytesAt a (w / 8))) := by
  have hlt := natOfBytes_lt (byteOrder s.env.endian (s.bytesAt a (w / 8)))
  have hpow : 256 ^ (w / 8) ≤ 2 ^ w := by
    rw [show 256 = 2 ^ 8 from rfl, ← Nat.pow_mul]
    exact Nat.pow_le_pow_right (by decide) (Nat.mul_div_le w 8)
  rw [byteOrder_length, bytesAt_length] at hlt
  rw [State.memRead, BitVec.toNat_ofNat, Nat.mod_eq_of_lt (by omega)]

theorem memRead_byte (s : State) (a : Word) {w i : Nat} (hi : i < w / 8) :
    (s.memRead a w).extractLsb' (8 * i) 8 = s.readByte (s.byteAddr a (byteIndex s.env.endian (w / 8) i)) := by
  refine BitVec.eq_of_toNat_eq ?_
  rw [BitVec.extractLsb'_toNat, Nat.shiftRight_eq_div_pow, memRead_toNat, Nat.pow_mul]
  have hbyte := natOfBytes_getD (byteOrder s.env.endian (s.bytesAt a (w / 8))) i (by simpa using hi)
  rw [byteOrder_getD _ _ _ (by simpa using hi), bytesAt_length, bytesAt_getD s a (byteIndex_lt _ hi)] at hbyte
  exact hbyte

/-- Settles O30, by the bytes of the number read. -/
theorem memReadBytes : Obligations.MemReadBytes := by
  intro s a n _
  have hn : 8 * n / 8 = n := by omega
  refine ⟨fun i hi => ?_, fun k t h => ?_⟩
  · have h := memRead_byte s a (w := 8 * n) (i := i) (by omega)
    rwa [hn] at h
  · have haccess := ((loadThen_next s t a (8 * n) k).1 h).1
    rwa [hn] at haccess

/-! ## The bytes of a value stored (R57) -/

theorem memWrite_byte (s : State) (a : Word) {w i : Nat} (v : BitVec w) (hm : Memory.wf s.mem = true)
    (hw : w / 8 ≤ 2 ^ 32) (h8 : 8 ∣ w) (hi : i < w / 8) :
    (s.memWrite a v).readByte (s.byteAddr a (byteIndex s.env.endian (w / 8) i)) = v.extractLsb' (8 * i) 8 := by
  have h := memRead_byte (s.memWrite a v) a hi
  rw [memRead_memWrite s a v hm hw h8, memWrite_byteAddr, memWrite_env] at h
  exact h.symm

/-- Settles O31: the value stored is the value read back, byte by byte. -/
theorem memWriteBytes : Obligations.MemWriteBytes := by
  intro s a n v hsize
  have hn : 8 * n / 8 = n := by omega
  refine ⟨fun hm i hi => ?_, fun k hk => ?_, fun t h => ?_⟩
  · have h := memWrite_byte s a v hm (i := i) (by omega) (Nat.dvd_mul_right 8 n) (by omega)
    rwa [hn] at h
  · exact memWrite_readByte_ne s a v k (by rwa [hn])
  · have haccess := ((storeAt_next s t a v).1 h).1
    rwa [hn] at haccess

/-! ## A word stored and loaded again (R60, R68) -/

@[simp] theorem retire_regOffset (s : State) (rs : Reg) (imm : BitVec 12) :
    s.retire.regOffset rs imm = s.regOffset rs imm := rfl

@[simp] theorem retire_memRead (s : State) (a : Word) (w : Nat) : s.retire.memRead a w = s.memRead a w := rfl

@[simp] theorem memWrite_regOffset (s : State) (a : Word) {w : Nat} (v : BitVec w) (rs : Reg) (imm : BitVec 12) :
    (s.memWrite a v).regOffset rs imm = s.regOffset rs imm := regOffset_congr _ _ _ _ (by simp) (by simp)

theorem exec_sw_next (s t : State) (rs1 rs2 : Reg) (imm : BitVec 12) :
    exec (.sw rs1 rs2 imm) s = .next t ↔ s.accessible (s.regOffset rs1 imm) 4 .store = true ∧
      (s.memWrite (s.regOffset rs1 imm) ((s.readX rs2).setWidth 32)).retire = t := storeAt_next s t _ _

theorem exec_lw_next (s t : State) (rd rs1 : Reg) (imm : BitVec 12) :
    exec (.lw rd rs1 imm) s = .next t ↔ s.accessible (s.regOffset rs1 imm) 4 .load = true ∧
      (s.writeX rd (sextX s.xlen (s.memRead (s.regOffset rs1 imm) 32))).retire = t := by
  rw [← setRd_next]
  exact loadThen_next s t (s.regOffset rs1 imm) 32 fun v => setRd rd (sextX s.xlen v) s

/-- Settles O32: both instructions use the same address, and the value stored is the value read back. -/
theorem storeThenLoad : Obligations.StoreThenLoad := by
  intro s t u rd rs1 rs2 imm hm hrd hstore hload
  obtain ⟨-, rfl⟩ := (exec_sw_next s t rs1 rs2 imm).1 hstore
  obtain ⟨-, rfl⟩ := (exec_lw_next _ u rd rs1 imm).1 hload
  rw [retire_regOffset, memWrite_regOffset, retire_memRead, memRead_memWrite s _ _ hm (by decide) (by decide),
    retire_readX, readX_writeX_self _ _ _ hrd, retire_xlen, memWrite_xlen, truncX_sextX,
    sextX_toInt _ _ (by cases s.xlen <;> decide), toInt_low]

/-! ## The parcels of a fetch (R53 to R55) -/

theorem memRead16_toNat (s : State) (a : Word) :
    (s.memRead a 16).toNat = if s.env.endian = .little then
      (s.readByte (s.byteAddr a 0)).toNat + 256 * (s.readByte (s.byteAddr a 1)).toNat
    else (s.readByte (s.byteAddr a 1)).toNat + 256 * (s.readByte (s.byteAddr a 0)).toNat := by
  rw [memRead16]
  cases s.env.endian
  · exact append_bytes_toNat _ _
  · exact append_bytes_toNat _ _

/-- Settles O8: a fetch is two halfwords, and each of them is two bytes in the memory's order. -/
theorem fetchParcels : Obligations.FetchParcels := by
  intro s a hfresh
  have hlow := memRead16_toNat s a
  have hhigh := memRead16_toNat s (a + 2#64)
  simp only [byteAddr_add s a 2, Nat.reduceAdd] at hhigh
  rw [fetchWord_eq s a hfresh]
  refine ⟨append_low _ _, append_high _ _, ?_⟩
  rw [append_toNat, hlow, hhigh]
  split <;> omega

/-! ## What a fetch may see of unfenced stores (R72) -/

theorem mem_staleAt (s : State) (k : Nat) (b : Byte) : b ∈ s.staleAt k ↔ (k, b) ∈ s.stale := by
  simp [State.staleAt]

theorem staleAt_eq_nil_iff (s : State) (k : Nat) : s.staleAt k = [] ↔ ∀ b, (k, b) ∉ s.stale := by
  simp [List.eq_nil_iff_forall_not_mem, mem_staleAt]

/-- Whatever the draw, a fetch sees the current byte or one of the recorded ones. -/
theorem fetchByte_mem (s : State) (k : Nat) : s.fetchByte k ∈ s.readByte k :: s.staleAt k := by
  unfold State.fetchByte
  split
  · exact List.mem_cons_self
  · rw [List.getD_eq_getElem _ _ (Nat.mod_lt _ (by simp))]
    exact List.getElem_mem _

/-- Settles O9, by the bytes the draw is among. -/
theorem fetchSeesOldOrNew : Obligations.FetchSeesOldOrNew := by
  intro s k
  refine ⟨?_, fun hnone => fetchByte_fresh s k ((staleAt_eq_nil_iff s k).2 hnone)⟩
  exact (List.mem_cons.1 (fetchByte_mem s k)).imp_right (mem_staleAt s k _).1

/-! ## Reads beside a store -/

@[simp] theorem byteAddr_truncX (s : State) (a : Word) (i : Nat) : s.byteAddr (truncX s.xlen a) i = s.byteAddr a i := by
  rw [byteAddr_toNat, byteAddr_toNat, truncX_toNat, ← size_eq, Nat.mod_add_mod]

/-- Only the address modulo `2^XPRLEN` counts. -/
theorem memRead_truncX (s : State) (a : Word) (w : Nat) : s.memRead (truncX s.xlen a) w = s.memRead a w := by
  simp [State.memRead, State.bytesAt]

theorem memRead_memWrite_disjoint (s : State) (a b : Word) (n : Nat) {w : Nat} (v : BitVec w)
    (h : ∀ i, i < n / 8 → ∀ j, j < w / 8 → s.byteAddr a i ≠ s.byteAddr b j) :
    (s.memWrite b v).memRead a n = s.memRead a n := by
  have hbytes : (s.memWrite b v).bytesAt a (n / 8) = s.bytesAt a (n / 8) :=
    List.map_congr_left fun i hi => by
      rw [memWrite_byteAddr, memWrite_readByte_ne s b v _ (h i (List.mem_range.1 hi))]
  rw [State.memRead, State.memRead, hbytes, memWrite_env]

/-- The halfword before the one stored is as it was, also where the addresses wrap. -/
theorem memRead16_memWrite_next (s : State) (a : Word) (v : BitVec 16) :
    (s.memWrite (truncX s.xlen (a + 2#64)) v).memRead a 16 = s.memRead a 16 := by
  refine memRead_memWrite_disjoint s a _ 16 v fun i hi j hj => ?_
  rw [byteAddr_truncX, byteAddr_add s a 2]
  exact byteAddr_inj s a i (2 + j) (by omega) (by omega) (by omega)

/-! ## An instruction written as two halfwords (R58) -/

theorem accessible_congr (s t : State) (a : Word) (n : Nat) (kind : AccessKind) (he : t.env = s.env) :
    t.accessible a n kind = s.accessible a n kind := by
  simp [State.accessible, State.byteAddr, State.xlen, he]

theorem regOffset_of_readX_eq (s t : State) (rs : Reg) (imm : BitVec 12) (he : t.env = s.env)
    (hx : t.readX rs = s.readX rs) : t.regOffset rs imm = s.regOffset rs imm := by
  simp [State.regOffset, State.xlen, he, hx]

theorem regOffset_zero (s : State) (rs : Reg) : s.regOffset rs 0#12 = s.readX rs := by
  have himm : immX s.xlen 0#12 = 0#64 := by cases s.xlen <;> rfl
  rw [State.regOffset, himm, BitVec.add_zero, truncX_readX]

theorem regOffset_two (s : State) (rs : Reg) : s.regOffset rs 2#12 = truncX s.xlen (s.readX rs + 2#64) := by
  have himm : immX s.xlen 2#12 = 2#64 := by cases s.xlen <;> rfl
  rw [State.regOffset, himm]

/-- SH where the access is possible. -/
theorem exec_sh_completes (s : State) (rs1 rs2 : Reg) (imm : BitVec 12)
    (h : s.accessible (s.regOffset rs1 imm) 2 .store = true) :
    ∃ t, exec (.sh rs1 rs2 imm) s = .next t ∧ t.env = s.env ∧ SameX s t ∧
      t.mem = (s.memWrite (s.regOffset rs1 imm) ((s.readX rs2).setWidth 16)).mem :=
  ⟨_, (storeAt_next s _ _ _).2 ⟨h, rfl⟩, by simp, fun r => by simp, by simp⟩

/-- Bits 31:16 of a register, in the low half after a shift right by 16 at either width. -/
theorem liftX_opSrl_sixteen_low (s : State) (v : Word) :
    (liftX s.xlen opSrl v ((16#6).setWidth 64)).setWidth 16 = v.extractLsb' 16 16 := by
  refine BitVec.eq_of_toNat_eq ?_
  rw [BitVec.toNat_setWidth, liftX_toNat, opSrl, shiftBy_amt s 16#6 (by cases s.xlen <;> decide),
    BitVec.toNat_ushiftRight, BitVec.extractLsb'_toNat, BitVec.toNat_setWidth]
  simp only [Nat.shiftRight_eq_div_pow, BitVec.reduceToNat]
  have := v.isLt
  cases s.xlen <;> simp only [Xlen.width] <;> omega

/-- SRLI by 16 of a register in place: its low half is then what bits 31:16 were. -/
theorem exec_srli_sixteen_completes (s : State) (r : Reg) :
    ∃ t, exec (.srli r r 16#6) s = .next t ∧ t.env = s.env ∧ SameXBut s t r ∧ t.mem = s.mem ∧
      (t.readX r).setWidth 16 = (s.readX r).extractLsb' 16 16 := by
  have hshift := shiftImm_ok (.srli r r 16#6) opSrl r r 16#6 s (by cases s.xlen <;> decide)
  refine ⟨_, hshift, by simp, (onlyX_setRd s r _).x, by simp, ?_⟩
  rw [setRd_value]
  split
  · next hr => subst hr; rw [readX_zero]; rfl
  · rw [truncX_liftX, liftX_opSrl_sixteen_low]

/-- FENCE.I completes and forgets the stores. -/
theorem exec_fenceI_completes (s : State) (ignored : BitVec 22) :
    ∃ t, exec (.fenceI ignored) s = .next t ∧ t.env = s.env ∧ t.mem = s.mem ∧ t.stale = [] := ⟨_, rfl, rfl, rfl, rfl⟩

/-- With no store recorded a fetch is of memory. -/
theorem fetchIsStale_of_stale_nil (s : State) (a : Word) (h : s.stale = []) : s.fetchIsStale a = false := by
  simp [State.fetchIsStale, State.staleAt, h]

theorem high_append_low (v : Word) : v.extractLsb' 16 16 ++ v.setWidth 16 = v.setWidth 32 := by
  refine BitVec.eq_of_toNat_eq ?_
  rw [append_toNat, BitVec.extractLsb'_toNat, Nat.shiftRight_eq_div_pow, BitVec.toNat_setWidth, BitVec.toNat_setWidth]
  omega

/-- Settles O33: the first SH leaves the low parcel, the second SH the high one beside it, and the fetch after the FENCE.I is
of memory. -/
theorem portableInstructionStore : Obligations.PortableInstructionStore := by
  intro s rs1 rs2 ignored hm hne hlow hhigh
  obtain ⟨t, htExec, htEnv, htX, htMem⟩ := exec_sh_completes s rs1 rs2 0#12 hlow
  obtain ⟨u, huExec, huEnv, huX, huMem, huHigh⟩ := exec_srli_sixteen_completes t rs2
  have henv : u.env = s.env := huEnv.trans htEnv
  have haddr : u.readX rs1 = s.readX rs1 := (huX rs1 hne).trans (htX rs1)
  obtain ⟨v, hvExec, hvEnv, -, hvMem⟩ := exec_sh_completes u rs1 rs2 2#12
    (by rwa [regOffset_of_readX_eq s u rs1 _ henv haddr, accessible_congr s u _ _ _ henv])
  rw [regOffset_zero] at htMem
  rw [regOffset_two, huHigh, htX rs2, haddr] at hvMem
  have hmemU : u.mem = (s.memWrite (s.readX rs1) ((s.readX rs2).setWidth 16)).mem := huMem.trans htMem
  have hwfU : Memory.wf u.mem = true := by rw [hmemU]; exact memWrite_wf s _ _ hm
  obtain ⟨w, hwExec, hwEnv, hwMem, hwStale⟩ := exec_fenceI_completes v ignored
  have hread : ∀ a, w.memRead a 16 =
      (u.memWrite (truncX u.xlen (s.readX rs1 + 2#64)) ((s.readX rs2).extractLsb' 16 16)).memRead a 16 := fun a =>
    memRead_congr _ _ a 16 (by rw [memWrite_env, hwEnv, hvEnv]) (hwMem.trans hvMem)
  have hlowParcel : w.memRead (s.readX rs1) 16 = (s.readX rs2).setWidth 16 := by
    rw [hread, memRead16_memWrite_next, memRead_congr _ u _ 16 (henv.trans (memWrite_env s _ _).symm) hmemU,
      memRead_memWrite s _ _ hm (by decide) (by decide)]
  have hhighParcel : w.memRead (s.readX rs1 + 2#64) 16 = (s.readX rs2).extractLsb' 16 16 := by
    rw [hread, ← memRead_truncX, memWrite_xlen, memRead_memWrite u _ _ hwfU (by decide) (by decide)]
  have hfresh := fetchIsStale_of_stale_nil w (s.readX rs1) hwStale
  refine ⟨t, u, v, w, htExec, huExec, hvExec, hwExec, ?_, hfresh, ?_⟩
  · rw [fetchWord_eq w _ hfresh, hlowParcel, hhighParcel, high_append_low]
  · rw [hwMem, hvMem]; exact memWrite_wf u _ _ hwfU

end Sys2Proof.Machine

/-! The decoder and the encoder are inverse to each other (30_encoding R119). Every row of the table is faithful: what it
builds of a word encodes to that word with the bits under the row's mask overwritten by the row's pattern. A word that hits
the row already has those bits, and the word of an instruction of the row gets them, so both directions follow from this one
fact. -/

namespace Sys2Proof

/-! ## Words of other lengths (R85, R88) -/

theorem decode_of_low_two_ne (w : Inst) (h : w.extractLsb' 0 2 ≠ 0b11#2) : decode w = .error .compressed := if_pos h

theorem decode_of_low_five_eq (w : Inst) (h2 : w.extractLsb' 0 2 = 0b11#2) (h5 : w.extractLsb' 0 5 = 0b11111#5) :
    decode w = .error .longerThan32 := by
  rw [decode, if_neg (not_not.2 h2), if_pos h5]

/-- Settles O4, by the two length checks the decoder makes before it reads the table. -/
theorem otherLengthsDoNotDecode : Obligations.OtherLengthsDoNotDecode := by
  intro w h
  by_cases h2 : w.extractLsb' 0 2 = 0b11#2
  · exact ⟨_, decode_of_low_five_eq w h2 (h.resolve_left (not_not.2 h2))⟩
  · exact ⟨_, decode_of_low_two_ne w h2⟩

/-! ## Overwriting the bits under a mask -/

/-- `w` with the bits under `mask` overwritten by `patt`. -/
def overlay {n : Nat} (mask patt w : BitVec n) : BitVec n := w &&& ~~~mask ||| patt

@[simp] theorem overlay_zero {n : Nat} (w : BitVec n) : overlay 0#n 0#n w = w := by simp [overlay]

@[simp] theorem overlay_allOnes {n : Nat} (patt w : BitVec n) : overlay (BitVec.allOnes n) patt w = patt := by
  simp [overlay]

/-- A word that already has the pattern under the mask is left as it is. -/
theorem overlay_of_and_eq {n : Nat} {mask patt w : BitVec n} (h : w &&& mask = patt) : overlay mask patt w = w := by
  rw [overlay, ← h, ← BitVec.and_or_distrib_left]; simp

theorem overlay_and_mask {n : Nat} (mask patt w : BitVec n) (h : patt &&& mask = patt) :
    overlay mask patt w &&& mask = patt := by
  rw [overlay, BitVec.and_or_distrib_right, BitVec.and_assoc, h]; simp

theorem overlay_append {n m : Nat} (mask patt w : BitVec n) (mask' patt' w' : BitVec m) :
    overlay (mask ++ mask') (patt ++ patt') (w ++ w') = overlay mask patt w ++ overlay mask' patt' w' := by
  simp only [overlay, BitVec.not_append, BitVec.and_append, BitVec.or_append]

/-! ## A word is made of the fields of each format (R91 to R98) -/

theorem encR_fields (w : Inst) :
    encR (rdOf w) (rs1Of w) (rs2Of w) (w.extractLsb' 10 7) (w.extractLsb' 7 3) (w.extractLsb' 0 7) = w := by
  refine BitVec.eq_of_toNat_eq ?_
  rw [encR_toNat]
  simp only [rdOf, rs1Of, rs2Of, BitVec.extractLsb'_toNat, Nat.shiftRight_eq_div_pow]
  omega

theorem encR4_fields (w : Inst) :
    encR4 (rdOf w) (rs1Of w) (rs2Of w) (rs3Of w) (rmOf w) (w.extractLsb' 7 2) (w.extractLsb' 0 7) = w := by
  refine BitVec.eq_of_toNat_eq ?_
  rw [encR4_toNat]
  simp only [rdOf, rs1Of, rs2Of, rs3Of, rmOf, BitVec.extractLsb'_toNat, Nat.shiftRight_eq_div_pow]
  omega

theorem encI_fields (w : Inst) :
    encI (rdOf w) (rs1Of w) (immIOf w) (w.extractLsb' 7 3) (w.extractLsb' 0 7) = w := by
  refine BitVec.eq_of_toNat_eq ?_
  rw [encI_toNat]
  simp only [rdOf, rs1Of, immIOf, BitVec.extractLsb'_toNat, Nat.shiftRight_eq_div_pow]
  omega

theorem encShift_fields (w : Inst) :
    encShift (rdOf w) (rs1Of w) (w.extractLsb' 16 6) (shamtOf w) (w.extractLsb' 7 3) (w.extractLsb' 0 7) = w := by
  refine BitVec.eq_of_toNat_eq ?_
  rw [encShift_toNat]
  simp only [rdOf, rs1Of, shamtOf, BitVec.extractLsb'_toNat, Nat.shiftRight_eq_div_pow]
  omega

theorem encShiftW_fields (w : Inst) :
    encShiftW (rdOf w) (rs1Of w) (w.extractLsb' 15 7) (shamtwOf w) (w.extractLsb' 7 3) (w.extractLsb' 0 7) = w := by
  refine BitVec.eq_of_toNat_eq ?_
  rw [encShiftW_toNat]
  simp only [rdOf, rs1Of, shamtwOf, BitVec.extractLsb'_toNat, Nat.shiftRight_eq_div_pow]
  omega

theorem encL_fields (w : Inst) : encL (rdOf w) (immLOf w) (w.extractLsb' 0 7) = w := by
  refine BitVec.eq_of_toNat_eq ?_
  rw [encL_toNat]
  simp only [rdOf, immLOf, BitVec.extractLsb'_toNat, Nat.shiftRight_eq_div_pow]
  omega

theorem encJ_fields (w : Inst) : encJ (offJOf w) (w.extractLsb' 0 7) = w := by
  refine BitVec.eq_of_toNat_eq ?_
  rw [encJ_toNat]
  simp only [offJOf, BitVec.extractLsb'_toNat, Nat.shiftRight_eq_div_pow]
  omega

theorem encIgnored_fields (w : Inst) : encIgnored (ignoredOf w) (w.extractLsb' 7 3) (w.extractLsb' 0 7) = w := by
  refine BitVec.eq_of_toNat_eq ?_
  rw [encIgnored_toNat]
  simp only [ignoredOf, BitVec.extractLsb'_toNat, Nat.shiftRight_eq_div_pow]
  omega

/-- The two halves of a B-type immediate stand where the R-type has `rd` and `inst[16:10]` (R94, R101). -/
theorem encB_immBOf (w : Inst) (rs1 rs2 : Reg) (f3 : BitVec 3) (op : BitVec 7) :
    encB rs1 rs2 (immBOf w) f3 op = encR (rdOf w) rs1 rs2 (w.extractLsb' 10 7) f3 op := by
  have hhigh : (immBOf w).extractLsb' 7 5 = rdOf w := BitVec.extractLsb'_append_eq_left
  have hlow : (immBOf w).extractLsb' 0 7 = w.extractLsb' 10 7 := BitVec.extractLsb'_append_eq_right
  rw [encB_eq, hhigh, hlow]

/-! ## The operands of each format, the other fields constant

One lemma per choice of the fields that are operands: the fields that are constant stand under the mask of the rows with
that choice. -/

section Operands
variable {f7 : BitVec 7} {f5 : BitVec 5} {rm f3 : BitVec 3} {fmt : BitVec 2} {op : BitVec 7}

theorem encJ_off (w : Inst) :
    encJ (offJOf w) op = overlay (encJ 0#25 (.allOnes 7)) (encJ 0#25 op) w := by
  conv_rhs => rw [← encJ_fields w]
  simp only [encJ, overlay_append, overlay_zero, overlay_allOnes]

theorem encL_rd_imm (w : Inst) :
    encL (rdOf w) (immLOf w) op = overlay (encL 0#5 0#20 (.allOnes 7)) (encL 0#5 0#20 op) w := by
  conv_rhs => rw [← encL_fields w]
  simp only [encL, overlay_append, overlay_zero, overlay_allOnes]

theorem encIgnored_ignored (w : Inst) :
    encIgnored (ignoredOf w) f3 op =
      overlay (encIgnored 0#22 (.allOnes 3) (.allOnes 7)) (encIgnored 0#22 f3 op) w := by
  conv_rhs => rw [← encIgnored_fields w]
  simp only [encIgnored, overlay_append, overlay_zero, overlay_allOnes]

theorem encI_rd_rs1_imm (w : Inst) :
    encI (rdOf w) (rs1Of w) (immIOf w) f3 op =
      overlay (encI 0#5 0#5 0#12 (.allOnes 3) (.allOnes 7)) (encI 0#5 0#5 0#12 f3 op) w := by
  conv_rhs => rw [← encI_fields w]
  simp only [encI, overlay_append, overlay_zero, overlay_allOnes]

theorem encI_rd {rs1 : Reg} {imm : BitVec 12} (w : Inst) :
    encI (rdOf w) rs1 imm f3 op =
      overlay (encI 0#5 (.allOnes 5) (.allOnes 12) (.allOnes 3) (.allOnes 7)) (encI 0#5 rs1 imm f3 op) w := by
  conv_rhs => rw [← encI_fields w]
  simp only [encI, overlay_append, overlay_zero, overlay_allOnes]

theorem encShift_rd_rs1_shamt {ty : BitVec 6} (w : Inst) :
    encShift (rdOf w) (rs1Of w) ty (shamtOf w) f3 op =
      overlay (encShift 0#5 0#5 (.allOnes 6) 0#6 (.allOnes 3) (.allOnes 7)) (encShift 0#5 0#5 ty 0#6 f3 op) w := by
  conv_rhs => rw [← encShift_fields w]
  simp only [encShift, overlay_append, overlay_zero, overlay_allOnes]

theorem encShiftW_rd_rs1_shamt {ty : BitVec 7} (w : Inst) :
    encShiftW (rdOf w) (rs1Of w) ty (shamtwOf w) f3 op =
      overlay (encShiftW 0#5 0#5 (.allOnes 7) 0#5 (.allOnes 3) (.allOnes 7)) (encShiftW 0#5 0#5 ty 0#5 f3 op) w := by
  conv_rhs => rw [← encShiftW_fields w]
  simp only [encShiftW, overlay_append, overlay_zero, overlay_allOnes]

theorem encR_rd_rs1_rs2 (w : Inst) :
    encR (rdOf w) (rs1Of w) (rs2Of w) f7 f3 op =
      overlay (encR 0#5 0#5 0#5 (.allOnes 7) (.allOnes 3) (.allOnes 7)) (encR 0#5 0#5 0#5 f7 f3 op) w := by
  conv_rhs => rw [← encR_fields w]
  simp only [encR, overlay_append, overlay_zero, overlay_allOnes]

theorem encR_rd {rs1 rs2 : Reg} (w : Inst) :
    encR (rdOf w) rs1 rs2 f7 f3 op =
      overlay (encR 0#5 (.allOnes 5) (.allOnes 5) (.allOnes 7) (.allOnes 3) (.allOnes 7))
        (encR 0#5 rs1 rs2 f7 f3 op) w := by
  conv_rhs => rw [← encR_fields w]
  simp only [encR, overlay_append, overlay_zero, overlay_allOnes]

theorem encR_const {rd rs1 rs2 : Reg} (w : Inst) :
    encR rd rs1 rs2 f7 f3 op =
      overlay (encR (.allOnes 5) (.allOnes 5) (.allOnes 5) (.allOnes 7) (.allOnes 3) (.allOnes 7))
        (encR rd rs1 rs2 f7 f3 op) w :=
  (overlay_allOnes _ w).symm

theorem encB_rs1_rs2_imm (w : Inst) :
    encB (rs1Of w) (rs2Of w) (immBOf w) f3 op =
      overlay (encR 0#5 0#5 0#5 0#7 (.allOnes 3) (.allOnes 7)) (encR 0#5 0#5 0#5 0#7 f3 op) w := by
  rw [encB_immBOf]
  conv_rhs => rw [← encR_fields w]
  simp only [encR, overlay_append, overlay_zero, overlay_allOnes]

theorem encR4_rd_rs1_rs2_rs3_rm (w : Inst) :
    encR4 (rdOf w) (rs1Of w) (rs2Of w) (rs3Of w) (rmOf w) fmt op =
      overlay (encR4 0#5 0#5 0#5 0#5 0#3 (.allOnes 2) (.allOnes 7)) (encR4 0#5 0#5 0#5 0#5 0#3 fmt op) w := by
  conv_rhs => rw [← encR4_fields w]
  simp only [encR4, overlay_append, overlay_zero, overlay_allOnes]

theorem encFp_rd_rs1_rs2_rm (w : Inst) :
    encFp (rdOf w) (rs1Of w) (rs2Of w) f5 (rmOf w) fmt op =
      overlay (encR4 0#5 0#5 0#5 (.allOnes 5) 0#3 (.allOnes 2) (.allOnes 7)) (encR4 0#5 0#5 0#5 f5 0#3 fmt op) w := by
  conv_rhs => rw [← encR4_fields w]
  simp only [encFp, encR4, overlay_append, overlay_zero, overlay_allOnes]

theorem encFp_rd_rs1_rm {rs2 : Reg} (w : Inst) :
    encFp (rdOf w) (rs1Of w) rs2 f5 (rmOf w) fmt op =
      overlay (encR4 0#5 0#5 (.allOnes 5) (.allOnes 5) 0#3 (.allOnes 2) (.allOnes 7))
        (encR4 0#5 0#5 rs2 f5 0#3 fmt op) w := by
  conv_rhs => rw [← encR4_fields w]
  simp only [encFp, encR4, overlay_append, overlay_zero, overlay_allOnes]

theorem encFp_rd_rs1_rs2 (w : Inst) :
    encFp (rdOf w) (rs1Of w) (rs2Of w) f5 rm fmt op =
      overlay (encR4 0#5 0#5 0#5 (.allOnes 5) (.allOnes 3) (.allOnes 2) (.allOnes 7))
        (encR4 0#5 0#5 0#5 f5 rm fmt op) w := by
  conv_rhs => rw [← encR4_fields w]
  simp only [encFp, encR4, overlay_append, overlay_zero, overlay_allOnes]

theorem encFp_rd_rs1 {rs2 : Reg} (w : Inst) :
    encFp (rdOf w) (rs1Of w) rs2 f5 rm fmt op =
      overlay (encR4 0#5 0#5 (.allOnes 5) (.allOnes 5) (.allOnes 3) (.allOnes 2) (.allOnes 7))
        (encR4 0#5 0#5 rs2 f5 rm fmt op) w := by
  conv_rhs => rw [← encR4_fields w]
  simp only [encFp, encR4, overlay_append, overlay_zero, overlay_allOnes]

theorem encFp_rd_rs2 {rs1 : Reg} (w : Inst) :
    encFp (rdOf w) rs1 (rs2Of w) f5 rm fmt op =
      overlay (encR4 0#5 (.allOnes 5) 0#5 (.allOnes 5) (.allOnes 3) (.allOnes 2) (.allOnes 7))
        (encR4 0#5 rs1 0#5 f5 rm fmt op) w := by
  conv_rhs => rw [← encR4_fields w]
  simp only [encFp, encR4, overlay_append, overlay_zero, overlay_allOnes]

theorem encFp_rd {rs1 rs2 : Reg} (w : Inst) :
    encFp (rdOf w) rs1 rs2 f5 rm fmt op =
      overlay (encR4 0#5 (.allOnes 5) (.allOnes 5) (.allOnes 5) (.allOnes 3) (.allOnes 2) (.allOnes 7))
        (encR4 0#5 rs1 rs2 f5 rm fmt op) w := by
  conv_rhs => rw [← encR4_fields w]
  simp only [encFp, encR4, overlay_append, overlay_zero, overlay_allOnes]

end Operands

/-! ## The rows of the table -/

/-- Encoding what the row builds of a word overwrites the word with the row's pattern and changes no other bit. -/
def Row.Faithful (r : Row) : Prop := ∀ w, encode (r.build w) = overlay r.mask r.patt w

theorem rowsControl_faithful : rowsControl.Forall Row.Faithful := by
  simp only [rowsControl, List.Forall]
  exact ⟨encJ_off, encJ_off, encB_rs1_rs2_imm, encB_rs1_rs2_imm, encB_rs1_rs2_imm, encB_rs1_rs2_imm, encB_rs1_rs2_imm,
    encB_rs1_rs2_imm, encI_rd_rs1_imm, encI_rd_rs1_imm, encI_rd_rs1_imm, encI_rd⟩

theorem rowsLoadStore_faithful : rowsLoadStore.Forall Row.Faithful := by
  simp only [rowsLoadStore, List.Forall]
  exact ⟨encI_rd_rs1_imm, encI_rd_rs1_imm, encI_rd_rs1_imm, encI_rd_rs1_imm, encI_rd_rs1_imm, encI_rd_rs1_imm,
    encI_rd_rs1_imm, encB_rs1_rs2_imm, encB_rs1_rs2_imm, encB_rs1_rs2_imm, encB_rs1_rs2_imm, encI_rd_rs1_imm,
    encI_rd_rs1_imm, encB_rs1_rs2_imm, encB_rs1_rs2_imm⟩

theorem rowsAmo_faithful : rowsAmo.Forall Row.Faithful := by
  simp only [rowsAmo, List.Forall]
  and_intros <;> exact encR_rd_rs1_rs2

theorem rowsIntImm_faithful : rowsIntImm.Forall Row.Faithful := by
  simp only [rowsIntImm, List.Forall]
  exact ⟨encI_rd_rs1_imm, encShift_rd_rs1_shamt, encI_rd_rs1_imm, encI_rd_rs1_imm, encI_rd_rs1_imm, encShift_rd_rs1_shamt,
    encShift_rd_rs1_shamt, encI_rd_rs1_imm, encI_rd_rs1_imm, encL_rd_imm, encI_rd_rs1_imm, encShiftW_rd_rs1_shamt,
    encShiftW_rd_rs1_shamt, encShiftW_rd_rs1_shamt⟩

theorem rowsIntReg_faithful : rowsIntReg.Forall Row.Faithful := by
  simp only [rowsIntReg, List.Forall]
  and_intros <;> exact encR_rd_rs1_rs2

theorem rowsFpCompute_faithful : rowsFpCompute.Forall Row.Faithful := by
  simp only [rowsFpCompute, List.Forall]
  exact ⟨encFp_rd_rs1_rs2_rm, encFp_rd_rs1_rs2_rm, encFp_rd_rs1_rs2_rm, encFp_rd_rs1_rs2_rm, encFp_rd_rs1_rm,
    encFp_rd_rs1_rs2, encFp_rd_rs1_rs2, encFp_rd_rs1_rs2_rm, encFp_rd_rs1_rs2_rm, encFp_rd_rs1_rs2_rm, encFp_rd_rs1_rs2_rm,
    encFp_rd_rs1_rm, encFp_rd_rs1_rs2, encFp_rd_rs1_rs2, encR4_rd_rs1_rs2_rs3_rm, encR4_rd_rs1_rs2_rs3_rm,
    encR4_rd_rs1_rs2_rs3_rm, encR4_rd_rs1_rs2_rs3_rm, encR4_rd_rs1_rs2_rs3_rm, encR4_rd_rs1_rs2_rs3_rm,
    encR4_rd_rs1_rs2_rs3_rm, encR4_rd_rs1_rs2_rs3_rm⟩

theorem rowsFpConvert_faithful : rowsFpConvert.Forall Row.Faithful := by
  simp only [rowsFpConvert, List.Forall]
  exact ⟨encFp_rd_rs1_rs2, encFp_rd_rs1_rs2, encFp_rd_rs1_rs2, encFp_rd_rs1_rs2, encFp_rd_rs1_rs2, encFp_rd_rs1_rs2,
    encFp_rd_rs1_rm, encFp_rd_rs1_rm, encFp_rd_rs1_rm, encFp_rd_rs1_rm, encFp_rd_rs1_rm, encFp_rd_rs1_rm, encFp_rd_rs1_rm,
    encFp_rd_rs1_rm, encFp_rd_rs1_rm, encFp_rd_rs1_rm, encFp_rd_rs1, encFp_rd_rs1, encFp_rd_rs1, encFp_rd_rs1_rm,
    encFp_rd_rs1_rm, encFp_rd_rs1_rm, encFp_rd_rs1_rm, encFp_rd_rs1_rm, encFp_rd_rs1_rm, encFp_rd_rs1_rm, encFp_rd_rs1_rm,
    encFp_rd_rs2, encFp_rd_rs2, encFp_rd⟩

theorem rowsFpCompare_faithful : rowsFpCompare.Forall Row.Faithful := by
  simp only [rowsFpCompare, List.Forall]
  and_intros <;> exact encFp_rd_rs1_rs2

theorem rowsFence_faithful : rowsFence.Forall Row.Faithful := by
  simp only [rowsFence, List.Forall]
  and_intros <;> exact encIgnored_ignored

theorem rowsSystem_faithful : rowsSystem.Forall Row.Faithful := by
  simp only [rowsSystem, List.Forall]
  exact ⟨encR_const, encR_const, encR_rd, encR_rd, encR_rd⟩

theorem opcodeTable_faithful : ∀ r ∈ opcodeTable, r.Faithful := by
  simp only [← List.forall_iff_forall_mem, opcodeTable, List.forall_append, and_assoc]
  exact ⟨rowsControl_faithful, rowsLoadStore_faithful, rowsAmo_faithful, rowsIntImm_faithful, rowsIntReg_faithful,
    rowsFpCompute_faithful, rowsFpConvert_faithful, rowsFpCompare_faithful, rowsFence_faithful, rowsSystem_faithful⟩

/-- No row's pattern has a bit outside its mask. -/
theorem opcodeTable_patt_and_mask : ∀ r ∈ opcodeTable, r.patt &&& r.mask = r.patt :=
  List.all_iff_forall_prop.1 (by decide)

/-- Every row fixes the five low bits, at the length code of a 32-bit instruction (R85). -/
theorem opcodeTable_length_code : ∀ r ∈ opcodeTable,
    r.mask.extractLsb' 0 2 = .allOnes 2 ∧ r.mask.extractLsb' 0 5 = .allOnes 5 ∧
    r.patt.extractLsb' 0 2 = 0b11#2 ∧ r.patt.extractLsb' 0 5 ≠ 0b11111#5 :=
  List.all_iff_forall_prop.1 (by decide)

theorem Row.hits_iff (r : Row) (w : Inst) : r.hits w = true ↔ w &&& r.mask = r.patt := by rw [Row.hits, beq_iff_eq]

/-- What a faithful row builds of a word that hits it encodes to the word. -/
theorem Row.Faithful.encode_build {r : Row} (hf : r.Faithful) {w : Inst} (hw : r.hits w = true) :
    encode (r.build w) = w := by
  rw [hf w, overlay_of_and_eq ((r.hits_iff w).1 hw)]

/-- What a faithful row builds encodes to a word that hits the row. -/
theorem Row.Faithful.hits_encode {r : Row} (hf : r.Faithful) (hp : r.patt &&& r.mask = r.patt) (w : Inst) :
    r.hits (encode (r.build w)) = true := by
  rw [Row.hits_iff, hf w, overlay_and_mask _ _ _ hp]

/-- A word has the pattern's bits in every field that the mask covers. -/
theorem extract_of_and_eq {mask patt w : Inst} {k n : Nat} (h : w &&& mask = patt)
    (hm : mask.extractLsb' k n = .allOnes n) : w.extractLsb' k n = patt.extractLsb' k n := by
  rw [← h, BitVec.extractLsb'_and, hm, BitVec.and_allOnes]

/-- The length code of a word that hits a row lets it reach the table. -/
theorem decode_of_hits_row {r : Row} (hr : r ∈ opcodeTable) {w : Inst} (hw : r.hits w = true) :
    decode w = .ok (r.build w) := by
  obtain ⟨hmask2, hmask5, hpatt2, hpatt5⟩ := opcodeTable_length_code r hr
  have hand := (r.hits_iff w).1 hw
  exact decode_of_hits r w hr hw ((extract_of_and_eq hand hmask2).trans hpatt2)
    ((extract_of_and_eq hand hmask5).trans_ne hpatt5)

/-! ## The row of an instruction -/

/-- The row of an instruction is the one that builds instructions of its constructor. -/
def rowOf? (i : Instr) : Option Row := opcodeTable.find? fun r => (r.build 0).ctorIdx == i.ctorIdx

theorem mem_of_rowOf?_eq_some {i : Instr} {r : Row} (h : rowOf? i = some r) : r ∈ opcodeTable :=
  List.mem_of_find?_eq_some h

/-- Each instruction has a row, which reads every operand back from where the encoder puts it: for each constructor, by the
fields of its format. -/
theorem rowOf?_build_encode (i : Instr) : ∃ r, rowOf? i = some r ∧ r.build (encode i) = i := by
  cases i <;> exact ⟨_, rfl, by simp [encode, encB_eq, encFp_eq]⟩

/-! ## Both directions (R119) -/

/-- Settles O1: the word of an instruction hits the instruction's row, which reads the operands back. -/
theorem decodeOfEncode : Obligations.DecodeOfEncode := by
  intro i
  obtain ⟨r, hrow, hi⟩ := rowOf?_build_encode i
  have hr := mem_of_rowOf?_eq_some hrow
  have hw : r.hits (encode i) = true := by
    have := (opcodeTable_faithful r hr).hits_encode (opcodeTable_patt_and_mask r hr) (encode i)
    rwa [hi] at this
  rw [decode_of_hits_row hr hw, hi]

/-- Settles O2: the row that answers is faithful, and the word hits it. -/
theorem encodeOfDecode : Obligations.EncodeOfDecode := by
  intro w i h
  obtain ⟨r, hr, hw, rfl⟩ := decode_ok w i h
  exact (opcodeTable_faithful r hr).encode_build hw

end Sys2Proof

/-! Loads and stores (40_load_store): each instruction is `loadThen` or `storeAt` at its address `x[rs1] + sextX(imm12)`, so
its outcome follows from what these two do where the access is possible and where it is not. -/

namespace Sys2Proof.Machine

/-! ## The instructions by shape (R132 to R148) -/

section Shapes

variable (s : State) (rd rs1 rs2 : Reg) (imm : BitVec 12)

theorem exec_lb : exec (.lb rd rs1 imm) s =
    loadThen s (s.regOffset rs1 imm) 8 fun v => setRd rd (sextX s.xlen v) s := rfl

theorem exec_lh : exec (.lh rd rs1 imm) s =
    loadThen s (s.regOffset rs1 imm) 16 fun v => setRd rd (sextX s.xlen v) s := rfl

theorem exec_lw : exec (.lw rd rs1 imm) s =
    loadThen s (s.regOffset rs1 imm) 32 fun v => setRd rd (sextX s.xlen v) s := rfl

theorem exec_lbu : exec (.lbu rd rs1 imm) s =
    loadThen s (s.regOffset rs1 imm) 8 fun v => setRd rd (zextX s.xlen v) s := rfl

theorem exec_lhu : exec (.lhu rd rs1 imm) s =
    loadThen s (s.regOffset rs1 imm) 16 fun v => setRd rd (zextX s.xlen v) s := rfl

theorem exec_flw : exec (.flw rd rs1 imm) s =
    loadThen s (s.regOffset rs1 imm) 32 fun v => .next (s.writeFmt (fm := .s) rd v).retire := rfl

theorem exec_fld : exec (.fld rd rs1 imm) s =
    loadThen s (s.regOffset rs1 imm) 64 fun v => .next (s.writeFmt (fm := .d) rd v).retire := rfl

theorem exec_sb : exec (.sb rs1 rs2 imm) s = storeAt s (s.regOffset rs1 imm) ((s.readX rs2).setWidth 8) := rfl

theorem exec_sh : exec (.sh rs1 rs2 imm) s = storeAt s (s.regOffset rs1 imm) ((s.readX rs2).setWidth 16) := rfl

theorem exec_sw : exec (.sw rs1 rs2 imm) s = storeAt s (s.regOffset rs1 imm) ((s.readX rs2).setWidth 32) := rfl

theorem exec_fsw : exec (.fsw rs1 rs2 imm) s = storeAt s (s.regOffset rs1 imm) ((s.readF rs2).setWidth 32) := rfl

theorem exec_fsd : exec (.fsd rs1 rs2 imm) s = storeAt s (s.regOffset rs1 imm) (s.readF rs2) := rfl

/-- In RV64 a doubleword fills the register: extending its sign adds no bit, and neither does extending with zeros. -/
theorem sextX_doubleword (v : BitVec 64) : sextX .rv64 v = zextX .rv64 v := by
  rw [sextX, zextX, BitVec.signExtend_eq, BitVec.setWidth_eq]

theorem exec_lwu_rv64 (hx : s.xlen = .rv64) : exec (.lwu rd rs1 imm) s =
    loadThen s (s.regOffset rs1 imm) 32 fun v => setRd rd (zextX s.xlen v) s := onlyRv64_rv64 _ _ _ hx

/-- LD writes the doubleword as it is. -/
theorem exec_ld_rv64 (hx : s.xlen = .rv64) : exec (.ld rd rs1 imm) s =
    loadThen s (s.regOffset rs1 imm) 64 fun v => setRd rd (zextX s.xlen v) s := by
  have hshape : exec (.ld rd rs1 imm) s =
      loadThen s (s.regOffset rs1 imm) 64 fun v => setRd rd (sextX s.xlen v) s := onlyRv64_rv64 _ _ _ hx
  simp only [hshape, hx, sextX_doubleword]

theorem exec_sd_rv64 (hx : s.xlen = .rv64) : exec (.sd rs1 rs2 imm) s =
    storeAt s (s.regOffset rs1 imm) (s.readX rs2) := onlyRv64_rv64 _ _ _ hx

end Shapes

/-! ## Loads where the access is possible -/

section Access

variable {s : State} {ea : Word} {w : Nat}

theorem loadThen_of_accessible (h : s.accessible ea (w / 8) .load = true) (k : BitVec w → Result) :
    loadThen s ea w k = k (s.memRead ea w) := if_pos h

/-- A load that extends the sign. -/
theorem writesXSigned_loadThen (h : s.accessible ea (w / 8) .load = true) (hw : w ≤ s.xlen.width) (rd : Reg) :
    WritesXSigned s (loadThen s ea w fun v => setRd rd (sextX s.xlen v) s) rd (s.memRead ea w).toInt := by
  rw [loadThen_of_accessible h]
  exact writesXSigned_setRd s rd _ _ (by rw [truncX_sextX, sextX_toInt _ _ hw])

/-- A load that extends with zeros. -/
theorem writesX_loadThen (h : s.accessible ea (w / 8) .load = true) (hw : w ≤ s.xlen.width) (rd : Reg) :
    WritesX s (loadThen s ea w fun v => setRd rd (zextX s.xlen v) s) rd (s.memRead ea w).toNat := by
  rw [loadThen_of_accessible h]
  exact writesX_setRd s rd _ _ (by rw [truncX_zextX, zextX_toNat _ _ hw])

/-- A load of an f register in a format. -/
theorem writesF_loadThen {fm : Fmt} (h : s.accessible ea (widthOf fm / 8) .load = true) (rd : Reg) :
    WritesF s (loadThen s ea (widthOf fm) fun v => .next (s.writeFmt rd v).retire) rd (s.memRead ea (widthOf fm))
      noFlags := by
  rw [loadThen_of_accessible h]
  exact writesF_retire s rd _

/-! ## Loads and stores where it is not possible -/

theorem traps_loadThen (h : s.accessible ea (w / 8) .load = false) (k : BitVec w → Result) :
    Traps s (loadThen s ea w k) (.accessFault ea .load) := if_neg (by rw [h]; decide)

theorem traps_storeAt (h : s.accessible ea (w / 8) .store = false) (v : BitVec w) :
    Traps s (storeAt s ea v) (.accessFault ea .store) := if_neg (by rw [h]; decide)

end Access

/-- A word or less fits in a register of either width. -/
theorem word_le_width (m : Xlen) : 32 ≤ m.width := by cases m <;> decide

/-! ## The statements -/

/-- Settles O34: each load is `loadThen` with what it does to the value read, and the value fits in the register. -/
theorem loads : Obligations.Loads := by
  intro s rd rs1 imm ea
  simp only [exec_lb, exec_lbu, exec_lh, exec_lhu, exec_lw, exec_flw, exec_fld]
  have hword := word_le_width s.xlen
  refine ⟨regOffset_toNat s rs1 imm,
    fun hacc => ⟨writesXSigned_loadThen hacc (by omega) rd, writesX_loadThen hacc (by omega) rd⟩,
    fun hacc => ⟨writesXSigned_loadThen hacc (by omega) rd, writesX_loadThen hacc (by omega) rd⟩,
    fun hacc => ⟨writesXSigned_loadThen hacc hword rd, fun hx => ?lwu, writesF_loadThen (fm := .s) hacc rd⟩,
    fun hacc => ⟨fun hx => ?ld, writesF_loadThen (fm := .d) hacc rd⟩⟩
  case lwu => rw [exec_lwu_rv64 s rd rs1 imm hx]; exact writesX_loadThen hacc hword rd
  case ld => rw [exec_ld_rv64 s rd rs1 imm hx]; exact writesX_loadThen hacc (by rw [hx]; decide) rd

/-- Settles O35: each store is `storeAt` of the low bits of its register. -/
theorem stores : Obligations.Stores := by
  intro s rs1 rs2 imm hm ea
  simp only [exec_sb, exec_sh, exec_sw, exec_fsw, exec_fsd]
  refine ⟨regOffset_toNat s rs1 imm,
    fun hacc => storesAt_storeAt s ea _ hm hacc (by decide) (by decide),
    fun hacc => storesAt_storeAt s ea _ hm hacc (by decide) (by decide),
    fun hacc => ⟨storesAt_storeAt s ea _ hm hacc (by decide) (by decide),
      storesAt_storeAt s ea _ hm hacc (by decide) (by decide)⟩,
    fun hacc => ⟨fun hx => ?sd, storesAt_storeAt s ea _ hm hacc (by decide) (by decide)⟩⟩
  case sd => rw [exec_sd_rv64 s rs1 rs2 imm hx]; exact storesAt_storeAt s ea _ hm hacc (by decide) (by decide)

/-- Settles O36: `loadThen` and `storeAt` ask for the access before they do anything else. -/
theorem dataAccessFaults : Obligations.DataAccessFaults := by
  intro s rd rs1 rs2 imm ea
  simp only [exec_lb, exec_lbu, exec_lh, exec_lhu, exec_lw, exec_flw, exec_fld, exec_sb, exec_sh, exec_sw, exec_fsw,
    exec_fsd]
  refine ⟨fun hacc => ⟨traps_loadThen hacc _, traps_loadThen hacc _⟩,
    fun hacc => ⟨traps_loadThen hacc _, traps_loadThen hacc _⟩,
    fun hacc => ⟨traps_loadThen hacc _, fun hx => ?lwu, traps_loadThen hacc _⟩,
    fun hacc => ⟨fun hx => ?ld, traps_loadThen hacc _⟩,
    fun hacc => traps_storeAt hacc _,
    fun hacc => traps_storeAt hacc _,
    fun hacc => ⟨traps_storeAt hacc _, traps_storeAt hacc _⟩,
    fun hacc => ⟨fun hx => ?sd, traps_storeAt hacc _⟩⟩
  case lwu => rw [exec_lwu_rv64 s rd rs1 imm hx]; exact traps_loadThen hacc _
  case ld => rw [exec_ld_rv64 s rd rs1 imm hx]; exact traps_loadThen hacc _
  case sd => rw [exec_sd_rv64 s rs1 rs2 imm hx]; exact traps_storeAt hacc _

end Sys2Proof.Machine

/-! Atomic memory operations (41_amo). The sixteen instructions are eight operators at two widths: each instruction is `amo`
with its operator, so its outcome follows from what `amo` does and from the value the operator gives. -/

namespace Sys2Proof.Machine

/-! ## The operators (R164) -/

/-- The operators of 41_amo R164. -/
inductive AmoOp where
  | add | swap | and | or | min | max | minu | maxu

namespace AmoOp

/-- The 32-bit instruction of an operator (R165 to R172). -/
def word (rd rs1 rs2 : Reg) : AmoOp → Instr
  | add => .amoaddW rd rs1 rs2
  | swap => .amoswapW rd rs1 rs2
  | and => .amoandW rd rs1 rs2
  | or => .amoorW rd rs1 rs2
  | min => .amominW rd rs1 rs2
  | max => .amomaxW rd rs1 rs2
  | minu => .amominuW rd rs1 rs2
  | maxu => .amomaxuW rd rs1 rs2

/-- The 64-bit instruction of an operator (R173 to R180). -/
def double (rd rs1 rs2 : Reg) : AmoOp → Instr
  | add => .amoaddD rd rs1 rs2
  | swap => .amoswapD rd rs1 rs2
  | and => .amoandD rd rs1 rs2
  | or => .amoorD rd rs1 rs2
  | min => .amominD rd rs1 rs2
  | max => .amomaxD rd rs1 rs2
  | minu => .amominuD rd rs1 rs2
  | maxu => .amomaxuD rd rs1 rs2

/-- The model's function of an operator. -/
def fn (w : Nat) : AmoOp → BitVec w → BitVec w → BitVec w
  | add => opAdd w
  | swap => opSwap w
  | and => opAnd w
  | or => opOr w
  | min => opMin w
  | max => opMax w
  | minu => opMinu w
  | maxu => opMaxu w

/-- What R164 says an operator gives, in terms of the numbers the operands stand for. -/
def result {w : Nat} (old src : BitVec w) : AmoOp → BitVec w
  | add => BitVec.ofNat w (old.toNat + src.toNat)
  | swap => src
  | and => old &&& src
  | or => old ||| src
  | min => if old.toInt ≤ src.toInt then old else src
  | max => if old.toInt ≥ src.toInt then old else src
  | minu => if old.toNat ≤ src.toNat then old else src
  | maxu => if old.toNat ≥ src.toNat then old else src

theorem fn_eq_result {w : Nat} (op : AmoOp) (old src : BitVec w) : op.fn w old src = op.result old src := by
  cases op
  case add => rw [fn, opAdd, result, BitVec.ofNat_add, BitVec.ofNat_toNat, BitVec.ofNat_toNat, BitVec.setWidth_eq,
    BitVec.setWidth_eq]
  case swap | and | or => rfl
  case min => simp only [fn, opMin, result, BitVec.sle_iff_toInt_le]
  case max => simp only [fn, opMax, result, BitVec.sle_iff_toInt_le, ge_iff_le]
  case minu => simp only [fn, opMinu, result, BitVec.ule_iff_le, BitVec.le_def]
  case maxu => simp only [fn, opMaxu, result, BitVec.ule_iff_le, BitVec.le_def, ge_iff_le]

end AmoOp

/-! ## The instructions by shape -/

theorem exec_amoWord (op : AmoOp) (rd rs1 rs2 : Reg) (s : State) :
    exec (op.word rd rs1 rs2) s = amo 32 (op.fn 32) rd rs1 rs2 s := by cases op <;> rfl

theorem exec_amoDouble_rv64 (op : AmoOp) (rd rs1 rs2 : Reg) (s : State) (hx : s.xlen = .rv64) :
    exec (op.double rd rs1 rs2) s = amo 64 (op.fn 64) rd rs1 rs2 s := by
  cases op <;> exact onlyRv64_rv64 _ _ _ hx

/-- Settles O37: each instruction is `amo` at width 32, which exchanges the word for the operator's result. -/
theorem amoWord : Obligations.AmoWord := by
  intro s rd rs1 rs2 a old src hm halign hacc
  have hop : ∀ op : AmoOp, Exchanges s (exec (op.word rd rs1 rs2) s) rd a (op.result old src) := fun op => by
    rw [exec_amoWord]
    exact exchanges_amo s rd rs1 rs2 _ _ hm halign hacc (by decide) (by decide) (word_le_width s.xlen)
      (op.fn_eq_result old src)
  exact ⟨hop .add, hop .swap, hop .and, hop .or, hop .min, hop .max, hop .minu, hop .maxu⟩

/-- Settles O38: in RV64 each instruction is `amo` at width 64, the width of a register. -/
theorem amoDouble : Obligations.AmoDouble := by
  intro s rd rs1 rs2 a old src hx hm halign hacc
  have hop : ∀ op : AmoOp, Exchanges s (exec (op.double rd rs1 rs2) s) rd a (op.result old src) := fun op => by
    rw [exec_amoDouble_rv64 op rd rs1 rs2 s hx]
    exact exchanges_amo s rd rs1 rs2 _ _ hm halign hacc (by decide) (by decide) (by rw [hx]; decide)
      (by rw [BitVec.setWidth_eq]; exact op.fn_eq_result old src)
  exact ⟨hop .add, hop .swap, hop .and, hop .or, hop .min, hop .max, hop .minu, hop .maxu⟩

/-! ## Traps (R162, R163) -/

/-- A trap an instruction takes is one of those it may take. -/
theorem mayTrap_of_exec {i : Instr} {s : State} {e : Exception} {p : Word} (h : exec i s = .fault (.trap e p)) :
    MayTrap i s e := by
  have hshapes : HoldsAfter i s fun _ => True := by constructor <;> intros <;> trivial
  rcases exec_outcome i hshapes with ⟨t, hnext, -⟩ | ⟨e', hraise, hmay⟩
  · cases hnext.symm.trans h
  · cases hraise.symm.trans h
    exact hmay

/-- The traps of an AMO of `n` bytes at `a`: for its alignment whatever the access, then for the access. -/
def TrapsAsAmo (s : State) (res : Result) (a : Word) (n : Nat) : Prop :=
  (a.toNat % n ≠ 0 → Traps s res (.misalignedAddress a)) ∧
  (a.toNat % n = 0 → s.accessible a n .amo = false → Traps s res (.accessFault a .amo))

theorem trapsAsAmo_amo (w : Nat) (op : BitVec w → BitVec w → BitVec w) (rd rs1 rs2 : Reg) (s : State) :
    TrapsAsAmo s (amo w op rd rs1 rs2 s) (s.readX rs1) (w / 8) :=
  ⟨traps_amo_misaligned w op rd rs1 rs2 s, traps_amo_inaccessible w op rd rs1 rs2 s⟩

/-- Settles O39: `amo` tests the alignment first and the access next, and only the opcode of the AMOs may take
MisalignedAddress. -/
theorem amoTraps : Obligations.AmoTraps := by
  intro s rd rs1 rs2 a
  have hword : ∀ op : AmoOp, TrapsAsAmo s (exec (op.word rd rs1 rs2) s) a 4 := fun op => by
    rw [exec_amoWord]
    exact trapsAsAmo_amo 32 _ rd rs1 rs2 s
  have hdouble : s.xlen = .rv64 → ∀ op : AmoOp, TrapsAsAmo s (exec (op.double rd rs1 rs2) s) a 8 := fun hx op => by
    rw [exec_amoDouble_rv64 op rd rs1 rs2 s hx]
    exact trapsAsAmo_amo 64 _ rd rs1 rs2 s
  simp only [List.forall_mem_cons, List.not_mem_nil, false_imp_iff, implies_true, and_true]
  refine ⟨⟨hword .add, hword .swap, hword .and, hword .or, hword .min, hword .max, hword .minu, hword .maxu⟩,
    fun hx => ?_, fun i b p h => mayTrap_of_exec h⟩
  have h := hdouble hx
  exact ⟨h .add, h .swap, h .and, h .or, h .min, h .max, h .minu, h .maxu⟩

end Sys2Proof.Machine

/-! Integer instructions on an immediate or on two registers (42_int_imm, 43_int_reg). Each is a shared shape with an operator
of its own, so its outcome follows from what the shape does and from the number the operator gives. -/

namespace Sys2Proof.Machine

/-! ## What the operators give, as numbers -/

section Operators

variable {w : Nat} (a b : BitVec w)

theorem opAdd_toNat : (opAdd w a b).toNat = (a.toNat + b.toNat) % 2 ^ w := BitVec.toNat_add a b

theorem opSub_toNat : (opSub w a b).toNat = (a.toNat + 2 ^ w - b.toNat) % 2 ^ w := by
  rw [opSub, BitVec.toNat_sub', Nat.add_sub_assoc b.isLt.le]

theorem opXor_toNat : (opXor w a b).toNat = a.toNat ^^^ b.toNat := BitVec.toNat_xor a b

theorem opOr_toNat : (opOr w a b).toNat = a.toNat ||| b.toNat := BitVec.toNat_or a b

theorem opAnd_toNat : (opAnd w a b).toNat = a.toNat &&& b.toNat := BitVec.toNat_and a b

theorem opSll_toNat : (opSll w a b).toNat = a.toNat * 2 ^ shiftBy b % 2 ^ w := by
  rw [opSll, BitVec.toNat_shiftLeft, Nat.shiftLeft_eq]

theorem opSrl_toNat : (opSrl w a b).toNat = a.toNat / 2 ^ shiftBy b := by
  rw [opSrl, BitVec.toNat_ushiftRight, Nat.shiftRight_eq_div_pow]

theorem opSra_toInt : (opSra w a b).toInt = a.toInt / 2 ^ shiftBy b := by
  rw [opSra, BitVec.toInt_sshiftRight, Int.shiftRight_eq_div_pow, Nat.cast_pow, Nat.cast_ofNat]

theorem opSrl_toInt : (opSrl w a b).toInt = Int.bmod (a.toNat / 2 ^ shiftBy b : Nat) (2 ^ w) := by
  rw [BitVec.toInt_eq_toNat_bmod, opSrl_toNat]

end Operators

/-! The operators whose result modulo `2^w` depends on the operands modulo `2^w` alone: the signed result, where `m` and `n`
are any numbers with the operands' residues. -/

section Residues

variable {w : Nat} {a b : BitVec w} {m n : Int}

theorem opAdd_toInt_of_bmod (ha : a.toInt = m.bmod (2 ^ w)) (hb : b.toInt = n.bmod (2 ^ w)) :
    (opAdd w a b).toInt = (m + n).bmod (2 ^ w) := by
  rw [opAdd, BitVec.toInt_add, ha, hb, Int.bmod_add_bmod, Int.add_bmod_bmod]

theorem opSub_toInt_of_bmod (ha : a.toInt = m.bmod (2 ^ w)) (hb : b.toInt = n.bmod (2 ^ w)) :
    (opSub w a b).toInt = (m - n).bmod (2 ^ w) := by
  rw [opSub, BitVec.toInt_sub, ha, hb, Int.bmod_sub_bmod, Int.sub_bmod_bmod]

theorem opMul_toInt_of_bmod (ha : a.toInt = m.bmod (2 ^ w)) (hb : b.toInt = n.bmod (2 ^ w)) :
    (opMul w a b).toInt = (m * n).bmod (2 ^ w) := by
  rw [opMul, BitVec.toInt_mul, ha, hb, Int.bmod_mul_bmod, Int.mul_bmod_bmod]

theorem opSll_toInt_of_bmod (b : BitVec w) (ha : a.toInt = m.bmod (2 ^ w)) :
    (opSll w a b).toInt = (m * 2 ^ shiftBy b).bmod (2 ^ w) := by
  rw [opSll, BitVec.toInt_shiftLeft, Nat.shiftLeft_eq, Nat.cast_mul, ← Int.bmod_mul_bmod, ← BitVec.toInt_eq_toNat_bmod, ha,
    Int.bmod_mul_bmod, Nat.cast_pow, Nat.cast_ofNat]

end Residues

/-! ## Operands -/

theorem concat_zeros_toInt {w : Nat} (v : BitVec w) (k : Nat) : (v ++ 0#k).toInt = v.toInt * 2 ^ k := by
  rw [BitVec.toInt_append]
  split
  case isTrue hw =>
    obtain rfl := eq_of_beq hw
    rw [v.eq_nil, BitVec.toInt_zero, BitVec.toInt_zero_length, zero_mul]
  case isFalse => rw [BitVec.toNat_ofNat, Nat.zero_mod, Nat.cast_zero, add_zero, mul_comm]

/-- The immediate of LUI is its field times `2^12`, in the XPRLEN-bit two's complement (R205). -/
theorem upperImm_toNat (s : State) (imm : BitVec 20) :
    (upperImm s.xlen imm).toNat = ((imm.toInt * 4096) % s.size).toNat := by
  have h := ofNat_sextX_mod s.xlen (imm ++ 0#12) (word_le_width s.xlen)
  rw [concat_zeros_toInt, ← size_cast] at h
  exact (Int.toNat_natCast _).symm.trans (congrArg Int.toNat h)

theorem signedX_immX (m : Xlen) (imm : BitVec 12) : signedX m (immX m imm) = imm.toInt :=
  sextX_toInt m imm (by cases m <;> decide)

/-- The low word of an immediate is the immediate at 32 bits. -/
theorem toInt_low_immX (s : State) (imm : BitVec 12) :
    ((immX s.xlen imm).setWidth 32).toInt = imm.toInt.bmod (2 ^ 32) := by
  have hdvd : ((2 ^ 32 : Nat) : Int) ∣ s.size := by
    rw [size_eq]; exact_mod_cast Nat.pow_dvd_pow 2 (word_le_width s.xlen)
  rw [toInt_low, immX_toNat_int, ← Int.emod_bmod, Int.emod_emod_of_dvd _ hdvd, Int.emod_bmod]

/-- The shift amount of a W form, from a register: the low five bits. -/
theorem shiftBy_low (v : Word) : shiftBy (v.setWidth 32) = v.toNat % 32 := by
  rw [shiftBy, BitVec.toNat_setWidth]; exact Nat.mod_mod_of_dvd _ (by decide)

/-- The shift amount of a W form, a constant. -/
theorem shiftBy_low_amt (amt : BitVec 5) : shiftBy ((amt.setWidth 64).setWidth 32) = amt.toNat := by
  rw [shiftBy_low, BitVec.toNat_setWidth_of_le (by decide), Nat.mod_eq_of_lt amt.isLt]

/-! ## The instructions by shape -/

section Shapes

variable (s : State) (rd rs1 rs2 : Reg) (imm : BitVec 12)

theorem exec_add : exec (.add rd rs1 rs2) s = intOp opAdd rd (s.readX rs1) (s.readX rs2) s := rfl

theorem exec_sub : exec (.sub rd rs1 rs2) s = intOp opSub rd (s.readX rs1) (s.readX rs2) s := rfl

theorem exec_xor : exec (.xor rd rs1 rs2) s = intOp opXor rd (s.readX rs1) (s.readX rs2) s := rfl

theorem exec_or : exec (.or rd rs1 rs2) s = intOp opOr rd (s.readX rs1) (s.readX rs2) s := rfl

theorem exec_and : exec (.and rd rs1 rs2) s = intOp opAnd rd (s.readX rs1) (s.readX rs2) s := rfl

theorem exec_addi : exec (.addi rd rs1 imm) s = intOp opAdd rd (s.readX rs1) (immX s.xlen imm) s := rfl

theorem exec_xori : exec (.xori rd rs1 imm) s = intOp opXor rd (s.readX rs1) (immX s.xlen imm) s := rfl

theorem exec_ori : exec (.ori rd rs1 imm) s = intOp opOr rd (s.readX rs1) (immX s.xlen imm) s := rfl

theorem exec_andi : exec (.andi rd rs1 imm) s = intOp opAnd rd (s.readX rs1) (immX s.xlen imm) s := rfl

theorem exec_lui (upper : BitVec 20) : exec (.lui rd upper) s = setRd rd (upperImm s.xlen upper) s := rfl

theorem exec_slt : exec (.slt rd rs1 rs2) s = intTest tstLt rd (s.readX rs1) (s.readX rs2) s := rfl

theorem exec_sltu : exec (.sltu rd rs1 rs2) s = intTest tstLtu rd (s.readX rs1) (s.readX rs2) s := rfl

theorem exec_slti : exec (.slti rd rs1 imm) s = intTest tstLt rd (s.readX rs1) (immX s.xlen imm) s := rfl

theorem exec_sltiu : exec (.sltiu rd rs1 imm) s = intTest tstLtu rd (s.readX rs1) (immX s.xlen imm) s := rfl

theorem exec_sll : exec (.sll rd rs1 rs2) s = intOp opSll rd (s.readX rs1) (s.readX rs2) s := rfl

theorem exec_srl : exec (.srl rd rs1 rs2) s = intOp opSrl rd (s.readX rs1) (s.readX rs2) s := rfl

theorem exec_sra : exec (.sra rd rs1 rs2) s = intOp opSra rd (s.readX rs1) (s.readX rs2) s := rfl

/-! A shift by a constant, for the amounts that are legal (R197). -/

section Amount

variable (amt : BitVec 6) (h : amt.toNat < s.xlen.width)
include h

theorem exec_slli : exec (.slli rd rs1 amt) s = intOp opSll rd (s.readX rs1) (amt.setWidth 64) s :=
  shiftImm_ok _ _ _ _ _ _ h

theorem exec_srli : exec (.srli rd rs1 amt) s = intOp opSrl rd (s.readX rs1) (amt.setWidth 64) s :=
  shiftImm_ok _ _ _ _ _ _ h

theorem exec_srai : exec (.srai rd rs1 amt) s = intOp opSra rd (s.readX rs1) (amt.setWidth 64) s :=
  shiftImm_ok _ _ _ _ _ _ h

end Amount

/-! The W forms (R200 to R204, R231 to R235, R250). -/

section WordShapes

variable (amt : BitVec 5)

theorem exec_addw : exec (.addw rd rs1 rs2) s =
    intOpW (.addw rd rs1 rs2) opAdd rd (s.readX rs1) (s.readX rs2) s := rfl

theorem exec_subw : exec (.subw rd rs1 rs2) s =
    intOpW (.subw rd rs1 rs2) opSub rd (s.readX rs1) (s.readX rs2) s := rfl

theorem exec_mulw : exec (.mulw rd rs1 rs2) s =
    intOpW (.mulw rd rs1 rs2) opMul rd (s.readX rs1) (s.readX rs2) s := rfl

theorem exec_sllw : exec (.sllw rd rs1 rs2) s =
    intOpW (.sllw rd rs1 rs2) opSll rd (s.readX rs1) (s.readX rs2) s := rfl

theorem exec_srlw : exec (.srlw rd rs1 rs2) s =
    intOpW (.srlw rd rs1 rs2) opSrl rd (s.readX rs1) (s.readX rs2) s := rfl

theorem exec_sraw : exec (.sraw rd rs1 rs2) s =
    intOpW (.sraw rd rs1 rs2) opSra rd (s.readX rs1) (s.readX rs2) s := rfl

theorem exec_addiw : exec (.addiw rd rs1 imm) s =
    intOpW (.addiw rd rs1 imm) opAdd rd (s.readX rs1) (immX s.xlen imm) s := rfl

theorem exec_slliw : exec (.slliw rd rs1 amt) s =
    intOpW (.slliw rd rs1 amt) opSll rd (s.readX rs1) (amt.setWidth 64) s := rfl

theorem exec_srliw : exec (.srliw rd rs1 amt) s =
    intOpW (.srliw rd rs1 amt) opSrl rd (s.readX rs1) (amt.setWidth 64) s := rfl

theorem exec_sraiw : exec (.sraiw rd rs1 amt) s =
    intOpW (.sraiw rd rs1 amt) opSra rd (s.readX rs1) (amt.setWidth 64) s := rfl

end WordShapes

end Shapes

/-! ## The statements -/

/-- Settles O19: each instruction is `intOp` with its operator, on a register or on the immediate; LUI writes its
immediate. -/
theorem addSubLogic : Obligations.AddSubLogic := by
  intro s rd rs1 rs2 imm upper a b k
  simp only [exec_add, exec_sub, exec_xor, exec_or, exec_and, exec_addi, exec_xori, exec_ori, exec_andi, exec_lui]
  have ha := setWidth_readX_toNat s rs1
  have hb := setWidth_readX_toNat s rs2
  have hk := setWidth_immX_toNat s imm
  refine ⟨writesX_intOp s _ rd _ _ _ ?add, writesX_intOp s _ rd _ _ _ ?sub, writesX_intOp s _ rd _ _ _ ?xor,
    writesX_intOp s _ rd _ _ _ ?or, writesX_intOp s _ rd _ _ _ ?and, writesX_intOp s _ rd _ _ _ ?addi,
    writesX_intOp s _ rd _ _ _ ?xori, writesX_intOp s _ rd _ _ _ ?ori, writesX_intOp s _ rd _ _ _ ?andi,
    writesX_setRd s rd _ _ ?lui⟩
  case add => rw [opAdd_toNat, ← size_eq, ha, hb]
  case sub => rw [opSub_toNat, ← size_eq, ha, hb]
  case xor => rw [opXor_toNat, ha, hb]
  case or => rw [opOr_toNat, ha, hb]
  case and => rw [opAnd_toNat, ha, hb]
  case addi => rw [opAdd_toNat, ← size_eq, ha, hk]
  case xori => rw [opXor_toNat, ha, hk]
  case ori => rw [opOr_toNat, ha, hk]
  case andi => rw [opAnd_toNat, ha, hk]
  case lui => rw [upperImm, truncX_sextX]; exact upperImm_toNat s upper

/-- Settles O20: each instruction is `intTest` with the signed or the unsigned comparison, and the immediate is
sign-extended before either. -/
theorem setLessThan : Obligations.SetLessThan := by
  intro s rd rs1 rs2 imm a b
  simp only [exec_slt, exec_sltu, exec_slti, exec_sltiu]
  have ha := setWidth_readX_toNat s rs1
  have hb := setWidth_readX_toNat s rs2
  have hk := (setWidth_immX_toNat s imm).trans (immX_toNat s imm).symm
  refine ⟨writesX_intTest s _ rd _ _ _ ?slt, writesX_intTest s _ rd _ _ _ ?sltu, writesX_intTest s _ rd _ _ _ ?slti,
    writesX_intTest s _ rd _ _ _ ?sltiu⟩
  case slt => simp only [tstLt, signedX_lt, decide_eq_true_eq, a, b]
  case sltu => simp only [tstLtu, BitVec.ult_eq_decide, ha, hb, decide_eq_true_eq, a, b]
  case slti => simp only [tstLt, signedX_lt, signedX_immX, decide_eq_true_eq, a]
  case sltiu => simp only [tstLtu, BitVec.ult_eq_decide, ha, hk, decide_eq_true_eq, ← immX_toNat_int, Nat.cast_lt, a]

/-- Settles O21: each instruction is `intOp` with its shift, by the low bits of a register or by a legal constant. -/
theorem shifts : Obligations.Shifts := by
  intro s rd rs1 rs2 amt a sh
  simp only [exec_sll, exec_srl, exec_sra]
  have ha := setWidth_readX_toNat s rs1
  have hsh := shiftBy_readX s rs2
  refine ⟨writesX_intOp s _ rd _ _ _ ?sll, writesX_intOp s _ rd _ _ _ ?srl, writesXSigned_intOp s _ rd _ _ _ ?sra,
    fun hamt => ?constant⟩
  case sll => rw [opSll_toNat, ← size_eq, ha, hsh]
  case srl => rw [opSrl_toNat, ha, hsh]
  case sra => rw [opSra_toInt, toInt_w, hsh]
  case constant =>
    have hk := shiftBy_amt s amt hamt
    rw [exec_slli s rd rs1 amt hamt, exec_srli s rd rs1 amt hamt, exec_srai s rd rs1 amt hamt]
    exact ⟨writesX_intOp s _ rd _ _ _ (by rw [opSll_toNat, ← size_eq, ha, hk]),
      writesX_intOp s _ rd _ _ _ (by rw [opSrl_toNat, ha, hk]),
      writesXSigned_intOp s _ rd _ _ _ (by rw [opSra_toInt, toInt_w, hk])⟩

/-- Settles O22: each instruction is `intOpW` with its operator, which sees the low words. -/
theorem wordForms : Obligations.WordForms := by
  intro s rd rs1 rs2 imm amt hx a b sext
  simp only [exec_addw, exec_subw, exec_addiw, exec_mulw, exec_sllw, exec_srlw, exec_sraw, exec_slliw, exec_srliw, exec_sraiw]
  have ha := toInt_low (s.readX rs1)
  have hb := toInt_low (s.readX rs2)
  have hk := toInt_low_immX s imm
  have hlow : ((s.readX rs1).setWidth 32).toNat = a % 2 ^ 32 := BitVec.toNat_setWidth 32 _
  have hsh := shiftBy_low (s.readX rs2)
  have hamt := shiftBy_low_amt amt
  refine ⟨writesXSigned_intOpW s _ _ rd _ _ _ hx ?addw, writesXSigned_intOpW s _ _ rd _ _ _ hx ?subw,
    writesXSigned_intOpW s _ _ rd _ _ _ hx ?addiw, writesXSigned_intOpW s _ _ rd _ _ _ hx ?mulw,
    writesXSigned_intOpW s _ _ rd _ _ _ hx ?sllw, writesXSigned_intOpW s _ _ rd _ _ _ hx ?srlw,
    writesXSigned_intOpW s _ _ rd _ _ _ hx ?sraw, writesXSigned_intOpW s _ _ rd _ _ _ hx ?slliw,
    writesXSigned_intOpW s _ _ rd _ _ _ hx ?srliw, writesXSigned_intOpW s _ _ rd _ _ _ hx ?sraiw⟩
  case addw => exact opAdd_toInt_of_bmod ha hb
  case subw => exact opSub_toInt_of_bmod ha hb
  case addiw => exact opAdd_toInt_of_bmod ha hk
  case mulw => exact opMul_toInt_of_bmod ha hb
  case sllw => rw [opSll_toInt_of_bmod _ ha, hsh]
  case srlw => rw [opSrl_toInt, hlow, hsh]
  case sraw => rw [opSra_toInt, ha, hsh]
  case slliw => rw [opSll_toInt_of_bmod _ ha, hamt]
  case srliw => rw [opSrl_toInt, hlow, hamt]
  case sraiw => rw [opSra_toInt, ha, hamt]

end Sys2Proof.Machine

/-! The words of the spec's examples. -/

namespace Sys2Proof

/-- A word is decoded by finding the instruction it encodes (R119). -/
theorem decode_of_encode_eq {w : Inst} {i : Instr} (h : encode i = w) : decode w = .ok i := h ▸ decodeOfEncode i

/-- Settles O3: each word is the encoding of its instruction. -/
theorem sampleWords : Obligations.SampleWords :=
  ⟨decode_of_encode_eq rfl, decode_of_encode_eq rfl, decode_of_encode_eq rfl, decode_of_encode_eq rfl,
    decode_of_encode_eq rfl, decode_of_encode_eq rfl, decode_of_encode_eq rfl, decode_of_encode_eq rfl,
    decode_of_encode_eq rfl, decode_of_encode_eq rfl, decode_of_encode_eq rfl, decode_of_encode_eq rfl⟩

end Sys2Proof

/-! Multiplication and division (43_int_reg). Each instruction is a shared shape with an operator, and each operator's result is
a number that fits in the width: the high half of a product because its factors are bounded, a quotient because the one
overflowing division is a case of its own. -/

namespace Sys2Proof.Machine

/-! ## What the operators give, as numbers (R236 to R243, R245) -/

section Operators

variable {w : Nat} (a b : BitVec w)

theorem opMul_toNat : (opMul w a b).toNat = a.toNat * b.toNat % 2 ^ w := BitVec.toNat_mul a b

theorem opMulhu_toNat : (opMulhu w a b).toNat = a.toNat * b.toNat / 2 ^ w := by
  have hprod : a.toNat * b.toNat < 2 ^ w * 2 ^ w := Nat.mul_lt_mul'' a.isLt b.isLt
  rw [opMulhu, BitVec.toNat_ofNat, Nat.mod_eq_of_lt (Nat.div_lt_of_lt_mul hprod)]

theorem toInt_eq_zero_iff : b.toInt = 0 ↔ b = 0#w := by rw [← BitVec.toInt_inj, BitVec.toInt_zero]

theorem toNat_eq_zero_iff : b.toNat = 0 ↔ b = 0#w := by rw [← BitVec.toNat_inj, BitVec.toNat_zero]

theorem opDivu_toNat :
    (opDivu w a b).toNat = if b.toNat = 0 then 2 ^ w - 1 else a.toNat / b.toNat := by
  simp only [opDivu, toNat_eq_zero_iff]
  split
  case isTrue => exact BitVec.toNat_allOnes
  case isFalse => rw [← BitVec.udiv_def, BitVec.toNat_udiv]

theorem opRemu_toNat :
    (opRemu w a b).toNat = if b.toNat = 0 then a.toNat else a.toNat % b.toNat := by
  simp only [opRemu, toNat_eq_zero_iff]
  split
  case isTrue => rfl
  case isFalse => rw [← BitVec.umod_def, BitVec.toNat_umod]

theorem opRemu_toInt : (opRemu w a b).toInt =
    if b.toNat = 0 then Int.bmod a.toNat (2 ^ w) else Int.bmod (a.toNat % b.toNat : Nat) (2 ^ w) := by
  rw [BitVec.toInt_eq_toNat_bmod, opRemu_toNat]; split <;> rfl

/-- A quotient that does not overflow needs no reduction modulo `2^w`. -/
theorem ofInt_tdiv_toInt (h : ¬ divOverflows a b) : (BitVec.ofInt w (a.toInt.tdiv b.toInt)).toInt = a.toInt.tdiv b.toInt := by
  have hne : a ≠ BitVec.intMin w ∨ b ≠ -1#w := by
    rwa [divOverflows, Bool.and_eq_true, beq_iff_eq, beq_iff_eq, not_and_or, ← BitVec.neg_one_eq_allOnes] at h
  rw [BitVec.toInt_ofInt, ← BitVec.toInt_sdiv, BitVec.toInt_sdiv_of_ne_or_ne a b hne]

/-- A remainder never needs a reduction modulo `2^w`: it is smaller than the divisor. -/
theorem ofInt_remainder_toInt : (BitVec.ofInt w (a.toInt - b.toInt * a.toInt.tdiv b.toInt)).toInt =
    a.toInt - b.toInt * a.toInt.tdiv b.toInt := by
  rw [← Int.tmod_def, ← BitVec.toInt_srem, BitVec.ofInt_toInt]

theorem abs_toInt_le : |a.toInt| ≤ 2 ^ (w - 1) :=
  abs_le.mpr ⟨BitVec.le_toInt a, (BitVec.toInt_lt (x := a)).le⟩

variable (hw : 0 < w)
include hw

/-- The high half of a product fits in the width, where one factor is a signed operand and the other is below `2^w`. -/
theorem ofInt_highHalf_toInt (n : Int) (hn : |n| < 2 ^ w) :
    (BitVec.ofInt w (a.toInt * n / 2 ^ w)).toInt = a.toInt * n / 2 ^ w := by
  have hprod : |a.toInt * n| < 2 ^ (w - 1) * 2 ^ w := by
    rw [abs_mul]
    exact mul_lt_mul' (abs_toInt_le a) hn (abs_nonneg n) (by positivity)
  obtain ⟨hlow, hhigh⟩ := abs_lt.mp hprod
  refine toInt_ofInt_of_bounds hw _ ?_ ?_
  · exact (Int.le_ediv_iff_mul_le (by positivity)).mpr (by rw [neg_mul]; exact hlow.le)
  · exact (Int.ediv_lt_iff_lt_mul (by positivity)).mpr hhigh

theorem opMulh_toInt : (opMulh w a b).toInt = a.toInt * b.toInt / 2 ^ w :=
  ofInt_highHalf_toInt a hw b.toInt
    ((abs_toInt_le b).trans_lt (pow_lt_pow_right₀ one_lt_two (Nat.sub_lt hw one_pos)))

theorem opMulhsu_toInt : (opMulhsu w a b).toInt = a.toInt * b.toNat / 2 ^ w :=
  ofInt_highHalf_toInt a hw b.toNat (by rw [Nat.abs_cast]; exact_mod_cast b.isLt)

theorem divOverflows_iff : divOverflows a b ↔ a.toInt = -2 ^ (w - 1) ∧ b.toInt = -1 := by
  rw [divOverflows, Bool.and_eq_true, beq_iff_eq, beq_iff_eq, ← BitVec.toInt_inj, ← BitVec.toInt_inj,
    BitVec.toInt_intMin_of_pos hw, BitVec.toInt_allOnes, if_pos hw]

theorem opDiv_toInt : (opDiv w a b).toInt =
    if b.toInt = 0 then -1 else if a.toInt = -2 ^ (w - 1) ∧ b.toInt = -1 then a.toInt else a.toInt.tdiv b.toInt := by
  simp only [← divOverflows_iff a b hw, toInt_eq_zero_iff, opDiv]
  split
  case isTrue => rw [BitVec.toInt_allOnes, if_pos hw]
  case isFalse =>
    split
    case isTrue => rfl
    case isFalse hover => exact ofInt_tdiv_toInt a b hover

theorem opRem_toInt : (opRem w a b).toInt =
    if b.toInt = 0 then a.toInt else if a.toInt = -2 ^ (w - 1) ∧ b.toInt = -1 then 0
    else a.toInt - b.toInt * a.toInt.tdiv b.toInt := by
  simp only [← divOverflows_iff a b hw, toInt_eq_zero_iff, opRem]
  split
  case isTrue => rfl
  case isFalse =>
    split
    case isTrue => exact BitVec.toInt_zero
    case isFalse => exact ofInt_remainder_toInt a b

theorem opDivu_toInt :
    (opDivu w a b).toInt = if b.toNat = 0 then -1 else Int.bmod (a.toNat / b.toNat : Nat) (2 ^ w) := by
  simp only [opDivu, toNat_eq_zero_iff]
  split
  case isTrue => rw [BitVec.toInt_allOnes, if_pos hw]
  case isFalse => exact BitVec.toInt_ofNat _

end Operators

/-! ## The instructions by shape -/

section Shapes

variable (s : State) (rd rs1 rs2 : Reg)

theorem exec_mul : exec (.mul rd rs1 rs2) s = intOp opMul rd (s.readX rs1) (s.readX rs2) s := rfl

theorem exec_mulh : exec (.mulh rd rs1 rs2) s = intOp opMulh rd (s.readX rs1) (s.readX rs2) s := rfl

theorem exec_mulhsu : exec (.mulhsu rd rs1 rs2) s = intOp opMulhsu rd (s.readX rs1) (s.readX rs2) s := rfl

theorem exec_mulhu : exec (.mulhu rd rs1 rs2) s = intOp opMulhu rd (s.readX rs1) (s.readX rs2) s := rfl

theorem exec_div : exec (.div rd rs1 rs2) s = intOp opDiv rd (s.readX rs1) (s.readX rs2) s := rfl

theorem exec_divu : exec (.divu rd rs1 rs2) s = intOp opDivu rd (s.readX rs1) (s.readX rs2) s := rfl

theorem exec_rem : exec (.rem rd rs1 rs2) s = intOp opRem rd (s.readX rs1) (s.readX rs2) s := rfl

theorem exec_remu : exec (.remu rd rs1 rs2) s = intOp opRemu rd (s.readX rs1) (s.readX rs2) s := rfl

theorem exec_divw : exec (.divw rd rs1 rs2) s =
    intOpW (.divw rd rs1 rs2) opDiv rd (s.readX rs1) (s.readX rs2) s := rfl

theorem exec_divuw : exec (.divuw rd rs1 rs2) s =
    intOpW (.divuw rd rs1 rs2) opDivu rd (s.readX rs1) (s.readX rs2) s := rfl

theorem exec_remw : exec (.remw rd rs1 rs2) s =
    intOpW (.remw rd rs1 rs2) opRem rd (s.readX rs1) (s.readX rs2) s := rfl

theorem exec_remuw : exec (.remuw rd rs1 rs2) s =
    intOpW (.remuw rd rs1 rs2) opRemu rd (s.readX rs1) (s.readX rs2) s := rfl

end Shapes

/-- What a completed signed write leaves in its register. -/
theorem signedX_readX_of_writesXSigned {s t : State} {rd : Reg} {v : Int} (h : WritesXSigned s (.next t) rd v)
    (hrd : rd ≠ 0#5) : signedX s.xlen (t.readX rd) = v := by
  obtain ⟨t', ht, hvalue, -, -⟩ := h
  obtain rfl := Host.Outcome.next.inj ht
  rwa [if_neg hrd] at hvalue

/-- A remainder has the sign of its dividend, or is 0 (R246). -/
theorem mul_tmod_nonneg (a b : Int) : 0 ≤ a * a.tmod b := by
  rcases le_total 0 a with ha | ha
  · exact mul_nonneg ha (Int.tmod_nonneg b ha)
  · have hneg : 0 ≤ (-a).tmod b := Int.tmod_nonneg b (neg_nonneg.mpr ha)
    rw [Int.neg_tmod] at hneg
    exact mul_nonneg_of_nonpos_of_nonpos ha (neg_nonneg.mp hneg)

/-! ## The statements -/

/-- Settles O23: each instruction is `intOp` with its half of the product, which fits in the width. -/
theorem multiply : Obligations.Multiply := by
  intro s rd rs1 rs2 a b
  have hw := width_pos s.xlen
  have ha := setWidth_readX_toNat s rs1
  have hb := setWidth_readX_toNat s rs2
  rw [exec_mul, exec_mulhu, exec_mulh, exec_mulhsu]
  refine ⟨writesX_intOp s _ rd _ _ _ ?mul, writesX_intOp s _ rd _ _ _ ?mulhu, writesXSigned_intOp s _ rd _ _ _ ?mulh,
    writesXSigned_intOp s _ rd _ _ _ ?mulhsu⟩
  case mul => rw [opMul_toNat, ← size_eq, ha, hb]
  case mulhu => rw [opMulhu_toNat, ← size_eq, ha, hb]
  case mulh => rw [opMulh_toInt _ _ hw, ← size_cast, toInt_w, toInt_w]
  case mulhsu => rw [opMulhsu_toInt _ _ hw, ← size_cast, toInt_w, hb]

/-- Settles O24: each instruction is `intOp` with its operator, whose cases are the special cases of R245. -/
theorem divide : Obligations.Divide := by
  intro s rd rs1 rs2 a b m n
  have hw := width_pos s.xlen
  have ha := setWidth_readX_toNat s rs1
  have hb := setWidth_readX_toNat s rs2
  rw [exec_div, exec_divu, exec_rem, exec_remu]
  refine ⟨writesXSigned_intOp s _ rd _ _ _ ?div, writesX_intOp s _ rd _ _ _ ?divu, writesXSigned_intOp s _ rd _ _ _ ?rem,
    writesX_intOp s _ rd _ _ _ ?remu⟩
  case div => rw [opDiv_toInt _ _ hw, toInt_w, toInt_w]
  case divu => rw [opDivu_toNat, ← size_eq, ha, hb]
  case rem => rw [opRem_toInt _ _ hw, toInt_w, toInt_w]
  case remu => rw [opRemu_toNat, ha, hb]

/-- Settles O25: each instruction is `intOpW` with the operator of its XPRLEN-bit form, at width 32. -/
theorem divideWord : Obligations.DivideWord := by
  intro s rd rs1 rs2 hx sext m n a b
  have hw : 0 < 32 := by decide
  have hm : ((s.readX rs1).setWidth 32).toNat = m := BitVec.toNat_setWidth 32 _
  have hn : ((s.readX rs2).setWidth 32).toNat = n := BitVec.toNat_setWidth 32 _
  have ha : ((s.readX rs1).setWidth 32).toInt = a := by rw [BitVec.toInt_eq_toNat_bmod, hm]
  have hb : ((s.readX rs2).setWidth 32).toInt = b := by rw [BitVec.toInt_eq_toNat_bmod, hn]
  rw [exec_divw, exec_divuw, exec_remw, exec_remuw]
  refine ⟨writesXSigned_intOpW s _ _ rd _ _ _ hx ?divw, writesXSigned_intOpW s _ _ rd _ _ _ hx ?divuw,
    writesXSigned_intOpW s _ _ rd _ _ _ hx ?remw, writesXSigned_intOpW s _ _ rd _ _ _ hx ?remuw⟩
  case divw => rw [opDiv_toInt _ _ hw, ha, hb]
  case divuw => rw [opDivu_toInt _ _ hw, hm, hn]
  case remw => rw [opRem_toInt _ _ hw, ha, hb]
  case remuw => rw [opRemu_toInt, hm, hn]

/-- Settles O26: outside the special cases of `divide` the two results are the truncated quotient and its remainder. -/
theorem quotientAndRemainder : Obligations.QuotientAndRemainder := by
  intro s t u q r rs1 rs2 hq hr hdiv hrem a b quotient remainder hzero hover
  obtain ⟨hwritesQ, -, -, -⟩ := divide s q rs1 rs2
  obtain ⟨-, -, hwritesR, -⟩ := divide s r rs1 rs2
  rw [hdiv, if_neg hzero, if_neg hover] at hwritesQ
  rw [hrem, if_neg hzero, if_neg hover, ← Int.tmod_def] at hwritesR
  have hquotient : quotient = a.tdiv b := signedX_readX_of_writesXSigned hwritesQ hq
  have hremainder : remainder = a.tmod b := signedX_readX_of_writesXSigned hwritesR hr
  rw [hquotient, hremainder]
  refine ⟨(Int.mul_tdiv_add_tmod a b).symm, ?_, mul_tmod_nonneg a b⟩
  rw [Int.natAbs_tmod]
  exact Nat.mod_lt _ (Int.natAbs_pos.mpr hzero)

end Sys2Proof.Machine

/-! Control transfer (44_control). Each instruction is one shared shape with its target or its test: the targets are numbers
modulo `2^XPRLEN`, and a test on two XPRLEN-bit operands is a relation between the numbers in the registers. -/

namespace Sys2Proof.Machine

/-! ## The instructions by shape (R271 to R286) -/

section Shapes

variable (s : State) (rd rs1 rs2 : Reg) (imm : BitVec 12) (off : BitVec 25)

theorem exec_j : exec (.j off) s = .next (s.retireTo (s.pcRelative (jumpOffset s.xlen off))) := rfl

theorem exec_jal : exec (.jal off) s = linkTo 1#5 (s.pcRelative (jumpOffset s.xlen off)) s := rfl

theorem exec_jalrC : exec (.jalrC rd rs1 imm) s = linkTo rd (s.regOffset rs1 imm) s := rfl

theorem exec_jalrR : exec (.jalrR rd rs1 imm) s = linkTo rd (s.regOffset rs1 imm) s := rfl

theorem exec_jalrJ : exec (.jalrJ rd rs1 imm) s = linkTo rd (s.regOffset rs1 imm) s := rfl

theorem exec_rdnpc : exec (.rdnpc rd) s = setRd rd s.nextPc s := rfl

theorem exec_beq : exec (.beq rs1 rs2 imm) s = branch tstEq rs1 rs2 imm s := rfl

theorem exec_bne : exec (.bne rs1 rs2 imm) s = branch tstNe rs1 rs2 imm s := rfl

theorem exec_blt : exec (.blt rs1 rs2 imm) s = branch tstLt rs1 rs2 imm s := rfl

theorem exec_bge : exec (.bge rs1 rs2 imm) s = branch tstGe rs1 rs2 imm s := rfl

theorem exec_bltu : exec (.bltu rs1 rs2 imm) s = branch tstLtu rs1 rs2 imm s := rfl

theorem exec_bgeu : exec (.bgeu rs1 rs2 imm) s = branch tstGeu rs1 rs2 imm s := rfl

end Shapes

/-! ## Links and targets -/

/-- To write `pc + 4` to a register and go on is to link with the next instruction as target. -/
theorem linksTo_of_writesX {s : State} {res : Result} {rd : Reg}
    (h : WritesX s res rd ((s.pcX.toNat + 4) % s.size)) : LinksTo s res rd ((s.pcX.toNat + 4) % s.size) := by
  obtain ⟨t, hres, hvalue, hadvances, hframe⟩ := h
  exact ⟨t, hres, hadvances, hvalue, hframe⟩

theorem writesX_setRd_nextPc (s : State) (rd : Reg) :
    WritesX s (setRd rd s.nextPc s) rd ((s.pcX.toNat + 4) % s.size) :=
  writesX_setRd s rd _ _ (by rw [truncX_nextPc, nextPc_toNat])

/-! ## The tests of two registers, as relations between their numbers -/

section Tests

variable (s : State) (rs1 rs2 : Reg)

theorem tstEq_readX : tstEq s.xlen.width ((s.readX rs1).setWidth _) ((s.readX rs2).setWidth _) =
    decide (s.readX rs1 = s.readX rs2) := by
  rw [tstEq, Bool.beq_eq_decide_eq, decide_eq_decide, setWidth_readX_inj]

theorem tstNe_readX : tstNe s.xlen.width ((s.readX rs1).setWidth _) ((s.readX rs2).setWidth _) =
    decide (s.readX rs1 ≠ s.readX rs2) := by
  rw [tstNe, bne, ← tstEq, tstEq_readX, decide_not]

theorem tstLt_readX : tstLt s.xlen.width ((s.readX rs1).setWidth _) ((s.readX rs2).setWidth _) =
    decide (signedX s.xlen (s.readX rs1) < signedX s.xlen (s.readX rs2)) := signedX_lt s _ _

theorem tstGe_readX : tstGe s.xlen.width ((s.readX rs1).setWidth _) ((s.readX rs2).setWidth _) =
    decide (signedX s.xlen (s.readX rs2) ≤ signedX s.xlen (s.readX rs1)) := by
  rw [tstGe, BitVec.sle_eq_decide, toInt_w, toInt_w]

theorem tstLtu_readX : tstLtu s.xlen.width ((s.readX rs1).setWidth _) ((s.readX rs2).setWidth _) =
    decide ((s.readX rs1).toNat < (s.readX rs2).toNat) := by
  rw [tstLtu, BitVec.ult_eq_decide, setWidth_readX_toNat, setWidth_readX_toNat]

theorem tstGeu_readX : tstGeu s.xlen.width ((s.readX rs1).setWidth _) ((s.readX rs2).setWidth _) =
    decide ((s.readX rs2).toNat ≤ (s.readX rs1).toNat) := by
  rw [tstGeu, BitVec.ule_eq_decide, setWidth_readX_toNat, setWidth_readX_toNat]

end Tests

/-! ## The statements -/

/-- Settles O27: J only moves the pc, RDNPC only writes a register, and JAL and the JALR are `linkTo` with a target computed
from the state before the link is written. -/
theorem jumps : Obligations.Jumps := by
  intro s off rd rs1 imm target indirect
  have htarget := pcRelative_toNat s _ _ (jumpOffset_toNat s off)
  have hindirect : LinksTo s (linkTo rd (s.regOffset rs1 imm) s) rd indirect := linksTo_indirect s rd rs1 imm
  rw [exec_j, exec_jal, exec_rdnpc, exec_jalrC, exec_jalrR, exec_jalrJ]
  refine ⟨?j, ?jal, ?rdnpc, hindirect, hindirect, hindirect⟩
  case j => exact goesTo_retireTo s _ target htarget
  case jal => exact linksTo_linkTo s 1#5 _ target htarget
  case rdnpc => exact linksTo_of_writesX (writesX_setRd_nextPc s rd)

/-- Settles O28: each instruction is `branch` with the test of its relation. -/
theorem branches : Obligations.Branches := by
  intro s rs1 rs2 imm a b target next
  rw [exec_beq, exec_bne, exec_blt, exec_bge, exec_bltu, exec_bgeu]
  exact ⟨goesTo_branch s tstEq rs1 rs2 imm _ (tstEq_readX s rs1 rs2),
    goesTo_branch s tstNe rs1 rs2 imm _ (tstNe_readX s rs1 rs2),
    goesTo_branch s tstLt rs1 rs2 imm _ (tstLt_readX s rs1 rs2),
    goesTo_branch s tstGe rs1 rs2 imm _ (tstGe_readX s rs1 rs2),
    goesTo_branch s tstLtu rs1 rs2 imm _ (tstLtu_readX s rs1 rs2),
    goesTo_branch s tstGeu rs1 rs2 imm _ (tstGeu_readX s rs1 rs2)⟩

end Sys2Proof.Machine

/-! Floating-point computation (45_fp_compute). Each instruction is one shared shape with its operation and its format. What
the operations give for infinities and zeros, and which NaN is returned, are statements about the operations themselves. -/

namespace Sys2Proof.Machine

/-! ## The instructions (R310 to R337) -/

/-! The theorems bear the names of their obligations, two of which name a shape of the model too: hence the namespace. -/

namespace FpInstructions

/-- Settles O40: each instruction is `fpArith` with its operation, in its format. -/
theorem fpArithmetic : Obligations.FpArithmetic := by
  intro s rd rs1 rs2 rm r h
  have rule := fun i op fm => fpArith_rule i op fm s rd rs1 rs2 rm r h
  exact ⟨rule _ ieeeAdd .s, rule _ ieeeSub .s, rule _ ieeeMul .s, rule _ ieeeDiv .s,
    rule _ ieeeAdd .d, rule _ ieeeSub .d, rule _ ieeeMul .d, rule _ ieeeDiv .d⟩

/-- Settles O41: both instructions are `fpSqrt`, in their format. -/
theorem fpSquareRoot : Obligations.FpSquareRoot := by
  intro s rd rs1 rm r h
  exact ⟨fpSqrt_rule _ .s s rd rs1 rm r h, fpSqrt_rule _ .d s rd rs1 rm r h⟩

/-- Settles O42: each instruction is `fpFused` with the signs it changes, of the product and of the addend, in its format. -/
theorem fpFused : Obligations.FpFused := by
  intro s rd rs1 rs2 rs3 rm r h
  have rule := fun i fm negProduct negAddend => fpFused_rule i fm negProduct negAddend s rd rs1 rs2 rs3 rm r h
  exact ⟨⟨rule _ .s false false, rule _ .s false true, rule _ .s true false, rule _ .s true true⟩,
    rule _ .d false false, rule _ .d false true, rule _ .d true false, rule _ .d true true⟩

/-- Settles O43: each instruction is `fpMinMax` for the smaller or the larger operand, in its format. -/
theorem fpMinMax : Obligations.FpMinMax := by
  intro s rd rs1 rs2
  have rule := fun wantMin fm => fpMinMax_rule wantMin fm s rd rs1 rs2
  exact ⟨rule true .s, rule false .s, rule true .d, rule false .d⟩

end FpInstructions

/-! ## Infinities and zeros as operands (R303, R305) -/

section Operands

variable {fm : Fmt} {a : Pattern fm}

theorem isZero_of_isInf (h : isInf a = true) : isZero a = false :=
  Bool.eq_false_iff.2 fun hz => Bool.false_ne_true ((isInf_of_isZero a hz).symm.trans h)

/-- There is one infinity of each sign. -/
theorem eq_infBits_of_isInf (h : isInf a = true) : a = infBits fm (signOf a) := by
  rw [← infinity_eq]
  refine pattern_ext _ _ (signOf_infinity fm _).symm ?_
  rw [(isInf_iff a).1 h, (isInf_iff _).1 (isInf_infinity fm _)]

theorem negate_of_isInf (h : isInf a = true) : negate a = infBits fm (!signOf a) := by
  rw [← signOf_negate]
  exact eq_infBits_of_isInf ((isInf_negate a).trans h)

end Operands

section SpecialOperands

variable (fm dst : Fmt) (t : Tininess) (r : Rounding) {a b c : Pattern fm}

/-! ### Sums -/

theorem ieeeAdd_infinities (ha : isInf a = true) (hb : isInf b = true) :
    ieeeAdd fm t r a b = if signOf a = signOf b then (a, noFlags) else (canonicalBits fm, flagNV) := by
  by_cases hs : signOf a = signOf b <;> simp [ieeeAdd, ha, hb, hs, invalid_eq]

theorem ieeeAdd_infinity_left (ha : isInf a = true) (hb : isInf b = false) : ieeeAdd fm t r a b = (a, noFlags) := by
  simp [ieeeAdd, ha, hb]

theorem ieeeAdd_infinity_right (ha : isInf a = true) (hb : isInf b = false) : ieeeAdd fm t r b a = (a, noFlags) := by
  simp [ieeeAdd, ha, hb]

theorem ieeeSub_infinities (ha : isInf a = true) (hb : isInf b = true) :
    ieeeSub fm t r a b = if signOf a = signOf b then (canonicalBits fm, flagNV) else (a, noFlags) := by
  rw [ieeeSub, ieeeAdd_infinities fm t r ha ((isInf_negate b).trans hb), signOf_negate]
  cases signOf a <;> cases signOf b <;> rfl

theorem ieeeSub_infinity_left (ha : isInf a = true) (hb : isInf b = false) : ieeeSub fm t r a b = (a, noFlags) :=
  ieeeAdd_infinity_left fm t r ha ((isInf_negate b).trans hb)

theorem ieeeSub_infinity_right (ha : isInf a = true) (hb : isInf b = false) :
    ieeeSub fm t r b a = (infBits fm (!signOf a), noFlags) := by
  rw [ieeeSub, ieeeAdd_infinity_right fm t r ((isInf_negate a).trans ha) hb, negate_of_isInf ha]

/-! ### Products -/

theorem ieeeMul_comm (a b : Pattern fm) : ieeeMul fm t r a b = ieeeMul fm t r b a := by
  simp only [ieeeMul, bne_comm (a := signOf a), Bool.and_comm (isInf a), Bool.and_comm (isZero a),
    Bool.or_comm (isInf a), Bool.or_comm (_ && isInf a), Nat.mul_comm (sigOf a), Int.add_comm (expOf a)]

/-- The two factors may be exchanged. -/
theorem ieeeFma_comm (a b c : Pattern fm) : ieeeFma fm t r a b c = ieeeFma fm t r b a c := by
  simp only [ieeeFma, bne_comm (a := signOf a), Bool.and_comm (isInf a), Bool.and_comm (isZero a),
    Bool.or_comm (isInf a), Bool.or_comm (_ && isInf a), Nat.mul_comm (sigOf a), Int.add_comm (expOf a)]

theorem ieeeMul_infinity_zero (ha : isInf a = true) (hb : isZero b = true) :
    ieeeMul fm t r a b = (canonicalBits fm, flagNV) := by
  simp [ieeeMul, ha, hb, invalid_eq]

theorem ieeeMul_infinity (ha : isInf a = true) (hb : isZero b = false) :
    ieeeMul fm t r a b = (infBits fm (signOf a != signOf b), noFlags) := by
  simp [ieeeMul, ha, hb, isZero_of_isInf ha, infinity_eq]

theorem ieeeFma_infinity_zero (c : Pattern fm) (ha : isInf a = true) (hb : isZero b = true) :
    ieeeFma fm t r a b c = (canonicalBits fm, flagNV) := by
  simp [ieeeFma, ha, hb, invalid_eq]

theorem ieeeFma_infinity (c : Pattern fm) (ha : isInf a = true) (hb : isZero b = false) :
    ieeeFma fm t r a b c = if isInf c = true ∧ signOf c ≠ (signOf a != signOf b) then (canonicalBits fm, flagNV)
      else (infBits fm (signOf a != signOf b), noFlags) := by
  simp only [ieeeFma, ha, hb, isZero_of_isInf ha, infinity_eq, invalid_eq, Bool.and_eq_true, bne_iff_ne]
  rfl

theorem ieeeFma_infinite_addend (ha : isInf a = false) (hb : isInf b = false) (hc : isInf c = true) :
    ieeeFma fm t r a b c = (c, noFlags) := by
  simp [ieeeFma, ha, hb, hc]

/-! ### Quotients -/

theorem ieeeDiv_infinities (ha : isInf a = true) (hb : isInf b = true) :
    ieeeDiv fm t r a b = (canonicalBits fm, flagNV) := by
  simp [ieeeDiv, ha, hb, invalid_eq]

theorem ieeeDiv_zeros (ha : isZero a = true) (hb : isZero b = true) :
    ieeeDiv fm t r a b = (canonicalBits fm, flagNV) := by
  simp [ieeeDiv, ha, hb, invalid_eq]

theorem ieeeDiv_infinite_dividend (ha : isInf a = true) (hb : isInf b = false) :
    ieeeDiv fm t r a b = (infBits fm (signOf a != signOf b), noFlags) := by
  simp [ieeeDiv, ha, hb, isZero_of_isInf ha, infinity_eq]

theorem ieeeDiv_infinite_divisor (ha : isInf a = false) (hb : isInf b = true) :
    ieeeDiv fm t r a b = (zeroBits fm (signOf a != signOf b), noFlags) := by
  simp [ieeeDiv, ha, hb, isZero_of_isInf hb, zeroOf_eq]

theorem ieeeDiv_by_zero (ha : isInf a = false) (hz : isZero a = false) (hb : isZero b = true) :
    ieeeDiv fm t r a b = (infBits fm (signOf a != signOf b), flagDZ) := by
  simp [ieeeDiv, ha, hz, hb, isInf_of_isZero b hb, infinity_eq]

/-! ### Roots and conversions -/

theorem ieeeSqrt_negative (hz : isZero a = false) (hs : signOf a = true) :
    ieeeSqrt fm t r a = (canonicalBits fm, flagNV) := by
  simp [ieeeSqrt, hz, hs, invalid_eq]

theorem ieeeSqrt_infinity (ha : isInf a = true) :
    ieeeSqrt fm t r a = if signOf a = true then (canonicalBits fm, flagNV) else (a, noFlags) := by
  simp [ieeeSqrt, ha, isZero_of_isInf ha, invalid_eq]

theorem ieeeConvert_infinity (ha : isInf a = true) :
    ieeeConvert fm dst t r a = (infBits dst (signOf a), noFlags) := by
  rw [ieeeConvert, if_pos ha, infinity_eq]

end SpecialOperands

/-- Settles O55: each clause is the rule of an operation for its special operands. -/
theorem specialOperands : Obligations.SpecialOperands := by
  intro fm dst t r a b c _ _ _ product invalid exactly
  have hsign : (signOf b != signOf a) = product := bne_comm
  refine ⟨fun ha hb => ⟨ieeeAdd_infinities fm t r ha hb, ieeeSub_infinities fm t r ha hb, ieeeDiv_infinities fm t r ha hb⟩,
    fun ha hb => ⟨ieeeAdd_infinity_left fm t r ha hb, ieeeAdd_infinity_right fm t r ha hb,
      ieeeSub_infinity_left fm t r ha hb, ieeeSub_infinity_right fm t r ha hb, ieeeDiv_infinite_dividend fm t r ha hb, ?divisor⟩,
    fun ha => ⟨fun hz => ?timesZero, fun hz => ?times, ieeeSqrt_infinity fm t r ha, ieeeConvert_infinity fm dst t r ha⟩,
    ieeeFma_infinite_addend fm t r, fun _ => ieeeSqrt_negative fm t r, ieeeDiv_zeros fm t r, ieeeDiv_by_zero fm t r,
    eq_infBits_of_isInf⟩
  case divisor => rw [← hsign]; exact ieeeDiv_infinite_divisor fm t r hb ha
  case timesZero =>
    rw [ieeeMul_comm fm t r b a, ieeeFma_comm fm t r b a c]
    have hmul := ieeeMul_infinity_zero fm t r ha hz
    have hfma := ieeeFma_infinity_zero fm t r c ha hz
    exact ⟨hmul, hmul, hfma, hfma⟩
  case times =>
    rw [ieeeMul_comm fm t r b a, ieeeFma_comm fm t r b a c]
    have hmul := ieeeMul_infinity fm t r ha hz
    have hfma := ieeeFma_infinity fm t r c ha hz
    exact ⟨hmul, hmul, List.forall_mem_cons.2 ⟨hfma, List.forall_mem_singleton.2 hfma⟩⟩

/-! ## Which NaN is returned (R306, R307) -/

section NaNs

variable {fm : Fmt}

theorem isSNaN_iff (a : Pattern fm) : isSNaN a = true ↔ isNaN a = true ∧ a.getLsbD (fracBits fm - 1) = false := by
  rw [isSNaN, Bool.and_eq_true, Bool.not_eq_true']

theorem isQNaN_iff (a : Pattern fm) : isQNaN a = true ↔ isNaN a = true ∧ a.getLsbD (fracBits fm - 1) = true := by
  rw [isQNaN, Bool.and_eq_true]

/-- The first signaling operand is returned quieted. -/
theorem nanResult_of_signaling (before after : List (Pattern fm)) {a : Pattern fm} (h : ∀ x ∈ before, isSNaN x = false)
    (ha : isSNaN a = true) : nanResult (before ++ a :: after) = quiet a := by
  have hfind : (before ++ a :: after).find? (isSNaN ·) = some a :=
    List.find?_eq_some_iff_append.2 ⟨ha, before, after, rfl, by simpa using h⟩
  rw [nanResult, hfind]

/-- With no signaling operand the first quiet one is returned as it is. -/
theorem nanResult_of_quiet (before after : List (Pattern fm)) {a : Pattern fm}
    (hs : ∀ x ∈ before ++ a :: after, isSNaN x = false) (h : ∀ x ∈ before, isQNaN x = false) (ha : isQNaN a = true) :
    nanResult (before ++ a :: after) = a := by
  have hnone : (before ++ a :: after).find? (isSNaN ·) = none := List.find?_eq_none.2 (by simpa using hs)
  have hfind : (before ++ a :: after).find? (isQNaN ·) = some a :=
    List.find?_eq_some_iff_append.2 ⟨ha, before, after, rfl, by simpa using h⟩
  rw [nanResult, hnone, hfind]

theorem minMaxNaN_of_signaling_left {a : Pattern fm} (b : Pattern fm) (ha : isSNaN a = true) : minMaxNaN a b = quiet a :=
  if_pos ha

theorem minMaxNaN_of_signaling_right {a b : Pattern fm} (ha : isSNaN a = false) (hb : isSNaN b = true) :
    minMaxNaN a b = quiet b := by
  simp [minMaxNaN, ha, hb]

theorem minMaxNaN_of_not_signaling {a b : Pattern fm} (ha : isSNaN a = false) (hb : isSNaN b = false) :
    minMaxNaN a b = if isQNaN a = true ∧ isQNaN b = false then b else a := by
  cases hqa : isQNaN a <;> cases hqb : isQNaN b <;> simp [minMaxNaN, ha, hb, hqa, hqb]

/-! ## The bits of a NaN (R301) -/

theorem quiet_toNat (a : Pattern fm) : (quiet a).toNat = a.toNat ||| 2 ^ (fracBits fm - 1) := by
  have hlt : 2 ^ (fracBits fm - 1) < 2 ^ widthOf fm := by cases fm <;> decide
  rw [quiet, BitVec.toNat_or, BitVec.toNat_ofNat, Nat.mod_eq_of_lt hlt]

theorem signOf_quiet (a : Pattern fm) : signOf (quiet a) = signOf a := by
  have h : (BitVec.ofNat (widthOf fm) (2 ^ (fracBits fm - 1))).msb = false := by cases fm <;> decide
  rw [signOf, quiet, BitVec.msb_or, h, Bool.or_false, signOf]

theorem magOf_le_magOf_quiet (a : Pattern fm) : magOf a ≤ magOf (quiet a) := by
  rw [magOf, magOf, quiet_toNat, Nat.or_mod_two_pow]
  exact Nat.left_le_or

theorem isQNaN_quiet {a : Pattern fm} (h : isNaN a = true) : isQNaN (quiet a) = true := by
  refine (isQNaN_iff _).2 ⟨?_, ?_⟩
  · exact (isNaN_iff _).2 (((isNaN_iff a).1 h).trans_le (magOf_le_magOf_quiet a))
  · rw [BitVec.getLsbD, quiet_toNat, Nat.testBit_or, Nat.testBit_two_pow_self, Bool.or_true]

/-- A NaN by its exponent and fraction fields. -/
theorem isNaN_iff_fields (a : Pattern fm) : isNaN a = true ↔
    a.extractLsb' (fracBits fm) (expBits fm) = BitVec.allOnes (expBits fm) ∧ a.extractLsb' 0 (fracBits fm) ≠ 0 := by
  have hexp : (a.extractLsb' (fracBits fm) (expBits fm)).toNat = expField a := by
    rw [BitVec.extractLsb'_toNat, Nat.shiftRight_eq_div_pow]; rfl
  have hfrac : (a.extractLsb' 0 (fracBits fm)).toNat = fracField a := BitVec.extractLsb'_toNat ..
  rw [isNaN, Bool.and_eq_true, beq_iff_eq, bne_iff_ne, ← BitVec.toNat_inj, BitVec.toNat_allOnes, hexp, ne_eq, ne_eq,
    ← BitVec.toNat_inj, hfrac]
  rfl

end NaNs

/-- Settles O56: the choice among the operands by what `nanResult` and `minMaxNaN` look for, the bits by the fields of the
format. -/
theorem nanRules : Obligations.NaNRules := by
  refine ⟨fun fm a b c => ⟨fun ha => ?signaling1, fun ha hb => ?signaling2, fun ha hb hc => ?signaling3, fun ha => ?quiet1,
    fun ha hb => ?quiet2, fun ha hb hc => ?quiet3, fun ha hb => ?minMax, fun h => ⟨isQNaN_quiet h, signOf_quiet a⟩⟩,
    fun a => ⟨rfl, isNaN_iff_fields a, isSNaN_iff a, isQNaN_iff a⟩,
    fun a => ⟨rfl, isNaN_iff_fields a, isSNaN_iff a, isQNaN_iff a⟩⟩
  case signaling1 =>
    have hfirst := fun after => nanResult_of_signaling [] after (by simp) ha
    exact ⟨hfirst [b, c], hfirst [b], hfirst [], minMaxNaN_of_signaling_left b ha⟩
  case signaling2 =>
    have hsecond := fun after => nanResult_of_signaling [a] after (by simp [ha]) hb
    exact ⟨hsecond [c], hsecond [], minMaxNaN_of_signaling_right ha hb⟩
  case signaling3 => exact nanResult_of_signaling [a, b] [] (by simp [ha, hb]) hc
  case quiet1 => exact nanResult_of_quiet [] [] (by simp [ha]) (by simp)
  case quiet2 =>
    exact ⟨nanResult_of_quiet [] [b] (by simp [ha, hb]) (by simp),
      fun hqa => nanResult_of_quiet [a] [] (by simp [ha, hb]) (by simp [hqa])⟩
  case quiet3 =>
    exact ⟨nanResult_of_quiet [] [b, c] (by simp [ha, hb, hc]) (by simp),
      fun hqa => nanResult_of_quiet [a] [c] (by simp [ha, hb, hc]) (by simp [hqa]),
      fun hqa hqb => nanResult_of_quiet [a, b] [] (by simp [ha, hb, hc]) (by simp [hqa, hqb])⟩
  case minMax =>
    rw [minMaxNaN_of_not_signaling ha hb]
    exact ⟨fun _ hqb => if_neg (by simp [hqb]), fun hqa hqb => if_pos ⟨hqa, hqb⟩, fun hqa _ => if_neg (by simp [hqa])⟩

end Sys2Proof.Machine

/-! Sign injection, conversion, moves and `fsr` (46_fp_convert_move). Each instruction is a shared shape with its format. -/

namespace Sys2Proof.Machine

/-! ## Sign injection (R362 to R367) -/

/-- A sign bit put before the other bits of a pattern, as a number. -/
theorem ofBool_append_extractLsb'_toNat {w : Nat} (sign : Bool) (a : BitVec w) (k : Nat) :
    (BitVec.ofBool sign ++ a.extractLsb' 0 k).toNat = (if sign then 2 ^ k else 0) + a.toNat % 2 ^ k := by
  rw [append_toNat, BitVec.extractLsb'_toNat, Nat.shiftRight_zero]
  cases sign <;> simp

section SignInjection

variable (s : State) (rd rs1 rs2 : Reg) {fm : Fmt} (withBit : BitVec 1 → Pattern fm)
  (h : ∀ bit, (withBit bit).toNat = (bit ++ (s.readFmt fm rs1).extractLsb' 0 (widthOf fm - 1)).toNat)
include h

/-- A sign injection writes the new sign before the other bits of `rs1`, which is what `withBit` does. -/
theorem writesF_fpSign (sign : Bool → Bool → Bool) :
    WritesF s (fpSign fm sign rd rs1 rs2 s) rd
      (withBit (BitVec.ofBool (sign (signOf (s.readFmt fm rs1)) (signOf (s.readFmt fm rs2))))) noFlags := by
  have hv : ∀ x : Bool, withBit (BitVec.ofBool x) = withSign x (s.readFmt fm rs1) := fun x =>
    BitVec.eq_of_toNat_eq (by rw [h, ofBool_append_extractLsb'_toNat, withSign_toNat])
  rw [hv]
  exact writesF_retire s rd _

/-- The three sign injections of a format, the new sign made of the sign bits of the operands. -/
theorem writesF_signInjections :
    let signBit := fun v : Pattern fm => v.extractLsb' (widthOf fm - 1) 1
    let a := s.readFmt fm rs1
    let b := s.readFmt fm rs2
    WritesF s (fpSign fm (fun _ y => y) rd rs1 rs2 s) rd (withBit (signBit b)) noFlags ∧
    WritesF s (fpSign fm (fun _ y => !y) rd rs1 rs2 s) rd (withBit (~~~signBit b)) noFlags ∧
    WritesF s (fpSign fm (fun x y => x ^^ y) rd rs1 rs2 s) rd (withBit (signBit a ^^^ signBit b)) noFlags := by
  have hbit : ∀ v : Pattern fm, v.extractLsb' (widthOf fm - 1) 1 = BitVec.ofBool (signOf v) := fun v =>
    sign_bit v _ (by cases fm <;> rfl)
  have hnot : ∀ x : Bool, ~~~BitVec.ofBool x = BitVec.ofBool (!x) := by decide
  have hxor : ∀ x y : Bool, BitVec.ofBool x ^^^ BitVec.ofBool y = BitVec.ofBool (x ^^ y) := by decide
  simp only [hbit, hnot, hxor]
  have rule := writesF_fpSign s rd rs1 rs2 withBit h
  exact ⟨rule fun _ y => y, rule fun _ y => !y, rule fun x y => x ^^ y⟩

end SignInjection

/-- Settles O44: each instruction is `fpSign` with the sign it makes of the two, in its format. -/
theorem fpSignInjection : Obligations.FpSignInjection := fun s rd rs1 rs2 =>
  ⟨writesF_signInjections (fm := .s) s rd rs1 rs2 _ fun _ => rfl,
    writesF_signInjections (fm := .d) s rd rs1 rs2 _ fun _ => rfl⟩

/-! ## Between the formats (R370, R371) -/

theorem nanFlags_one {fm : Fmt} (a : Pattern fm) : nanFlags [a] = if isSNaN a = true then flagNV else noFlags := by
  rw [nanFlags, List.any, List.any, flagIf_one]

section Formats

variable (t : Tininess) (r : Rounding)

theorem convertDToS_of_isNaN {a : Pattern .d} (h : isNaN a = true) :
    convertDToS t r a = (nanDToS a, if isSNaN a = true then flagNV else noFlags) := by
  rw [convertDToS, if_pos h, nanFlags_one]

theorem convertDToS_of_not_isNaN {a : Pattern .d} (h : isNaN a = false) :
    convertDToS t r a = ieeeConvert .d .s t r a := if_neg (Bool.eq_false_iff.1 h)

theorem convertSToD_of_isNaN {a : Pattern .s} (h : isNaN a = true) :
    convertSToD t r a = (nanSToD a, if isSNaN a = true then flagNV else noFlags) := by
  rw [convertSToD, if_pos h, nanFlags_one]

theorem convertSToD_of_not_isNaN {a : Pattern .s} (h : isNaN a = false) :
    convertSToD t r a = ((ieeeConvert .s .d t r a).1, noFlags) := if_neg (Bool.eq_false_iff.1 h)

end Formats

section Shapes

variable {s : State} {rm : BitVec 3} {r : Rounding} (h : resolveRm s rm = some r) (rd rs1 : Reg)
include h

theorem exec_fcvtSD : exec (.fcvtSD rd rs1 rm) s = setFd rd (convertDToS s.env.tininess r (s.readF rs1)) s :=
  withRounding_some _ _ _ _ r h

theorem exec_fcvtDS : exec (.fcvtDS rd rs1 rm) s = setFd rd (convertSToD s.env.tininess r (s.readS rs1)) s :=
  withRounding_some _ _ _ _ r h

end Shapes

/-- Settles O45: each instruction writes what its conversion gives, for a NaN and for any other operand. -/
theorem fpConvertFormats : Obligations.FpConvertFormats := by
  intro s rd rs1 rm r h
  rw [exec_fcvtSD h, exec_fcvtDS h]
  refine ⟨⟨fun hn => ?_, fun hn => ?_⟩, fun hn => ?_, fun hn => ?_⟩
  · rw [convertDToS_of_isNaN _ _ hn]; exact writesF_setFd s rd _ _
  · rw [convertDToS_of_not_isNaN _ _ hn]; exact writesF_setFd s rd _ _
  · rw [convertSToD_of_isNaN _ _ hn]; exact writesF_setFd s rd _ _
  · rw [convertSToD_of_not_isNaN _ _ hn]; exact writesF_setFd s rd _ _

/-! ## From an integer (R374 to R382) -/

/-- What a conversion from the integer `n` writes. -/
def WritesFromInt (s : State) (res : Result) (rd : Reg) (fm : Fmt) (r : Rounding) (n : Int) : Prop :=
  WritesFRes s res rd (ieeeFromInt fm s.env.tininess r n) ∧ (n = 0 → WritesF s res rd (0 : Pattern fm) noFlags)

/-- `fpFromInt` with a valid rounding mode, for the integer `n` it reads. -/
theorem writesFromInt_fpFromInt (i : Instr) (fm : Fmt) (width : Nat) (signed : Bool) (s : State) (rd rs1 : Reg)
    (rm : BitVec 3) (r : Rounding) (h : resolveRm s rm = some r) {res : Result} {n : Int}
    (hres : res = fpFromInt i fm width signed rd rs1 rm s)
    (hn : (if signed then ((s.readX rs1).setWidth width).toInt else ((s.readX rs1).setWidth width).toNat) = n) :
    WritesFromInt s res rd fm r n := by
  have hset : res = setFd rd (ieeeFromInt fm s.env.tininess r n) s := by
    rw [hres, fpFromInt, withRounding_some _ _ _ _ r h, ← hn]
  rw [hset]
  refine ⟨writesF_setFd s rd _ _, fun h0 => ?_⟩
  rw [h0, ieeeFromInt_zero]
  exact writesF_setFd s rd _ _

/-- Settles O46: each instruction is `fpFromInt` with its format, width and signedness. -/
theorem intToFp : Obligations.IntToFp := by
  intro s rd rs1 rm r h x lo
  simp only [List.mem_cons, Prod.mk.injEq, List.not_mem_nil, or_false]
  refine ⟨?word, fun hx => ?double⟩
  case word =>
    have rule := fun i fm signed => writesFromInt_fpFromInt i fm 32 signed s rd rs1 rm r h rfl rfl
    rintro fm res n (⟨rfl, rfl, rfl⟩ | ⟨rfl, rfl, rfl⟩ | ⟨rfl, rfl, rfl⟩ | ⟨rfl, rfl, rfl⟩)
    · exact rule _ .s true
    · exact rule _ .s false
    · exact rule _ .d true
    · exact rule _ .d false
  case double =>
    have rule := fun i fm signed =>
      writesFromInt_fpFromInt i fm 64 signed s rd rs1 rm r h (onlyRv64_rv64 i s _ hx) (by rw [BitVec.setWidth_eq])
    rintro fm res n (⟨rfl, rfl, rfl⟩ | ⟨rfl, rfl, rfl⟩ | ⟨rfl, rfl, rfl⟩ | ⟨rfl, rfl, rfl⟩)
    · exact rule _ .s true
    · exact rule _ .s false
    · exact rule _ .d true
    · exact rule _ .d false

/-! ## To an integer (R384 to R392) -/

namespace FpInstructions

/-- Settles O47: each instruction is `fpToX` with its format, width and signedness, whose range is that of the statement. -/
theorem fpToInt : Obligations.FpToInt := by
  intro s rd rs1 rm r h
  have rule := fun i fm width signed he => fpToX_rule i fm width signed s rd rs1 rm r h he _ _ rfl rfl
  exact ⟨rule _ .s 32 true rfl, rule _ .s 32 false rfl, rule _ .d 32 true rfl, rule _ .d 32 false rfl, fun hx =>
    have only := fun i body => onlyRv64_rv64 i s body hx
    ⟨rule _ .s 64 true (only _ _), rule _ .s 64 false (only _ _), rule _ .d 64 true (only _ _),
      rule _ .d 64 false (only _ _)⟩⟩

end FpInstructions

/-! ## Moves of bit patterns (R394 to R397) -/

/-- Settles O48: each instruction is one write of the value it reads. -/
theorem bitMoves : Obligations.BitMoves := by
  intro s rd rs
  refine ⟨writesXSigned_setRd s rd _ _ ?_, writesF_retire (fm := .s) s rd _, fun hx => ⟨?mftxD, ?mxtfD⟩⟩
  · rw [truncX_sextX, sextX_toInt _ _ (word_le_width s.xlen), State.readS, toInt_low]
  case mftxD =>
    rw [show exec (.mftxD rd rs) s = setRd rd (s.readF rs) s from onlyRv64_rv64 _ _ _ hx]
    exact writesX_setRd s rd _ _ (by rw [hx]; rfl)
  case mxtfD =>
    rw [show exec (.mxtfD rd rs) s = .next (s.writeD rd (s.readX rs)).retire from onlyRv64_rv64 _ _ _ hx]
    exact writesF_retire (fm := .d) s rd _

/-! ## The status register (R400, R401) -/

section StatusRegister

variable (s : State) (v : Word)

/-- `fsr` is its rounding mode above its flags. -/
theorem fsr_toNat : s.fsr.toNat = s.fsrRM.toNat * 32 + s.fsrFlags.toNat := by
  have := s.fsr.isLt
  rw [State.fsrRM, State.fsrFlags, BitVec.extractLsb'_toNat, BitVec.extractLsb'_toNat, Nat.shiftRight_eq_div_pow,
    Nat.shiftRight_zero]
  omega

/-- `fsr` fits in a register of either width. -/
theorem truncX_fsrX_toNat (m : Xlen) : (truncX m s.fsrX).toNat = s.fsrRM.toNat * 32 + s.fsrFlags.toNat := by
  have hlt : s.fsr.toNat < 2 ^ m.width :=
    s.fsr.isLt.trans_le (Nat.pow_le_pow_right (by decide) (le_trans (by decide) (word_le_width m)))
  rw [← fsr_toNat, truncX_toNat, State.fsrX, BitVec.toNat_setWidth_of_le (by decide), Nat.mod_eq_of_lt hlt]

theorem writeFsr_fsrRM : (s.writeFsr v).fsrRM = v.extractLsb' 5 3 := by
  ext i hi
  simp [State.fsrRM, State.writeFsr]
  omega

theorem writeFsr_fsrFlags : (s.writeFsr v).fsrFlags = v.extractLsb' 0 5 := by
  ext i hi
  simp [State.fsrFlags, State.writeFsr]
  omega

end StatusRegister

/-- Settles O49: MFFSR is a write of `x[rd]`; so is MTFSR in the state whose `fsr` is written, which has all else as it was. -/
theorem statusRegister : Obligations.StatusRegister := by
  intro s rd rs1 old
  refine ⟨writesX_setRd s rd _ _ (truncX_fsrX_toNat s _), _, rfl, ?value, ?rm, ?flags, ?frame⟩
  case value =>
    rw [setRd_value]
    split
    · rfl
    · exact truncX_fsrX_toNat s _
  case rm =>
    rw [← writeFsr_fsrRM s]
    exact congrArg (BitVec.extractLsb' 5 3) (writeX_fsr (s.writeFsr _) rd _)
  case flags =>
    rw [← writeFsr_fsrFlags s]
    exact congrArg (BitVec.extractLsb' 0 5) (writeX_fsr (s.writeFsr _) rd _)
  case frame =>
    have frame := onlyX_setRd (s.writeFsr (s.readX rs1)) rd s.fsrX
    exact ⟨⟨frame.run.env, frame.run.cycle, frame.run.time⟩, frame.x, frame.f, frame.memory, frame.stale,
      advances_of_eq s _ (writeX_env ..) (writeX_pc ..), frame.retires⟩


/-! ## Conversions that lose nothing (R371, R381, R382, R391, R392) -/

section Exact

variable (fm : Fmt) (t : Tininess) (r : Rounding)

theorem signOf_roundPack (sign : Bool) (m : Nat) (e : Int) : signOf (roundPack fm t r sign m e).1 = sign := by
  by_cases hm : m = 0
  · rw [roundPack, if_pos hm]
    exact signOf_ofSignMag fm sign 0 (Nat.two_pow_pos _)
  · have hX : (0 : ℝ) < m * 2 ^ e := mul_pos (Nat.cast_pos.2 (Nat.pos_of_ne_zero hm)) (rpos e)
    rw [Bool.eq_iff_iff, (roundPack_correct fm t r sign m e _ hm (.inl rfl)).sign, signedR_pos sign _ hX]

/-- A pattern is its sign and its number. -/
theorem eq_of_valueOf_eq {fm : Fmt} {a b : Pattern fm} (hs : signOf a = signOf b) (hv : valueOf a = valueOf b) : a = b := by
  have hunits := mul_right_cancel₀ (two_zpow_pos _).ne' ((valueOf_eq a).symm.trans (hv.trans (valueOf_eq b)))
  have habs := congrArg Int.natAbs (Int.cast_injective hunits)
  rw [natAbs_signedNat, natAbs_signedNat, unitsOf_inj] at habs
  exact pattern_ext a b hs habs

/-- Rounding the number of a pattern, with its sign, gives the pattern back. -/
theorem roundPack_eq_self {fm : Fmt} {d : Pattern fm} (hd : FiniteFp d) {m : Nat} {e : Int}
    (h : (signedNat (signOf d) m : ℚ) * 2 ^ e = valueOf d) : roundPack fm t r (signOf d) m e = (d, noFlags) := by
  obtain ⟨hflags, -, hvalue⟩ := roundPack_value t r (signOf d) m e d hd h
  exact Prod.ext (eq_of_valueOf_eq (signOf_roundPack fm t r _ m e) hvalue) hflags

/-- A significand of at most the format's precision, in its normal range of exponents, is packed without loss. -/
theorem exists_roundPack_eq (sign : Bool) {m : Nat} {e : Int} (hm : m < 2 ^ (fracBits fm + 1))
    (hlow : expMin fm + fracBits fm ≤ e) (hhigh : e + 2 < expMin fm + 2 ^ expBits fm) :
    ∃ d : Pattern fm, roundPack fm t r sign m e = (d, noFlags) ∧ FiniteFp d ∧ signOf d = sign ∧
      valueOf d = (signedNat sign m : ℚ) * 2 ^ e := by
  by_cases h0 : m = 0
  · refine ⟨zeroOf fm sign, by rw [roundPack, if_pos h0], finite_zeroOf fm sign,
      signOf_ofSignMag fm sign 0 (Nat.two_pow_pos _), ?_⟩
    rw [valueOf_zeroOf, h0, (signedNat_zero_iff sign 0).2 rfl, Int.cast_zero, zero_mul]
  · have hlog : Nat.log2 m < fracBits fm + 1 := (Nat.log2_lt h0).2 hm
    obtain ⟨k, hk⟩ : ∃ k : Nat, e + Nat.log2 m - fracBits fm = expMin fm + k :=
      ⟨(e + Nat.log2 m - fracBits fm - expMin fm).toNat, by omega⟩
    have hk2 : ((k + 2 : Nat) : Int) < (2 ^ expBits fm : Nat) := by push_cast; omega
    obtain ⟨d, hpack, hsign, hsig, hexp, hnan, hinf⟩ :=
      roundPack_normal fm t r sign m e h0 (by omega) k hk (by exact_mod_cast hk2)
    refine ⟨d, hpack, ⟨hnan, hinf⟩, hsign, ?_⟩
    rw [valueOf_of_fields fm d m _ e hsig (by rw [hexp]; omega), hsign]

end Exact

section SingleToDouble

variable (t : Tininess) (r r' : Rounding)

theorem signOf_infBits (fm : Fmt) (sign : Bool) : signOf (infBits fm sign) = sign := by
  rw [← infinity_eq, signOf_infinity]

theorem isInf_infBits (fm : Fmt) (sign : Bool) : isInf (infBits fm sign) = true := by
  rw [← infinity_eq, isInf_infinity]

theorem isNaN_of_isInf {fm : Fmt} {a : Pattern fm} (h : isInf a = true) : isNaN a = false := by
  rw [Bool.eq_false_iff, ne_eq, isNaN_iff, (isInf_iff a).1 h]
  exact lt_irrefl _

/-- An infinity is converted to double and back. -/
theorem convertDToS_convertSToD_of_isInf {a : Pattern .s} (h : isInf a = true) :
    convertDToS t r' (convertSToD t r a).1 = (a, noFlags) := by
  have hinf := isInf_infBits .d (signOf a)
  rw [convertSToD_of_not_isNaN t r (isNaN_of_isInf h), ieeeConvert_infinity .s .d t r h,
    convertDToS_of_not_isNaN t r' (isNaN_of_isInf hinf), ieeeConvert_infinity .d .s t r' hinf, signOf_infBits,
    ← eq_infBits_of_isInf h]

/-- A finite single is the number of a double, with the single's sign, which every mode converts back. -/
theorem convertSToD_of_finite {a : Pattern .s} (h : FiniteFp a) :
    valueOf (convertSToD t r a).1 = valueOf a ∧ convertDToS t r' (convertSToD t r a).1 = (a, noFlags) := by
  have hlow : (-149 : Int) ≤ expOf a := expMin_le_expOf a
  have hhigh : expOf a ≤ (127 : Int) - 23 := expOf_le_of_finite a h
  have hsig : sigOf a < 2 ^ 24 := sigOf_lt a
  obtain ⟨d, hpack, hd, hsign, hvalue⟩ := exists_roundPack_eq .d t r (signOf a) (m := sigOf a) (e := expOf a)
    (hsig.trans_le (by decide)) (le_trans (by decide) hlow) (lt_of_le_of_lt (Int.add_le_add_right hhigh 2) (by decide))
  have hdouble : (convertSToD t r a).1 = d := by
    rw [convertSToD_of_not_isNaN t r h.1, ieeeConvert_of_finite .s .d t r a h, hpack]
  rw [hdouble, convertDToS_of_not_isNaN t r' hd.1, ieeeConvert_of_finite .d .s t r' d hd, hsign]
  exact ⟨hvalue, roundPack_eq_self t r' h (by rw [← hsign]; exact hvalue)⟩

end SingleToDouble

section IntegerToDouble

variable {fm : Fmt} {r : Rounding} {a : Pattern fm} {n : Int}

/-- An operand that is an integer is rounded to itself. -/
theorem roundToInteger_of_integer (h : valueOf a = n) : roundToInteger r a = (n, false) := by
  obtain ⟨hround, hinexact⟩ := roundToInteger_spec r a
  rw [h, Rat.cast_intCast] at hround
  have hn : (roundToInteger r a).1 = n := Int.cast_injective (roundsTo_of_grid hround ⟨n, rfl⟩)
  refine Prod.ext hn ?_
  rw [Bool.eq_false_iff, ne_eq, hinexact, hn, h, not_not]

theorem fpToInt_of_integer (lo hi : Int) (ha : FiniteFp a) (h : valueOf a = n) :
    fpToInt lo hi r a = if lo ≤ n ∧ n ≤ hi then (some n, noFlags) else (none, flagNV) := by
  rw [fpToInt, ha.1, ha.2, roundToInteger_of_integer h]
  by_cases hrange : lo ≤ n ∧ n ≤ hi
  · simp [hrange, not_lt.2 hrange.1, not_lt.2 hrange.2, flagIf]
  · rw [if_neg hrange, if_neg (by decide)]
    exact if_pos (by simp; omega)

/-- An integer of fewer than 53 bits is the number of a double. -/
theorem ieeeFromInt_double (t : Tininess) (r : Rounding) (hn : n.natAbs < 2 ^ 53) :
    ∃ d : Pattern .d, ieeeFromInt .d t r n = (d, noFlags) ∧ FiniteFp d ∧ valueOf d = n := by
  obtain ⟨d, hpack, hd, -, hvalue⟩ := exists_roundPack_eq .d t r (decide (n < 0)) (e := 0) hn (by decide) (by decide)
  exact ⟨d, hpack, hd, by rw [hvalue, signedNat_natAbs, zpow_zero, mul_one]⟩

end IntegerToDouble

/-- Settles O57: a single and a word are numbers of a double, which is rounded back to the single, as an integer to itself. -/
theorem exactConversions : Obligations.ExactConversions := by
  refine ⟨fun t r r' a hnan => ?single, fun t r r' n hlo hhi => ?word⟩
  case single =>
    cases hinf : isInf a
    · obtain ⟨hvalue, hback⟩ := convertSToD_of_finite t r r' ⟨hnan, hinf⟩
      exact ⟨fun _ => hvalue, hback⟩
    · exact ⟨by simp, convertDToS_convertSToD_of_isInf t r r' hinf⟩
  case word =>
    obtain ⟨d, hconv, hd, hvalue⟩ := ieeeFromInt_double t r (n := n) (by omega)
    simp only [hconv]
    refine ⟨trivial, hd, hvalue, ?_, ?_⟩
    · rw [fpToInt_of_integer _ _ hd hvalue]; simp only [hlo, true_and]
    · rw [fpToInt_of_integer _ _ hd hvalue]; simp only [hhi, and_true]

end Sys2Proof.Machine

/-! Floating-point compares (47_fp_compare). The instructions are one shape; the comparison of IEEE 754 is one strict order on
patterns, of which the other two relations are made. -/

namespace Sys2Proof.Machine

/-! ## The instructions (R421 to R427) -/

/-- Settles O50: each instruction is `fpCompare` with its relation, FEQ quiet and the others signaling, in its format. -/
theorem fpCompares : Obligations.FpCompares := by
  intro s rd rs1 rs2
  have feq := fun fm => fpCompare_rule false ieeeEq fm s rd rs1 rs2
  have flt := fun fm => fpCompare_rule true ieeeLt fm s rd rs1 rs2
  have fle := fun fm => fpCompare_rule true ieeeLe fm s rd rs1 rs2
  exact ⟨feq .s, flt .s, fle .s, feq .d, flt .d, fle .d⟩

/-! ## The order of the patterns (R421) -/

section Order

variable {fm : Fmt} {a b : Pattern fm}

theorem orderKey_eq (a : Pattern fm) : orderKey a = signedNat (signOf a) (magOf a) := rfl

theorem ieeeLe_eq_not_ieeeLt (a b : Pattern fm) : ieeeLe a b = !ieeeLt b a := by
  rw [ieeeLe, ieeeLt, ← decide_not, decide_eq_decide, not_lt]

theorem ieeeEq_eq_ieeeLe (a b : Pattern fm) : ieeeEq a b = (ieeeLe a b && ieeeLe b a) := by
  rw [Bool.eq_iff_iff, ieeeEq, ieeeLe, ieeeLe, beq_iff_eq, Bool.and_eq_true, decide_eq_true_iff, decide_eq_true_iff,
    ← le_antisymm_iff]

/-- The magnitude orders as the number does, in units of the least subnormal. -/
theorem ieeeLt_iff_valueOf (a b : Pattern fm) : ieeeLt a b = true ↔ valueOf a < valueOf b := by
  rw [valueOf_eq, valueOf_eq, mul_lt_mul_iff_left₀ (two_zpow_pos _), Int.cast_lt, ← signedNat_unitsOf_lt, ieeeLt,
    decide_eq_true_iff, orderKey_eq, orderKey_eq]

theorem ieeeLe_iff_valueOf (a b : Pattern fm) : ieeeLe a b = true ↔ valueOf a ≤ valueOf b := by
  rw [ieeeLe_eq_not_ieeeLt, Bool.not_eq_true', Bool.eq_false_iff, ne_eq, ieeeLt_iff_valueOf, not_lt]

theorem ieeeEq_iff_valueOf (a b : Pattern fm) : ieeeEq a b = true ↔ valueOf a = valueOf b := by
  rw [ieeeEq_eq_ieeeLe, Bool.and_eq_true, ieeeLe_iff_valueOf, ieeeLe_iff_valueOf, ← le_antisymm_iff]

/-- Of two numbers the one of greater magnitude decides by its sign which is less. -/
theorem signedNat_lt_of_greater_left (sa sb : Bool) {m n : Nat} (h : n < m) :
    signedNat sa m < signedNat sb n ↔ sa = true := by
  cases sa <;> cases sb <;> simp [signedNat] <;> omega

theorem signedNat_lt_of_greater_right (sa sb : Bool) {m n : Nat} (h : n < m) :
    signedNat sb n < signedNat sa m ↔ sa = false := by
  cases sa <;> cases sb <;> simp [signedNat] <;> omega

theorem signedNat_lt_of_equal (sa sb : Bool) {m : Nat} (h : 0 < m) :
    signedNat sa m < signedNat sb m ↔ sa = true ∧ sb = false := by
  cases sa <;> cases sb <;> simp [signedNat]
  omega

theorem magOf_lt_infMag (hn : isNaN a = false) (hi : isInf a = false) : magOf a < infMag fm := (finite_iff a).1 ⟨hn, hi⟩

theorem ieeeLt_infinity_left (ha : isInf a = true) (hn : isNaN b = false) (hb : isInf b = false) :
    ieeeLt a b = signOf a := by
  rw [Bool.eq_iff_iff, ieeeLt, decide_eq_true_iff, orderKey_eq, orderKey_eq, (isInf_iff a).1 ha]
  exact signedNat_lt_of_greater_left _ _ (magOf_lt_infMag hn hb)

theorem ieeeLt_infinity_right (ha : isInf a = true) (hn : isNaN b = false) (hb : isInf b = false) :
    ieeeLt b a = !signOf a := by
  rw [Bool.eq_iff_iff, ieeeLt, decide_eq_true_iff, orderKey_eq, orderKey_eq, (isInf_iff a).1 ha, Bool.not_eq_true']
  exact signedNat_lt_of_greater_right _ _ (magOf_lt_infMag hn hb)

theorem ieeeLt_infinities (ha : isInf a = true) (hb : isInf b = true) :
    ieeeLt a b = (signOf a && !signOf b) := by
  have hpos : 0 < infMag fm := by cases fm <;> decide
  rw [Bool.eq_iff_iff, ieeeLt, decide_eq_true_iff, orderKey_eq, orderKey_eq, (isInf_iff a).1 ha, (isInf_iff b).1 hb,
    Bool.and_eq_true, Bool.not_eq_true']
  exact signedNat_lt_of_equal _ _ hpos

end Order

/-- Settles O51: the three relations are read off the strict one, which is that of the numbers, or is decided by the signs of
the infinities. -/
theorem compareIsNumeric : Obligations.CompareIsNumeric := by
  intro fm a b hna hnb
  refine ⟨fun _ _ => ?finite, fun ha hb => ?infinity, fun ha hb => ?infinities⟩
  case finite => exact ⟨ieeeEq_iff_valueOf a b, ieeeLt_iff_valueOf a b, ieeeLe_iff_valueOf a b⟩
  case infinity =>
    simp only [ieeeEq_eq_ieeeLe, ieeeLe_eq_not_ieeeLt, ieeeLt_infinity_left ha hnb hb, ieeeLt_infinity_right ha hnb hb]
    cases signOf a <;> decide
  case infinities =>
    simp only [ieeeEq_eq_ieeeLe, ieeeLe_eq_not_ieeeLt, ieeeLt_infinities ha hb, ieeeLt_infinities hb ha]
    cases signOf a <;> cases signOf b <;> decide

end Sys2Proof.Machine

/-! Fences and the SYSTEM instructions (48_fence, 49_system): each completes in one write, or takes its exception. -/

namespace Sys2Proof.Machine

/-- Settles O58: FENCE only retires, FENCE.I does so in the state in which no byte is stale. -/
theorem fences : Obligations.Fences := by
  intro s ignored
  have frame := onlyPc_retireTo { s with stale := [] } s.nextPc
  exact ⟨goesTo_retire s, _, rfl, rfl, fun k => fetchByte_fresh _ k rfl,
    ⟨frame.run.env, frame.run.cycle, frame.run.time⟩, frame.x, frame.f, frame.fsr, frame.memory,
    retire_advances { s with stale := [] }, frame.retires⟩

/-! ## The counters (R453 to R458) -/

/-- A write of `x[rd]` with the counts moved and draws made leaves the rest as it was. -/
theorem counterRead_frame (s : State) (rd : Reg) (v : Word) (cycle time draws : Nat) :
    let u : State := { s with cycle := cycle, time := time, draws := draws }
    let t := (u.writeX rd v).retire
    SameXBut s t rd ∧ SameF s t ∧ t.fsr = s.fsr ∧ SameMemory s t ∧ t.stale = s.stale ∧ Advances s t ∧ Retires s t := by
  intro u t
  have frame := onlyX_setRd u rd v
  exact ⟨frame.x, frame.f, frame.fsr, frame.memory, frame.stale, advances_of_eq s _ (writeX_env ..) (writeX_pc ..),
    frame.retires⟩

/-- Settles O59: each read is a write of `x[rd]`, for RDCYCLE and RDTIME in the state whose count has advanced. -/
theorem counters : Obligations.Counters := by
  intro s rd
  refine ⟨writesX_setRd s rd _ _ ?instret, ⟨_, rfl, ?cycle⟩, ⟨_, rfl, ?time⟩⟩
  case instret => rw [truncX_truncX, truncX_toNat, size_eq]
  case cycle =>
    rw [retire_cycle, writeX_cycle]
    exact ⟨counter_value _ rd _, le_advance .., fun h => advance_lt _ _ _ h, writeX_env .., writeX_time ..,
      counterRead_frame s rd _ _ s.time _⟩
  case time =>
    rw [retire_time, writeX_time]
    exact ⟨counter_value _ rd _, le_advance .., fun h => advance_lt _ _ _ h, writeX_env .., writeX_cycle ..,
      counterRead_frame s rd _ s.cycle _ _⟩

/-- Settles O60: both instructions are nothing but the raise. -/
theorem syscallAndBreakTrap : Obligations.SyscallAndBreakTrap := fun s => ⟨raise_eq s .syscall, raise_eq s .brk⟩

end Sys2Proof.Machine

/-! Exceptions and reset (60_exceptions, 70_reset_and_hazards): which words are illegal where they are executed, what stops a
step, and the state a run may start from. -/

namespace Sys2Proof.Machine

/-! ## The three ways to be illegal (30_encoding R104, R128, 45_fp_compute R302) -/

section Legality

variable {i : Instr} {m : Xlen} {s : State}

theorem wfXlen_eq_false_iff : i.wfXlen m = false ↔ m = .rv32 ∧ i.rv64Only = true := by
  cases m <;> simp [Instr.wfXlen]

theorem wfShamt_eq_false_iff :
    i.wfShamt m = false ↔ m = .rv32 ∧ ∃ amt, i.shamt6 = some amt ∧ amt.getLsbD 5 = true := by
  unfold Instr.wfShamt
  cases i.shamt6 <;> cases m <;> simp

theorem wfRm_eq_false_iff :
    i.wfRm = false ↔ ∃ rm, i.rmField = some rm ∧ (rm = 0b101#3 ∨ rm = 0b110#3) := by
  unfold Instr.wfRm
  cases i.rmField <;> simp [Classical.or_iff_not_imp_left]

theorem wf_eq_false_iff :
    i.wf m = false ↔ i.wfXlen m = false ∨ i.wfShamt m = false ∨ i.wfRm = false := by
  rw [Instr.wf, Bool.and_eq_false_iff, Bool.and_eq_false_iff, or_assoc]

theorem roundingOf_eq_none_iff (code : BitVec 3) : roundingOf code = none ↔ 5 ≤ code.toNat := by
  revert code; decide

/-- No mode is named by the static codes 101 and 110, nor by a dynamic mode above 100. -/
theorem resolveRm_eq_none_iff (rm : BitVec 3) :
    resolveRm s rm = none ↔ (rm = 0b101#3 ∨ rm = 0b110#3) ∨ (rm = 0b111#3 ∧ 5 ≤ s.fsrRM.toNat) := by
  by_cases hdyn : rm = 0b111#3
  · subst hdyn
    simp [resolveRm_dynamic, roundingOf_eq_none_iff]
  · rw [resolveRm_static s rm hdyn, roundingOf_eq_none_iff]
    simp only [hdyn, false_and, or_false]
    revert rm; decide

/-- A static mode that names none is a fault of the encoding, a dynamic one of `fsr.RM`. -/
theorem illegalIn_iff :
    IllegalIn i s ↔ i.wf s.xlen = false ∨ (i.rmField = some 0b111#3 ∧ 5 ≤ s.fsrRM.toNat) := by
  constructor
  · rintro (hwf | ⟨rm, hrm, hnone⟩)
    · exact .inl hwf
    · rcases (resolveRm_eq_none_iff rm).1 hnone with hstatic | ⟨rfl, hdyn⟩
      · exact .inl (wf_eq_false_iff.2 (.inr (.inr (wfRm_eq_false_iff.2 ⟨rm, hrm, hstatic⟩))))
      · exact .inr ⟨hrm, hdyn⟩
  · rintro (hwf | ⟨hrm, hdyn⟩)
    · exact .inl hwf
    · exact .inr ⟨_, hrm, (resolveRm_eq_none_iff _).2 (.inr ⟨rfl, hdyn⟩)⟩

/-- The 35 rows of RV64 are the instructions whose meaning is guarded by `onlyRv64` (R128). -/
theorem exec_of_rv64Only (hi : i.rv64Only = true) (hx : s.xlen = .rv32) : exec i s = illegal s i := by
  cases i with
  | ld | lwu | sd | amoaddD | amoswapD | amoandD | amoorD | amominD | amomaxD | amominuD | amomaxuD
  | addiw | slliw | srliw | sraiw | addw | subw | sllw | srlw | sraw | mulw | divw | divuw | remw | remuw
  | fcvtSL | fcvtSLU | fcvtDL | fcvtDLU | fcvtLS | fcvtLUS | fcvtLD | fcvtLUD | mxtfD | mftxD =>
    exact onlyRv64_rv32 _ _ _ hx
  | _ => exact absurd hi Bool.false_ne_true

/-- The three shifts by a constant are the instructions with a six-bit amount (R104). -/
theorem exec_of_shamt {amt : BitVec 6} (hi : i.shamt6 = some amt) (h5 : amt.getLsbD 5 = true) (hx : s.xlen = .rv32) :
    exec i s = illegal s i := by
  cases i with
  | slli | srli | srai =>
    cases hi
    exact if_pos ⟨hx, h5⟩
  | _ => cases hi

/-- Every row with a variable `rm` field is guarded by `withRounding`, those of RV64 by `onlyRv64` first (R302). -/
theorem exec_of_rmField {rm : BitVec 3} (hi : i.rmField = some rm) (hnone : resolveRm s rm = none) :
    exec i s = illegal s i := by
  cases i with
  | faddS | fsubS | fmulS | fdivS | fsqrtS | faddD | fsubD | fmulD | fdivD | fsqrtD
  | fmaddS | fmsubS | fnmsubS | fnmaddS | fmaddD | fmsubD | fnmsubD | fnmaddD
  | fcvtSD | fcvtDS | fcvtSW | fcvtSWU | fcvtDW | fcvtDWU | fcvtWS | fcvtWUS | fcvtWD | fcvtWUD =>
    cases hi
    exact withRounding_none _ _ _ _ hnone
  | fcvtSL | fcvtSLU | fcvtDL | fcvtDLU | fcvtLS | fcvtLUS | fcvtLD | fcvtLUD =>
    cases hi
    rcases onlyRv64_cases _ s _ with ⟨-, h⟩ | ⟨-, h⟩
    · exact h.trans (withRounding_none _ _ _ _ hnone)
    · exact h
  | _ => cases hi

theorem exec_of_illegalIn (h : IllegalIn i s) : exec i s = illegal s i := by
  rcases h with hwf | ⟨rm, hrm, hnone⟩
  · rcases wf_eq_false_iff.1 hwf with hxlen | hshamt | hrm
    · obtain ⟨hx, hi⟩ := wfXlen_eq_false_iff.1 hxlen
      exact exec_of_rv64Only hi hx
    · obtain ⟨hx, amt, hamt, h5⟩ := wfShamt_eq_false_iff.1 hshamt
      exact exec_of_shamt hamt h5 hx
    · obtain ⟨rm, hrm, hstatic⟩ := wfRm_eq_false_iff.1 hrm
      exact exec_of_rmField hrm ((resolveRm_eq_none_iff rm).2 (.inl hstatic))
  · exact exec_of_rmField hrm hnone

end Legality

/-! ## What an instruction may come to (R470, R480, R496) -/

theorem holdsAfter_true (i : Instr) (s : State) : HoldsAfter i s fun _ => True := by
  constructor <;> intros <;> trivial

/-- Settles O5: an illegal word traps by the guard of its meaning, and no trap of another kind carries a word. -/
theorem illegalInstructions : Obligations.IllegalInstructions := by
  intro i s isIllegal
  refine ⟨fun h => exec_of_illegalIn (illegalIn_iff.2 h), fun w p hexec => illegalIn_iff.1 ?_⟩
  rcases exec_outcome i (holdsAfter_true i s) with ⟨t, hnext, -⟩ | ⟨e, hraise, hmay⟩
  · cases hnext.symm.trans hexec
  · cases hraise.symm.trans hexec
    exact hmay.2

theorem exec_completes_or_traps (i : Instr) (s : State) : (∃ t, exec i s = .next t) ∨ ∃ e, Traps s (exec i s) e :=
  (exec_outcome i (holdsAfter_true i s)).imp (fun ⟨t, h, _⟩ => ⟨t, h⟩) fun ⟨e, h, _⟩ => ⟨e, h⟩

theorem afterFetch_pcX (s : State) (a : Word) : (s.afterFetch a).pcX = s.pcX := by
  rcases afterFetch_cases s a with h | h <;> rw [h]
  rfl

/-- Settles O10: the step traps at the fetch, or ends as the instruction does, which is at the same pc. -/
theorem stepCompletesOrTraps : Obligations.StepCompletesOrTraps := by
  intro s
  rcases step_cases s with ⟨e, htrap⟩ | ⟨i, -, hexec⟩
  · exact .inr ⟨e, htrap⟩
  · have h := exec_completes_or_traps i (s.afterFetch s.pcX)
    simpa only [Traps, afterFetch_pcX, ← hexec] using h

/-! ## What stops a step before an instruction runs (R484) -/

theorem aligned_of_mod_four {a : Word} (h : a.toNat % 4 = 0) : ¬ a.extractLsb' 0 2 ≠ 0b00#2 :=
  not_not.2 ((lowBits_eq_zero_iff a).2 h)

theorem step_inaccessible (s : State) (hp : s.pcX.toNat % 4 = 0) (ha : s.accessible s.pcX 4 .fetch = false) :
    Traps s (step s) (.accessFault s.pcX .fetch) := by
  simp only [step, if_neg (aligned_of_mod_four hp), ha]
  rfl

theorem step_undecodable (s : State) {e} (hp : s.pcX.toNat % 4 = 0) (ha : s.accessible s.pcX 4 .fetch = true)
    (hd : decode (s.fetchWord s.pcX) = .error e) : Traps s (step s) (.illegalInstruction (s.fetchWord s.pcX)) := by
  simp only [step, if_neg (aligned_of_mod_four hp), if_pos ha, hd]
  rfl

/-- Settles O7: the three tests of `step`, in its order. -/
theorem fetchTraps : Obligations.FetchTraps := fun s =>
  ⟨step_misaligned s, step_inaccessible s, fun hp ha ⟨_, hd⟩ => step_undecodable s hp ha hd⟩

/-! ## Reset (R510) -/

/-- Empty memory and zero in every register and count satisfy each component of the invariant. -/
theorem inv_reset : State.reset.Inv where
  memWf := rfl
  memInSpace := by simp [State.reset]
  staleInSpace := by simp [State.reset]
  staleNodup := List.nodup_nil
  xFits _ _ := rfl
  pcFits := rfl
  instretFits := rfl
  cycleFits _ := by decide
  timeFits _ := by decide

/-- Settles O12: beside the invariant, each value is the one `State.reset` gives. -/
theorem resetInv : Obligations.ResetInv := ⟨inv_reset, rfl, rfl, rfl⟩

end Sys2Proof.Machine
